-- ==== Sys2Proof/Word.lean ====
section
/-! DEFINITION. The words of the Plynaixon M8: registers, lines, code words, addresses and tags, with their plainest
operations. Nothing here depends on the machine. -/
namespace Sys2Proof

/-- A byte of a frame, a line or a sideband transfer. -/
abbrev Byte := BitVec 8

/-- A 32-bit register word (00, Notation). -/
abbrev Word := BitVec 32

/-- A 64-byte line; byte i on bits [8i+7:8i] (R71). -/
abbrev Line := BitVec 512

/-- An 80-byte code word; bit 8s + k is bit k of symbol s (R213). -/
abbrev CodeWord := BitVec 640

/-- A data burst on the pins of a subchannel: bit 40b + p is what pin bit p carries on beat b (R214, R290). -/
abbrev PinBurst := BitVec 640

/-- A line address, CPA[39:6] (R73). -/
abbrev LAddr := BitVec 34

/-- A request tag, 0 to 1,023 (R73). -/
abbrev Tag := BitVec 10

/-- A metadata value, opaque to the block (R76). -/
abbrev Meta := BitVec 16

/-- A channel number, CH0 to CH7 (00, Identifiers). -/
abbrev ChanId := Fin 8

/-- The `w` bits of `n` from bit `lo` up, as a number. -/
def bitsAt (n lo w : Nat) : Nat := (n >>> lo) % 2 ^ w

/-- Bit `i` of `n`. -/
def bitAt (n i : Nat) : Bool := (n >>> i) % 2 == 1

/-- A Boolean as a bit. -/
def b2n (b : Bool) : Nat := if b then 1 else 0

/-- The nearest value of a range (R9): `lo` if below, `hi` if above. -/
def clampTo (lo hi n : Nat) : Nat := if n < lo then lo else if hi < n then hi else n

/-- A counter that stops at its maximum. -/
def satAdd (hi n k : Nat) : Nat := if n + k ≤ hi then n + k else hi

/-- The fields of a register, each a low bit position and a value, added into one word. -/
def packFields : List (Nat × Nat) → Nat
  | [] => 0
  | (lo, v) :: fs => v * 2 ^ lo + packFields fs

/-- A register word from its fields. -/
def mkWord (fs : List (Nat × Nat)) : Word := BitVec.ofNat 32 (packFields fs)

/-- The parity of the low `w` bits of `n`. -/
def parity : Nat → Nat → Bool
  | 0, _ => false
  | w + 1, n => xor (n % 2 == 1) (parity w (n / 2))

/-- The number of set bits among the low `w` bits of `n`. -/
def popCount : Nat → Nat → Nat
  | 0, _ => 0
  | w + 1, n => n % 2 + popCount w (n / 2)

/-- A list of numbers, each below 256, as one little-endian number. -/
def leBytes : List Nat → Nat
  | [] => 0
  | b :: bs => b % 256 + 256 * leBytes bs

/-- The `k` low bytes of `n`, least significant first. -/
def toBytes : Nat → Nat → List Nat
  | 0, _ => []
  | k + 1, n => n % 256 :: toBytes k (n / 256)

end Sys2Proof
end

