-- ==== Sys2Proof/Syntax.lean ====
section
/-! DEFINITION. The commands of the block: one constructor for each row of spec/opcode_table.json, in the table's
order. The table gives its rows no bits, so the operands are typed fields, taken from the layouts of the rules. -/
namespace Sys2Proof

/-- A subchannel of a channel (R2): A is 0, B is 1. -/
inductive Sub where
  | a | b
deriving DecidableEq, Repr

/-- The fields of a request flit besides its opcode (R73). -/
structure ReqFlit where
  tag : Tag
  cls : BitVec 4
  priv : BitVec 2
  spec : Bool
  early : Bool
  laddr : LAddr
  mdnew : Meta
  mdexp : Meta
deriving DecidableEq, Repr

/-- A write-data beat (R71): tag, 64 data bytes, byte enables, poison. -/
structure Beat where
  tag : Tag
  data : Line
  be : BitVec 64
  psn : Bool
deriving DecidableEq, Repr

/-- What the wake store captures: a request flit with its 5-bit opcode, or a beat (R319). -/
inductive Captured where
  | req (opcode : BitVec 5) (f : ReqFlit)
  | beat (b : Beat)
deriving DecidableEq, Repr

/-- A bank named by subchannel, rank, logical rank, bank group and bank index (R154). -/
structure Bank where
  sub : Sub
  rank : Nat
  lrank : Nat
  bg : Nat
  ba : Nat
deriving DecidableEq, Repr

/-- The 20 command classes, in the mask bit order of R153. -/
inductive CmdClass where
  | act | rd | rda | wr | wra | prepb | presb | preab | refab | refsb
  | rfmab | rfmsb | mrw | mrr | mpc | sre | srx | pde | pdx | wrp
deriving DecidableEq, Repr

/-- Which of the two scheduler registers SCHED_CTL_WRITE writes (R150). -/
inductive SchedReg where
  | ctl | urg
deriving DecidableEq, Repr

/-- What the devices of one logical rank report in a temperature poll (R176). -/
inductive TempReading where
  | x1 | x2 | hot
deriving DecidableEq, Repr

/-- What a retrim probe of one data lane returned: for each probed offset, whether the read probe and the write probe
passed (R298, R299). Offsets run from the lowest to the highest, in steps of 4. -/
structure LaneProbe where
  readPass : List Bool
  writePass : List Bool
deriving DecidableEq, Repr

/-- What the SPD read returned (R388): the description of the modules. `moduleType` is a code of the topology section
(R40), or any other number for a kind of module that R3 does not list. `serial` are the manufacturer and serial-number
bytes that enter the tag of R293, and `rcdSpeedN` is the N of the RCD's operating-speed word (R390). -/
structure SpdInfo where
  moduleType : Nat
  dimms : Nat
  ranksPerDimm : Nat
  stack : Nat
  density : Nat
  maxN : Nat
  serial : List Nat
  rcdSpeedN : Nat
  present : BitVec 10
  i2c : Bool
deriving DecidableEq, Repr

/-- The latencies that the sequencer writes at bring-up and in a shift pause (R167, R244). -/
structure Latencies where
  rl : Nat
  wl : Nat
  crcWin : Nat
  parWin : Nat
deriving DecidableEq, Repr

/-- What a training step left (R295, R296): done, with the latencies that the sequencer writes when the step has written the
devices' mode registers (R167), or failed for a lane. -/
inductive StepResult where
  | ok (lat : Option Latencies)
  | failed (sub : Sub) (rank : Nat) (lane : Nat)
deriving DecidableEq, Repr

/-- One line of a self-test pause: the word read and, for a destructive test, the chips that mismatched (R349). -/
structure TestLine where
  word : CodeWord
  mismatch : BitVec 10
deriving DecidableEq, Repr

/-- What the sequencer finished a mailbox request with: the sideband acknowledge and the bytes read (R347). -/
structure SbResult where
  ack : Bool
  bytes : List Nat
deriving DecidableEq, Repr

/-- The values that the sequencer reads from the devices' mode registers at bring-up (R178, R180, R189). -/
structure RfmInfo where
  aboRfm : Nat
  aboDly : Nat
  raammt : Nat
  raaimt : Nat
deriving DecidableEq, Repr

/-- A page with registers of its own: the block page, or a channel page (R395). -/
inductive Page where
  | blk
  | chan (ch : ChanId)
deriving DecidableEq, Repr

/-- The commands of the block, one for each row of spec/opcode_table.json. -/
inductive Instr where
  -- host lane (04)
  | rd (ch : ChanId) (f : ReqFlit)
  | rds (ch : ChanId) (f : ReqFlit)
  | sconf (ch : ChanId) (f : ReqFlit)
  | scan (ch : ChanId) (f : ReqFlit)
  | rdm (ch : ChanId) (f : ReqFlit)
  | rdmu (ch : ChanId) (f : ReqFlit)
  | wr (ch : ChanId) (f : ReqFlit)
  | wrp (ch : ChanId) (f : ReqFlit)
  | wrm (ch : ChanId) (f : ReqFlit)
  | wrx (ch : ChanId) (f : ReqFlit)
  | mdr (ch : ChanId) (f : ReqFlit)
  | mdw (ch : ChanId) (f : ReqFlit)
  | mdcas (ch : ChanId) (f : ReqFlit)
  | flush (ch : ChanId) (f : ReqFlit)
  | badOpcodeRequest (ch : ChanId) (opcode : BitVec 5) (f : ReqFlit)
  | wdatBeat (ch : ChanId) (b : Beat)
  | wakeStoreCapture (ch : ChanId) (c : Captured)
  | responseSend (ch : ChanId)
  | cmpSend (ch : ChanId)
  | flushComplete (ch : ChanId)
  -- scheduler and battens (05, 06)
  | schedulerPlan (ch : ChanId)
  | tailShift (ch : ChanId)
  | bankTimingExpire (ch : ChanId) (b : Bank)
  | urgencyEscalate (ch : ChanId) (seq : Nat)
  | lineCaptured (ch : ChanId) (sub : Sub) (w : PinBurst) (crcOk : Bool)
  | decodeClassify (ch : ChanId) (sub : Sub)
  | mergeComplete (ch : ChanId) (seq : Nat)
  | writeRelease (ch : ChanId) (seq : Nat)
  | patchWriteEnqueue (ch : ChanId)
  | pholdExpire (ch : ChanId) (idx : Fin 32)
  | auditViolation (ch : ChanId) (batten : Fin 128) (cls : CmdClass) (sub : Sub) (rank lrank short : Nat)
  | auditEnable (ch : ChanId)
  | auditHistoryFull (ch : ChanId)
  | schedCtlWrite (ch : ChanId) (reg : SchedReg) (w : Word)
  -- upkeep (07)
  | refreshTick (ch : ChanId) (sub : Sub) (rank lrank : Nat)
  | postponeWrite (ch : ChanId) (w : Word)
  | tempPoll (ch : ChanId) (sub : Sub) (rank lrank : Nat)
  | tempPollResult (ch : ChanId) (sub : Sub) (rank lrank : Nat) (r : TempReading)
  | alertAssert (ch : ChanId) (sub : Sub)
  | backoffRelease (ch : ChanId) (sub : Sub) (rank lrank : Nat)
  | backoffDelayExpire (ch : ChanId) (sub : Sub)
  | zqIntervalExpire (ch : ChanId) (sub : Sub) (rank : Nat)
  | zqcalDone (ch : ChanId) (sub : Sub) (rank : Nat)
  | glideIdleExpire (ch : ChanId) (sub : Sub) (rank : Nat)
  -- Ballast and ripcord (08, 13)
  | ballastWindow
  | ripcordReqRise
  | channelCapped (ch : ChanId)
  | ripcordReqFall
  | rampStep
  -- protection, Slate, Thatcher (09, 10)
  | flipArm (ch : ChanId) (w : Word)
  | flipDisarm (ch : ChanId) (w : Word)
  | chipmarkWrite (ch : ChanId) (w : Word)
  | thatcherInterval (ch : ChanId)
  | thatcherReadPlace (ch : ChanId)
  | thatcherRestart (ch : ChanId) (w : Word)
  | slateInval (ch : ChanId) (idx : Fin 32)
  | slateInvalAll (ch : ChanId) (w : Word)
  | ueRecordRead (ch : ChanId)
  | chipcntRead (ch : ChanId) (sub : Sub) (rank : Fin 8) (q : Fin 3)
  | upkHwmRead (ch : ChanId)
  | xlateFwd (ch : ChanId)
  | xlateRev (ch : ChanId)
  -- Loft (11)
  | loftOpStart (ch : ChanId)
  | loftFillReturn (ch : ChanId)
  | loftEvictEnqueue (ch : ChanId)
  | loftClean (ch : ChanId)
  | loftOpComplete (ch : ChanId)
  | loftOn (ch : ChanId) (w : Word)
  | loftOff (ch : ChanId) (w : Word)
  | wball (ch : ChanId) (w : Word)
  | repair (ch : ChanId) (w : Word)
  | loftRecRead (ch : ChanId)
  -- PHY and trim (12)
  | retrimIntervalExpire (ch : ChanId) (sub : Sub) (rank : Nat)
  | retrimPauseEnd (ch : ChanId) (sub : Sub) (rank : Nat) (probes : List LaneProbe)
  | rateRequestWrite (ch : ChanId) (w : Word)
  | quietAssert (ch : ChanId)
  | pllLock (ch : ChanId)
  | shiftPauseEnd (ch : ChanId) (lat : Latencies)
  | sensorPoll (ch : ChanId) (dimm sensor : Fin 2) (temp : BitVec 12)
  | sensorIbi (ch : ChanId) (dimm sensor : Fin 2) (temp : BitVec 12)
  -- power (13)
  | stateGo (ch : ChanId) (w : Word)
  | drainComplete (ch : ChanId)
  | staggerStepStart (ch : ChanId)
  | transitionComplete (ch : ChanId)
  | tetherSample (ch : ChanId) (readings : List (Option (BitVec 12)))
  | plevelGo (w : Word)
  | clampReached
  | avsAck
  | avsTimeout (regulatorError : Bool)
  | voltageSettled
  | isoRhpAssert (ch : ChanId)
  | isoRhpRelease (ch : ChanId)
  | isoBlkChange (level : Bool)
  -- sequencer, mailboxes, check values (14)
  | mbxInGo (ch : ChanId)
  | mbxRequestServe (ch : ChanId)
  | status (ch : ChanId)
  | sbRead (ch : ChanId)
  | sbWrite (ch : ChanId)
  | selftest (ch : ChanId)
  | selftestAbort (ch : ChanId)
  | zqNow (ch : ChanId)
  | retrim (ch : ChanId)
  | memClear (ch : ChanId)
  | selftestPause (ch : ChanId) (lines : List TestLine)
  | selftestDone (ch : ChanId)
  | clearDone (ch : ChanId)
  | outboundDeliver (ch : ChanId)
  | mbxOutAck (ch : ChanId)
  | legacyGo (ch : ChanId) (w : Word)
  | legacyAck (ch : ChanId) (w : Word)
  | legacyDataAccess (ch : ChanId) (we : Bool) (w : Word)
  | fenceWrite (ch : ChanId) (w : Word)
  | fenceDone (ch : ChanId) (rank : Fin 8)
  | cvStart (ch : ChanId) (w : Word)
  | cvIn (ch : ChanId) (w : Word)
  -- events and counters (15, 17)
  | evqSwap
  | evqLoRead
  | evqHiRead
  | evqFlush
  | clrFatal
  | stickyRead (ch : ChanId)
  | counterAdd
  | cntWhiWrite (p : Page) (w : Word)
  | ovfClr (p : Page) (w : Word)
  | freeze (p : Page) (w : Word)
  | uCntLoRead (n : Fin 9) (i : Fin 16)
  | wideAddrWrite (p : Page) (w : Word)
  -- resets and bring-up (16)
  | pwrRstAssert
  | pwrRstRelease
  | blockReady
  | warmRst
  | chrst (ch : ChanId)
  | resetSequenceEnd (ch : ChanId)
  | spdReadDone (ch : ChanId) (spd : Option SpdInfo)
  | trainingStepDone (ch : ChanId) (r : StepResult)
  | bringUpComplete (ch : ChanId) (lat : Latencies) (rfm : RfmInfo)
  -- Truss loader (02)
  | trussStart
  | trussFrameSubmit (w : Word)
  | trussCommit
  | commitComplete (hclkCount first : Nat) (rest : List Nat)
  | trussAbort
  -- register space (17)
  | registerWrite (addr : BitVec 24) (w : Word)
  | registerRead (addr : BitVec 24)
  | mbxInDone (ch : ChanId) (r : SbResult)
  | vretIoLost (ch : ChanId)
deriving DecidableEq, Repr

end Sys2Proof
end

