-- ==== Sys2Proof/Decode.lean ====
section
/-! DEFINITION. The decoder of the command table. spec/opcode_table.json gives no row any bits (98, the reader's counts:
no row with fixed bits or fields), so no word spells a command: the block receives its commands from its pins and its
register space, not from an instruction stream. -/
namespace Sys2Proof

/-- The command that the `nbits` table bits `w` spell: none, for every word, since no row of the table gives bits. -/
def decodeTableWord (_nbits _w : Nat) : Option Instr := none

end Sys2Proof
end

