-- ==== Sys2Proof/Config.lean ====
section
/-! DEFINITION. What one build of the block fixes, and the values that the spec leaves open. Each constant is opaque:
nothing in Lean can evaluate it, so no statement can rest on a value of it. A value that the spec bounds keeps its
bound where it is used. -/
namespace Sys2Proof.Config

/-- Pad retention is a build option of the macro (R336, R417); log entry 5. -/
opaque padRetention : Bool

/-- HCLK cycles from the capture of a request to its ERR, used modulo 5: "within 4 HCLK" (R99, R92); log entry 6. -/
opaque errDelay : Nat → Nat

/-- A trained trim entry (R295): the firmware that finds it is opaque; log entry 7. -/
opaque trainedTrim : Nat → BitVec 128

/-- The length, in REFCLK cycles, that the sequencer declares for a ZQ or self-test pause, used up to 100 (R349: at most
1 µs); log entry 8. -/
opaque pauseLength : Nat → Nat

/-- The result of the sequencer's check of its own code against the vendor header (R339): the manual gives no rule for
the check; log entry 9. -/
opaque codeCheckOk : List Nat → Bool

/-- The firmware-defined detail of SEQ_FAULT, used modulo 2^16 (R354); log entry 9. -/
opaque seqFaultDetail : Nat → Nat

/-- The pattern that a destructive self-test or a retrim write probe puts on the DQ pins (R298, R349): firmware-defined;
log entry 10. -/
opaque patternWord : Nat → BitVec 640

/-- The RESULT, used as 2 + n modulo 5, of a bring-up that fails because VRET_IO was lost (R417): the manual says only
that it fails; log entry 11. -/
opaque lostResult : Nat → Nat

/-- A strobe or write-data centre that a retrim would move below 0 or above 255 (R299): the field cannot hold the sum;
log entry 14. -/
opaque centreOut : Nat → BitVec 8

/-- The data of the poisoned word on an x8 subchannel under a mark of chip `m` other than 4: undefined (R221); log entry 16. -/
opaque markedPoison : Nat → Line

/-- The write CRC of a burst in pin order, eight bits for each pin nibble (R226, R290): the function is that of the DDR5
standard, which the spec names and does not give; log entry 93. -/
opaque writeCrc : BitVec 640 → BitVec 80

end Sys2Proof.Config
end

