-- ==== Sys2Proof/Machine/State.lean ====
section
/-! DEFINITION. The state of the block as plain data: the common, eight channels, the queue of waiting commands, and the
state after reset. Every record names the rule of spec/ that gives its fields. -/
namespace Sys2Proof.Machine

/-! ### Truss loader and image (02) -/

/-- STATE of BLK_TRUSS_STAT (R46). -/
inductive LoadState where
  | empty | loading | ready | committing | committed | refused
deriving DecidableEq, Repr

/-- A complete section of the open load: identifier, CHMASK and RECORDS of its header, and its body (R38). -/
structure SectLoad where
  id : Nat
  chmask : Nat
  records : Nat
  body : List Nat
deriving DecidableEq, Repr

/-- A section whose LAST frame has not come: its header fields and the body bytes so far (R31, R38). -/
structure OpenSect where
  id : Nat
  chmask : Nat
  layout : Nat
  records : Nat
  bodylen : Nat
  body : List Nat
deriving DecidableEq, Repr

/-- The Truss loader: the registers of R45 to R49, and the load in progress (R29 to R41, R50). `chkReg` is the running
check register of R37; `based` says that a first frame has set the ALIVE base (R32). -/
structure Loader where
  st : LoadState
  accepted : Nat
  fault : Nat
  ign : Bool
  faultFrame : Nat
  faultSection : Nat
  faultChannels : Nat
  crcRej : Nat
  dup : Nat
  chkReg : Nat
  nextAlive : Nat
  based : Bool
  header : Option (List Nat)
  cur : Option OpenSect
  sects : List SectLoad
  lastSection : Nat
  trailer : Nat
  window : List Word
deriving DecidableEq, Repr

/-- The block part of the image in force, after clamping (R52, R56): header payload, the accepted frame count, the
section count, the trailer value, sections 0x06 and 0x07 with defaults, the block routing words, and the HCLK phase of
R21. -/
structure BlkImg where
  header : List Nat
  frames : Nat
  sections : Nat
  trailer : Nat
  levels : List Nat
  wakeOrder : List Nat
  routing : List Nat
  phasePs : Nat
deriving DecidableEq, Repr

/-- A channel's part of the image in force, after clamping, as the section bytes of R40 with the defaults of R43.
`battens` and `maps` hold one number for each record. `code` is the code store (R339). -/
structure ChanImg where
  topo : List Nat
  battens : List Nat
  maps : List Nat
  prot : List Nat
  ballast : List Nat
  phy : List Nat
  code : List Nat
  routing : List Nat
  loft : List Nat
  sched : List Nat
  upk : List Nat
deriving DecidableEq, Repr

/-! ### Host lane (04) -/

/-- Response types (R81). -/
inductive RspType where
  | data | edata | settle | retract | cmp | mdata | err | cred
deriving DecidableEq, Repr

/-- A response that waits for the RSP link (R83). It is ready from HCLK `due` on; `line` is set exactly when
DV is. The last four fields are the request's, for the counter filters of R376 (`req` is its TYPEMASK bit). -/
structure Rsp where
  ty : RspType
  tag : Tag
  status : Nat
  poison : Bool
  mdval : Meta
  line : Option Line
  due : Nat
  cls : Nat
  priv : Nat
  req : Nat
  laddr : LAddr
deriving DecidableEq, Repr

/-- The response flit on the RSP pins, with the credit fields of R80. -/
structure RspFlit where
  rsp : Rsp
  crst : Bool
  rclass : Nat
  rcount : Nat
  wcount : Nat
deriving DecidableEq, Repr

/-- The write opcodes (R75). -/
inductive WrOp where
  | wr | wrp | wrm | wrx
deriving DecidableEq, Repr

/-- The opcodes with a line read (R75). -/
inductive RdOp where
  | rd | rds | rdm | rdmu
deriving DecidableEq, Repr

/-- The opcodes served by the Loft alone (R75). -/
inductive MdOp where
  | mdr | mdw | mdcas
deriving DecidableEq, Repr

/-- A captured write request that waits for its beat, with its place in lane order (R78, R88). -/
structure WaitWr where
  op : WrOp
  f : ReqFlit
  seq : Nat
deriving DecidableEq, Repr

/-- A beat that ingress expects: its tag, and the write it completes; none when the write was answered with ERR, whose
beat is discarded when it comes (R78, R100). -/
structure BeatExp where
  tag : Tag
  wr : Option WaitWr
deriving DecidableEq, Repr

/-- A FLUSH on the lane: its tag, its class, and the sequence numbers of the covered writes whose column commands have
not reached the pins (R92). `answered` is set when its CMP is due. -/
structure FlushRec where
  tag : Tag
  cls : Nat
  seq : Nat
  covers : List Nat
deriving DecidableEq, Repr

/-- One channel lane: credits held by the host (R85), tags in use (R84), expected beats (R78), responses waiting (R83),
completions that fall due (R91), FLUSH records (R92), the CRST state (R86), the HCLK count, the RSP pins (R71), the
isolation of R334 and the wake store of R319. -/
structure Lane where
  held : List Nat
  wheld : Nat
  inUse : List Tag
  beats : List BeatExp
  ready : List Rsp
  cmps : List (Tag × Nat)
  flushes : List FlushRec
  crstDue : Bool
  crstAt : Option Nat
  hclk : Nat
  out : Option RspFlit
  iso : Bool
  wake : List Captured
deriving DecidableEq, Repr

/-! ### Queues (05) -/

/-- A device address (R57). -/
structure Dev where
  bank : Bank
  row : Nat
  col : Nat
deriving DecidableEq, Repr

/-- Decode outcomes, with the codes of R82. -/
inductive Outcome8 where
  | clean | corrSym | corrChip | corrMarked | poison | ue
deriving DecidableEq, Repr

/-- What one decode gave (R217, R218): outcome, the line to deliver, the mask of chips changed and the number of symbols
changed. -/
structure Decoded where
  outcome : Outcome8
  line : Line
  chips : Nat
  nsym : Nat
deriving DecidableEq, Repr

/-- What a read-queue entry serves (R115). -/
inductive RdKind where
  | host (op : RdOp)
  | fill
  | thatcher
deriving DecidableEq, Repr

/-- Where a read stands: waiting for a same-line beat (R109), in its bank list (R118), column command committed, line
captured (R225), decoded into the speculative hold (R93), or waiting for its responses to leave. -/
inductive RdStage where
  | waitBeat | queued | issued | captured | inHold | answered
deriving DecidableEq, Repr

/-- The resolution of an RDS (R94, R95); `na` for every other read. -/
inductive RdsState where
  | na | unresolved | confirmed | cancelled
deriving DecidableEq, Repr

/-- A read-queue entry (R115, R118). `reserved` is its response-buffer line or hold entry (R116), with the index `idx`, and
`fwd` says that the line was forwarded; `pinTime` is the DCLK of its column command on the pins, `colOrd` the commit order of
that command, `origOrd` that of the first one (R251); `retries` is the count of R245. -/
structure RdEntry where
  seq : Nat
  kind : RdKind
  tag : Tag
  cls : Nat
  priv : Nat
  early : Bool
  spec : Bool
  laddr : LAddr
  dev : Dev
  age : Nat
  urg : Nat
  stage : RdStage
  rds : RdsState
  reserved : Bool
  fwd : Bool
  idx : Nat
  pinTime : Nat
  colOrd : Nat
  origOrd : Nat
  word : CodeWord
  edata : Bool
  retries : Nat
  result : Option Decoded
deriving DecidableEq, Repr

/-- The source of a write-queue entry (R115): host write, patch write, poison write-back, Loft eviction or cleaning,
Loft repair, or a metadata line of a memory clear (R263). -/
inductive WrSrc where
  | host | patch | poisonWb | evict | repair | clear
deriving DecidableEq, Repr

/-- A host write held in an entry (several after coalescing, R140), and whether its CMP has been sent (R249). -/
structure HostWr where
  tag : Tag
  op : WrOp
  cls : Nat
  priv : Nat
  seq : Nat
  cmpSent : Bool
deriving DecidableEq, Repr

/-- MERGE of a partial write (R144): not in MERGE, merge read not committed, merge read committed, line merged and leaving in
one KCLK, or waiting for an older entry of the line. -/
inductive MergeSt where
  | no | need | issued | merged | older (seq : Nat)
deriving DecidableEq, Repr

/-- A merge read that has been committed (R144), with the commit order of its column command: none, its line on the way, with
the DCLK of the command on the pins, or its word captured. It runs to its decode also where a full write has taken its entry
out of MERGE (R140, R225). -/
inductive MergeRd where
  | none | issued (ord pin : Nat) | captured (ord : Nat) (w : CodeWord)
deriving DecidableEq, Repr

/-- A write-queue entry with its buffer line (R115, R117). `src` is the source that took the entry; `patchW` and `loftW` say
whether its line comes from a patch write or poison write-back, and whether it holds metadata of the Loft (R140, R275).
`idx` is the number of the entry (R230), and `reached` says that its column command has once reached the pins (R92). `part` keeps
the line and enables of a partial write as they stood before its merge, for a merge read that is replayed (R248). -/
structure WrEntry where
  seq : Nat
  src : WrSrc
  hosts : List HostWr
  cls : Nat
  laddr : LAddr
  dev : Dev
  line : Line
  be : BitVec 64
  psn : Bool
  patchW : Bool
  loftW : Bool
  idx : Nat
  merge : MergeSt
  mread : MergeRd
  committed : Bool
  onPins : Bool
  reached : Bool
  part : Option (Line × BitVec 64)
  pinTime : Nat
  colOrd : Nat
  word : CodeWord
  retries : Nat
  resend : Bool
deriving DecidableEq, Repr

/-- A patch write or poison write-back that waits for a reserved write-queue entry (R241, R243). `colOrd` is the commit
order of the correcting read's column command. -/
structure PatchReq where
  laddr : LAddr
  line : Line
  psn : Bool
  colOrd : Nat
deriving DecidableEq, Repr

/-- Bank states (R120). -/
inductive BankSt where
  | idle | opening | opened | closing | refreshing | paused
deriving DecidableEq, Repr

/-- A bank-state table entry (R119) with the fabric's ROW_LAST (R164) and the activation count of R178. NRD and NWR are
the lengths of the bank's lists: `Chan.nrd` and `Chan.nwr`. -/
structure BankEntry where
  st : BankSt
  row : Nat
  hits : Nat
  ord : Bool
  ordSeq : Nat
  claim : Bool
  spec : Bool
  rowLast : Option Nat
  acts : Nat
deriving DecidableEq, Repr

/-- Levels of the order of need (R26, R129). -/
inductive Level where
  | upkeep | pause | urgent | host | internal
deriving DecidableEq, Repr

/-- What a planned command serves: a read, a write, the merge read of a write, a write-CRC resend, upkeep work, a pause,
or a memory clear. -/
inductive CmdSrc where
  | read (seq : Nat) | write (seq : Nat) | merge (seq : Nat) | resend (seq : Nat) | upkeep | pause | clear
deriving DecidableEq, Repr

/-- A command in the tail, or on its way to the pins: its class, a bank that names its bank set (R153), its row and column
(bit i of `col` is C(i + 4), and C[3:0] is zero, R58), the DCLK in which its first slot drives the pins, its level, what it
serves, whether it is a speculative ACT, and, for a command that serves no request, the retries it stands for (R245). -/
structure Cmd where
  cls : CmdClass
  bank : Bank
  row : Nat
  col : Nat
  time : Nat
  level : Level
  src : CmdSrc
  specAct : Bool
  tries : Nat
deriving DecidableEq, Repr

/-- A command of the sequencer or of the upkeep scheduler that has still to be planned, or planned again, with the retries it
stands for (R245). -/
structure SeqCmd where
  cls : CmdClass
  bank : Bank
  row : Nat
  col : Nat
  tries : Nat
deriving DecidableEq, Repr

/-! ### Batten fabric (06) -/

/-- A hold that stands (R159): its batten, its instance named by a bank of it, and the time it started; none once its
minimum spacing counts as satisfied (R168). -/
structure Hold where
  batten : Nat
  inst : Bank
  start : Option Nat
deriving DecidableEq, Repr

/-- CH_AUDIT_REC while VALID (R171). -/
structure AuditRec where
  batten : Nat
  cls : CmdClass
  sub : Sub
  rank : Nat
  lrank : Nat
  short : Nat
deriving DecidableEq, Repr

/-- The batten fabric and the shadow audit (R164, R169, R171). `hist` is the timestamp file as the committed commands of
the last 16,383 DCLK. The audit keeps a file of its own, filled at the pins: `audHist`, its holds, and its row table: for each
bank the row of its last ACT and whether that row is open. `audHot` is HOT as the audit applies it, and `hotPend` the changes
that it has still to apply, each with its DCLK (R161). `audSince` is the DCLK at which ENABLE was set again (R171), and
`audFound` the violations found and not yet reported. -/
structure Fabric where
  hist : List Cmd
  holds : List Hold
  tset : Nat
  rl : Nat
  wl : Nat
  bld : Nat
  hot : BitVec 8
  auditEn : Bool
  auditReady : Bool
  auditRec : Option AuditRec
  auditCnt : Word
  audHist : List Cmd
  audHolds : List Hold
  audRows : List (Bank × Nat × Bool)
  audHot : BitVec 8
  hotPend : List (Nat × Nat × Bool)
  audSince : Nat
  audFound : List AuditRec
deriving DecidableEq, Repr

/-- The scheduler's own registers and modes (R125, R149): watermarks, thresholds, the direction mode of each
subchannel, whether its DRAIN stands by the watermarks (R125), the merge group of each drain (R144), and the parity
recovery of each subchannel (R248): commits stopped, the logical ranks that PREab has still to reach, and the commands of no
request that are owed again, with their retry counts (R245). -/
structure Sched where
  specOpen : Bool
  bypass : Bool
  wmHigh : Nat
  wmLow : Nat
  thr1 : Nat
  thr2 : Nat
  drainA : Bool
  drainB : Bool
  wmA : Bool
  wmB : Bool
  groupA : List Nat
  groupB : List Nat
  stopA : Bool
  stopB : Bool
  recA : List (Nat × Nat)
  recB : List (Nat × Nat)
  replays : List SeqCmd
deriving DecidableEq, Repr

/-! ### Upkeep (07) -/

/-- A refresh account (R172): its logical rank, its debts (one, or four in same-bank mode), the REFCLK of its next tick,
the limit LP it uses, the limit that waits for a tick or for its debt (R430), the pulled-in refreshes that a pause
admission asked of it (R183), and the debts whose DUE or CURRENT refresh has been chosen (R187). -/
structure Account where
  sub : Sub
  rank : Nat
  lrank : Nat
  debts : List Int
  next : Nat
  lp : Nat
  newLp : Option Nat
  pull : Nat
  chosen : List Nat
deriving DecidableEq, Repr

/-- A rank on a subchannel, as ZQ, Glide, retrim and self-refresh see it: next ZQ due time, ZQ phase (0 none, 1 start pause
asked, 2 calibrating, 3 latch pause asked) and the REFCLK at which tZQCAL ends (R181), idle since
(R184), in Glide, in self-refresh (R185), next retrim (R297), and the flag that its timers restart. -/
structure RankSt where
  sub : Sub
  rank : Nat
  zqNext : Nat
  zqPhase : Nat
  zqAt : Nat
  glide : Bool
  idleSince : Nat
  selfRef : Bool
  retrimNext : Nat
  retrimWide : Bool
  poll1x : List Nat
deriving DecidableEq, Repr

/-- A Per-Row Activation Counting back-off of a subchannel (R180): in progress, the RFMab commands still owed to each
logical rank, the DCLK after which no ACT may reach the pins, the assertion-ignoring delay and the REFCLK at which it
ends, the count since the last event, and the REFCLK of that event. -/
structure Backoff where
  active : Bool
  owed : List (Nat × Nat × Nat)
  actLimit : Nat
  delay : Bool
  delayEnd : Nat
  count : Nat
  lastEv : Option Nat
deriving DecidableEq, Repr

/-- The kinds of pause (R25, R183). -/
inductive PauseKind where
  | retrim | zqStart | zqLatch | selftest | training
deriving DecidableEq, Repr

/-- A pause that has been asked for or admitted (R183): its rank, its declared length in REFCLK cycles, whether it is
widened (R298), whether it runs, the REFCLK at which its hold ends, and the commands it has still to commit, in order. -/
structure Pause where
  kind : PauseKind
  sub : Sub
  rank : Nat
  len : Nat
  wide : Bool
  running : Bool
  endAt : Nat
  cmds : List SeqCmd
deriving DecidableEq, Repr

/-- The upkeep scheduler (R172 to R189). `polls` are the temperature MRRs that have fallen due and `pollNext` the next
due times (R176); `flightAt` is the REFCLK of the entry into Flight and `overRounds` the last poll round in which each rank
raised DRAM_OVERTEMP; `parkRefresh` asks for the refreshes before SRE (R185) and then the
SRE; `wakeSrx` asks for the SRX of every rank. -/
structure Upkeep where
  postpone : Nat
  zqMs : Nat
  accounts : List Account
  ranks : List RankSt
  boA : Backoff
  boB : Backoff
  aboRfm : Nat
  aboDly : Nat
  raammt : Nat
  raaimt : Nat
  aboCnt : Nat
  maxDebt : Nat
  pauses : List Pause
  polls : List (Sub × Nat × Nat)
  pollNext : List (Sub × Nat × Nat × Nat)
  flightAt : Nat
  overRounds : List (Nat × Nat)
  park : Bool
  wake : Bool
deriving DecidableEq, Repr

/-! ### Ballast (08) -/

/-- Live parameters and counts of one class (R190, R191, R194). -/
structure ClassSt where
  minbw : Nat
  lat : Nat
  limit : Nat
  weight : Nat
  early : Bool
  minbwNext : Nat
  weightNext : Nat
  served : Nat
  amin : Nat
  alloc : Nat
  usedNow : Bool
  usedPrev : Bool
  servedPub : Nat
  allocPub : Nat
deriving DecidableEq, Repr

/-- The channel's Ballast (R192 to R209): the window's DATA and WAIT counts, EFF, DB, the mode, the shortfall mask and
the record of its last event, the budget percentage and tokens of R204. `capPend` is the DCLK at which the bursts end
that the report of R205 waits for; `modeReq` is the mode that takes effect at the next window boundary (R201). -/
structure Ballast where
  classes : List ClassSt
  forceShare : Bool
  rankCap : Nat
  mode : Nat
  validRun : Nat
  dataCnt : Nat
  waitCnt : Nat
  dclkCnt : Nat
  eff : Nat
  db : Nat
  short : Nat
  lastMask : Option Nat
  sinceEv : Nat
  pct : Nat
  capped : Bool
  ramp : Bool
  tokA : Nat
  tokB : Nat
  capPend : Option Nat
  modeReq : Nat
deriving DecidableEq, Repr

/-! ### Protection, Slate and Thatcher (09, 10) -/

/-- Chip marks and flip masks (R231, R233). -/
structure Protect where
  markAEn : Bool
  markA : Nat
  markBEn : Bool
  markB : Nat
  flipCount : Nat
  flipRemain : Nat
  flipSrc : Bool
  flipSub : Bool
  flipMode : Nat
  mask : List Word
  armed : List Word
  corrA : Nat
  corrB : Nat
  ueA : Nat
  ueB : Nat
  psnA : Nat
  psnB : Nat
  ibufCorr : Nat
  ibufUe : Nat
deriving DecidableEq, Repr

/-- A Slate entry (R236). `hitOrd` is the commit order of the read of its latest counted hit (R237); `pholdUntil` is the
REFCLK at which PHOLD clears (R242). -/
structure SlateEntry where
  valid : Bool
  persist : Bool
  sub : Sub
  phold : Bool
  pholdUntil : Nat
  priv : Nat
  source : Nat
  hits : Nat
  outcome : Nat
  chips : Nat
  maxsym : Nat
  first : Nat
  last : Nat
  laddr : LAddr
  rank : Nat
  hitOrd : Nat
deriving DecidableEq, Repr

/-- The UE record (R243, R259). -/
structure UeRec where
  valid : Bool
  source : Nat
  sub : Bool
  write : Bool
  missed : Nat
  laddrHi : Nat
  laddrLo : Nat
deriving DecidableEq, Repr

/-- Error control, link counters, the patch logic and the chip counters (R241, R244, R259, R240). `chipCnt` lists the
chip counters that are not zero: subchannel, rank, chip, LINES and SUSPECT. `lastWrite` lists the commit orders of the
column commands of writes, for the lines that the Slate holds or that a read under way names (R237, R241, R251). -/
structure ErrCtl where
  csus : Nat
  pthr : Nat
  retry : Nat
  patch : Bool
  parWin : Nat
  crcWin : Nat
  rcrcCnt : Nat
  wcrcCnt : Nat
  stray : Nat
  replays : Nat
  skip : Nat
  issued : Nat
  notLogged : Nat
  slate : List SlateEntry
  slateIdx : Nat
  ue : UeRec
  chipCnt : List (Sub × Nat × Nat × Nat × Bool)
  patches : List PatchReq
  lastWrite : List (LAddr × Nat)
deriving DecidableEq, Repr

/-- The Thatcher (R252 to R260). `activeRef` counts REFCLK of active time in the pass; `next` is the REFCLK of the next
interval. -/
structure Thatcher where
  enable : Bool
  int : Nat
  owed : Nat
  passes : Nat
  late : Bool
  pos : Nat
  passStart : Nat
  activeAcc : Nat
  next : Nat
deriving DecidableEq, Repr

/-! ### Loft (11) -/

/-- A metadata operation in the Loft (R268). `store`, `compare` and `reply` follow the opcode; internal operations are
the stores of memory clear (R263) and a repair (R282). -/
inductive LoftKind where
  | rdm | rdmu | wrm | mdr | mdw | mdcas | clear (mask : Nat) (value : Meta) | repair
deriving DecidableEq, Repr

/-- Where an operation stands: in the Loft's input, started, waiting for a fill of its metadata line, or executed with
its result (R269, R273). -/
inductive LoftStage where
  | input | started | waitFill | done (ok : Bool) (value : Meta) (poison : Bool)
deriving DecidableEq, Repr

/-- A metadata operation: its place in lane order, tag, class, line, new and expected value. `lineDone` says that the
final line response of its tag has left, which the MDATA of RDM and RDMU waits for, or, for WRM, its CMP (R268); `sent`
that its own response has joined those that wait for the RSP link. -/
structure LoftOp where
  kind : LoftKind
  seq : Nat
  tag : Tag
  cls : Nat
  priv : Nat
  age : Nat
  laddr : LAddr
  mdnew : Meta
  mdexp : Meta
  stage : LoftStage
  lineDone : Bool
  sent : Bool
deriving DecidableEq, Repr

/-- A cached granule (R266): its set, way, granule number, VALUE, VALID (clear while a fill is pending) and DIRTY. -/
structure LoftEntry where
  set : Nat
  way : Nat
  granule : Nat
  value : BitVec 64
  valid : Bool
  dirty : Bool
  doomed : Bool
deriving DecidableEq, Repr

/-- A fill of a metadata line (R273), with the decode result once it has returned; `failed` when its retries are
exhausted. -/
structure LoftFill where
  mdline : LAddr
  seq : Nat
  result : Option Decoded
  failed : Bool
deriving DecidableEq, Repr

/-- An eviction that waits in the eviction buffer (R275): the metadata line, its data and enables, and the granule that
may return from it (R273). -/
structure Evict where
  mdline : LAddr
  line : Line
  be : BitVec 64
  cls : Nat
  granule : Nat
  cleaning : Bool
  psn : Bool
deriving DecidableEq, Repr

/-- CH_LOFT_REC while it holds a line, and its MISSED count (R288). -/
structure LoftRec where
  valid : Bool
  cause : Nat
  missed : Nat
  hi : Nat
  lo : Nat
deriving DecidableEq, Repr

/-- The Loft (R264 to R288). `entries` lists the ways in use, sets and ways strictly rising. `plru` lists the sets whose
15-bit replacement state is not zero. `wball` lists the granules that a write-back has still to visit, `wbBusy` lasts
until its writes are in the write queue (R283), and `closing` writes back and then empties the cache (R264, R284). -/
structure Loft where
  on : Bool
  dirtyMax : Nat
  entries : List LoftEntry
  plru : List (Nat × BitVec 15)
  ops : List LoftOp
  fills : List LoftFill
  evicts : List Evict
  cleanPtr : Nat
  wball : List Nat
  wbBusy : Bool
  closing : Bool
  stalled : Bool
  stalls : Nat
  lost : Nat
  fixLo : Nat
  fixHi : Nat
  mdRec : LoftRec
  lastStallEv : Option Nat
  lastLostEv : Option Nat
deriving DecidableEq, Repr

/-! ### PHY and trim (12) -/

/-- One trim set of the gondola (R292, R293): validity, failure, N, tag, and its entries by subchannel, rank and lane
(15 for the CA lane of a DIMM). -/
structure TrimSet where
  valid : Bool
  failed : Bool
  n : Nat
  tagv : Nat
  entries : List (Sub × Nat × Nat × BitVec 128)
deriving DecidableEq, Repr

/-- Where a shift pause stands (R304, R305): due while another pause holds the channel; steps 1 to 4; step 5, the clocks
stopped; step 6 done, waiting for its step start (R321); steps 7 and 8. -/
inductive ShiftPh where
  | due | prepare | clocks | locked | restart
deriving DecidableEq, Repr

/-- The trim engine and rate control (R297 to R309). `mrw` lists the ranks whose mode registers a shift pause has still to
write (R304, step 3). `modMax` is the module's own maximum N from the last SPD read (R17). -/
structure Trim where
  reqN : Nat
  modMax : Nat
  nCur : Nat
  tsel : Nat
  noset : Bool
  interval : Nat
  sets : List TrimSet
  noPass : Nat
  pauses : Nat
  shift : Option ShiftPh
  shiftTo : Nat
  mrw : List (Sub × Nat)
deriving DecidableEq, Repr

/-- Sideband registers and readings (R309). `pmicOn` says that the PMICs' outputs are enabled and `rcdN` is the N in the RCD's
operating-speed and frequency control words (R304, R307, R390); `started` says that the bus has been started, `noI3c` that a
device has failed to answer in I3C mode, and `i2c` that the bus is in I2C-compatible mode (R306). `therm` lists, for TS0 and TS1 of DIMM 0 and DIMM 1, VALID and TEMP;
`hotOff` says which of them may not raise MODULE_HOT (R308), `silent` in how many consecutive Tethered samples each has not
answered (R323), and `nextPoll` the REFCLK of its next poll. -/
structure Sideband where
  poll : Bool
  rate : Nat
  nacks : Nat
  present : BitVec 10
  i2c : Bool
  noI3c : Bool
  busy : Bool
  started : Bool
  pmicOn : Bool
  rcdN : Nat
  thermHi : Nat
  therm : List (Bool × BitVec 12)
  hotOff : List Bool
  silent : List Nat
  nextPoll : List Nat
deriving DecidableEq, Repr

/-! ### Power (13) -/

/-- Channel states, encoded as TARGET (R337). -/
inductive PState where
  | flight | moored | tethered | grounded
deriving DecidableEq, Repr

/-- Wake sources (R324) with the sensor data that CH_WAKE_SRC shows. -/
structure WakeInfo where
  source : Nat
  dimm : Nat
  sensor : Nat
  temp : Nat
deriving DecidableEq, Repr

/-- A state request (R313, R320). -/
structure PReq where
  tgt : PState
  keep : Bool
  wake : WakeInfo
deriving DecidableEq, Repr

/-- Where a transition stands: draining (R317), writing back the Loft (R284), entering the lower state, waiting for its
stagger slot (R321), waking, bringing up (R388), or in the shift pause of an excursion for a level change (R327). -/
inductive TransPh where
  | drain | writeBack | enter | stagger | waking | bringUp | excursion
deriving DecidableEq, Repr

/-- The transition in progress (R320, R337). -/
structure Trans where
  frm : PState
  req : PReq
  ph : TransPh
deriving DecidableEq, Repr

/-- What the DRAM pins of a channel hold (R333): driven, held at the self-refresh values, RESET_n low, or floating. -/
inductive PinHold where
  | driven | selfRef | resetLow | floating
deriving DecidableEq, Repr

/-- CH_WAKE_SRC (R337). -/
structure WakeRec where
  valid : Bool
  frm : Nat
  info : WakeInfo
deriving DecidableEq, Repr

/-- The channel's power state (R310 to R324). `fatal` is set from a fatal event until a channel reset (R103). `rst` is set
during a reset sequence (R382), with its decision and its record: contents kept (R383), ACT and WLOST (R385). `held` says
that the channel is held in self-refresh (R384), and `readyAt` is the REFCLK at which it became ready for a step start
(R321). -/
structure Power where
  cur : PState
  kept : Bool
  fatal : Bool
  trans : Option Trans
  pend : Option PReq
  target : PState
  keep : Bool
  wakeRec : WakeRec
  period : Nat
  wakeTemp : Nat
  glideIdle : Nat
  tetherNext : Nat
  initDone : Bool
  rst : Bool
  rstKeep : Bool
  rstAct : Nat
  rstWlost : Bool
  held : Bool
  readyAt : Nat
deriving DecidableEq, Repr

/-! ### Sequencer, mailboxes, check values (14) -/

/-- Phases of CH_SEQ_STAT (R355). -/
inductive SeqPhase where
  | stopped | bringUp | training | idle | shift | pause | clear
deriving DecidableEq, Repr

/-- The inbound mailbox: its words and control bits (R341 to R344). `op` is the opcode that the sequencer has dispatched
and not answered, `working` that its execution has begun; `res` lists, for a RETRIM, the lanes without a pass and those
passed on each subchannel so far; `kept` the last executed request's ALIVE and the reply kept for it (R343). -/
structure MbxIn where
  words : List Word
  done : Bool
  busy : Bool
  legacy : Bool
  ovr : Bool
  op : Option Nat
  working : Bool
  res : List (Sub × Nat × Nat)
  kept : Option (Nat × List Word)
deriving DecidableEq, Repr

/-- The outbound mailbox: the words shown, VALID, the queue of messages (opcode, STATUS and payload), the next ALIVE and
the messages dropped (R345). -/
structure MbxOut where
  words : List Word
  valid : Bool
  queue : List (Nat × Nat × List Word)
  alive : Nat
  dropped : Nat
  indexDir : Bool
  index : Nat
deriving DecidableEq, Repr

/-- A self-test in progress (R349, R350): request word 1 as run, the row range, pace, and the results so far. `posA` and
`posB` count the lines visited on each subchannel; `sig` is the running signature; `next` is the REFCLK at which the next
pause falls due. -/
structure SelfTest where
  word1 : Nat
  first : Nat
  last : Nat
  pace : Nat
  seed : Nat
  posA : Nat
  posB : Nat
  fails : Nat
  corrected : Nat
  chips : Nat
  sig : Nat
  firstFail : Option (Nat × Nat)
  abort : Bool
  next : Nat
deriving DecidableEq, Repr

/-- A memory clear in progress (R263, R347): its RANKMASK as run, whether CH_LOFT_CTL.ON was set at its start, the next
line of each subchannel, and the next granule whose internal store has not been placed. -/
structure Clear where
  mask : Nat
  on : Bool
  posA : Nat
  posB : Nat
  gran : Nat
deriving DecidableEq, Repr

/-- The sequencer (R339, R355): running, faulted, the self-test and the memory clear in progress. -/
structure Sequencer where
  run : Bool
  fault : Bool
  test : Option SelfTest
  clear : Option Clear
  fence : BitVec 8
  fenceDone : BitVec 8
deriving DecidableEq, Repr

/-- The check-value unit (R352, R355). -/
structure CvUnit where
  poly : Nat
  init : Nat
  xor : Nat
  reg : Nat
  inbytes : Nat
  refout : Bool
  refin : Bool
  width : Nat
  owner : Bool
deriving DecidableEq, Repr

/-! ### Counters, wide mailbox, translation (15, 17, 03) -/

/-- A performance counter (R372 to R378). `acc` gathers the occurrences since the last RCLK edge. -/
structure Counter where
  value : Nat
  ovf : Bool
  en : Bool
  user : Bool
  submask : Nat
  privmask : Nat
  event : Nat
  classmask : Nat
  chmask : Nat
  range : Nat
  typemask : Nat
  acc : Nat
deriving DecidableEq, Repr

/-- The counters of a page: FREEZE, the staged low word, a load that waits for the RCLK edge (R375), and the two range
register pairs (R378). -/
structure Counters where
  cs : List Counter
  freeze : Bool
  freezeNext : Bool
  wlo : Nat
  load : List (Nat × Nat)
  r0base : Nat
  r0lim : Nat
  r1base : Nat
  r1lim : Nat
  latchLo : Nat
  latchHi : Nat
deriving DecidableEq, Repr

/-- A wide-value mailbox (R403, R404). -/
structure Wide where
  sel : Nat
  pending : Bool
  valid : Bool
  badsel : Bool
  d : List Word
deriving DecidableEq, Repr

/-- The translation registers (R68). -/
structure Xlate where
  cpaLo : Nat
  cpaHi : Nat
  row : Nat
  col : Nat
  sub : Nat
  rank : Nat
  lrank : Nat
  bg : Nat
  ba : Nat
  inrange : Bool
  noexist : Bool
deriving DecidableEq, Repr

/-- CH_BRINGUP (R393) and the bring-up in progress: the sets still to train, the set in training, whether a check of STORED
form follows `step` (R389), whether step 2 has still to run, and, once nothing is left to train, `ready` with the RESULT
that its end will show; `tagv` is the tag that the SPD read gave (R293). `asleep` says that the devices pass through self-refresh on
the way to the next set (R295). -/
structure BringUp where
  done : Bool
  form : Nat
  result : Nat
  step : Nat
  tset : Nat
  time : Nat
  started : Nat
  todo : List Nat
  setNow : Nat
  verify : Bool
  first : Bool
  asleep : Bool
  ready : Bool
  outcome : Nat
  tagv : Nat
deriving DecidableEq, Repr

/-- The DRAM pins of a channel: RESET_n and the held values of R333, whether CK runs (R304), and the command and write burst
last driven on each subchannel, with the write CRC that follows the burst (R226, R290). -/
structure Pins where
  hold : PinHold
  ck : Bool
  caA : Option Cmd
  caB : Option Cmd
  dqA : PinBurst
  dqB : PinBurst
  crcA : BitVec 80
  crcB : BitVec 80
deriving DecidableEq, Repr

/-- The bridge schedules of a channel (R19, R21): for each launching edge of a hyperperiod, the number of the edge of the
destination clock that captures. HCLK to and from KCLK, RCLK to and from KCLK, KCLK to and from DCLK. Empty until a commit
computes them. -/
structure Bridges where
  hk : List Nat
  kh : List Nat
  rk : List Nat
  kr : List Nat
  kd : List Nat
  dk : List Nat
deriving DecidableEq, Repr

/-- An event that a command of the channel raises: local number and information field (R356). -/
structure EvReq where
  loc : Nat
  info : Nat
deriving DecidableEq, Repr

/-- A qualifying occurrence for the counters (R376): event code, how many, and the request or subchannel it carries. -/
structure Occ where
  code : Nat
  n : Nat
  sub : Nat
  cls : Nat
  priv : Nat
  ty : Nat
  laddr : Nat
  req : Bool
deriving DecidableEq, Repr

/-- A stored word of an internal store whose bits have changed (R230): the store (0 write buffer, 1 response buffer, 2
speculative hold, 3 Loft data word, 4 Loft tag word), the entry it belongs to (a sequence number, a granule, or a way), the
word within the entry (8 is the enable word of a write-buffer line), and the wrong bits of the stored 79-bit word: data in
bits [63:0], check bits above. No command makes one: the spec gives no rule for when internal upsets happen (log entry
12). -/
structure Upset where
  store : Nat
  key : Nat
  word : Nat
  mask : Nat
deriving DecidableEq, Repr

/-- One channel. `evOut` and `occ` are the model's own: the events and the counter occurrences of the command under way,
empty between commands. `free` numbers the free values used so far (the model's own). -/
structure Chan where
  img : Option ChanImg
  power : Power
  pins : Pins
  lane : Lane
  rq : List RdEntry
  wq : List WrEntry
  nextSeq : Nat
  commitOrd : Nat
  banks : List (Bank × BankEntry)
  tail : List Cmd
  dclk : Nat
  kclk : Nat
  fab : Fabric
  sched : Sched
  upk : Upkeep
  bal : Ballast
  prot : Protect
  err : ErrCtl
  th : Thatcher
  loft : Loft
  trim : Trim
  sb : Sideband
  mbxIn : MbxIn
  mbxOut : MbxOut
  seqr : Sequencer
  cv : CvUnit
  cnt : Counters
  wide : Wide
  xl : Xlate
  bring : BringUp
  bridges : Bridges
  upsets : List Upset
  evOut : List EvReq
  occ : List Occ
  free : Nat
deriving DecidableEq, Repr

/-! ### The common (01, 13, 15, 16) -/

/-- An event record (R360) with its routing, fixed when it is raised (R368): 0 none, 1 IRQ_EVT, 2 IRQ_URG. -/
structure Record where
  ident : Nat
  sev : Nat
  time : Nat
  info : Nat
  route : Nat
deriving DecidableEq, Repr

/-- The event queue, the interrupt registers and the channels' sticky registers (R361 to R371). `sticky` holds SEV in
bits [4:0], LOST in [8] and FATAL in [16] for each channel. -/
structure Events where
  filling : List Record
  draining : List Record
  latched : Option Record
  dropped : Nat
  urgEn : Bool
  evtEn : Bool
  fatal : Bool
  fatalCh : Nat
  sticky : List Nat
deriving DecidableEq, Repr

/-- Where a level change stands (R326): lowering clamps, AVSBus frame, settle wait. -/
inductive LevelPh where
  | shifting | avs (repeated : Bool) | settle
deriving DecidableEq, Repr

/-- The level sequencer, AVSBus master and ripcord interface (R325 to R336). The clamps are the live maximum N for MRDIMM
and for RDIMM. `started` is the REFCLK of the start of the change, `avsAt` that of the AVSBus frame. -/
structure Levels where
  cur : Nat
  target : Nat
  change : Option (Nat × LevelPh)
  pend : Option Nat
  fail : Bool
  noset : Bool
  volt : Nat
  clampMr : Nat
  clampRd : Nat
  slew : Nat
  div : Nat
  rail : Nat
  avsErrors : Nat
  lastOk : Bool
  avsMv : Nat
  timeout : Nat
  started : Nat
  avsAt : Nat
  settleAt : Nat
  ripCap : Nat
  ripStep : Nat
  ripCount : Nat
  ripLat : Nat
  ripReq : Bool
  ripAck : Bool
  ripRise : Nat
  ripNext : Nat
  capNow : Nat
deriving DecidableEq, Repr

/-- A management transaction (R112). -/
structure MgtTxn where
  we : Bool
  addr : BitVec 24
  data : Word
deriving DecidableEq, Repr

/-- The management lane: the transaction it holds (R400), the channel whose REPAIR it waits for (R282), and its latest
response, bus error and read data (R112). -/
structure Mgt where
  held : Option MgtTxn
  repair : Option ChanId
  rspV : Bool
  rspErr : Bool
  rdata : Word
deriving DecidableEq, Repr

/-- Reset control (R380 to R385, R394): PWR_RST_n low, READY, a warm reset in progress, and BLK_RESET_REC. -/
structure ResetCtl where
  pwrLow : Bool
  ready : Bool
  warm : Bool
  warmLeft : List ChanId
  resetRec : Word
  wakeV : Bool
  wakeCh : Nat
  wakeSrc : Nat
  isoBlk : Bool
  lastStep : Option Nat
deriving DecidableEq, Repr

/-- The block. `pending` is the queue of waiting commands, first in, first out. `now` counts REFCLK cycles; the timestamp
counts from `tsBase` (R360). `rclk` counts RCLK edges, and `winNext` is the REFCLK of the next window boundary (R191). -/
structure State where
  pending : List Instr
  chans : Vector Chan 8
  img : Option BlkImg
  loader : Loader
  lvl : Levels
  ev : Events
  cnt : Counters
  wide : Wide
  mgt : Mgt
  rst : ResetCtl
  tsBase : Nat
  now : Nat
  rclk : Nat
  winNext : Nat
deriving DecidableEq, Repr

/-- The reasons for which the block's behaviour is undefined in the spec and no next state exists. Raised by the
management-lane commands only. SAFE: the machine stops where the spec states no behaviour. -/
inductive Fault where
  /-- A management transaction presented while another is outstanding (R113, R11). Raised by every management-lane
  command. Safe. -/
  | mgtOverlap
deriving DecidableEq, Repr

/-- The refusals. -/
inductive Refusal where
  /-- An instruction the model gives no meaning, named by its mnemonic. Raised by exec's refused arms only. Safe. -/
  | notModelled (mnemonic : String)
deriving DecidableEq, Repr

/-! ### The state after reset

Each record below is the register reset values of its rules; a value that the spec does not state is named in the
assumption log. -/

namespace Reset

def loader : Loader :=
  { st := .empty, accepted := 0, fault := 0, ign := false, faultFrame := 0, faultSection := 0, faultChannels := 0,
    crcRej := 0, dup := 0, chkReg := 0, nextAlive := 0, based := false, header := none, cur := none, sects := [],
    lastSection := 0, trailer := 0, window := List.replicate 16 0 }

def lane : Lane :=
  { held := List.replicate 16 0, wheld := 0, inUse := [], beats := [], ready := [], cmps := [], flushes := [],
    crstDue := false, crstAt := none, hclk := 0, out := none, iso := false, wake := [] }

def fabric : Fabric :=
  { hist := [], holds := [], tset := 0, rl := 0, wl := 0, bld := 0, hot := 0, auditEn := true, auditReady := true,
    auditRec := none, auditCnt := 0, audHist := [], audHolds := [], audRows := [], audHot := 0, hotPend := [],
    audSince := 0, audFound := [] }

def sched : Sched :=
  { specOpen := true, bypass := true, wmHigh := 96, wmLow := 48, thr1 := 50, thr2 := 90, drainA := false,
    drainB := false, wmA := false, wmB := false, groupA := [], groupB := [], stopA := false, stopB := false,
    recA := [], recB := [], replays := [] }

def backoff : Backoff :=
  { active := false, owed := [], actLimit := 0, delay := false, delayEnd := 0, count := 0, lastEv := none }

def upkeep : Upkeep :=
  { postpone := 4, zqMs := 128, accounts := [], ranks := [], boA := backoff, boB := backoff, aboRfm := 0, aboDly := 0,
    raammt := 0, raaimt := 0, aboCnt := 0, maxDebt := 0, pauses := [], polls := [], pollNext := [], flightAt := 0,
    overRounds := [], park := false,
    wake := false }

def classSt (c : Nat) : ClassSt :=
  { minbw := 0, lat := 1000, limit := 1024, weight := 1, early := c != 15, minbwNext := 0, weightNext := 1, served := 0,
    amin := 0, alloc := 0, usedNow := false, usedPrev := false, servedPub := 0, allocPub := 0 }

def ballast : Ballast :=
  { classes := (List.range 16).map classSt, forceShare := false, rankCap := 50, mode := 1, validRun := 0, dataCnt := 0,
    waitCnt := 0, dclkCnt := 0, eff := 850, db := 0, short := 0, lastMask := none, sinceEv := 0, pct := 100,
    capped := false, ramp := false, tokA := 1024, tokB := 1024, capPend := none, modeReq := 0 }

def protect : Protect :=
  { markAEn := false, markA := 0, markBEn := false, markB := 0, flipCount := 1, flipRemain := 0, flipSrc := false,
    flipSub := false, flipMode := 0, mask := List.replicate 20 0, armed := List.replicate 20 0, corrA := 0, corrB := 0,
    ueA := 0, ueB := 0, psnA := 0, psnB := 0, ibufCorr := 0, ibufUe := 0 }

def slateEntry : SlateEntry :=
  { valid := false, persist := false, sub := .a, phold := false, pholdUntil := 0, priv := 0, source := 0, hits := 0,
    outcome := 0, chips := 0, maxsym := 0, first := 0, last := 0, laddr := 0, rank := 0, hitOrd := 0 }

def ueRec : UeRec :=
  { valid := false, source := 0, sub := false, write := false, missed := 0, laddrHi := 0, laddrLo := 0 }

def errCtl : ErrCtl :=
  { csus := 8, pthr := 4, retry := 4, patch := true, parWin := 0, crcWin := 0, rcrcCnt := 0, wcrcCnt := 0, stray := 0,
    replays := 0, skip := 0, issued := 0, notLogged := 0, slate := List.replicate 32 slateEntry, slateIdx := 0,
    ue := ueRec, chipCnt := [], patches := [], lastWrite := [] }

def thatcher : Thatcher :=
  { enable := false, int := 0xFFFF, owed := 0, passes := 0, late := false, pos := 0, passStart := 0, activeAcc := 0,
    next := 0 }

def loftRec : LoftRec := { valid := false, cause := 0, missed := 0, hi := 0, lo := 0 }

def loft : Loft :=
  { on := false, dirtyMax := 16384, entries := [], plru := [], ops := [], fills := [], evicts := [], cleanPtr := 0,
    wball := [], wbBusy := false, closing := false, stalled := false, stalls := 0, lost := 0, fixLo := 0, fixHi := 0, mdRec := loftRec,
    lastStallEv := none, lastLostEv := none }

def trimSet : TrimSet := { valid := false, failed := false, n := 0, tagv := 0, entries := [] }

def trim : Trim :=
  { reqN := 24, modMax := 64, nCur := 0, tsel := 0, noset := false, interval := 64, sets := List.replicate 4 trimSet, noPass := 0,
    pauses := 0, shift := none, shiftTo := 0, mrw := [] }

def sideband : Sideband :=
  { poll := true, rate := 0, nacks := 0, present := 0, i2c := false, noI3c := false, busy := false, started := false, pmicOn := false,
    rcdN := 0, thermHi := 85,
    therm := List.replicate 4 (false, 0), hotOff := List.replicate 4 false, silent := List.replicate 4 0,
    nextPoll := List.replicate 4 0 }

def wakeInfo : WakeInfo := { source := 0, dimm := 0, sensor := 0, temp := 0 }

def power : Power :=
  { cur := .grounded, kept := false, fatal := false, trans := none, pend := none, target := .grounded, keep := true,
    wakeRec := { valid := false, frm := 0, info := wakeInfo }, period := 10, wakeTemp := 85, glideIdle := 100,
    tetherNext := 0, initDone := false, rst := false, rstKeep := false,
    rstAct := 0, rstWlost := false, held := false, readyAt := 0 }

def mbxIn : MbxIn :=
  { words := List.replicate 16 0, done := false, busy := false, legacy := false, ovr := false, op := none,
    working := false, res := [], kept := none }

def mbxOut : MbxOut :=
  { words := List.replicate 16 0, valid := false, queue := [], alive := 0, dropped := 0, indexDir := false, index := 0 }

def sequencer : Sequencer :=
  { run := false, fault := false, test := none, clear := none, fence := 0, fenceDone := 0 }

def cvUnit : CvUnit :=
  { poly := 0, init := 0, xor := 0, reg := 0, inbytes := 4, refout := false, refin := false, width := 1,
    owner := false }

def counter : Counter :=
  { value := 0, ovf := false, en := false, user := false, submask := 3, privmask := 15, event := 0,
    classmask := 0xFFFF, chmask := 0xFF, range := 0, typemask := 0x3FF, acc := 0 }

def counters (n : Nat) : Counters :=
  { cs := List.replicate n counter, freeze := false, freezeNext := false, wlo := 0, load := [],
    r0base := 0, r0lim := 0, r1base := 0, r1lim := 0, latchLo := 0, latchHi := 0 }

def wide : Wide := { sel := 0, pending := false, valid := false, badsel := false, d := List.replicate 4 0 }

def xlate : Xlate :=
  { cpaLo := 0, cpaHi := 0, row := 0, col := 0, sub := 0, rank := 0, lrank := 0, bg := 0, ba := 0, inrange := false,
    noexist := false }

def bringUp : BringUp :=
  { done := false, form := 0, result := 0, step := 0, tset := 0, time := 0, started := 0, todo := [], setNow := 0,
    verify := false, first := true, asleep := false, ready := false, outcome := 0, tagv := 0 }

def bridges : Bridges := { hk := [], kh := [], rk := [], kr := [], kd := [], dk := [] }

def pins : Pins :=
  { hold := .floating, ck := false, caA := none, caB := none, dqA := 0, dqB := 0, crcA := 0, crcB := 0 }

/-- A channel after a cold reset: Grounded, down, without an image. -/
def chan : Chan :=
  { img := none, power := power, pins := pins, lane := lane, rq := [], wq := [], nextSeq := 0, commitOrd := 0,
    banks := [], tail := [], dclk := 0, kclk := 0, fab := fabric, sched := sched, upk := upkeep, bal := ballast,
    prot := protect, err := errCtl, th := thatcher, loft := loft, trim := trim, sb := sideband, mbxIn := mbxIn,
    mbxOut := mbxOut, seqr := sequencer, cv := cvUnit, cnt := counters 16, wide := wide, xl := xlate,
    bring := bringUp, bridges := bridges, upsets := [], evOut := [], occ := [], free := 0 }

def events : Events :=
  { filling := [], draining := [], latched := none, dropped := 0, urgEn := true, evtEn := true, fatal := false,
    fatalCh := 0, sticky := List.replicate 8 0 }

def levels : Levels :=
  { cur := 3, target := 3, change := none, pend := none, fail := false, noset := false, volt := 0, clampMr := 24,
    clampRd := 24, slew := 10, div := 5, rail := 0, avsErrors := 0, lastOk := false, avsMv := 0, timeout := 100,
    started := 0, avsAt := 0, settleAt := 0, ripCap := 25, ripStep := 10, ripCount := 0, ripLat := 0, ripReq := false,
    ripAck := false, ripRise := 0, ripNext := 0, capNow := 25 }

def mgt : Mgt := { held := none, repair := none, rspV := false, rspErr := false, rdata := 0 }

def resetCtl : ResetCtl :=
  { pwrLow := true, ready := false, warm := false, warmLeft := [], resetRec := 0, wakeV := false, wakeCh := 0,
    wakeSrc := 0, isoBlk := false, lastStep := none }

end Reset

/-- The block as a cold reset leaves it (R380, R381): PWR_RST_n low, no image, every channel Grounded, every register
at its reset value, no command waiting. -/
def State.reset : State :=
  { pending := [], chans := Vector.replicate 8 Reset.chan, img := none, loader := Reset.loader, lvl := Reset.levels,
    ev := Reset.events, cnt := Reset.counters 8, wide := Reset.wide, mgt := Reset.mgt, rst := Reset.resetCtl,
    tsBase := 0, now := 0, rclk := 0, winNext := 400 }

end Sys2Proof.Machine
end

