-- ==== Sys2Proof/Machine/Ops.lean ====
section
/-! DEFINITION. The named operations over the state that every family shares: channels and time, sparse tables, events
and counters, one channel's step, and the management lane's hold and response. -/
namespace Sys2Proof

/-- 0 for A, 1 for B (R6, 00 Identifiers). -/
def Sub.num : Sub → Nat
  | .a => 0
  | .b => 1

/-- The other subchannel. -/
def Sub.other : Sub → Sub
  | .a => .b
  | .b => .a

/-- The bit position of a command class in the masks of R153. -/
def CmdClass.num : CmdClass → Nat
  | .act => 0 | .rd => 1 | .rda => 2 | .wr => 3 | .wra => 4 | .prepb => 5 | .presb => 6 | .preab => 7
  | .refab => 8 | .refsb => 9 | .rfmab => 10 | .rfmsb => 11 | .mrw => 12 | .mrr => 13 | .mpc => 14
  | .sre => 15 | .srx => 16 | .pde => 17 | .pdx => 18 | .wrp => 19

/-- A column command. -/
def CmdClass.isCol (k : CmdClass) : Bool := k == .rd || k == .rda || k == .wr || k == .wra

/-- Precharges, without auto-precharge. -/
def CmdClass.isPre (k : CmdClass) : Bool := k == .prepb || k == .presb || k == .preab

/-- CA cycles of a command: the classes that the DDR5 standard gives two cycles (log entry 13). -/
def CmdClass.cycles : CmdClass → Nat
  | .act | .rd | .rda | .wr | .wra | .mrw | .mrr | .wrp => 2
  | _ => 1

/-- A class stands in a mask. -/
def CmdClass.inMask (k : CmdClass) (m : Nat) : Bool := bitAt m k.num

/-- A class that changes the state of the banks it covers. -/
def CmdClass.isRow (k : CmdClass) : Bool :=
  match k with
  | .act | .rda | .wra | .prepb | .presb | .preab | .refab | .refsb | .rfmab | .rfmsb | .sre => true
  | _ => false

/-- The number of a logical rank within its subchannel: rank, then logical rank (R173, R187). -/
def Bank.lkey (b : Bank) : Nat := b.rank * 8 + b.lrank

/-- The order of banks in the bank-state table. -/
def Bank.key (b : Bank) : Nat := (((b.sub.num * 8 + b.rank) * 8 + b.lrank) * 8 + b.bg) * 4 + b.ba

end Sys2Proof

namespace Sys2Proof.Machine

/-- The outcome of a command. -/
abbrev Res := Host.Outcome State Fault Refusal

/-! ### Lists -/

/-- Keep the elements that satisfy `p`, replacing each by `f`. -/
def updateWhere {α : Type} (p : α → Bool) (f : α → α) (l : List α) : List α :=
  l.map fun x => if p x then f x else x

/-- Replace the element at position `i`, if there is one. -/
def updateAt {α : Type} (i : Nat) (f : α → α) (l : List α) : List α :=
  l.modify i f

/-- Insert after every element that is not greater: a stable insertion for `key`. -/
def insertBy {α : Type} (key : α → Nat) (x : α) : List α → List α
  | [] => [x]
  | y :: ys => if key x < key y then x :: y :: ys else y :: insertBy key x ys

/-- Sort by a key, keeping the order of equal elements. -/
def sortBy {α : Type} (key : α → Nat) (l : List α) : List α := l.foldl (fun acc x => insertBy key x acc) []

/-- The element with the least key, the first on a tie. -/
def leastBy {α : Type} (key : α → Nat) : List α → Option α
  | [] => none
  | x :: xs =>
    match leastBy key xs with
    | none => some x
    | some y => if key y < key x then some y else some x

/-- The number of elements that satisfy `p`. -/
def countWhere {α : Type} (p : α → Bool) (l : List α) : Nat := (l.filter p).length

/-- The sum of a list. -/
def sumOf (l : List Nat) : Nat := l.foldl (· + ·) 0

/-- The value at a position, 0 beyond the end. -/
def nth0 (l : List Nat) (i : Nat) : Nat := l.getD i 0

/-- `k` bytes of a byte list from `i` on, little-endian. -/
def leAt (l : List Nat) (i k : Nat) : Nat := leBytes ((List.range k).map fun j => nth0 l (i + j))

/-! ### Names -/

/-- The state code of TARGET and CUR (R337). -/
def PState.num : PState → Nat
  | .flight => 0 | .moored => 1 | .tethered => 2 | .grounded => 3

/-- The state of a TARGET code (R337). -/
def PState.ofNum (n : Nat) : PState :=
  if n = 0 then .flight else if n = 1 then .moored else if n = 2 then .tethered else .grounded

/-- The number of an RdOp among the request types of R376. -/
def RdOp.ty : RdOp → Nat
  | .rd => 0 | .rds => 1 | .rdm => 2 | .rdmu => 3

/-- The number of a WrOp among the request types of R376. -/
def WrOp.ty : WrOp → Nat
  | .wr => 4 | .wrp => 5 | .wrm => 6 | .wrx => 7

/-! ### Channels and time -/

/-- Channel `ch`. -/
def State.chan (s : State) (ch : ChanId) : Chan := s.chans.get ch

/-- The state with channel `ch` replaced. -/
def State.setChan (s : State) (ch : ChanId) (c : Chan) : State := { s with chans := s.chans.set ch c }

/-- The block timestamp, 1 µs ticks, wrapping after 2^32 µs (R360). -/
def State.us (s : State) : Nat := (s.now - s.tsBase) / 100 % 2 ^ 32

/-- The eight channel numbers, ascending. -/
def allChans : List ChanId := [0, 1, 2, 3, 4, 5, 6, 7]

/-- What a channel sees of the common: REFCLK count, timestamp, an image in force, a load open (R54), the clamps of the
level in force (R17), the ripcord (R204, R332), and pad retention (R417). `win` is the REFCLK elapsed in the window of R191, `hclkM` is M and `phase` is φ in
ps (R21). -/
structure Env where
  now : Nat
  us : Nat
  win : Nat
  inForce : Bool
  loadOpen : Bool
  clampMr : Nat
  clampRd : Nat
  ripReq : Bool
  cap : Nat
  retention : Bool
  hclkM : Nat
  phase : Nat
deriving DecidableEq, Repr

/-- STATE is LOADING, READY or COMMITTING (02, "When a channel is asked to leave Grounded during a load"). -/
def Loader.isOpen (l : Loader) : Bool :=
  l.st == .loading || l.st == .ready || l.st == .committing

/-- The environment of every channel. -/
def State.env (s : State) : Env :=
  { now := s.now, us := s.us, win := (s.now - s.tsBase) % 400, inForce := s.img.isSome,
    loadOpen := s.loader.isOpen, clampMr := s.lvl.clampMr, clampRd := s.lvl.clampRd, ripReq := s.lvl.ripReq, cap := s.lvl.capNow, retention := Config.padRetention,
    hclkM := match s.img with
      | some i => nth0 i.header 9
      | none => 0,
    phase := match s.img with
      | some i => i.phasePs
      | none => 0 }

/-! ### Counters (R372 to R378) -/

/-- RANGE of a counter compares the line with the page's range registers (R376, R378). -/
def rangePasses (k : Counters) (range laddr : Nat) : Bool :=
  let in0 := decide (k.r0base ≤ laddr) && decide (laddr ≤ k.r0lim)
  let in1 := decide (k.r1base ≤ laddr) && decide (laddr ≤ k.r1lim)
  if range = 0 then true else if range = 1 then in0 else if range = 2 then in1 else !in0

/-- The counter events whose row gives the request filters, and those that give the subchannel filter (R376). -/
def occRequest (code : Nat) : Bool :=
  [2, 3, 4, 5, 8, 9, 0xB, 0xC, 0xD, 0xE, 0xF, 0x10, 0x11, 0x15, 0x16, 0x19].contains code

def occSub (code : Nat) : Bool := [6, 7, 8, 9, 0xA, 0xB, 0x12, 0x13, 0x14].contains code

/-- The request filters of R376. An occurrence that serves no request passes only when every mask is all ones and RANGE
is off. -/
def reqPasses (ranges : Counters) (c : Counter) (o : Occ) : Bool :=
  if o.req then
    bitAt c.classmask o.cls && bitAt c.privmask o.priv && bitAt c.typemask o.ty && rangePasses ranges c.range o.laddr
  else
    c.classmask == 0xFFFF && c.privmask == 15 && c.typemask == 0x3FF && c.range == 0

/-- A counter counts an occurrence: enabled, of its event, passing the filters of the event's row (R372, R376). -/
def Counter.counts (ranges : Counters) (c : Counter) (o : Occ) : Bool :=
  c.en && c.event == o.code && (!occSub o.code || bitAt c.submask o.sub) &&
    (!occRequest o.code || reqPasses ranges c o)

/-- Gather an occurrence in its own clock; the RCLK edge adds it (R372). -/
def Counters.gather (k ranges : Counters) (p : Counter → Bool) (o : Occ) : Counters :=
  { k with cs := updateWhere (fun c => p c && c.counts ranges o) (fun c => { c with acc := c.acc + o.n }) k.cs }

/-- Gather a block event of R377. -/
def State.blkCount (s : State) (code n : Nat) : State :=
  { s with cnt := { s.cnt with
      cs := updateWhere (fun c => c.en && c.event == code) (fun c => { c with acc := c.acc + n }) s.cnt.cs } }

/-- An occurrence that carries no request. -/
def occ0 (code n : Nat) (sub : Nat := 0) : Occ :=
  { code := code, n := n, sub := sub, cls := 0, priv := 0, ty := 0, laddr := 0, req := false }

/-- An occurrence that carries a request of class `cls`, PRIV `priv`, type `ty` and line `laddr`. -/
def occR (code sub cls priv ty : Nat) (laddr : LAddr) : Occ :=
  { code := code, n := 1, sub := sub, cls := cls, priv := priv, ty := ty, laddr := laddr.toNat, req := true }

/-! ### Events (R356 to R369) -/

/-- Default severity of a channel source (R356). -/
def chanSeverity (loc : Nat) : Nat :=
  if loc < 8 then 0 else if loc < 16 then 1 else if loc < 32 then 2 else if loc < 48 then 3 else 4

/-- Fatal events of the channel: BATTEN_VIOLATION, REFRESH_MISSED, CA_FAIL, SEQ_FAULT (R356). -/
def isFatal (loc : Nat) : Bool := 49 ≤ loc && loc ≤ 52

/-- The routing word of a source without a record: ENABLE 1, OVERRIDE 0, ROUTE 0 (R358); SEV, which no rule gives, is 0
(DESIGN CHOICE, log entry 90). -/
def defaultRoute (ident : Nat) : Nat := 0x400 + ident

/-- The number of a block source among the 64 routing words of the block (R56, R357): eight for each page. -/
def blkSourceIdx (ident : Nat) : Nat := (ident / 128) * 8 + (ident % 128 - 120)

/-- SEV and ROUTE of a record from the routing word and the default severity; none when the source is suppressed
(R358). The route is 0 for no interrupt, 1 for IRQ_EVT, 2 for IRQ_URG. -/
def routeOf (word dflt : Nat) : Option (Nat × Nat) :=
  if dflt ≠ 4 ∧ bitAt word 10 = false then none
  else
    let sev := if dflt ≠ 4 ∧ bitAt word 11 = true then min 4 (bitsAt word 12 3) else dflt
    let route := bitsAt word 15 2
    some (sev, if route = 0 then (if sev ≤ 2 then 1 else 2) else if route = 3 then 0 else route)

/-- The newest record of severity `sev` is removed. -/
def dropNewest (sev : Nat) (l : List Record) : List Record :=
  let r := l.reverse
  ((r.takeWhile fun x => x.sev ≠ sev) ++ (r.dropWhile fun x => x.sev ≠ sev).drop 1).reverse

/-- The lowest severity in a bank. -/
def lowestSev (l : List Record) : Nat := l.foldl (fun m r => min m r.sev) 7

/-- The channel of a record: its page for a channel source, none for a block source (R364). -/
def Record.channel (r : Record) : Option Nat := if r.ident % 128 < 120 then some (r.ident / 128) else none

/-- Set bits in CH_STICKY of channel `n` (R369). -/
def Events.stick (e : Events) (n bits : Nat) : Events :=
  { e with sticky := updateAt n (fun v => v ||| bits) e.sticky }

/-- A record is lost: DROPPED counts it and LOST is set in CH_STICKY of its channel (R364). -/
def Events.loseRec (e : Events) (r : Record) : Events :=
  let e := { e with dropped := satAdd 0xFFFF e.dropped 1 }
  match r.channel with
  | some n => e.stick n 0x100
  | none => e

/-- The draining bank is empty and nothing is latched (R362). -/
def Events.drained (e : Events) : Bool := e.draining.isEmpty && e.latched.isNone

/-- The banks swap (R362). -/
def Events.swap (e : Events) : Events := { e with draining := e.filling, filling := [] }

/-- A raised record enters the filling bank, replaces a lower one or is dropped (R362, R364). The second component
counts the records lost. -/
def Events.enqueue (e : Events) (r : Record) : Events × Nat :=
  let e := if 64 ≤ e.filling.length && e.drained then e.swap else e
  if e.filling.length < 64 then
    let e := { e with filling := e.filling ++ [r] }
    (if 64 ≤ e.filling.length && e.drained then e.swap else e, 0)
  else
    let low := lowestSev e.filling
    if low < r.sev then
      match e.filling.reverse.find? (fun x => x.sev == low) with
      | some victim => (({ e with filling := dropNewest low e.filling ++ [r] }).loseRec victim, 1)
      | none => (e.loseRec r, 1)
    else (e.loseRec r, 1)

/-- What an event marks besides the queue: the IRQ_FATAL latch, its channel's CH_STICKY, and, for a fatal event, its channel
(R103, R368, R369). -/
def Events.mark (e : Events) (sev : Nat) (chan : Option Nat) (fatal : Bool) : Events :=
  let e := if sev = 4 then { e with fatal := true } else e
  match chan with
  | none => e
  | some n =>
    let e := e.stick n (2 ^ sev + if fatal then 0x10000 else 0)
    if fatal then { e with fatalCh := e.fatalCh ||| 2 ^ n } else e

/-- The block counts a record raised, and those lost (R377). -/
def State.countRaised (s : State) (lost : Nat) : State :=
  if lost = 0 then s.blkCount 0xC3 1 else (s.blkCount 0xC3 1).blkCount 0xC4 1

/-- An event of source `ident` with routing word `word` and default severity `dflt` is raised (R358, R360, R368, R369).
`chan` is the channel whose CH_STICKY it sets; `fatal` says that the source is a fatal event of the channel. -/
def State.raise (s : State) (ident word dflt info : Nat) (chan : Option Nat) (fatal : Bool) : State :=
  match routeOf word dflt with
  | none => s
  | some (sev, route) =>
    let q := (s.ev.mark sev chan fatal).enqueue
      { ident := ident, sev := sev, time := s.us, info := info % 2 ^ 19, route := route }
    ({ s with ev := q.1 }).countRaised q.2

/-- Channel `ch` raises local `loc` (R356, R359). -/
def State.raiseChan (s : State) (ch : ChanId) (loc info : Nat) : State :=
  match s.img with
  | none => s
  | some _ =>
    let ident := ch.val * 128 + loc
    let word := match (s.chan ch).img with
      | some i => i.routing.getD loc (defaultRoute ident)
      | none => defaultRoute ident
    s.raise ident word (chanSeverity loc) info (some ch.val) (isFatal loc)

/-- A block source raises its event (R357, R359). -/
def State.raiseBlk (s : State) (ident dflt info : Nat) : State :=
  match s.img with
  | none => s
  | some i => s.raise ident (i.routing.getD (blkSourceIdx ident) (defaultRoute ident)) dflt info none false

/-! ### Event numbers (R356) -/

def evStateDone : Nat := 0
def evMbxIn : Nat := 1
def evMbxOut : Nat := 2
def evThermalHot : Nat := 3
def evBackoff : Nat := 4
def evPatrolPass : Nat := 5
def evLoftStall : Nat := 6
def evCntOvf : Nat := 7
def evCeNew : Nat := 8
def evShortfall : Nat := 16
def evProtocol : Nat := 17
def evOvertemp : Nat := 18
def evModuleHot : Nat := 19
def evTether : Nat := 20
def evPersistent : Nat := 21
def evChipSuspect : Nat := 22
def evPatrolLate : Nat := 23
def evTrainFail : Nat := 24
def evTrimNopass : Nat := 25
def evReadUe : Nat := 32
def evDeferredUe : Nat := 33
def evReadFail : Nat := 34
def evIbufUe : Nat := 35
def evLoftMdLost : Nat := 36
def evTrimLost : Nat := 37
def evWriteLost : Nat := 48
def evBatten : Nat := 49
def evRefreshMissed : Nat := 50
def evCaFail : Nat := 51
def evSeqFault : Nat := 52

/-! ### One channel's step -/

/-- The channel raises an event: it joins the events of the command under way. -/
def Chan.raise (c : Chan) (loc info : Nat) : Chan := { c with evOut := c.evOut ++ [{ loc := loc, info := info }] }

/-- The channel logs a counter occurrence. -/
def Chan.log (c : Chan) (o : Occ) : Chan := { c with occ := c.occ ++ [o] }

/-- A fresh number for a free value. -/
def Chan.fresh (c : Chan) : Nat × Chan := (c.free, { c with free := c.free + 1 })

/-- The channel logic runs: in Flight, in a reset sequence, and in a transition whose step start has taken place (R311, R372,
R382). -/
def Chan.logicRuns (c : Chan) : Bool :=
  c.power.cur == .flight || c.power.rst || match c.power.trans with
    | some t => t.ph != .stagger
    | none => false

/-- The events of a command, in ascending identifier order (R361). -/
def Chan.events (c : Chan) : List EvReq := sortBy EvReq.loc c.evOut

/-- Gather the occurrences of a command in the channel's counters (R372). -/
def Chan.gatherOcc (c : Chan) : Chan :=
  if c.logicRuns then { c with cnt := c.occ.foldl (fun k o => k.gather k (fun _ => true) o) c.cnt } else c

/-- Gather the occurrences of channel `ch` in the block's counters (R377). -/
def gatherBlk (ch : ChanId) (c : Chan) (k : Counters) : Counters :=
  if c.logicRuns then c.occ.foldl (fun k o => k.gather c.cnt (fun x => bitAt x.chmask ch.val) o) k else k

/-- The lane presents a response (R112): OK with read data, or a bus error with read data 0. -/
def State.respond (s : State) (err : Bool) (rdata : Word) : State :=
  ({ s with mgt := { s.mgt with rspV := true, rspErr := err, rdata := if err then 0 else rdata } }).blkCount 0xC2 1

/-- A metadata operation is a repair (R282). -/
def LoftOp.isRepair (o : LoftOp) : Bool :=
  match o.kind with
  | .repair => true
  | _ => false

/-- The write of REPAIR completes once the channel holds no repair any more (R282). -/
def State.repairDone (s : State) (ch : ChanId) (c : Chan) : State :=
  if s.mgt.repair = some ch ∧ c.loft.ops.any LoftOp.isRepair = false then
    ({ s with mgt := { s.mgt with repair := none, held := none } }).respond false 0
  else s

/-- Store the channel a command left, with its events raised and its occurrences counted. -/
def State.commitChan (s : State) (ch : ChanId) (c : Chan) : State :=
  let s1 := { s with cnt := gatherBlk ch c s.cnt }
  let s2 := s1.setChan ch { c.gatherOcc with evOut := [], occ := [] }
  (c.events.foldl (fun t e => t.raiseChan ch e.loc e.info) s2).repairDone ch c

/-- One command on one channel: the channel's function runs on it, its events are raised and its occurrences counted.
Nothing else of the block changes but the event queue, the sticky registers, the block's counters, and the answer to a
REPAIR of that channel (R22). -/
def State.onChan (s : State) (ch : ChanId) (f : Env → Chan → Chan) : State :=
  s.commitChan ch (f s.env (s.chan ch))

/-- The same on several channels, in the order given. -/
def State.onChans (s : State) (chs : List ChanId) (f : Env → Chan → Chan) : State :=
  chs.foldl (fun t ch => t.onChan ch f) s

/-! ### The management lane (R112 to R114, R400) -/

/-- The base address of a channel page (R395). -/
def chanBase (ch : ChanId) : Nat := 0x100000 * (ch.val + 1)

/-- The address of a register: the base of its page plus its offset (R395). -/
def regAddr (p : Page) (off : Nat) : BitVec 24 :=
  BitVec.ofNat 24 (match p with | .blk => off | .chan ch => chanBase ch + off)

/-- The channel whose page an address lies in (R395). -/
def addrChan (a : Nat) : Option ChanId :=
  if h : 0x100000 ≤ a ∧ a < 0x900000 then some ⟨a / 0x100000 - 1, by omega⟩ else none

/-- The offset of an address in its channel page. -/
def addrOff (a : Nat) : Nat := a % 0x100000

/-- The transactions that the lane holds (R400): any before READY; any access to the page of a channel in its reset
sequence; the last word of a frame, and CH_XLATE_CTL, during COMMITTING; CH_CV_* during a sequencer use; and WIDE_ADDR while
the page's snapshot is in progress (R404). A REPAIR that its granules' pins hold back is decided by its own write. -/
def mgtHeld (s : State) (t : MgtTxn) : Bool :=
  let a := t.addr.toNat
  !s.rst.ready ||
  (match addrChan a with
   | some ch =>
     (s.chan ch).power.rst ||
     (t.we && addrOff a == 0x68 && s.loader.st == .committing) ||
     (t.we && addrOff a == 0x900 && (s.chan ch).wide.pending) ||
     ((s.chan ch).cv.owner && 0x800 ≤ addrOff a && addrOff a ≤ 0x830)
   | none =>
     t.we && ((a == 0xF0003C && s.loader.st == .committing) || (a == 0x400 && s.wide.pending)))

/-- A management transaction is presented: it is outstanding while the lane holds it (R113, R400); otherwise it takes
effect and is answered. A transaction presented while another is outstanding is outside the manual (R113, R11). -/
def mgtDo (t : MgtTxn) (eff : State → State × Word) (s : State) : Res :=
  match s.mgt.held with
  | some _ => .fault .mgtOverlap
  | none =>
    if mgtHeld s t then .next { s with mgt := { s.mgt with held := some t, rspV := false } }
    else
      let r := eff s
      .next (r.1.respond false r.2)

/-- A write of a register by its own command. -/
def mgtWrite (p : Page) (off : Nat) (w : Word) (eff : State → State) (s : State) : Res :=
  mgtDo { we := true, addr := regAddr p off, data := w } (fun s => (eff s, 0)) s

/-- A read of a register by its own command. -/
def mgtRead (p : Page) (off : Nat) (eff : State → State × Word) (s : State) : Res :=
  mgtDo { we := false, addr := regAddr p off, data := 0 } eff s

/-! ### Sparse tables -/

/-- A bank that no command has touched: IDLE, with no row. -/
def BankEntry.idle : BankEntry :=
  { st := .idle, row := 0, hits := 0, ord := false, ordSeq := 0, claim := false, spec := false, rowLast := none,
    acts := 0 }

/-- The entry of a bank; an unlisted bank is IDLE. -/
def Chan.bank (c : Chan) (b : Bank) : BankEntry :=
  match c.banks.find? (fun p => p.1 == b) with
  | some p => p.2
  | none => BankEntry.idle

/-- Insert a bank entry in key order. -/
def insertBank (b : Bank) (e : BankEntry) : List (Bank × BankEntry) → List (Bank × BankEntry)
  | [] => [(b, e)]
  | p :: ps => if b.key < p.1.key then (b, e) :: p :: ps else if b.key = p.1.key then (b, e) :: ps
    else p :: insertBank b e ps

/-- Write a bank entry; an entry equal to `BankEntry.idle` is not listed. -/
def Chan.setBank (c : Chan) (b : Bank) (e : BankEntry) : Chan :=
  { c with banks := if e = BankEntry.idle then c.banks.filter (fun p => p.1.key ≠ b.key) else insertBank b e c.banks }

/-- Change a bank entry. -/
def Chan.modBank (c : Chan) (b : Bank) (f : BankEntry → BankEntry) : Chan := c.setBank b (f (c.bank b))

end Sys2Proof.Machine
end

