-- ==== Sys2Proof/Machine/Flags.lean ====
section
/-! DEFINITION. Every computed check of the block: the CRC family (R30, R37, R352), the field GF(2^8) and the symbol
code with its decoder (R211 to R221), and the DEC-TED code of the internal stores (R229). -/
namespace Sys2Proof.Machine

/-! ### CRC (R30, R37, R352) -/

/-- The low `w` bits of `n` in reverse order. -/
def reflectBits : Nat → Nat → Nat
  | 0, _ => 0
  | w + 1, n => (n % 2) * 2 ^ w + reflectBits w (n / 2)

/-- One shift of the check register of width `w` (R352). -/
def crcShift (w poly reg : Nat) : Nat :=
  let sh := reg * 2
  (if bitAt reg (w - 1) then sh ^^^ poly else sh) % 2 ^ w

/-- `n` shifts of the check register. -/
def crcShifts (w poly : Nat) : Nat → Nat → Nat
  | 0, reg => reg
  | n + 1, reg => crcShifts w poly n (crcShift w poly reg)

/-- The unit is fed one byte (R352). -/
def crcFeed (w poly : Nat) (refin : Bool) (reg b : Nat) : Nat :=
  let b := if refin then reflectBits 8 b else b % 256
  crcShifts w poly 8 ((reg ^^^ (b * 2 ^ (w - 8))) % 2 ^ w)

/-- The unit is fed a list of bytes. -/
def crcFeeds (w poly : Nat) (refin : Bool) (reg : Nat) (bs : List Nat) : Nat :=
  bs.foldl (crcFeed w poly refin) reg

/-- RES of the unit (R352): the register, reflected if asked, XORed. -/
def crcResult (w xor : Nat) (refout : Bool) (reg : Nat) : Nat :=
  ((if refout then reflectBits w reg else reg) ^^^ xor) % 2 ^ w

/-- CRC-32C of a list of bytes (R30). -/
def crc32c (bs : List Nat) : Nat :=
  crcResult 32 0xFFFFFFFF true (crcFeeds 32 0x1EDC6F41 true 0xFFFFFFFF bs)

/-- The width in bits of a CHK_WIDTH or WIDTH code; 3 and above count as 2 (R34, R355). -/
def crcWidth (code : Nat) : Nat := if code = 0 then 16 else if code = 1 then 32 else 64

/-! ### GF(2^8) (R211) -/

/-- Multiplication by α. -/
def gfX (a : Nat) : Nat := if 128 ≤ a then (a * 2) ^^^ 0x11D else a * 2

/-- The product of `a` and the `n` low bits of `b`. -/
def gfMulN : Nat → Nat → Nat → Nat
  | 0, _, _ => 0
  | n + 1, a, b => (if b % 2 = 1 then a else 0) ^^^ gfMulN n (gfX a) (b / 2)

/-- The product in GF(2^8). -/
def gfMul (a b : Nat) : Nat := if a = 0 ∨ b = 0 then 0 else gfMulN 8 a b

/-- α^n. -/
def gfPow : Nat → Nat
  | 0 => 1
  | n + 1 => gfX (gfPow n)

/-- a^(2^n - 2) by squarings: the inverse for n = 8. -/
def gfInvN : Nat → Nat → Nat → Nat
  | 0, _, acc => acc
  | n + 1, a, acc => gfInvN n (gfMul a a) (gfMul acc (gfMul a a))

/-- The inverse in GF(2^8); 0 of 0. -/
def gfInv (a : Nat) : Nat := if a = 0 then 0 else gfInvN 7 a 1

/-- A polynomial, lowest coefficient first, at `x`. -/
def gfEval : List Nat → Nat → Nat
  | [], _ => 0
  | c :: cs, x => c ^^^ gfMul x (gfEval cs x)

/-- The polynomial `p`, times x + r. -/
def gfMulLin (p : List Nat) (r : Nat) : List Nat :=
  List.zipWith (· ^^^ ·) (p.map (gfMul r) ++ [0]) (0 :: p)

/-- The product of x + r over a list, lowest coefficient first. -/
def gfProd (rs : List Nat) : List Nat := rs.foldl gfMulLin [1]

/-- The sum of products of two lists. -/
def gfDot (a b : List Nat) : Nat := (List.zipWith gfMul a b).foldl (· ^^^ ·) 0

/-! ### The code (R212 to R215) -/

/-- Symbol `s` of a code word (R213). -/
def symAt (w s : Nat) : Nat := bitsAt w (8 * s) 8

/-- The locator of symbol `s`: its power of α in the polynomial of R212. -/
def locator (s : Nat) : Nat := gfPow (79 - s)

/-- g(x), the product of x + α^j for j = 0 to 15, lowest coefficient first (R212). -/
def genPoly : List Nat := gfProd ((List.range 16).map gfPow)

/-- One step of the division by g(x): `rem` holds the remainder, highest coefficient first. -/
def encStep (g : List Nat) (rem : List Nat) (d : Nat) : List Nat :=
  let fb := d ^^^ rem.headD 0
  List.zipWith (fun r c => r ^^^ gfMul fb c) (rem.drop 1 ++ [0]) g

/-- The 16 check symbols of a line, symbol 64 first (R212). -/
def checkSyms (line : Nat) : List Nat :=
  let g := (genPoly.take 16).reverse
  (List.range 64).foldl (fun rem s => encStep g rem (symAt line s)) (List.replicate 16 0)

/-- The code word of a line (R212, R226). -/
def encodeLine (l : Line) : CodeWord := BitVec.ofNat 640 (l.toNat + leBytes (checkSyms l.toNat) * 2 ^ 512)

/-- The poison pattern P on check symbols 64 to 79 (R219). -/
def poisonP : List Nat :=
  [0x9D, 0x3B, 0x71, 0xE6, 0x2C, 0xB8, 0x47, 0xD5, 0x0F, 0x6A, 0xC3, 0x18, 0xF2, 0x84, 0x5E, 0xA9]

/-- The word that stores a poisoned line: zero data and P (R219). -/
def poisonWord : CodeWord := BitVec.ofNat 640 (leBytes poisonP * 2 ^ 512)

/-- c(α^j), by Horner over the symbols of `w` (R212). -/
def syndrome (w j : Nat) : Nat :=
  let x := gfPow j
  (List.range 80).foldl (fun acc s => gfMul acc x ^^^ symAt w s) 0

/-- The 16 syndromes of a word (R212). -/
def syndromes (w : Nat) : List Nat := (List.range 16).map (syndrome w)

/-- The symbols of a chip: 8 on x4 (R214), 16 on x8 (R215). -/
def chipSyms (x8 : Bool) (c : Nat) : List Nat :=
  if x8 then (List.range 16).map (16 * c + ·) else (List.range 8).map (8 * c + ·)

/-- The chip of a symbol. -/
def symChip (x8 : Bool) (s : Nat) : Nat := if x8 then s / 16 else s / 8

/-! ### The decoder (R217) -/

/-- An error pattern: symbols and the values added to them. -/
abbrev ErrPat := List (Nat × Nat)

/-- The syndromes of an error pattern. -/
def patSyndromes (e : ErrPat) : List Nat :=
  (List.range 16).map fun j => e.foldl (fun acc p => acc ^^^ gfMul p.2 (gfPow (((79 - p.1) * j) % 255))) 0

/-- The unique error pattern on the symbols `ps` (at most 16) with the given syndromes, or none. Each value comes from
the filter that is zero at every other locator; the pattern is then checked against all 16 syndromes. -/
def solveAt (syn : List Nat) (ps : List Nat) : Option ErrPat :=
  let e := ps.map fun p =>
    let f := gfProd ((ps.filter (· ≠ p)).map locator)
    (p, gfMul (gfDot f syn) (gfInv (gfEval f (locator p))))
  let e := e.filter fun p => p.2 ≠ 0
  if patSyndromes e = syn then some e else none

/-- The symbol with a locator. -/
def symOfLocator (x : Nat) : Option Nat := (List.range 80).find? fun s => locator s == x

/-- The unique pattern of at most 2 symbols with the given syndromes, or none: `sym_solve(s, 2)` of R217. -/
def symSolve2 (syn : List Nat) : Option ErrPat :=
  let s0 := nth0 syn 0; let s1 := nth0 syn 1; let s2 := nth0 syn 2; let s3 := nth0 syn 3
  if syn.all (· == 0) then some []
  else
    let one := (symOfLocator (gfMul s1 (gfInv s0))).bind fun s => solveAt syn [s]
    match one with
    | some e => some e
    | none =>
      let d := gfMul s1 s1 ^^^ gfMul s0 s2
      if d = 0 then none
      else
        let i := gfInv d
        let q1 := gfMul i (gfMul s1 s2 ^^^ gfMul s0 s3)
        let q2 := gfMul i (gfMul s1 s3 ^^^ gfMul s2 s2)
        let roots := (List.range 80).filter fun s =>
          let x := locator s
          (gfMul x x ^^^ gfMul q1 x ^^^ q2) == 0
        if roots.length = 2 then solveAt syn roots else none

/-- `marked_solve(s, mark, k)` of R217: the marked chip as erasures and up to `k` ≤ 1 symbols elsewhere. -/
def markedSolve (x8 : Bool) (syn : List Nat) (mark k : Nat) : Option ErrPat :=
  let ps := chipSyms x8 mark
  match solveAt syn ps with
  | some e => some e
  | none =>
    if k = 0 then none
    else
      let f := gfProd (ps.map locator)
      let t0 := gfDot f syn
      let t1 := gfDot f (syn.drop 1)
      match symOfLocator (gfMul t1 (gfInv t0)) with
      | none => none
      | some s => if ps.contains s then none else solveAt syn (s :: ps)

/-- The first chip whose symbols alone explain the syndromes, of the chips from `c` on: `chip_solve` of R217. -/
def chipSolve (syn : List Nat) : List Nat → Option ErrPat
  | [] => none
  | c :: cs =>
    match solveAt syn (chipSyms false c) with
    | some e => some e
    | none => chipSolve syn cs

/-- The word with an error pattern added. -/
def applyPat (w : Nat) (e : ErrPat) : Nat := e.foldl (fun acc p => acc ^^^ (p.2 * 2 ^ (8 * p.1))) w

/-- The mask of chips that a pattern changes (R218). -/
def patChips (x8 : Bool) (e : ErrPat) : Nat := e.foldl (fun m p => m ||| 2 ^ symChip x8 p.1) 0

/-- A decode result that leaves the line as read. -/
def asRead (o : Outcome8) (w : Nat) : Decoded := { outcome := o, line := BitVec.ofNat 512 w, chips := 0, nsym := 0 }

/-- A decode result with a correction. -/
def corrected (x8 : Bool) (o : Outcome8) (w : Nat) (e : ErrPat) : Decoded :=
  { outcome := o, line := BitVec.ofNat 512 (applyPat w e), chips := patChips x8 e, nsym := e.length }

/-- The decoder (R217): every code word, with the layout of the module and the chip mark in force. The data of the poisoned
word on an x8 subchannel under a mark of another chip than 4 is free (R221, log entry 16). -/
def decode (x8 : Bool) (mark : Option Nat) (word : CodeWord) : Decoded :=
  let w := word.toNat
  let s := syndromes w
  if s.all (· == 0) then asRead .clean w
  else
    let sp := List.zipWith (· ^^^ ·) s (syndromes poisonWord.toNat)
    match mark with
    | none =>
      match symSolve2 sp with
      | some _ => asRead .poison w
      | none =>
        match symSolve2 s with
        | some e => corrected x8 .corrSym w e
        | none =>
          if x8 then asRead .ue w
          else
            match chipSolve s (List.range 10) with
            | some e => corrected x8 .corrChip w e
            | none => asRead .ue w
    | some m =>
      if x8 then
        match markedSolve true s m 0 with
        | some e =>
          if word = poisonWord ∧ m ≠ 4 then { corrected true .corrMarked w e with line := Config.markedPoison m }
          else corrected true .corrMarked w e
        | none => asRead .ue w
      else
        match markedSolve false sp m 0 with
        | some _ => asRead .poison w
        | none =>
          match markedSolve false s m 1 with
          | none => asRead .ue w
          | some e => corrected false (if e.any (fun p => symChip false p.1 == m) then .corrMarked else .corrSym) w e

/-- STATUS of an outcome (R82). -/
def Outcome8.num : Outcome8 → Nat
  | .clean => 0 | .corrSym => 1 | .corrChip => 2 | .corrMarked => 3 | .poison => 4 | .ue => 5

/-- The outcome is a correction. -/
def Outcome8.isCorr : Outcome8 → Bool
  | .corrSym | .corrChip | .corrMarked => true
  | _ => false

/-- The line is delivered with POISON set (R82). -/
def Outcome8.isBad : Outcome8 → Bool
  | .poison | .ue => true
  | _ => false

/-! ### The internal DEC-TED code (R229) -/

/-- The remainder of a polynomial over GF(2) modulo g(x) = 0x4377, fed from the highest of `n` bits down. -/
def bchRem : Nat → Nat → Nat → Nat
  | 0, _, r => r
  | n + 1, d, r =>
    let sh := r * 2 + b2n (bitAt d n)
    bchRem n d (if bitAt sh 14 then sh ^^^ 0x4377 else sh)

/-- The 15 check bits of a 64-bit word: the 14-bit remainder of d(x) x^14, and the bit that makes the parity of all 79
bits even (R229). -/
def bchCheck (d : BitVec 64) : BitVec 15 :=
  let r := bchRem 78 (d.toNat * 2 ^ 14) 0
  BitVec.ofNat 15 (r + b2n (xor (parity 64 d.toNat) (parity 14 r)) * 2 ^ 14)

end Sys2Proof.Machine
end

