-- ==== Sys2Proof/Machine/Operands.lean ====
section
/-! DEFINITION. The operand forms: the fields of the Truss image after clamping (02, R40 to R43, R155), and the address
mapping between a channel physical address and a device address (03). -/
namespace Sys2Proof.Machine

/-! ### Clamping the sections (R9, R42) -/

/-- The nearest member of a set of values, the lower one on a tie (R42). -/
def nearestOf (set : List Nat) (n : Nat) : Nat :=
  set.foldl (fun best v => if (max v n - min v n) < (max best n - min best n) then v else best) (set.headD 0)

/-- `n` as `k` little-endian bytes. -/
def le (k n : Nat) : List Nat := toBytes k n

/-- The module type is an x8 one: 0x02, 0x04 or 0x06 (R3, R40). -/
def typeX8 (t : Nat) : Bool := t % 2 == 0

/-- The module type is 3DS: 0x03 or 0x04 (R40). -/
def type3ds (t : Nat) : Bool := t == 3 || t == 4

/-- The module type is MRDIMM: 0x05 or 0x06 (R40). -/
def typeMr (t : Nat) : Bool := t == 5 || t == 6

/-- N of trim set `i`: 0 is unused, set 0 cannot be unused, others are clamped to 24 up to the maximum N (R40). -/
def clampSetN (maxN i n : Nat) : Nat :=
  if n = 0 then (if i = 0 then maxN else 0) else clampTo 24 maxN n

/-- Topology (0x01) after clamping (R40). -/
def clampTopo (b : List Nat) : List Nat :=
  let t := nth0 b 0
  let maxN := clampTo 24 64 (nth0 b 6)
  let sets := (List.range 4).map fun i => clampSetN maxN i (nth0 b (8 + i))
  let bu := clampTo 0 3 (nth0 b 12)
  [t, clampTo 1 2 (nth0 b 1), nearestOf [1, 2, 4] (nth0 b 2),
    if type3ds t then nearestOf [1, 2, 4, 8] (nth0 b 3) else 1,
    nearestOf [16, 24, 32, 48, 64] (nth0 b 4), 0, maxN, 0] ++ sets ++
    [if nth0 sets bu = 0 then 0 else bu, 0, 0, 0]

/-- Protection (0x04) after clamping; a chip index above the layout's maximum is clamped to it (R40, R232). -/
def clampProt (x8 : Bool) (b : List Nat) : List Nat :=
  let mark := fun v => if v = 0xFF then 0xFF else clampTo 0 (if x8 then 4 else 9) v
  [nth0 b 0 % 16, clampTo 1 8 (nth0 b 1), mark (nth0 b 2), mark (nth0 b 3), clampTo 2 15 (nth0 b 4),
    clampTo 2 32 (nth0 b 5)] ++ le 2 (clampTo 1 168 (leAt b 6 2)) ++ List.replicate 8 0

/-- One class record of Ballast (0x05) after clamping (R40). -/
def clampBalClass (b : List Nat) : List Nat :=
  le 2 (clampTo 0 1024 (leAt b 0 2)) ++ le 2 (clampTo 20 65535 (leAt b 2 2)) ++ le 2 (clampTo 1 1024 (leAt b 4 2)) ++
    [clampTo 1 255 (nth0 b 6), nth0 b 7 % 2] ++ List.replicate 8 0

/-- Ballast (0x05) after clamping (R40). -/
def clampBallast (b : List Nat) : List Nat :=
  ((List.range 16).map fun c => clampBalClass (b.drop (16 * c))).flatten ++
    [clampTo 10 100 (nth0 b 256)] ++ List.replicate 15 0

/-- The defaults of Ballast (R40, R43). -/
def defaultBallast : List Nat :=
  ((List.range 16).map fun c =>
    le 2 0 ++ le 2 1000 ++ le 2 1024 ++ [1, if c = 15 then 0 else 1] ++ List.replicate 8 0).flatten ++
    [50] ++ List.replicate 15 0

/-- The highest N of level `i` for MRDIMM and for RDIMM (R40). -/
def levelTopMr (i : Nat) : Nat := nth0 [64, 48, 32, 24] i
def levelTopRd (i : Nat) : Nat := nth0 [44, 36, 32, 24] i

/-- Performance levels (0x06) after clamping (R40). -/
def clampLevels (b : List Nat) : List Nat :=
  ((List.range 4).map fun i =>
    let r := b.drop (8 * i)
    le 2 (clampTo 600 900 (leAt r 0 2)) ++
      [clampTo 24 (levelTopMr i) (nth0 r 2), clampTo 24 (levelTopRd i) (nth0 r 3), 0, 0, 0, 0]).flatten ++
  (let r := b.drop 32
   le 2 (clampTo 10 1000 (leAt r 0 2)) ++ [clampTo 5 100 (nth0 r 2), clampTo 1 100 (nth0 r 3), 0, 0, 0, 0])

/-- The defaults of the performance levels (R40, R43). -/
def defaultLevels : List Nat :=
  ((List.range 4).map fun i =>
    le 2 (nth0 [850, 780, 720, 650] i) ++ [levelTopMr i, levelTopRd i, 0, 0, 0, 0]).flatten ++
  (le 2 100 ++ [25, 10, 0, 0, 0, 0])

/-- Wake order (0x07) after clamping, and its default (R40, R43). -/
def clampWake (b : List Nat) : List Nat :=
  b.take 8 ++ le 2 (clampTo 1 1000 (leAt b 8 2)) ++ List.replicate 6 0

def defaultWake : List Nat := List.range 8 ++ le 2 20 ++ List.replicate 6 0

/-- PHY (0x08) after clamping (R40). -/
def clampPhy (b : List Nat) : List Nat :=
  (b.take 80).map (clampTo 0 39) ++
    [clampTo 0 7 (nth0 b 80), clampTo 0 7 (nth0 b 81), clampTo 0 7 (nth0 b 82), clampTo 0 15 (nth0 b 83),
      clampTo 0 4 (nth0 b 84)] ++ List.replicate 11 0

/-- Loft (0x0B) after clamping (R40). -/
def clampLoft (b : List Nat) : List Nat := [nth0 b 0 % 2, 0, nth0 b 2, nth0 b 3, 0, 0, 0, 0]

/-- Scheduler policy (0x0C) after clamping: the other field first, then the dependent one (R40). -/
def clampSched (b : List Nat) : List Nat :=
  let hi := clampTo 2 127 (nth0 b 0)
  let t1 := clampTo 10 100 (leAt b 4 2)
  [hi, clampTo 1 (hi - 1) (nth0 b 1), nth0 b 2 % 4, 0] ++ le 2 t1 ++ le 2 (clampTo t1 100 (leAt b 6 2)) ++
    List.replicate 8 0

def defaultSched : List Nat := [96, 48, 3, 0] ++ le 2 50 ++ le 2 90 ++ List.replicate 8 0

/-- Refresh and upkeep (0x0D) after clamping (R40). -/
def clampUpk (b : List Nat) : List Nat :=
  [clampTo 0 1 (nth0 b 0), clampTo 0 4 (nth0 b 1), nth0 b 2 % 4, 0] ++ le 2 (clampTo 16 1024 (leAt b 4 2)) ++
    le 2 (clampTo 1 1024 (leAt b 6 2)) ++ le 2 (clampTo 1 10000 (leAt b 8 2)) ++
    [clampTo 40 125 (nth0 b 10), clampTo 1 255 (nth0 b 11)] ++ List.replicate 4 0

/-- Replace the `w` bits from `lo` of `n` by `v`. -/
def setBits (n lo w v : Nat) : Nat := n - bitsAt n lo w * 2 ^ lo + (v % 2 ^ w) * 2 ^ lo

/-- KIND, SCOPE, FROM, TO, WCOUNT and the flags of a batten (R151). -/
def batEnable (b : Nat) : Bool := bitAt b 127
def batKind (b : Nat) : Nat := bitsAt b 125 2
def batScope (b : Nat) : Nat := bitsAt b 121 4
def batFrom (b : Nat) : Nat := bitsAt b 101 20
def batTo (b : Nat) : Nat := bitsAt b 81 20
def batWcount (b : Nat) : Nat := bitsAt b 76 5
def batSameRow (b : Nat) : Bool := bitAt b 75
def batOtherSub (b : Nat) : Bool := bitAt b 74
def batTempX2 (b : Nat) : Bool := bitAt b 73
def batExempt (b : Nat) : Bool := bitAt b 72

/-- The spacing of trim set `t` (R151, R162). -/
def batSpacing (b t : Nat) : Nat := bitsAt b (24 + 12 * t) 12

/-- SCOPE of a batten after the clamps of R155. -/
def clampScope (kind scope : Nat) : Nat :=
  let s := min scope 8
  if kind = 1 ∨ kind = 3 then (if s ≤ 2 then 3 else if s = 5 then 4 else s) else s

/-- A batten after clamping: scope, window count, SAME_ROW, and the reserved bits (R56, R155). -/
def clampBatten (b : Nat) : Nat :=
  let sc := clampScope (batKind b) (batScope b)
  let b := setBits b 121 4 sc
  let b := if batKind b = 1 then setBits b 76 5 (clampTo 1 8 (batWcount b)) else b
  let b := if sc ≠ 0 then setBits b 75 1 0 else b
  setBits b 0 24 0

/-- TARGET, INDEX and SELECT of a mapping descriptor (R40). -/
def mapTarget (d : Nat) : Nat := bitsAt d 45 4
def mapIndex (d : Nat) : Nat := bitsAt d 40 5
def mapSelect (d : Nat) : Nat := bitsAt d 0 40

/-- A mapping descriptor after clamping: INDEX to 17, reserved bits zero (R42, R56). -/
def clampDesc (d : Nat) : Nat := setBits (setBits d 49 15 0) 40 5 (min 17 (mapIndex d))

/-! ### Fields of the image in force -/

/-- Fields of the topology section (R40). -/
def ChanImg.mtype (i : ChanImg) : Nat := nth0 i.topo 0
def ChanImg.dimms (i : ChanImg) : Nat := nth0 i.topo 1
def ChanImg.rpd (i : ChanImg) : Nat := nth0 i.topo 2
def ChanImg.stack (i : ChanImg) : Nat := nth0 i.topo 3
def ChanImg.density (i : ChanImg) : Nat := nth0 i.topo 4
def ChanImg.maxN (i : ChanImg) : Nat := nth0 i.topo 6
def ChanImg.setN (i : ChanImg) (t : Nat) : Nat := nth0 i.topo (8 + t)
def ChanImg.bringSet (i : ChanImg) : Nat := nth0 i.topo 12
def ChanImg.x8 (i : ChanImg) : Bool := typeX8 i.mtype
def ChanImg.mr (i : ChanImg) : Bool := typeMr i.mtype

/-- The pin bit that carries controller bit `k` of a subchannel (R40, R290). -/
def ChanImg.pinOf (i : ChanImg) (s : Sub) (k : Nat) : Nat := nth0 i.phy (40 * s.num + k)

/-- The bit of a code word that controller bit `k` carries on a beat (R214, R215). -/
def wordBit (x8 : Bool) (beat k : Nat) : Nat :=
  if x8 then 8 * (16 * (k / 8) + beat) + k % 8 else 8 * (8 * (k / 4) + beat / 2) + 4 * (beat % 2) + k % 4

/-- A code word as its burst on the pins: 16 beats, through the layout of R214 or R215 and the lane swizzle of R290. -/
def ChanImg.toPins (i : ChanImg) (s : Sub) (w : CodeWord) : PinBurst :=
  BitVec.ofNat 640 (sumOf ((List.range 640).map fun n =>
    b2n (bitAt w.toNat (wordBit i.x8 (n / 40) (n % 40))) * 2 ^ (40 * (n / 40) + i.pinOf s (n % 40))))

/-- The code word of a burst on the pins: the inverse of `toPins`. -/
def ChanImg.ofPins (i : ChanImg) (s : Sub) (p : PinBurst) : CodeWord :=
  BitVec.ofNat 640 (sumOf ((List.range 640).map fun n =>
    b2n (bitAt p.toNat (40 * (n / 40) + i.pinOf s (n % 40))) * 2 ^ wordBit i.x8 (n / 40) (n % 40)))

/-- Physical ranks of the channel, and the ranks by number (R58). -/
def ChanImg.ranks (i : ChanImg) : Nat := i.dimms * i.rpd
def ChanImg.rankList (i : ChanImg) : List Nat := List.range i.ranks

/-- Logical ranks of each physical rank. -/
def ChanImg.lranks (i : ChanImg) : List Nat := List.range i.stack

/-- The DIMM of a rank (R58). -/
def ChanImg.dimmOf (i : ChanImg) (r : Nat) : Nat := r / max 1 i.rpd

/-- Refresh mode, RFM, PRAC (R40), and the metadata region (R40, R65). -/
def ChanImg.sameBank (i : ChanImg) : Bool := nth0 i.upk 0 == 1
def ChanImg.rfmEn (i : ChanImg) : Bool := bitAt (nth0 i.upk 2) 0
def ChanImg.pracEn (i : ChanImg) : Bool := bitAt (nth0 i.upk 2) 1
def ChanImg.mdEn (i : ChanImg) : Bool := bitAt (nth0 i.loft 0) 0
def ChanImg.clearValue (i : ChanImg) : Meta := BitVec.ofNat 16 (leAt i.loft 2 2)

/-- Write CRC, read CRC and CA parity (R40, R260). -/
def ChanImg.wcrc (i : ChanImg) : Bool := bitAt (nth0 i.prot 0) 0
def ChanImg.rcrc (i : ChanImg) : Bool := bitAt (nth0 i.prot 0) 1
def ChanImg.capar (i : ChanImg) : Bool := bitAt (nth0 i.prot 0) 2

/-! ### Widths and capacity (R57, R63 to R65) -/

/-- log2 of 1, 2, 4 or 8. -/
def lg (n : Nat) : Nat := Nat.log2 n

/-- The width of the row field (R57). -/
def rowWidth (density : Nat) : Nat := if density = 16 then 16 else if density ≤ 32 then 17 else 18

/-- The device has only three quarters of its row space (R58). -/
def threeQuarter (density : Nat) : Bool := density == 24 || density == 48

/-- The widths of the seven target fields, by TARGET code (R40, R57). -/
def ChanImg.width (i : ChanImg) (t : Nat) : Nat :=
  if t = 0 then 1 else if t = 1 then lg i.ranks else if t = 2 then lg i.stack else if t = 3 then 3
  else if t = 4 then 2 else if t = 5 then rowWidth i.density else if t = 6 then (if i.x8 then 6 else 7) else 0

/-- The line address width L (R57). -/
def ChanImg.lw (i : ChanImg) : Nat := sumOf ((List.range 7).map i.width)

/-- The existing capacity E in lines (R63). -/
def ChanImg.cap (i : ChanImg) : Nat := if threeQuarter i.density then 3 * 2 ^ (i.lw - 2) else 2 ^ i.lw

/-- m of R64: the training reserve has 2^m lines. -/
def ChanImg.rsvBits (i : ChanImg) : Nat := 10 + lg (i.ranks * i.stack)

/-- The first line of the training reserve, and of the metadata region (R64). -/
def ChanImg.rsvBase (i : ChanImg) : Nat := i.cap - 2 ^ i.rsvBits
def ChanImg.mdBase (i : ChanImg) : Nat := if i.mdEn then i.rsvBase - i.cap / 32 else i.rsvBase

/-- The host-usable capacity U in lines (R65). -/
def ChanImg.usable (i : ChanImg) : Nat := i.mdBase

/-- Lines of the patrol range (R252). -/
def ChanImg.patrolLines (i : ChanImg) : Nat := i.rsvBase

/-- The live interval of the Thatcher that commit computes (R253). -/
def ChanImg.patrolInt (i : ChanImg) : Nat :=
  clampTo 1 65535 (leAt i.prot 6 2 * 360000000000 / max 1 i.patrolLines)

/-! ### Mapping (R59, R60, R69) -/

/-- The selection of one device-address bit over line-address bits: a descriptor's SELECT within CPA[L+5:6], or one of
the two row bits that the block supplies; 0 for a bit without a descriptor (R40, R59, R60). -/
def ChanImg.selOf (i : ChanImg) (t idx : Nat) : Nat :=
  if t = 5 ∧ idx + 1 = i.width 5 then 2 ^ (i.lw - 1)
  else if t = 5 ∧ idx + 2 = i.width 5 then 2 ^ (i.lw - 2)
  else
    match i.maps.find? (fun d => mapTarget d == t && mapIndex d == idx && d ≠ 0) with
    | some d => bitsAt (mapSelect d) 6 i.lw
    | none => 0

/-- The value of a target field for a line address (R59). -/
def ChanImg.field (i : ChanImg) (a t : Nat) : Nat :=
  sumOf ((List.range (i.width t)).map fun k => b2n (parity 34 (a &&& i.selOf t k)) * 2 ^ k)

/-- The subchannel of a bit. -/
def subOf (n : Nat) : Sub := if n = 0 then .a else .b

/-- The device address of a line address (R59 to R61). -/
def ChanImg.devOf (i : ChanImg) (a : Nat) : Dev :=
  { bank := Bank.mk (subOf (i.field a 0)) (i.field a 1) (i.field a 2) (i.field a 3) (i.field a 4),
    row := i.field a 5, col := i.field a 6 }

/-- Take out the first row whose mask holds bit `k`. -/
def pivotOut (k : Nat) : List (Nat × Bool) → Option ((Nat × Bool) × List (Nat × Bool))
  | [] => none
  | r :: rs =>
    if bitAt r.1 k then some (r, rs)
    else match pivotOut k rs with
      | some (p, rest) => some (p, r :: rest)
      | none => none

/-- Clear bit `k` of a row with the pivot. -/
def clearBit (k : Nat) (p r : Nat × Bool) : Nat × Bool :=
  if bitAt r.1 k then (r.1 ^^^ p.1, xor r.2 p.2) else r

/-- Gauss-Jordan elimination over GF(2) on the bits listed: each bit gets the row that owns it, or the system has no
unique solution. -/
def gaussJordan : List Nat → List (Nat × Bool) → List (Nat × Nat × Bool) → Option (List (Nat × Nat × Bool))
  | [], _, done => some done
  | k :: ks, rows, done =>
    match pivotOut k rows with
    | none => none
    | some (p, rest) =>
      gaussJordan ks (rest.map (clearBit k p))
        ((k, p) :: done.map fun d => (d.1, clearBit k p d.2))

/-- The selections of all L device-address bits with the value each must take. -/
def ChanImg.system (i : ChanImg) (vals : List Nat) : List (Nat × Bool) :=
  ((List.range 7).map fun t => (List.range (i.width t)).map fun k => (i.selOf t k, bitAt (nth0 vals t) k)).flatten

/-- The line address of a device address: the inverse mapping (R62, R69). -/
def ChanImg.lineOf (i : ChanImg) (vals : List Nat) : Nat :=
  match gaussJordan (List.range i.lw) (i.system vals) [] with
  | none => 0
  | some done => sumOf (done.map fun d => b2n d.2.2 * 2 ^ d.1)

/-- The field values of a device address, by TARGET code. -/
def Dev.vals (d : Dev) : List Nat :=
  [d.bank.sub.num, d.bank.rank, d.bank.lrank, d.bank.bg, d.bank.ba, d.row, d.col]

/-- A set of selections is linearly independent over GF(2). The first argument bounds the number of selections. -/
def independent : Nat → List Nat → Bool
  | _, [] => true
  | 0, _ :: _ => false
  | n + 1, v :: vs =>
    v != 0 && independent n (vs.map fun u => if bitAt u (Nat.log2 v) then u ^^^ v else u)

/-- The descriptors of a channel's image: the records that carry any bit (absent ones are zero, R56). -/
def mapOk (i : ChanImg) (descs : List Nat) : Bool :=
  let l := i.lw
  let names := descs.map fun d => (mapTarget d, mapIndex d)
  decide (i.cap * 64 ≤ 512 * 2 ^ 30) &&
  descs.all (fun d => decide (mapIndex d < i.width (mapTarget d)) &&
    !(mapTarget d == 5 && decide (i.width 5 ≤ mapIndex d + 2))) &&
  decide (names.eraseDups.length = names.length) &&
  decide (descs.length + 2 = l) &&
  independent 64 (descs.map fun d => bitsAt (mapSelect d) 6 (l - 2)) &&
  independent 64 (((descs.filter fun d => mapTarget d ≤ 2)).map fun d => bitsAt (mapSelect d) 6 i.rsvBits)

/-- The column address of a command on the CA bus: bit i of the column field is C(i + 4), and C[3:0] is zero (R58). -/
def Cmd.caCol (k : Cmd) : Nat := k.col * 16

/-- A device address and a line of one channel, from a line address. -/
def Chan.devOf (c : Chan) (a : LAddr) : Dev :=
  match c.img with
  | some i => i.devOf a.toNat
  | none => { bank := { sub := .a, rank := 0, lrank := 0, bg := 0, ba := 0 }, row := 0, col := 0 }

/-- The lines of the 512-line reserve of a rank's logical rank 0 on a subchannel, ascending (R64, R298). -/
def ChanImg.reserveLines (i : ChanImg) (sub : Sub) (rank : Nat) : List Nat :=
  ((List.range (2 ^ i.rsvBits)).map (i.rsvBase + ·)).filter fun a =>
    i.field a 0 == sub.num && i.field a 1 == rank && i.field a 2 == 0

/-- The metadata line of a line address (R262). -/
def ChanImg.mdLine (i : ChanImg) (a : Nat) : Nat := i.mdBase + a / 32

/-! ### Clock ratios (R15, R18) -/

/-- k of KCLK = RCK / k: the smallest of 2, 3, 4 for which KCLK does not exceed 1.6 GHz (R18). RCK is N × 100 MHz. -/
def kDiv (n : Nat) : Nat := if n ≤ 32 then 2 else if n ≤ 48 then 3 else 4

/-- DCLK per KCLK: RCK / k against RCK, or RCK / 2 on MRDIMM (R15), times 2 to stay whole. -/
def dclkPer2Kclk (mr : Bool) (n : Nat) : Nat := if mr then kDiv n else 2 * kDiv n

/-- A clock as the bridges see it: `num / den` × 100 MHz, with edge 0 `off` ps after a REFCLK edge. -/
structure BridgeClk where
  num : Nat
  den : Nat
  off : Nat
deriving DecidableEq, Repr

/-- The number of the first destination edge that lies at least 100 ps after source edge `i` (R19). The comparison is made
in units of 1 / (num of source × num of destination) ps, so that it is exact. -/
def captureEdge (src dst : BridgeClk) (i : Nat) : Nat :=
  let need := i * 10000 * src.den * dst.num + (src.off + 100) * src.num * dst.num
  let step := 10000 * dst.den * src.num
  (need - dst.off * src.num * dst.num + (step - 1)) / max 1 step

/-- A bridge schedule: one entry for each source edge of the hyperperiod of the two clocks (R19). -/
def bridgeOf (src dst : BridgeClk) : List Nat :=
  (List.range (src.num * dst.den / max 1 (Nat.gcd (src.num * dst.den) (dst.num * src.den)))).map (captureEdge src dst)

/-- The bridge schedules at M, φ and N (R19, R21). DESIGN CHOICE (log entry 88): KCLK and DCLK stand at phase 0, and RCLK edges
coincide with every fourth HCLK edge. -/
def bridgesAt (m phase : Nat) (mr : Bool) (n : Nat) : Bridges :=
  let h : BridgeClk := { num := m, den := 1, off := phase }
  let r : BridgeClk := { num := m, den := 4, off := phase }
  let k : BridgeClk := { num := n, den := kDiv n, off := 0 }
  let d : BridgeClk := { num := n, den := if mr then 2 else 1, off := 0 }
  { hk := bridgeOf h k, kh := bridgeOf k h, rk := bridgeOf r k, kr := bridgeOf k r, kd := bridgeOf k d, dk := bridgeOf d k }

/-- The bridge schedules of a channel at N are computed (R19). -/
def Chan.setBridges (e : Env) (n : Nat) (c : Chan) : Chan :=
  { c with bridges := match c.img with
      | some i => bridgesAt e.hclkM e.phase i.mr n
      | none => Reset.bridges }

/-- Burst length in DCLK: 8, or 4 on MRDIMM (R153). -/
def burstLen (mr : Bool) : Nat := if mr then 4 else 8

/-- The clamp of R17 that a level sets for a module type, with 6,400 MT/s at 2 DPC and the module's own maximum. -/
def ChanImg.clampN (i : ChanImg) (e : Env) : Nat :=
  let lvl := if i.mr then e.clampMr else e.clampRd
  let dpc := if i.dimms = 2 then 32 else 64
  min lvl (min dpc i.maxN)

end Sys2Proof.Machine
end

