-- ==== Sys2Proof/Machine/Rules.lean ====
section
/-! DEFINITION. The batten rules: bank sets and scopes, the four kinds of batten, holds, and the command that a hold waits for
(06, R153 to R161, R165). -/
namespace Sys2Proof.Machine

/-! ### Bank sets and relations (R153, R154) -/

/-- A bank stands in the bank set of a command (R153). A logical rank of 8 in the bank that names the set stands for every
logical rank of the physical rank. -/
def Cmd.covers (k : Cmd) (b : Bank) : Bool :=
  k.bank.sub == b.sub && k.bank.rank == b.rank &&
  match k.cls with
  | .act | .rd | .rda | .wr | .wra | .prepb | .wrp => k.bank == b
  | .presb | .refsb | .rfmsb => k.bank.lrank == b.lrank && k.bank.ba == b.ba
  | .preab | .refab | .rfmab | .mrw | .mrr | .mpc => k.bank.lrank == b.lrank || decide (8 ≤ k.bank.lrank)
  | .sre | .srx | .pde | .pdx => true

/-- A command that names a bank and nothing else. -/
def bareCmd (cls : CmdClass) (bank : Bank) : Cmd :=
  { cls := cls, bank := bank, row := 0, col := 0, time := 0, level := .upkeep, src := .upkeep, specAct := false, tries := 0 }

/-- A recorded time older than this counts as absent (R164). -/
def maxAge : Nat := 16383

/-- The bank set holds every logical rank of the physical rank. -/
def Cmd.lrAny (k : Cmd) : Bool :=
  k.cls == .sre || k.cls == .srx || k.cls == .pde || k.cls == .pdx || decide (8 ≤ k.bank.lrank)

/-- The bank set holds every bank group. -/
def Cmd.bgAny (k : Cmd) : Bool :=
  match k.cls with
  | .act | .rd | .rda | .wr | .wra | .prepb | .wrp => false
  | _ => true

/-- The bank set holds every bank index. -/
def Cmd.baAny (k : Cmd) : Bool :=
  match k.cls with
  | .act | .rd | .rda | .wr | .wra | .prepb | .wrp | .presb | .refsb | .rfmsb => false
  | _ => true

/-- Burst start of a class that has one (R153). -/
def Chan.burstStart (c : Chan) (k : CmdClass) : Option Nat :=
  match k with
  | .rd | .rda | .mrr => some c.fab.rl
  | .wr | .wra | .wrp => some c.fab.wl
  | _ => none

/-- Two commands relate under a scope, with OTHER_SUB as given (R154, R160). `dimm` is the DIMM of a rank. -/
def related (dimm : Nat → Nat) (scope : Nat) (other : Bool) (f k : Cmd) : Bool :=
  let sub := if other then f.bank.sub != k.bank.sub else decide (7 ≤ scope) || f.bank.sub == k.bank.sub
  let rk := f.bank.rank == k.bank.rank
  let lr := rk && (f.lrAny || k.lrAny || f.bank.lrank == k.bank.lrank)
  let bg := f.bgAny || k.bgAny || f.bank.bg == k.bank.bg
  let ba := f.baAny || k.baAny || f.bank.ba == k.bank.ba
  sub &&
  (if scope = 0 then lr && bg && ba
   else if scope = 1 then lr && bg
   else if scope = 2 then lr && (f.bgAny || k.bgAny || f.bank.bg != k.bank.bg)
   else if scope = 3 then lr
   else if scope = 4 then rk
   else if scope = 5 then !rk
   else if scope = 6 then true
   else if scope = 7 then dimm f.bank.rank == dimm k.bank.rank
   else true)

/-- The DIMM of a rank of the channel. -/
def Chan.dimm (c : Chan) (r : Nat) : Nat :=
  match c.img with
  | some i => i.dimmOf r
  | none => 0

/-- The enabled battens with their numbers. -/
def Chan.rules (c : Chan) : List (Nat × Nat) :=
  match c.img with
  | some i => ((List.range i.battens.length).zip i.battens).filter fun p => batEnable p.2
  | none => []

/-- The spacing in force for a candidate's rank (R161, R162). -/
def Chan.spacing (c : Chan) (b rank : Nat) : Nat :=
  batSpacing b c.fab.tset * (if batTempX2 b && bitAt c.fab.hot.toNat rank then 2 else 1)

/-! ### The kinds of batten (R156 to R160) -/

/-- Commands with a time before `t` that are not too old (R164). -/
def before (t : Nat) (l : List Cmd) : List Cmd := l.filter fun f => decide (f.time < t) && decide (t ≤ f.time + maxAge)

/-- What BURST adds to the time of a FROM command (R157). -/
def Chan.burstTerm (c : Chan) (b : Nat) (f : CmdClass) : Nat :=
  if batKind b = 2 then
    match c.burstStart f with
    | some s => s + c.fab.bld
    | none => 0
  else 0

/-- One FROM command does not bind the candidate later than its time (R156, R157). -/
def Chan.spaceOk (c : Chan) (b : Nat) (k f : Cmd) : Bool :=
  !(f.cls.inMask (batFrom b) && related c.dimm (batScope b) (batOtherSub b) f k) ||
    decide (f.time + c.burstTerm b f.cls + c.spacing b k.bank.rank ≤ k.time)

/-- A FROM command lies in the window of a WINDOW batten (R158). -/
def Chan.inWindow (c : Chan) (b : Nat) (k f : Cmd) : Bool :=
  f.cls.inMask (batFrom b) && related c.dimm (batScope b) (batOtherSub b) f k &&
    decide (k.time < f.time + c.spacing b k.bank.rank)

/-- The logical ranks of a candidate, one candidate for each, so that each instance is checked by itself. -/
def Chan.perLrank (c : Chan) (k : Cmd) : List Cmd :=
  if k.lrAny then
    match c.img with
    | some i => i.lranks.map fun l => { k with cls := .preab, bank := { k.bank with lrank := l } }
    | none => [k]
  else [k]

/-- A WINDOW batten allows the candidate (R158). -/
def Chan.windowOk (c : Chan) (b : Nat) (past : List Cmd) (k : Cmd) : Bool :=
  (if batScope b = 3 then c.perLrank k else [k]).all fun x => decide (countWhere (c.inWindow b x) past < batWcount b)

/-- The candidates that SAME_ROW checks (R160): a single bank when its row is that of the latest ACT to the bank, and each
open bank of a command that covers several. -/
def Chan.sameRow (c : Chan) (past : List Cmd) (k : Cmd) : List Cmd :=
  if k.bgAny then
    ((c.banks.filter fun p => (p.2.st == .opened || p.2.st == .opening) && k.covers p.1).map
      fun p => { k with cls := .prepb, bank := p.1 })
  else
    let acts := past.filter fun f => f.cls == .act && f.bank == k.bank
    let last := match acts.foldl (fun best f => match best with
        | some (g : Cmd) => if g.time < f.time then some f else best
        | none => some f) none with
      | some f => some f.row
      | none => (c.bank k.bank).rowLast
    if last = some k.row then [k] else []

/-- A batten of kind SPACE, WINDOW or BURST allows the candidate at its time. -/
def Chan.ruleOk (c : Chan) (b : Nat) (past : List Cmd) (k : Cmd) : Bool :=
  if batKind b = 3 || !k.cls.inMask (batTo b) then true
  else if batKind b = 1 then c.windowOk b past k
  else if batSameRow b then (c.sameRow past k).all fun x => past.all (c.spaceOk b x)
  else past.all (c.spaceOk b k)

/-! ### Holds (R159, R165) -/

/-- The instance of a hold as a command that covers it. -/
def Hold.asCmd (h : Hold) (scope : Nat) : Cmd := bareCmd (if scope ≤ 3 then .preab else .sre) h.inst

/-- The instances of a HOLD batten that hold a command's banks, each named by a bank with the other fields zero. -/
def Chan.holdInsts (c : Chan) (b : Nat) (k : Cmd) : List Bank :=
  let z : Bank := { sub := k.bank.sub, rank := k.bank.rank, lrank := 0, bg := 0, ba := 0 }
  let sc := batScope b
  if sc = 3 then (c.perLrank k).map fun x => { z with lrank := x.bank.lrank }
  else if sc = 4 then [z]
  else if sc = 6 then [{ z with rank := 0 }]
  else
    let sub := if batOtherSub b then k.bank.sub else .a
    [{ z with sub := sub, rank := if sc = 7 then c.dimm k.bank.rank * (match c.img with
      | some i => i.rpd
      | none => 1) else 0 }]

/-- A command ends the holds that it may end and starts those that it starts (R159). -/
def Chan.stepHolds (c : Chan) (hs : List Hold) (k : Cmd) : List Hold :=
  (c.rules.filter fun p => batKind p.2 == 3).foldl (fun hs p =>
    let b := p.2
    let hs := if k.cls.inMask (batTo b) then
      hs.filter fun h => !(h.batten == p.1 && related c.dimm (batScope b) (batOtherSub b) (h.asCmd (batScope b)) k)
      else hs
    if k.cls.inMask (batFrom b) then
      (c.holdInsts b k).foldl (fun hs z =>
        hs.filter (fun h => !(h.batten == p.1 && h.inst == z)) ++ [{ batten := p.1, inst := z, start := some k.time }]) hs
    else hs) hs

/-- A command ends a hold of the batten program (R159). -/
def Chan.endsHold (c : Chan) (k : Cmd) (h : Hold) : Bool :=
  match c.img with
  | none => false
  | some i =>
    let b := i.battens.getD h.batten 0
    k.cls.inMask (batTo b) && related c.dimm (batScope b) (batOtherSub b) (h.asCmd (batScope b)) k

/-- A command has a bank in the instance of a hold (R159, R165). -/
def Chan.inHold (c : Chan) (k : Cmd) (h : Hold) : Bool :=
  match c.img with
  | none => false
  | some i =>
    let b := i.battens.getD h.batten 0
    related c.dimm (batScope b) (batOtherSub b) (h.asCmd (batScope b)) k

/-- The holds that stand at time `t`: those of committed commands, then what the planned commands before `t` do. -/
def Chan.holdsAt (c : Chan) (plan : List Cmd) (t : Nat) : List Hold :=
  ((sortBy Cmd.time plan).filter fun k => decide (k.time < t)).foldl c.stepHolds c.fab.holds

/-- A standing hold allows the candidate: a class of TO, at least the spacing after the start (R159). -/
def Chan.holdOk (c : Chan) (k : Cmd) (h : Hold) : Bool :=
  match c.img with
  | none => true
  | some i =>
    let b := i.battens.getD h.batten 0
    if !batEnable b || !related c.dimm (batScope b) (batOtherSub b) (h.asCmd (batScope b)) k then true
    else k.cls.inMask (batTo b) &&
      match h.start with
      | some s => decide (s + c.spacing b k.bank.rank ≤ k.time)
      | none => true

end Sys2Proof.Machine
end

