-- ==== Sys2Proof/Machine/Queue.lean ====
section
/-! DEFINITION. The queues of a channel and what every family does with them: occupancy, responses, forwarding,
coalescing, same-line and same-row order, direction, dropping planned commands, and the channel going down
(04, 05, R249). -/
namespace Sys2Proof.Machine

/-! ### Requests (R73, R75, R76) -/

/-- What an OPCODE asks for (R75, R76). -/
inductive ReqOp where
  | read (op : RdOp)
  | write (op : WrOp)
  | md (op : MdOp)
  | sconf
  | scan
  | flush
  | bad
deriving DecidableEq, Repr

/-- OPCODE (R75). -/
def reqOpOf (n : Nat) : ReqOp :=
  if n = 1 then .read .rd else if n = 2 then .read .rds else if n = 3 then .sconf else if n = 4 then .scan
  else if n = 5 then .read .rdm else if n = 6 then .read .rdmu else if n = 8 then .write .wr
  else if n = 9 then .write .wrp else if n = 10 then .write .wrm else if n = 11 then .write .wrx
  else if n = 12 then .md .mdr else if n = 13 then .md .mdw else if n = 14 then .md .mdcas
  else if n = 16 then .flush else .bad

/-- The TYPEMASK bit of a request (R376). -/
def ReqOp.ty : ReqOp → Nat
  | .read op => op.ty
  | .write op => op.ty
  | _ => 8

/-- A write with a WDAT beat (R76). -/
def ReqOp.hasBeat : ReqOp → Bool
  | .write .wrx => false
  | .write _ => true
  | _ => false

/-- The request consumes a write-data credit (R76). -/
def ReqOp.isWrite : ReqOp → Bool
  | .write _ => true
  | _ => false

/-- The request has a metadata part (R268), and a LADDR (R66). -/
def ReqOp.hasMd : ReqOp → Bool
  | .read .rdm | .read .rdmu | .write .wrm | .md _ => true
  | _ => false
def ReqOp.hasAddr : ReqOp → Bool
  | .read _ | .write _ | .md _ => true
  | _ => false

/-- The request reads or writes the line itself (R268). -/
def ReqOp.hasLine : ReqOp → Bool
  | .read _ | .write _ => true
  | _ => false

/-- A 96-bit request flit taken apart: OPCODE, and the other fields; its bits [5:0] are ignored (R73). -/
def reqFlit (w : BitVec 96) : BitVec 5 × ReqFlit :=
  let at_ := fun lo n : Nat => bitsAt w.toNat lo n
  (BitVec.ofNat 5 (at_ 91 5),
    { tag := BitVec.ofNat 10 (at_ 81 10), cls := BitVec.ofNat 4 (at_ 77 4), priv := BitVec.ofNat 2 (at_ 75 2),
      spec := bitAt w.toNat 74, early := bitAt w.toNat 73, laddr := BitVec.ofNat 34 (at_ 38 34),
      mdnew := BitVec.ofNat 16 (at_ 22 16), mdexp := BitVec.ofNat 16 (at_ 6 16) })

/-! ### Occupancy (R115, R116, R196) -/

/-- The read entry belongs to a host request. -/
def RdEntry.isHost (r : RdEntry) : Bool :=
  match r.kind with
  | .host _ => true
  | _ => false

/-- The read entry is an RDS. -/
def RdEntry.isRds (r : RdEntry) : Bool := r.kind == .host .rds

/-- The metadata operation has no line part (R268). -/
def LoftOp.mdOnly (o : LoftOp) : Bool := o.kind == .mdr || o.kind == .mdw || o.kind == .mdcas

/-- MDR, MDW and MDCAS in flight. -/
def Chan.mdOnly (c : Chan) : Nat := countWhere LoftOp.mdOnly c.loft.ops

/-- Read-queue entries in use, and those of the host (R115). -/
def Chan.rqUsed (c : Chan) : Nat := c.rq.length + c.mdOnly + c.lane.flushes.length
def Chan.hostRq (c : Chan) : Nat := countWhere RdEntry.isHost c.rq + c.mdOnly + c.lane.flushes.length

/-- Host entries in the write queue. -/
def Chan.hostWq (c : Chan) : Nat := countWhere (fun w => w.src == .host) c.wq

/-- Reserved read-queue and write-queue entries in use (R115). -/
def Chan.resRq (c : Chan) : Nat := countWhere (fun r => !r.isHost) c.rq
def Chan.resWq (c : Chan) : Nat := countWhere (fun w => w.src != .host) c.wq

/-- The entry holds a speculative-hold entry, or a response-buffer line: that of a host read, or of a forwarded RDS (R116,
R138). -/
def RdEntry.usesHold (r : RdEntry) : Bool := r.isRds && r.reserved && !r.fwd
def RdEntry.usesRsp (r : RdEntry) : Bool := r.isHost && r.reserved && (!r.isRds || r.fwd)

/-- Speculative-hold entries and response-buffer lines in use (R116). -/
def Chan.holdUsed (c : Chan) : Nat := countWhere RdEntry.usesHold c.rq
def Chan.rspUsed (c : Chan) : Nat := countWhere RdEntry.usesRsp c.rq

/-- A column command of the read can have its line (R116): the line it has reserved, a hold entry for an RDS, a
response-buffer line for another host read; the block's own reads need none. -/
def Chan.lineFree (c : Chan) (r : RdEntry) : Bool :=
  r.reserved || (if r.isRds then decide (c.holdUsed < 48) else !r.isHost || decide (c.rspUsed < 96))

/-- The read can be forwarded: a host read takes a response-buffer line (R138). -/
def Chan.fwdFree (c : Chan) (r : RdEntry) : Bool := !r.isHost || decide (c.rspUsed < 96)

/-- The lowest number that is not in use (DESIGN CHOICE, log entry 95). -/
def freeIdx (used : List Nat) : Nat := ((List.range (used.length + 1)).find? fun i => !used.contains i).getD 0

/-- NRD and NWR of a bank: the lengths of its two lists (R118, R119). -/
def Chan.nrd (c : Chan) (b : Bank) : Nat := countWhere (fun r => r.stage == .queued && r.dev.bank == b) c.rq
def Chan.nwr (c : Chan) (b : Bank) : Nat := countWhere (fun w => !w.committed && w.dev.bank == b) c.wq

/-- OUT of a class (R196). -/
def Chan.outOf (c : Chan) (cls : Nat) : Nat :=
  nth0 c.lane.held cls + countWhere (fun r => r.isHost && r.cls == cls) c.rq +
    countWhere (fun o => o.mdOnly && o.cls == cls) c.loft.ops + countWhere (fun f => f.cls == cls) c.lane.flushes +
    countWhere (fun w => w.src == .host && w.cls == cls) c.wq

/-- Per-rank read-queue entries at or above the cap of R146. An entry that a FLUSH or a metadata operation holds names no rank
and counts toward none (DESIGN CHOICE, log entry 96). -/
def Chan.rankCapped (c : Chan) (r : Nat) : Bool :=
  decide (c.bal.rankCap * 192 / 100 ≤ countWhere (fun x => x.dev.bank.rank == r) c.rq)

/-- RANKCAP of CH_SCHED_STAT, and whether it shows any rank (R146, R208). -/
def Chan.rankCaps (c : Chan) : Nat :=
  match c.img with
  | none => 0
  | some i => sumOf (i.rankList.map fun r => b2n (c.rankCapped r) * 2 ^ r)

/-! ### The channel's condition -/

/-- The channel is down (R103). -/
def Chan.down (c : Chan) : Bool :=
  c.img.isNone || c.power.cur == .grounded || c.power.fatal || c.power.rst

/-- A power-down drain is in progress (R317). -/
def Chan.draining (c : Chan) : Bool :=
  match c.power.trans with
  | some t => t.ph == .drain
  | none => false

/-- The channel is in the write-back of the Loft on its way to Tethered or Grounded (R284). -/
def Chan.writingBack (c : Chan) : Bool :=
  match c.power.trans with
  | some t => t.ph == .writeBack
  | none => false

/-- A bring-up is in progress (R388), and its devices take commands through the tail: they are initialised (R166). -/
def Chan.bringing (c : Chan) : Bool :=
  match c.power.trans with
  | some t => t.ph == .bringUp
  | none => false
def Chan.bringPlans (c : Chan) : Bool := c.bringing && !c.upk.ranks.isEmpty

/-- The DRAM pins take their held or driven values; CK runs while they are driven (R304, R333). -/
def Chan.holdPins (h : PinHold) (c : Chan) : Chan := { c with pins := { c.pins with hold := h, ck := h == .driven } }

/-- The scheduler of the channel runs: up, and in Flight or writing back the Loft. -/
def Chan.running (c : Chan) : Bool := !c.down && (c.power.cur == .flight || c.writingBack)

/-- C15 sources hold their accesses at source: the ripcord cap or the ramp is in force (R203). -/
def Chan.sourcesHold (c : Chan) : Bool := decide (c.bal.pct < 100)

/-- CLASS as it is handled: C15 as C14 (R74). -/
def hostClass (n : Nat) : Nat := min 14 n

/-- The rank of a line's device address is fenced (R99). -/
def Chan.fenced (c : Chan) (rank : Nat) : Bool := bitAt c.seqr.fence.toNat rank

/-! ### Responses (R80 to R83) -/

/-- A response joins those that wait for the RSP link. -/
def Chan.push (c : Chan) (r : Rsp) : Chan := { c with lane := { c.lane with ready := c.lane.ready ++ [r] } }

/-- A response without a line. -/
def plainRsp (ty : RspType) (tag : Tag) (status due cls : Nat) : Rsp :=
  { ty := ty, tag := tag, status := status, poison := false, mdval := 0, line := none, due := due, cls := cls,
    priv := 0, req := 8, laddr := 0 }

/-- ERR codes of R99. -/
def errRange : Nat := 1
def errFenced : Nat := 2
def errCmdFail : Nat := 3
def errDown : Nat := 4
def errNoMd : Nat := 5
def errOpcode : Nat := 6

/-- A request of type `req` is answered with ERR within 4 HCLK (R99): the delay is free within its bound. -/
def Chan.pushErr (c : Chan) (f : ReqFlit) (req code : Nat) : Chan :=
  let (n, c) := c.fresh
  c.push { plainRsp .err f.tag code (c.lane.hclk + Config.errDelay n % 5) (hostClass f.cls.toNat) with
    priv := f.priv.toNat, req := req, laddr := f.laddr }

/-- A tag goes into use, and out of it (R84). -/
def Chan.useTag (c : Chan) (t : Tag) : Chan := { c with lane := { c.lane with inUse := c.lane.inUse ++ [t] } }
def Chan.freeTag (c : Chan) (t : Tag) : Chan := { c with lane := { c.lane with inUse := c.lane.inUse.erase t } }

/-- The TYPEMASK bit of a read entry (R376). -/
def RdEntry.req (r : RdEntry) : Nat :=
  match r.kind with
  | .host op => op.ty
  | _ => 9

/-- The DATA of a decoded line (R82). -/
def dataRsp (r : RdEntry) (d : Decoded) (due : Nat) : Rsp :=
  { ty := .data, tag := r.tag, status := d.outcome.num, poison := d.outcome.isBad, mdval := 0, line := some d.line,
    due := due, cls := r.cls, priv := r.priv, req := r.req, laddr := r.laddr }

/-! ### Entries -/

/-- Change the read entry, or the write entry, with a sequence number. -/
def Chan.modRd (c : Chan) (seq : Nat) (f : RdEntry → RdEntry) : Chan :=
  { c with rq := updateWhere (fun r => r.seq == seq) f c.rq }
def Chan.modWr (c : Chan) (seq : Nat) (f : WrEntry → WrEntry) : Chan :=
  { c with wq := updateWhere (fun w => w.seq == seq) f c.wq }

/-- Find a read or a write entry. -/
def Chan.findRd (c : Chan) (seq : Nat) : Option RdEntry := c.rq.find? fun r => r.seq == seq
def Chan.findWr (c : Chan) (seq : Nat) : Option WrEntry := c.wq.find? fun w => w.seq == seq

/-- Remove a read or a write entry. -/
def Chan.dropRd (c : Chan) (seq : Nat) : Chan := { c with rq := c.rq.filter fun r => r.seq != seq }
def Chan.dropWr (c : Chan) (seq : Nat) : Chan := { c with wq := c.wq.filter fun w => w.seq != seq }

/-- The next sequence number (R118). -/
def Chan.takeSeq (c : Chan) : Nat × Chan := (c.nextSeq, { c with nextSeq := c.nextSeq + 1 })

/-- Where a write entry stands in the order of its line: the place of its first host write in lane order, or its own number
(R88, R118). -/
def WrEntry.ord (w : WrEntry) : Nat :=
  match w.hosts.head? with
  | some h => h.seq
  | none => w.seq

/-- The entry `o` stands before `w` in the order of their line. One of the block's own writes enters the queue only where it
holds no write of the line (R241), so it stands before a host write placed beside it, also one captured earlier (R118). -/
def WrEntry.olderThan (o w : WrEntry) : Bool :=
  if o.hosts.isEmpty == w.hosts.isEmpty then decide (o.ord < w.ord) else o.hosts.isEmpty

/-- The last of some entries in the order of their line. -/
def newestOf (l : List WrEntry) : Option WrEntry :=
  l.foldl (fun best w => match best with
    | some (b : WrEntry) => if b.olderThan w then some w else best
    | none => some w) none

/-- The newest write of a line in the write queue that stands before a read numbered `seq`. -/
def Chan.newestWr (c : Chan) (a : LAddr) (seq : Nat) : Option WrEntry :=
  newestOf (c.wq.filter fun w => w.laddr == a && decide (w.ord < seq))

/-- The newest entry of a write's line that stands before the write. -/
def Chan.olderWr (c : Chan) (w : WrEntry) : Option WrEntry :=
  newestOf (c.wq.filter fun o => o.laddr == w.laddr && o.seq != w.seq && o.olderThan w)

/-- A same-line write before `seq` waits for its beat (R109). -/
def Chan.beatWaits (c : Chan) (a : LAddr) (seq : Nat) : Bool :=
  c.lane.beats.any fun b =>
    match b.wr with
    | some w => w.f.laddr == a && decide (w.seq < seq)
    | none => false

/-- The line of the write entry is complete: it is not in MERGE (R139, R144). -/
def WrEntry.complete (w : WrEntry) : Bool := w.merge == .no

/-! ### Internal errors (R230) -/

/-- The wrong words of an entry of an internal store, and how many bits of one are wrong. -/
def Chan.flaws (c : Chan) (store key : Nat) : List Upset := c.upsets.filter fun u => u.store == store && u.key == key
def Upset.bits (u : Upset) : Nat := popCount 79 u.mask

/-- Count the readout of a word with `bits` wrong bits, of which up to `ok` are corrected; IBUF_UE for more, with the code of the
store and the entry index (R230). -/
def Chan.ibuf (c : Chan) (bits ok code idx : Nat) : Chan :=
  if bits = 0 then c
  else if bits ≤ ok then { c with prot := { c.prot with ibufCorr := satAdd 0xFFFF c.prot.ibufCorr 1 } }
  else ({ c with prot := { c.prot with ibufUe := satAdd 0xFFFF c.prot.ibufUe 1 } }).raise evIbufUe
    (code * 2 ^ 16 + idx % 2 ^ 16)

/-- Every word of an entry is read out and checked (R230). The first answer says that some word cannot be corrected. -/
def Chan.readOut (c : Chan) (store key ok code idx : Nat) : Bool × Chan :=
  ((c.flaws store key).any fun u => decide (ok < u.bits),
    (c.flaws store key).foldl (fun c u => c.ibuf u.bits ok code idx) c)

/-- A buffered line as its readout gives it: a word that cannot be corrected is as it is stored (R82, R230). -/
def Chan.lineAsRead (c : Chan) (store key : Nat) (l : Line) : Line :=
  ((c.flaws store key).filter fun u => decide (2 < u.bits) && decide (u.word < 8)).foldl
    (fun l u => l ^^^ BitVec.ofNat 512 (u.mask % 2 ^ 64 * 2 ^ (64 * u.word))) l

/-- The words of an entry are written again. -/
def Chan.rewrite (c : Chan) (store key : Nat) : Chan :=
  { c with upsets := c.upsets.filter fun u => !(u.store == store && u.key == key) }

/-! ### Forwarding (R108, R109, R138, R139) -/

/-- What a forwarded read receives. -/
def WrEntry.forwarded (w : WrEntry) : Decoded :=
  { outcome := if w.psn then .poison else .clean, line := if w.psn then 0 else w.line, chips := 0, nsym := 0 }

/-- The buffer line of a write entry is read out and checked (R230). -/
def Chan.readBuf (c : Chan) (w : WrEntry) : Bool × Chan := c.readOut 0 w.seq 2 0 w.idx

/-- A read takes its line, with the lowest free number: a hold entry, or a response-buffer line (R116). -/
def Chan.reserve (c : Chan) (r : RdEntry) (fwd : Bool) : Chan :=
  let same := fun x : RdEntry => if r.isRds && !fwd then x.usesHold else x.usesRsp
  if r.reserved then c
  else
    let i := freeIdx ((c.rq.filter same).map RdEntry.idx)
    { c with rq := updateWhere (fun x => x.seq == r.seq) (fun x => { x with reserved := true, fwd := fwd, idx := i }) c.rq }

/-- A Loft fill receives its line. -/
def Chan.fillResult (c : Chan) (seq : Nat) (d : Decoded) : Chan :=
  { c with loft := { c.loft with
      fills := updateWhere (fun f => f.seq == seq) (fun f => { f with result := some d }) c.loft.fills } }

/-- A read is forwarded from a complete buffered write: a fill to the Loft, an unresolved RDS until it is resolved, any
other read to the port `delay` HCLK later. -/
def Chan.forward (c : Chan) (r : RdEntry) (w : WrEntry) (delay : Nat) : Chan :=
  let bad := (c.readBuf w).1
  let d := if bad then { w.forwarded with outcome := .ue, line := c.lineAsRead 0 w.seq w.line } else w.forwarded
  match r.kind with
  | .host op =>
    let c := c.log (occR 0x0C r.dev.bank.sub.num r.cls r.priv op.ty r.laddr)
    let c := (c.readBuf w).2.reserve r true
    if r.rds = .unresolved then c.modRd r.seq fun x => { x with stage := .inHold, result := some d }
    else
      (c.modRd r.seq fun x => { x with stage := .answered, result := some d }).push (dataRsp r d (c.lane.hclk + delay))
  | .fill => ((c.readBuf w).2.fillResult r.seq d).dropRd r.seq
  | .thatcher => c

/-- The newest uncommitted write of the bank to a different line in the row of a read (R142). -/
def Chan.rowMatch (c : Chan) (r : RdEntry) : Option Nat :=
  let m := c.wq.filter fun w =>
    !w.committed && w.dev.bank == r.dev.bank && w.dev.row == r.dev.row && w.laddr != r.laddr
  (m.map WrEntry.seq).max?

/-- The read is linked into the read list of its bank; a row match sets or moves ORD (R142). -/
def Chan.linkRd (c : Chan) (r : RdEntry) : Chan :=
  let c := c.modRd r.seq fun x => { x with stage := .queued }
  match c.rowMatch r with
  | none => c
  | some s => c.modBank r.dev.bank fun b => { b with ord := true, ordSeq := max s (if b.ord then b.ordSeq else 0) }

/-- A read that waits for no column command is served: it waits for a beat, is forwarded, waits for a merge or a free
line, or is linked into its bank list. -/
def Chan.serveRd (c : Chan) (r : RdEntry) (delay : Nat) : Chan :=
  if c.beatWaits r.laddr r.seq then c
  else if r.kind = .thatcher then c.linkRd r
  else
    match c.newestWr r.laddr r.seq with
    | none => c.linkRd r
    | some w => if w.complete && c.fwdFree r then c.forward r w delay else c

/-- Serve every read that waits outside the bank lists, oldest first. -/
def Chan.serveWaiting (c : Chan) (delay : Nat) : Chan :=
  (c.rq.filter fun r => r.stage == .waitBeat).foldl (fun c r => c.serveRd r delay) c

/-- Place a read entry: it takes its place, and is served at once if it can be (R118, R138). -/
def Chan.placeRd (c : Chan) (r : RdEntry) (delay : Nat) : Chan :=
  ({ c with rq := c.rq ++ [r] }).serveRd r delay

/-! ### Holding back and direction (R125, R126, R141) -/

/-- A read of the line numbered before `n` waits for its column command, a merge read of an older entry included (R141,
R144). -/
def Chan.readAhead (c : Chan) (w : WrEntry) : Bool :=
  (c.rq.any fun r => r.laddr == w.laddr && decide (r.seq < w.ord) && r.stage == .queued) ||
  c.wq.any fun o => o.laddr == w.laddr && o.olderThan w && o.merge == .need

/-- A write is held back: by an older read of its line (R141), or, so that the line's order stands (R88), by an older write of
it whose column command is not committed or whose beat has not come. -/
def Chan.heldBack (c : Chan) (w : WrEntry) : Bool :=
  c.readAhead w || (c.wq.any fun o => o.laddr == w.laddr && !o.committed && o.olderThan w) ||
  (!w.hosts.isEmpty && c.beatWaits w.laddr w.ord)

/-- The write is on a subchannel and its column command is not committed. -/
def WrEntry.waits (w : WrEntry) (s : Sub) : Bool := w.dev.bank.sub == s && !w.committed

/-- Some write of the subchannel can be a candidate: one that is not held back, or one in MERGE, whose merge read is offered
(R125). -/
def Chan.drainable (c : Chan) (s : Sub) : Bool :=
  c.wq.any fun w => w.waits s && (w.merge != .no || !c.heldBack w)

/-- A FLUSH is outstanding that covers a write of the subchannel (R126). -/
def Chan.flushForces (c : Chan) (s : Sub) : Bool :=
  c.lane.flushes.any fun f => c.wq.any fun w => w.waits s && (w.hosts.any fun h => f.covers.contains h.seq)

/-- The subchannel holds writes and no read at all (R126). -/
def Chan.onlyWrites (c : Chan) (s : Sub) : Bool :=
  c.wq.any (fun w => w.waits s) && !(c.rq.any fun r => r.dev.bank.sub == s)

def Sched.drain (h : Sched) (s : Sub) : Bool := if s = .a then h.drainA else h.drainB
def Sched.wm (h : Sched) (s : Sub) : Bool := if s = .a then h.wmA else h.wmB
def Sched.group (h : Sched) (s : Sub) : List Nat := if s = .a then h.groupA else h.groupB
def Sched.setDrain (h : Sched) (s : Sub) (d w : Bool) (g : List Nat) : Sched :=
  if s = .a then { h with drainA := d, wmA := w, groupA := g } else { h with drainB := d, wmB := w, groupB := g }

/-- Re-evaluate the direction mode of a subchannel: DRAIN by the watermarks while a write can be a candidate (R125), for a
FLUSH, for a power-down and for want of any read whatever can be chosen (R126); on entry into DRAIN its entries in MERGE form
the merge group (R144). -/
def Chan.direct (c : Chan) (s : Sub) : Chan :=
  let wm := c.drainable s &&
    (if c.sched.wm s then decide (c.sched.wmLow < c.wq.length) else decide (c.sched.wmHigh ≤ c.wq.length))
  let d := wm || c.flushForces s || (c.draining && c.wq.any fun w => w.waits s) || c.onlyWrites s
  let was := c.sched.drain s
  let g := if !d then [] else if was then c.sched.group s
    else (c.wq.filter fun w => w.waits s && w.merge == .need).map WrEntry.seq
  let c := { c with sched := c.sched.setDrain s d wm g }
  if d && !was then c.log (occ0 0x12 1 s.num) else c

/-- Both subchannels, A first. -/
def Chan.directAll (c : Chan) : Chan := (c.direct .a).direct .b

/-! ### Writes: acceptance and coalescing (R77, R79, R140, R144) -/

/-- The bytes of `new` where `be` is set, of `old` elsewhere. -/
def mergeLine (old new : Line) (be : BitVec 64) : Line :=
  BitVec.ofNat 512 (leBytes ((List.range 64).map fun i =>
    if be.getLsbD i then bitsAt new.toNat (8 * i) 8 else bitsAt old.toNat (8 * i) 8))

/-- All 64 byte enables. -/
def allBytes : BitVec 64 := BitVec.allOnes 64

/-- A read older than the write `n` waits to be forwarded from the entry `w` (R139, R140). -/
def Chan.readWaitsOn (c : Chan) (w n : WrEntry) : Bool :=
  c.rq.any fun r => r.stage == .waitBeat && r.laddr == w.laddr && decide (w.ord < r.seq) && decide (r.seq < n.ord)

/-- The older entry after a newer write of its line has coalesced into it (R140): the entry stays with the source that took
it, and its class and content follow the newer write. Once every byte is known the entry leaves MERGE. -/
def coalesce (w n : WrEntry) : WrEntry :=
  let w := { w with hosts := w.hosts ++ n.hosts, cls := if n.cls = 15 then w.cls else n.cls }
  if n.psn then
    { w with psn := true, line := 0, be := allBytes, merge := .no, part := none, patchW := n.patchW, loftW := w.loftW || n.loftW }
  else if n.be = allBytes then
    { w with psn := false, line := n.line, be := allBytes, merge := .no, part := none, patchW := n.patchW, loftW := n.loftW }
  else if w.psn then { w with loftW := w.loftW || n.loftW }
  else
    { w with
      line := mergeLine w.line n.line n.be, be := w.be ||| n.be, loftW := w.loftW || n.loftW,
      part := w.part.map fun p => (mergeLine p.1 n.line n.be, p.2 ||| n.be),
      merge := if w.be ||| n.be = allBytes ∧ w.merge ≠ .merged then .no else w.merge }

/-- A new write entry: its merge state from its enables and from an older entry of the line (R144). -/
def Chan.newWr (c : Chan) (w : WrEntry) : WrEntry :=
  if w.psn then { w with line := 0, be := allBytes, merge := .no }
  else if w.be = allBytes then { w with merge := .no }
  else
    match c.olderWr w with
    | some o => { w with merge := .older o.seq }
    | none => { w with merge := .need }

/-- A write takes an entry of its own, with the lowest free number (R118). -/
def Chan.enqueueWr (c : Chan) (w : WrEntry) : Chan :=
  { c with wq := c.wq ++ [c.newWr { w with idx := freeIdx (c.wq.map WrEntry.idx) }] }

/-- A write enters the write queue, or coalesces into the newest older entry of its line (R118, R140). It takes an entry of its
own also behind a write of the line that still waits for its beat (R88; DEDUCED, log entry 97). -/
def Chan.placeWr (c : Chan) (w : WrEntry) : Chan :=
  match c.olderWr w with
  | some o =>
    if !o.committed && !c.readWaitsOn o w && !(!w.hosts.isEmpty && c.beatWaits w.laddr w.ord) then
      (if w.psn || w.be = allBytes then c.rewrite 0 o.seq else c).modWr o.seq fun x => coalesce x w
    else c.enqueueWr w
  | none => c.enqueueWr w

/-- A write entry before it is placed. -/
def mkWr (seq : Nat) (src : WrSrc) (hosts : List HostWr) (cls : Nat) (a : LAddr) (dev : Dev) (line : Line)
    (be : BitVec 64) (psn : Bool) : WrEntry :=
  { seq := seq, src := src, hosts := hosts, cls := cls, laddr := a, dev := dev, line := line, be := be, psn := psn,
    patchW := src == .patch || src == .poisonWb, loftW := src == .evict || src == .repair, idx := 0,
    merge := .no, mread := .none, committed := false, onPins := false, reached := false, part := none, pinTime := 0, colOrd := 0,
    word := 0, retries := 0, resend := false }

/-- A read entry before it is placed. -/
def mkRd (seq : Nat) (kind : RdKind) (tag : Tag) (cls priv : Nat) (early spec : Bool) (a : LAddr) (dev : Dev)
    (age : Nat) (rds : RdsState) : RdEntry :=
  { seq := seq, kind := kind, tag := tag, cls := cls, priv := priv, early := early, spec := spec, laddr := a,
    dev := dev, age := age, urg := 0, stage := .waitBeat, rds := rds, reserved := false, fwd := false, idx := 0, pinTime := 0,
    colOrd := 0, origOrd := 0, word := 0, edata := false, retries := 0, result := none }

/-! ### The tail (R130, R131, R204) -/

/-- A command whose slot has reached position 3 is committed (R130). -/
def Chan.isCommitted (c : Chan) (k : Cmd) : Bool := decide (k.time ≤ c.dclk + 3)

/-- Planned, uncommitted commands. -/
def Chan.planned (c : Chan) : List Cmd := c.tail.filter fun k => !c.isCommitted k

/-- A host column command in the sense of R204: reads, writes, merge reads, and Loft fills and evictions of host
classes. -/
def Chan.isHostCol (c : Chan) (k : Cmd) : Bool :=
  k.cls.isCol &&
  match k.src with
  | .read s => match c.findRd s with
    | some r => r.cls != 15
    | none => false
  | .write s | .merge s => match c.findWr s with
    | some w => w.cls != 15
    | none => false
  | _ => false

/-- Depth of the token count (R204). -/
def Ballast.depth (b : Ballast) : Nat := if b.capped then 256 else 1024

/-- Tokens return for a dropped host column command, up to the depth (R204). -/
def Ballast.refund (b : Ballast) (s : Sub) : Ballast :=
  if s = .a then { b with tokA := min b.depth (b.tokA + 256) } else { b with tokB := min b.depth (b.tokB + 256) }

/-- The planned command `x` ends a hold that holds a bank of the later command `y` (R165). -/
def Chan.releases (c : Chan) (plan : List Cmd) (x y : Cmd) : Bool :=
  (c.holdsAt plan x.time).any fun h => c.endsHold x h && c.inHold y h

/-- The planned command `y` depends on the planned command `x` (R131, R165). -/
def Chan.dependsOn (c : Chan) (plan : List Cmd) (y x : Cmd) : Bool :=
  decide (x.time < y.time) &&
  (x.bank.sub == y.bank.sub &&
      ((x.cls == .act && y.cls.isCol && y.bank == x.bank) ||
       (x.cls.isPre && y.cls == .act && x.covers y.bank) ||
       ((x.cls == .pdx || x.cls == .srx) && y.bank.rank == x.bank.rank)) ||
    c.releases plan x y)

/-- The closure of a set of planned commands under dependence, in at most `n` rounds. -/
def Chan.cascade (c : Chan) (plan : List Cmd) : Nat → List Cmd → List Cmd
  | 0, d => d
  | n + 1, d => c.cascade plan n (plan.filter fun y => d.contains y || d.any fun x => c.dependsOn plan y x)

/-- What dropping one planned command undoes (R131, R204, R245): the tokens of a host column command, the reservation of a
read's line unless an earlier command of the read made it, and the place of a command that stands for retries. -/
def Chan.undo (c : Chan) (k : Cmd) : Chan :=
  let c := if c.isHostCol k then { c with bal := c.bal.refund k.bank.sub } else c
  match k.src with
  | .read s =>
    if k.cls.isCol then c.modRd s fun r => if r.origOrd = 0 then { r with reserved := false } else r else c
  | .upkeep | .clear =>
    if k.tries = 0 then c
    else { c with sched := { c.sched with replays := c.sched.replays ++
      [{ cls := k.cls, bank := k.bank, row := k.row, col := k.col, tries := k.tries }] } }
  | _ => c

/-- Drop the planned, uncommitted commands that satisfy `p`, with their dependents (R131, R132). -/
def Chan.drop (c : Chan) (p : Cmd → Bool) : Chan :=
  let d := c.cascade c.planned 16 (c.planned.filter p)
  let c := d.foldl Chan.undo c
  { c with tail := c.tail.filter fun k => c.isCommitted k || !d.contains k }

/-! ### The channel going down (R103, R249) -/

/-- Host writes whose CMP was sent and whose data is still in the write buffer (R249). -/
def Chan.lostWrites (c : Chan) : Nat :=
  sumOf (c.wq.map fun w => countWhere (fun h => h.cmpSent) w.hosts)

/-- The waiting ERR is the final response of its tag: CMD_FAIL of an RDM or RDMU is not (R101). -/
def Chan.finalErr (c : Chan) (r : Rsp) : Bool :=
  r.ty == .err && !(r.status == errCmdFail && c.loft.ops.any fun o => o.tag == r.tag && (o.kind == .rdm || o.kind == .rdmu))

/-- Every tag in use without a waiting final ERR receives ERR CHAN_DOWN; the other waiting responses are abandoned. -/
def Chan.failTags (c : Chan) : Chan :=
  let errs := c.lane.ready.filter c.finalErr
  let owed := c.lane.inUse.filter fun t => !(errs.any fun r => r.tag == t)
  { c with lane := { c.lane with
      ready := errs ++ owed.map fun t => plainRsp .err t errDown c.lane.hclk 0 } }

/-- A request that a channel that is down receives: ERR CHAN_DOWN; SCONF and SCAN are discarded (R103). -/
def Chan.refuseReq (c : Chan) (op : ReqOp) (f : ReqFlit) : Chan :=
  match op with
  | .sconf | .scan => c
  | o => (c.useTag f.tag).pushErr f o.ty errDown

/-- The requests of the wake store are answered by a channel that goes down (R103, R319). -/
def Chan.failWake (c : Chan) : Chan :=
  c.lane.wake.foldl (fun c x => match x with
    | .req op f => c.refuseReq (reqOpOf op.toNat) f
    | .beat _ => c) c

/-- The lane of a channel that goes down: no beat is expected and nothing else waits. -/
def Lane.shut (l : Lane) : Lane :=
  { l with beats := [], cmps := [], flushes := [], crstDue := false, crstAt := none, wake := [] }

/-- A latch pause is never dropped (R181): one under way waits again. -/
def Pause.waitingLatch (p : Pause) : Option Pause :=
  if p.kind = .zqLatch then some { p with running := false, cmds := [], endAt := 0 } else none

/-- The Loft stops: its operations, fills and evictions end (R103); its entries stay. -/
def Loft.abandon (l : Loft) : Loft :=
  { l with ops := [], fills := [], evicts := [], wball := [], wbBusy := false, stalled := false, closing := false }

/-- A committed write of a channel that goes down still puts its word on the pins (R24). -/
def WrEntry.leaving (w : WrEntry) : WrEntry := { w with hosts := [], resend := false, merge := .no, mread := .none }

/-- The queues empty: requests receive ERR CHAN_DOWN, planned commands are dropped, committed ones go to the pins
(R24, R103). A latch pause that waits stays waiting (R181). -/
def Chan.empty (c : Chan) : Chan :=
  let c := c.failTags.failWake
  { c with
    lane := c.lane.shut, rq := [],
    wq := (c.wq.filter fun w => w.committed && !w.onPins).map WrEntry.leaving, tail := c.tail.filter c.isCommitted, loft := c.loft.abandon,
    err := { c.err with patches := [] },
    sched := { c.sched with
      drainA := false, drainB := false, wmA := false, wmB := false, groupA := [], groupB := [], stopA := false,
      stopB := false, recA := [], recB := [], replays := [] },
    upk := { c.upk with pauses := c.upk.pauses.filterMap Pause.waitingLatch, polls := [], park := false, wake := false } }

/-- WRITE_LOST for the writes lost when the channel goes down other than by a reset (R249, R257). -/
def Chan.reportLost (c : Chan) : Chan :=
  if c.lostWrites = 0 then c else c.raise evWriteLost (3 * 2 ^ 15 + min 1023 c.lostWrites)

/-- A fatal event of the channel: the channel is down until a channel reset (R103, R313). -/
def Chan.fatal (c : Chan) : Chan :=
  if c.down then c
  else
    let c := c.reportLost.empty
    { c with power := { c.power with fatal := true, trans := none }, trim := { c.trim with shift := none } }

end Sys2Proof.Machine
end

