-- ==== Sys2Proof/Machine/Ballast.lean ====
section
/-! DEFINITION. Ballast: classes, windows, allocation, credit grants, modes, and the host column budget (08). -/
namespace Sys2Proof.Machine

/-! ### Classes and their parameters (R190, R193, R203) -/

/-- The live parameters of class `n`. -/
def Ballast.cls (b : Ballast) (n : Nat) : ClassSt := b.classes.getD n (Reset.classSt n)

/-- Change class `n`. -/
def Ballast.modCls (b : Ballast) (n : Nat) (f : ClassSt → ClassSt) : Ballast :=
  { b with classes := updateAt n f b.classes }

/-- A line of class `n` has its column command committed (R191). -/
def Ballast.serve (b : Ballast) (n : Nat) : Ballast := b.modCls n fun k => { k with served := k.served + 1 }

/-- A class consumed a request credit (R194). -/
def Ballast.use (b : Ballast) (n : Nat) : Ballast := b.modCls n fun k => { k with usedNow := true }

/-- The patrol rate in lines per window, rounded up (R203, R253). -/
def Chan.patrolRate (c : Chan) : Nat := (400 + c.th.int - 1) / max 1 c.th.int

/-- MINL of a class; of C15, at least the patrol rate (R193, R203). -/
def Chan.minl (c : Chan) (n : Nat) : Nat :=
  let m := (c.bal.cls n).minbw * 25 / 4
  if n = 15 then max m c.patrolRate else m

/-- A class is active (R194). -/
def Chan.active (c : Chan) (n : Nat) : Bool :=
  if n = 15 then (c.th.enable && c.running) || !c.err.patches.isEmpty || c.wq.any (fun w => w.src == .patch)
  else (c.bal.cls n).usedNow || (c.bal.cls n).usedPrev

/-! ### Grants (R196 to R200, R202, R203) -/

/-- The sum of HELD. -/
def Chan.heldSum (c : Chan) : Nat := sumOf c.lane.held

/-- Captured writes whose beat has not come: their credits keep their backing until they enter the write queue (R196). -/
def Chan.waitingWr (c : Chan) : Nat := countWhere (fun b => b.wr.isSome) c.lane.beats

/-- The level of R197: 0 GREEN, 1 AMBER, 2 RED. -/
def Chan.occLevel (c : Chan) : Nat := if c.hostRq ≤ 87 then 0 else if c.hostRq ≤ 131 then 1 else 2

/-- The largest RCOUNT of a level (R197). -/
def grantSize (level : Nat) : Nat := if level = 0 then 15 else if level = 1 then 4 else 1

/-- QS of a class in SHARE mode, never above LIMIT (R202). -/
def Ballast.qs (b : Ballast) (n : Nat) : Nat :=
  let ws := sumOf ((List.range 15).map fun i => (b.cls i).weight)
  min (b.cls n).limit (max 1 (176 * (b.cls n).weight / max 1 ws))

/-- SERVED of C15 is behind its AMIN for the elapsed part of the window (R203). -/
def Chan.patrolBehind (c : Chan) (win : Nat) : Bool :=
  decide ((c.bal.cls 15).served * 400 < (c.bal.cls 15).amin * win)

/-- Request credits are granted at all: Flight, no drain, no rank at its cap (R198, R208). -/
def Chan.grants (c : Chan) : Bool := c.running && c.power.trans.isNone && c.rankCaps == 0

/-- The class and count of request credits for the flit of this HCLK (R198). -/
def Chan.grant (c : Chan) (win : Nat) : Option (Nat × Nat) :=
  let used := c.heldSum + c.hostRq + c.waitingWr
  if !c.grants || decide (176 ≤ used) then none
  else
    let free := 176 - used
    let level := c.occLevel
    let size := grantSize level
    let b := c.bal
    let bw := b.mode == 0
    let elig := (List.range 15).filter fun n => decide (c.outOf n < (b.cls n).limit)
    let got := fun n => (b.cls n).served + c.outOf n
    let step1 := if bw then elig.find? fun n => c.active n && decide (got n < (b.cls n).amin) else none
    match step1 with
    | some n => some (n, min (min size free) (min ((b.cls n).limit - c.outOf n) ((b.cls n).amin - got n)))
    | none =>
      match elig.find? fun n => c.outOf n == 0 with
      | some n => some (n, 1)
      | none =>
        if level = 2 ∨ (bw ∧ level ≠ 0 ∧ c.patrolBehind win) then none
        else
          let pool := if bw then elig.filter fun n => decide (level = 0) || decide (got n < (b.cls n).alloc)
            else elig.filter fun n => decide (c.outOf n < b.qs n)
          let key := fun n => (if bw then got n else c.outOf n) * 256 / max 1 (b.cls n).weight
          match leastBy key pool with
          | none => none
          | some n =>
            some (n, min (min size free) (if bw then (b.cls n).limit - c.outOf n else b.qs n - c.outOf n))

/-- WCOUNT of a flit (R200). -/
def Chan.wgrant (c : Chan) : Nat :=
  if c.running && c.power.trans.isNone then min 15 (120 - (c.lane.wheld + c.hostWq + c.waitingWr)) else 0

/-- The credits of a flit join HELD and WHELD (R85, R199). -/
def Chan.giveCredits (c : Chan) (g : Option (Nat × Nat)) (w : Nat) : Chan :=
  { c with lane := { c.lane with
      held := match g with
        | some (n, k) => updateAt n (· + k) c.lane.held
        | none => c.lane.held,
      wheld := c.lane.wheld + w } }

/-! ### Modes (R201) -/

/-- Entry into MODE 3 or 4 takes effect in the next HCLK, MODE 3 also where MODE 4 is left with a rank fenced (R201). -/
def Chan.modeNow (c : Chan) : Chan :=
  let m := if c.bal.forceShare then 4 else if c.seqr.fence ≠ 0 then 3 else 0
  if m ≠ 0 ∧ c.bal.mode ≠ m then { c with bal := { c.bal with mode := m, validRun := 0 } } else c

/-- A mode that takes effect at the next window boundary (R201). -/
def Ballast.ask (b : Ballast) (m : Nat) : Ballast := { b with modeReq := max b.modeReq m }

/-- The mode of the next window (R201). `valid` says whether the window that ends is valid. -/
def Chan.nextMode (c : Chan) (valid : Bool) : Chan :=
  let b := c.bal
  let run := if valid then b.validRun + 1 else 0
  let b := { b with validRun := run, modeReq := 0 }
  let b :=
    if b.forceShare then { b with mode := 4 }
    else if c.seqr.fence ≠ 0 then { b with mode := 3 }
    else if c.bal.modeReq = 2 ∨ b.mode = 3 ∨ b.mode = 4 then { b with mode := 2, validRun := 0 }
    else if c.bal.modeReq = 1 ∧ b.mode = 0 then { b with mode := 1, validRun := 0 }
    else if (b.mode = 1 ∨ b.mode = 2) ∧ 2 ≤ run then { b with mode := 0 }
    else b
  { c with bal := b }

/-! ### Windows (R191 to R195) -/

/-- PEAK_L: the data rate in MT/s over 2 (R193). -/
def Chan.peakL (c : Chan) : Nat := 100 * c.trim.nCur

/-- The ripcord cap or the ramp limits DB of the window that starts (R193, R195). -/
def Chan.dbLimited (c : Chan) : Bool :=
  (c.bal.capped || c.bal.ramp) && decide (c.bal.pct * c.peakL / 100 < c.bal.eff * c.peakL / 1000)

/-- DB of a window (R193). -/
def Chan.deliverable (c : Chan) : Nat :=
  if c.dbLimited then c.bal.pct * c.peakL / 100 else c.bal.eff * c.peakL / 1000

/-- AMIN of the classes from `ns` on, with `rem` lines left (R194). -/
def amins (minl : Nat → Nat) (active : Nat → Bool) : List Nat → Nat → List Nat
  | [], _ => []
  | n :: ns, rem =>
    let a := if active n then min (minl n) rem else 0
    a :: amins minl active ns (rem - a)

/-- The window that ends is valid (R192). -/
def Ballast.windowValid (b : Ballast) : Bool :=
  decide (2 * b.dclkCnt ≤ 8 * (b.dataCnt + b.waitCnt)) && decide (0 < b.dataCnt + b.waitCnt)

/-- The end of a window: EFF, and SERVED and ALLOC published (R192, R194, R209, R210). -/
def Chan.endWindow (c : Chan) : Chan :=
  let b := c.bal
  let eff := if b.windowValid then (b.eff + b.dataCnt * 1000 / (b.dataCnt + b.waitCnt)) / 2 else b.eff
  { c with bal := { b with
      eff := eff, dataCnt := 0, waitCnt := 0, dclkCnt := 0,
      classes := b.classes.map fun k =>
        { k with
          servedPub := k.served, allocPub := if b.mode = 0 then k.alloc else 0, served := 0, usedPrev := k.usedNow,
          usedNow := false, minbw := k.minbwNext, weight := k.weightNext } } }

/-- BALLAST_SHORTFALL (R195): a mask that differs from the last event's, or 256 windows after it. -/
def Chan.shortfall (c : Chan) (mask : Nat) : Chan :=
  let c := { c with bal := { c.bal with short := mask, sinceEv := c.bal.sinceEv + 1 } }
  if mask ≠ 0 ∧ (c.bal.lastMask ≠ some mask ∨ 256 ≤ c.bal.sinceEv) then
    ({ c with bal := { c.bal with lastMask := some mask, sinceEv := 0 } }).raise evShortfall
      (mask + b2n c.dbLimited * 2 ^ 16)
  else c

/-- The start of a window: DB and, in BANDWIDTH mode, the allocation (R193 to R195). -/
def Chan.startWindow (c : Chan) : Chan :=
  let db := c.deliverable
  let ns := List.range 16
  let bw := c.bal.mode == 0
  let am := if bw then amins c.minl c.active ns db else ns.map fun _ => 0
  let rem := db - sumOf am
  let ws := sumOf (ns.map fun n => if c.active n then (c.bal.cls n).weight else 0)
  let al := ns.map fun n => if bw && c.active n then nth0 am n + rem * (c.bal.cls n).weight / max 1 ws else 0
  let mask := sumOf (ns.map fun n => b2n (bw && c.active n && decide (nth0 am n < c.minl n)) * 2 ^ n)
  let c := { c with bal := { c.bal with
      db := db,
      classes := ns.map fun n => { c.bal.cls n with amin := nth0 am n, alloc := nth0 al n } } }
  c.shortfall mask

/-- A window boundary for a channel. -/
def Chan.window (c : Chan) : Chan :=
  if c.img.isNone then c
  else
    let v := c.bal.windowValid
    (c.endWindow.nextMode v).startWindow

/-! ### The host column budget (R204 to R207) -/

/-- TOK of a subchannel. -/
def Ballast.tok (b : Ballast) (s : Sub) : Nat := if s = .a then b.tokA else b.tokB
def Ballast.setTok (b : Ballast) (s : Sub) (n : Nat) : Ballast :=
  if s = .a then { b with tokA := n } else { b with tokB := n }

/-- The budget allows a host column command (R204). -/
def Chan.budgetOk (c : Chan) (s : Sub) : Bool := decide (100 ≤ c.bal.pct) || decide (256 ≤ c.bal.tok s)

/-- Planning a host column command (R204). -/
def Chan.pay (c : Chan) (s : Sub) : Chan :=
  if c.bal.pct < 100 then { c with bal := c.bal.setTok s (c.bal.tok s - 256) } else c

/-- RATE, in units per KCLK (R204). -/
def Chan.tokRate (c : Chan) : Nat :=
  let mr := match c.img with
    | some i => i.mr
    | none => false
  256 * c.bal.pct * dclkPer2Kclk mr c.trim.nCur / (200 * max 1 c.fab.bld)

/-- A KCLK of the budget on both subchannels (R204). -/
def Chan.refill (c : Chan) : Chan :=
  if c.bal.pct < 100 then
    { c with bal := { c.bal with
        tokA := min c.bal.depth (c.bal.tokA + c.tokRate), tokB := min c.bal.depth (c.bal.tokB + c.tokRate) } }
  else { c with bal := { c.bal with tokA := c.bal.depth, tokB := c.bal.depth } }

/-- The earliest planned host column command of a subchannel is kept; every later one is dropped (R205). -/
def Chan.capPlan (c : Chan) (s : Sub) : Chan :=
  match leastBy Cmd.time (c.planned.filter fun k => k.bank.sub == s && c.isHostCol k) with
  | none => c
  | some k => c.drop fun x => x.bank.sub == s && c.isHostCol x && decide (k.time < x.time)

/-- The DCLK in which the burst of a column command has ended. -/
def Chan.burstEnd (c : Chan) (k : Cmd) : Nat :=
  k.time + (if k.cls = .wr ∨ k.cls = .wra then c.fab.wl else c.fab.rl) + c.fab.bld

/-- A shift pause is in progress (R304). -/
def Chan.shifting (c : Chan) : Bool :=
  match c.trim.shift with
  | some p => p != .due
  | none => false

/-- A shift pause or a retrim pause holds a subchannel (R207). -/
def Chan.capFree (c : Chan) (s : Sub) : Bool :=
  c.shifting || c.upk.pauses.any fun p => p.running && p.kind == .retrim && p.sub == s

/-- The DCLK in which every burst of a committed host column command has ended, on the subchannels that no pause of R207 holds
(R205). -/
def Chan.burstsEnd (c : Chan) : Nat :=
  ((c.tail.filter c.isCommitted ++ c.fab.hist).filter fun k => c.isHostCol k && !c.capFree k.bank.sub).foldl
    (fun m k => max m (c.burstEnd k)) 0

/-- The ripcord request reaches a channel (R205, R207). -/
def Chan.cap (e : Env) (c : Chan) : Chan :=
  let c := { c with bal := { c.bal with pct := e.cap, capped := true, ramp := false, tokA := 0, tokB := 0 } }
  if c.running then
    let ends := c.burstsEnd
    let step2 := fun (s : Sub) (c : Chan) => if c.capFree s then c else c.capPlan s
    let c := step2 .b (step2 .a c)
    { c with bal := { c.bal with capPend := if ends ≤ c.dclk then none else some ends } }
  else { c with bal := { c.bal with capPend := none } }

/-- The channel can report capped (R205, R332). -/
def Chan.capDone (c : Chan) : Bool :=
  match c.bal.capPend with
  | none => true
  | some d => decide (d ≤ c.dclk) || !c.running || c.shifting

/-- The ripcord request is released: the ramp starts (R206). -/
def Chan.release (c : Chan) : Chan :=
  { c with bal := { c.bal with capped := false, ramp := decide (c.bal.pct < 100) } }

/-- A ramp step (R206). -/
def Chan.rampUp (step : Nat) (c : Chan) : Chan :=
  if c.bal.ramp then
    let p := min 100 (c.bal.pct + step)
    { c with bal := { c.bal with pct := p, ramp := decide (p < 100) } }
  else c

end Sys2Proof.Machine
end

