-- ==== Sys2Proof/Machine/Slate.lean ====
section
/-! DEFINITION. What a decode sets in motion: the counts, the Slate, the chip counters, patch writes, the UE record and
the events of data errors (09 R231 to R233, 10 R235 to R243, R257, R258). -/
namespace Sys2Proof.Machine

/-! ### Chip marks and flip masks (R223, R231, R233) -/

/-- The chip mark in force on a subchannel (R223). -/
def Chan.mark (c : Chan) (s : Sub) : Option Nat :=
  let p := c.prot
  let m := if s = .a then (if p.markAEn then some p.markA else none) else (if p.markBEn then some p.markB else none)
  m

/-- The module is x8 (R215). -/
def Chan.x8 (c : Chan) : Bool :=
  match c.img with
  | some i => i.x8
  | none => false

/-- The armed copy as a code word (R233). -/
def Protect.flipWord (p : Protect) : CodeWord :=
  BitVec.ofNat 640 (sumOf ((List.range 20).map fun i => (p.armed.getD i 0).toNat * 2 ^ (32 * i)))

/-- A code word passes the injection point of `mode` on a subchannel (R233): it is altered while REMAIN lasts. `host` says
that it belongs to a host access. -/
def Chan.inject (c : Chan) (mode : Nat) (s : Sub) (host : Bool) (w : CodeWord) : CodeWord × Chan :=
  let p := c.prot
  if p.flipMode = mode ∧ p.flipRemain ≠ 0 ∧ p.flipSub = decide (s = .b) ∧ (p.flipSrc ∨ host) then
    (w ^^^ p.flipWord, { c with prot := { p with flipRemain := p.flipRemain - 1 } })
  else (w, c)

/-- Count an outcome (R231, R235). -/
def Chan.countOutcome (c : Chan) (s : Sub) (o : Outcome8) : Chan :=
  let p := c.prot
  let inc := fun n => satAdd 0xFFFF n 1
  let p :=
    if o.isCorr then (if s = .a then { p with corrA := inc p.corrA } else { p with corrB := inc p.corrB })
    else if o = .ue then (if s = .a then { p with ueA := inc p.ueA } else { p with ueB := inc p.ueB })
    else if o = .poison then (if s = .a then { p with psnA := inc p.psnA } else { p with psnB := inc p.psnB })
    else p
  { c with prot := p }

/-! ### Sources (R258) -/

def srcHost : Nat := 0
def srcScan : Nat := 1
def srcMerge : Nat := 2
def srcFill : Nat := 3
def srcThatch : Nat := 4

/-- What a decode belongs to: its line and device address, SOURCE, PRIV, and the commit order of its column command. -/
structure Origin where
  laddr : LAddr
  dev : Dev
  src : Nat
  priv : Nat
  colOrd : Nat
deriving DecidableEq, Repr

/-- Bits [18:12] of an information field: SOURCE, SUB and rank (R257). -/
def whereInfo (src : Nat) (d : Dev) : Nat := src * 2 ^ 16 + d.bank.sub.num * 2 ^ 15 + d.bank.rank * 2 ^ 12

/-! ### Chip counters (R240) -/

/-- The counter of a chip: LINES and SUSPECT. -/
def ErrCtl.chip (k : ErrCtl) (s : Sub) (rank chip : Nat) : Nat × Bool :=
  match k.chipCnt.find? fun x => x.1 == s && x.2.1 == rank && x.2.2.1 == chip with
  | some x => (x.2.2.2.1, x.2.2.2.2)
  | none => (0, false)

/-- The position of a chip counter in the list. -/
def chipKey (x : Sub × Nat × Nat × Nat × Bool) : Nat := (x.1.num * 8 + x.2.1) * 16 + x.2.2.1

/-- Write a chip counter; one at zero is not listed. -/
def ErrCtl.setChip (k : ErrCtl) (s : Sub) (rank chip lines : Nat) (sus : Bool) : ErrCtl :=
  let l := k.chipCnt.filter fun x => !(x.1 == s && x.2.1 == rank && x.2.2.1 == chip)
  { k with chipCnt := if lines = 0 ∧ sus = false then l else insertBy chipKey (s, rank, chip, lines, sus) l }

/-- A chip counter increments; at the live CSUS it sets SUSPECT and raises CHIP_SUSPECT (R240). -/
def Chan.bumpChip (s : Sub) (rank : Nat) (c : Chan) (chip : Nat) : Chan :=
  let (n, sus) := c.err.chip s rank chip
  let n := satAdd 127 n 1
  let hit := decide (c.err.csus ≤ n) && !sus
  let c := { c with err := c.err.setChip s rank chip n (sus || hit) }
  if hit then c.raise evChipSuspect (s.num * 2 ^ 15 + rank * 2 ^ 12 + n * 2 ^ 4 + chip) else c

/-- The chips of a mask, each counted once. -/
def Chan.bumpChips (c : Chan) (d : Dev) (mask : Nat) : Chan :=
  ((List.range 10).filter fun i => bitAt mask i).foldl (Chan.bumpChip d.bank.sub d.bank.rank) c

/-! ### The Slate (R236 to R239) -/

/-- OUTCOME of a Slate entry. -/
def slateOutcome (o : Outcome8) : Nat := if o = .corrSym then 0 else if o = .corrChip then 1 else 2

/-- The valid entry of a line. -/
def ErrCtl.find (k : ErrCtl) (a : LAddr) : Option Nat :=
  (List.range 32).find? fun i =>
    let x := k.slate.getD i Reset.slateEntry
    x.valid && x.laddr == a

/-- The entry at an index. -/
def ErrCtl.entry (k : ErrCtl) (i : Nat) : SlateEntry := k.slate.getD i Reset.slateEntry

/-- A write of the line was committed after `lo` and before `hi` in commit order. -/
def ErrCtl.wroteBetween (k : ErrCtl) (a : LAddr) (lo hi : Nat) : Bool :=
  k.lastWrite.any fun x => x.1 == a && decide (lo < x.2) && decide (x.2 < hi)

/-- A write of the line was committed after `lo` in commit order. -/
def ErrCtl.wroteSince (k : ErrCtl) (a : LAddr) (lo : Nat) : Bool :=
  k.lastWrite.any fun x => x.1 == a && decide (lo < x.2)

/-- The entry that a new line takes (R238): the lowest invalid one; else, of those with PERSIST clear, the one with the
lowest HITS, then the oldest LAST, then the lowest index. -/
def ErrCtl.victim (k : ErrCtl) : Option Nat :=
  match (List.range 32).find? fun i => !(k.entry i).valid with
  | some i => some i
  | none => leastBy (fun i => (k.entry i).hits * 2 ^ 32 + (k.entry i).last)
      ((List.range 32).filter fun i => !(k.entry i).persist)

/-- Replace a Slate entry. -/
def ErrCtl.put (k : ErrCtl) (i : Nat) (x : SlateEntry) : ErrCtl := { k with slate := updateAt i (fun _ => x) k.slate }

/-- A correction at a line that has an entry (R237, R239). -/
def Chan.slateAgain (e : Env) (c : Chan) (o : Origin) (d : Decoded) (i : Nat) : Chan :=
  let x := c.err.entry i
  let fresh := d.chips &&& (0x3FF - x.chips % 0x400)
  let hit := !c.err.patch || c.err.wroteBetween o.laddr x.hitOrd o.colOrd
  let x := { x with
    last := e.us, source := o.src, outcome := slateOutcome d.outcome, chips := x.chips ||| d.chips,
    maxsym := max x.maxsym (min 15 d.nsym) }
  let x := if hit then { x with hits := satAdd 15 x.hits 1, hitOrd := o.colOrd } else x
  let fire := hit && decide (c.err.pthr ≤ x.hits) && !x.persist
  let c := { c with err := c.err.put i { x with persist := x.persist || fire } }
  let c := c.bumpChips o.dev fresh
  if fire then c.raise evPersistent (o.dev.bank.sub.num * 2 ^ 15 + o.dev.bank.rank * 2 ^ 12 + i * 2 ^ 5) else c

/-- A correction at a new line (R237, R238). -/
def Chan.slateNew (e : Env) (c : Chan) (o : Origin) (d : Decoded) : Chan :=
  match c.err.victim with
  | none => ({ c with err := { c.err with notLogged := satAdd 0xFFFF c.err.notLogged 1 } }).bumpChips o.dev d.chips
  | some i =>
    let x : SlateEntry :=
      { valid := true, persist := false, sub := o.dev.bank.sub, phold := false, pholdUntil := 0, priv := o.priv,
        source := o.src, hits := 1, outcome := slateOutcome d.outcome, chips := d.chips, maxsym := min 15 d.nsym,
        first := e.us, last := e.us, laddr := o.laddr, rank := o.dev.bank.rank, hitOrd := o.colOrd }
    let c := ({ c with err := c.err.put i x }).bumpChips o.dev d.chips
    c.raise evCeNew (whereInfo o.src o.dev + slateOutcome d.outcome * 2 ^ 10 + i * 2 ^ 5)

/-- A correction is logged (R237). -/
def Chan.slateLog (e : Env) (c : Chan) (o : Origin) (d : Decoded) : Chan :=
  match c.err.find o.laddr with
  | some i => c.slateAgain e o d i
  | none => c.slateNew e o d

/-! ### Patch writes and poison write-backs (R241, R243) -/

/-- The second and third checks of R241: the write queue holds a write of the line, or one has been committed since. -/
def Chan.superseded (c : Chan) (a : LAddr) (colOrd : Nat) : Bool :=
  c.wq.any (fun w => w.laddr == a) || c.err.wroteSince a colOrd

/-- SKIP counts. -/
def Chan.skipPatch (c : Chan) : Chan := { c with err := { c.err with skip := satAdd 0xFFFF c.err.skip 1 } }

/-- PHOLD of the line's Slate entry. -/
def ErrCtl.phold (k : ErrCtl) (a : LAddr) : Bool :=
  match k.find a with
  | some i => (k.entry i).phold
  | none => false

/-- Schedule a patch write, or with `psn` a poison write-back, or skip it by the first or fourth check; the second and third
are made when it enters the write queue (R241, R243). -/
def Chan.schedulePatch (c : Chan) (o : Origin) (line : Line) (psn : Bool) : Chan :=
  if !c.err.patch then c
  else if (!psn && c.err.phold o.laddr) || decide (4 ≤ c.err.patches.length) then
    c.skipPatch
  else
    { c with err := { c.err with
        patches := c.err.patches ++ [{ laddr := o.laddr, line := line, psn := psn, colOrd := o.colOrd }] } }

/-! ### The UE record (R243, R259) -/

/-- A line enters the UE record, or MISSED counts it. -/
def Chan.recordUe (c : Chan) (a : LAddr) (src : Nat) (s : Sub) (write : Bool) : Chan :=
  let u := c.err.ue
  let u := if u.valid then { u with missed := satAdd 1023 u.missed 1 }
    else { u with
      valid := true, source := src, sub := decide (s = .b), write := write, laddrHi := a.toNat / 2 ^ 26,
      laddrLo := a.toNat % 2 ^ 26 }
  { c with err := { c.err with ue := u } }

/-- A UE outcome of a line, delivered to a consumer or not (R235, R243). A merge read writes poison itself. -/
def Chan.ueHandle (c : Chan) (o : Origin) (delivered merge : Bool) : Chan :=
  let sup := !merge && c.err.patch && decide (c.err.patches.length < 4) && c.superseded o.laddr o.colOrd
  let c := c.recordUe o.laddr o.src o.dev.bank.sub false
  let c := if merge then c else c.schedulePatch o 0 true
  c.raise (if delivered then evReadUe else evDeferredUe) (whereInfo o.src o.dev + o.dev.bank.lrank * 2 ^ 9 + b2n sup * 2 ^ 8)

/-- What an outcome sets in motion besides its count (R235): the Slate and a patch write for a correction, the UE steps
for a UE. -/
def Chan.consequence (e : Env) (c : Chan) (o : Origin) (d : Decoded) : Chan :=
  let merge := o.src == srcMerge
  if d.outcome.isCorr then
    let c := c.slateLog e o d
    if merge then c else c.schedulePatch o d.line false
  else if d.outcome = .ue then c.ueHandle o (o.src == srcHost || o.src == srcFill) merge
  else c

/-! ### Exhausted retries (R249, R257) -/

/-- WRITE_LOST with the UE record (R249). -/
def Chan.writeLost (c : Chan) (wsrc cause : Nat) (w : WrEntry) : Chan :=
  let tag := match w.hosts.getLast? with
    | some h => h.tag.toNat
    | none => 0
  (c.recordUe w.laddr 0 w.dev.bank.sub true).raise evWriteLost
    (wsrc * 2 ^ 17 + cause * 2 ^ 15 + w.dev.bank.sub.num * 2 ^ 14 + tag)

/-- READ_FAIL; `r251` says that the read ended because a newer write was committed. -/
def Chan.readFail (c : Chan) (src : Nat) (d : Dev) (r251 : Bool) : Chan :=
  c.raise evReadFail (whereInfo src d + d.bank.lrank * 2 ^ 9 + b2n r251 * 2 ^ 8)

end Sys2Proof.Machine
end

