-- ==== Sys2Proof/Machine/Loft.lean ====
section
/-! DEFINITION. The Loft: metadata lines and granules, the cache with its replacement tree, operations, fills, evictions
and gathers, cleaning and write-back, lost lines, and its control register (11). -/
namespace Sys2Proof.Machine

/-! ### Places (R262, R266) -/

/-- The set of a granule (R266). -/
def setOf (g : Nat) : Nat := (g % 2 ^ 14) ^^^ (g / 2 ^ 14 % 2 ^ 14)

/-- The metadata line of a granule (R262). -/
def Chan.mdLineOf (c : Chan) (g : Nat) : LAddr :=
  match c.img with
  | some i => BitVec.ofNat 34 (i.mdBase + g / 8)
  | none => 0

/-- The first granule of a metadata line. -/
def Chan.granule0 (c : Chan) (a : LAddr) : Nat :=
  match c.img with
  | some i => (a.toNat - i.mdBase) * 8
  | none => 0

/-- A line lies in the metadata region (R64). -/
def Chan.isMdLine (c : Chan) (a : LAddr) : Bool :=
  match c.img with
  | some i => i.mdEn && decide (i.mdBase ≤ a.toNat) && decide (a.toNat < i.rsvBase)
  | none => false

/-- Eight bytes of a line from granule slot `j`. -/
def slotOf (l : Line) (j : Nat) : BitVec 64 := BitVec.ofNat 64 (bitsAt l.toNat (64 * j) 64)

/-- The value of line `i` of a granule (R266). -/
def valueAt (v : BitVec 64) (i : Nat) : Meta := BitVec.ofNat 16 (bitsAt v.toNat (16 * i) 16)

/-- Store the value of line `i` of a granule. -/
def storeAt (v : BitVec 64) (i : Nat) (x : Meta) : BitVec 64 := BitVec.ofNat 64 (setBits v.toNat (16 * i) 16 x.toNat)

/-- The granule of an operation, and its line within it. -/
def LoftOp.granule (o : LoftOp) : Nat := o.laddr.toNat / 4
def LoftOp.slot (o : LoftOp) : Nat := o.laddr.toNat % 4

/-! ### The cache (R266, R267) -/

/-- The order of entries in the list: by set, then way. -/
def LoftEntry.key (x : LoftEntry) : Nat := x.set * 16 + x.way

/-- The entry of a granule. -/
def Loft.find (l : Loft) (g : Nat) : Option LoftEntry := l.entries.find? fun x => x.granule == g

/-- Put an entry into its way. -/
def Loft.put (l : Loft) (x : LoftEntry) : Loft :=
  { l with entries := insertBy LoftEntry.key x (l.entries.filter fun y => y.key != x.key) }

/-- Change the entry of a granule. -/
def Loft.mod (l : Loft) (g : Nat) (f : LoftEntry → LoftEntry) : Loft :=
  { l with entries := updateWhere (fun x => x.granule == g) f l.entries }

/-- Free the way of a granule. -/
def Loft.del (l : Loft) (g : Nat) : Loft := { l with entries := l.entries.filter fun x => x.granule != g }

/-- Dirty entries (R287). -/
def Loft.dirty (l : Loft) : Nat := countWhere (fun x => x.valid && x.dirty) l.entries

/-- An operation has started and is not released: it pins its granule (R268, R271). -/
def LoftOp.pins (o : LoftOp) : Bool := o.stage != .input && !o.isRepair

/-- A granule is pinned. -/
def Loft.pinned (l : Loft) (g : Nat) : Bool := l.ops.any fun o => o.pins && o.granule == g

/-- Pinned ways of a set. -/
def Loft.pinsIn (l : Loft) (s : Nat) : Nat := countWhere (fun x => x.set == s && l.pinned x.granule) l.entries

/-- The replacement state of a set. -/
def Loft.tree (l : Loft) (s : Nat) : Nat :=
  match l.plru.find? fun p => p.1 == s with
  | some p => p.2.toNat
  | none => 0

/-- Point the tree of a set away from a way: nodes numbered from 1, bit clear for the lower half (R267). -/
def pointAway : Nat → Nat → Nat → Nat → Nat
  | 0, _, _, t => t
  | d + 1, node, way, t =>
    let hi := bitAt way d
    pointAway d (2 * node + b2n hi) way (setBits t (node - 1) 1 (b2n (!hi)))

/-- An operation start touches a way. -/
def Loft.touch (l : Loft) (s w : Nat) : Loft :=
  let t := pointAway 4 1 w (l.tree s)
  let rest := l.plru.filter fun p => p.1 != s
  { l with plru := if t = 0 then rest else insertBy (fun p => p.1) (s, BitVec.ofNat 15 t) rest }

/-- Walk the tree among the eligible ways: `d` levels below `node`, whose ways start at `lo`. -/
def walk (t : Nat) (elig : Nat → Bool) : Nat → Nat → Nat → Option Nat
  | 0, _, lo => if elig lo then some lo else none
  | d + 1, node, lo =>
    let first := bitAt t (node - 1)
    let go := fun hi : Bool => walk t elig d (2 * node + b2n hi) (lo + b2n hi * 2 ^ d)
    (go first) <|> (go !first)

/-- The metadata line of a granule lies on a fenced rank (R265). -/
def Chan.granuleFenced (c : Chan) (g : Nat) : Bool := c.fenced (c.devOf (c.mdLineOf g)).bank.rank

/-- The entry in a way of a set. -/
def Loft.at (l : Loft) (s w : Nat) : Option LoftEntry := l.entries.find? fun x => x.set == s && x.way == w

/-- The way a miss takes: the lowest free one, else the tree's victim among the eligible ways (R267). -/
def Chan.pickWay (c : Chan) (s : Nat) : Option Nat :=
  match (List.range 16).find? fun w => (c.loft.at s w).isNone with
  | some w => some w
  | none =>
    walk (c.loft.tree s) (fun w =>
      match c.loft.at s w with
      | some x => x.valid && !c.loft.pinned x.granule && !c.granuleFenced x.granule
      | none => true) 4 1 0

/-! ### Lost lines (R279, R286, R288) -/

/-- LOST counts. -/
def Loft.lose (l : Loft) (n : Nat) : Loft := { l with lost := satAdd 0xFFFF l.lost n }

/-- The record takes a line, or MISSED counts it (R288). -/
def Chan.recordMd (c : Chan) (a : LAddr) (cause : Nat) : Chan :=
  let r := c.loft.mdRec
  let r := if r.valid then { r with missed := satAdd 1023 r.missed 1 }
    else { r with valid := true, cause := cause, hi := a.toNat / 2 ^ 26, lo := a.toNat % 2 ^ 26 }
  { c with loft := { c.loft with mdRec := r } }

/-- LOFT_MD_LOST, at most once per 1 ms for CAUSE 0, 1 and 6 without a lost granule (R286). -/
def Chan.raiseMdLost (e : Env) (c : Chan) (cause n info : Nat) : Chan :=
  let limited := (cause == 0 || cause == 1 || cause == 6) && n == 0
  let recent := match c.loft.lastLostEv with
    | some t => decide (e.us < t + 1000)
    | none => false
  if limited && recent then c
  else
    let c := if limited then { c with loft := { c.loft with lastLostEv := some e.us } } else c
    c.raise evLoftMdLost (cause * 2 ^ 16 + info % 2 ^ 16)

/-- The cached siblings of a metadata line are invalidated (R279): unpinned ones at once, pinned ones when their last pin is
released. The answer is how many dirty ones are lost at once; LOST counts them. -/
def Chan.mdInvalid (c : Chan) (a : LAddr) : Nat × Chan :=
  let g0 := c.granule0 a
  let sib := fun x : LoftEntry => decide (g0 ≤ x.granule) && decide (x.granule < g0 + 8) && x.valid
  let l := c.loft
  let n := countWhere (fun x => sib x && !l.pinned x.granule && x.dirty) l.entries
  let entries := (l.entries.filter fun x => !(sib x && !l.pinned x.granule)).map fun x =>
    if sib x then { x with doomed := true } else x
  (n, { c with loft := ({ l with entries := entries }).lose n })

/-- A metadata line is found poisoned or lost (R279, R286, R288). -/
def Chan.mdLost (e : Env) (c : Chan) (a : LAddr) (cause : Nat) : Chan :=
  let r := c.mdInvalid a
  (r.2.recordMd a cause).raiseMdLost e cause r.1 r.1

/-- The last pin of a granule is released: a doomed entry is invalidated (R279). -/
def Loft.unpin (l : Loft) (g : Nat) : Loft :=
  match l.find g with
  | some x => if x.doomed && !l.pinned g then (l.del g).lose (b2n x.dirty) else l
  | none => l

/-- An operation is released (R268). -/
def Chan.releaseOp (c : Chan) (seq : Nat) : Chan :=
  match c.loft.ops.find? fun o => o.seq == seq with
  | none => c
  | some o =>
    let l := ({ c.loft with ops := c.loft.ops.filter fun x => x.seq != seq }).unpin o.granule
    let c := { c with loft := l }
    if (l.find o.granule).isNone then c.rewrite 3 o.granule else c

/-- Change an operation. -/
def Chan.modOp (c : Chan) (seq : Nat) (f : LoftOp → LoftOp) : Chan :=
  { c with loft := { c.loft with ops := updateWhere (fun o => o.seq == seq) f c.loft.ops } }

/-! ### Words that cannot be corrected (R230, R281) -/

/-- An entry leaves the cache; one that is pinned does so when its last pin is released (R271, R279). -/
def Chan.expel (c : Chan) (x : LoftEntry) (dirty : Bool) : Chan :=
  if c.loft.pinned x.granule then
    { c with loft := c.loft.mod x.granule fun y => { y with doomed := true, dirty := dirty } }
  else ({ c with loft := c.loft.del x.granule }).rewrite 3 x.granule

/-- The data word of an entry cannot be corrected (R281): a clean entry is invalidated; the metadata line of a dirty one is
written as a poisoned line and treated under R279, in one report. -/
def Chan.badWord (e : Env) (c : Chan) (x : LoftEntry) : Chan :=
  let a := c.mdLineOf x.granule
  let c := c.expel x false
  if x.dirty then
    let ev : Evict :=
      { mdline := a, line := 0, be := allBytes, cls := 15, granule := x.granule, cleaning := false, psn := true }
    let have_ := c.loft.evicts.any fun y => y.mdline == a && y.psn
    let c := { c with loft := ({ c.loft with evicts := if have_ then c.loft.evicts else c.loft.evicts ++ [ev] }).lose 1 }
    let r := c.mdInvalid a
    (r.2.recordMd a 4).raiseMdLost e 4 (r.1 + 1) x.set
  else c

/-- The data word of an entry cannot be corrected. -/
def Chan.dataBad (c : Chan) (x : LoftEntry) : Bool := (c.readOut 3 x.granule 2 3 x.set).1

/-- The data word of an entry is read out and checked (R230, R281). -/
def Chan.checkData (e : Env) (c : Chan) (x : LoftEntry) : Chan :=
  let r := c.readOut 3 x.granule 2 3 x.set
  if r.1 then r.2.badWord e x else r.2

/-- The tag words of a set are read out in a lookup: one that cannot be corrected frees its way, and its value is lost
(R281). -/
def Chan.checkTagWords (e : Env) (c : Chan) (s : Nat) : Chan :=
  (c.loft.entries.filter fun x => x.set == s).foldl (fun c x =>
    let r := c.readOut 4 x.key 1 3 s
    if r.1 && !x.doomed then
      let n := b2n (!r.2.loft.pinned x.granule)
      let c := (r.2.expel x true).rewrite 4 x.key
      ({ c with loft := c.loft.lose n }).raiseMdLost e 5 1 s
    else r.2) c

/-! ### Gather and eviction (R274, R275) -/

/-- The valid entry of granule slot `j` of a metadata line whose first granule is `g0`. -/
def Loft.sibling (l : Loft) (g0 j : Nat) : Option LoftEntry :=
  l.entries.find? fun x => x.granule == g0 + j && x.valid

/-- The slots of a gather: all eight when every sibling is valid, otherwise `v` and the dirty siblings (R274). -/
def Loft.gatherSlots (l : Loft) (g0 v : Nat) : List Nat :=
  if (List.range 8).all fun j => (l.sibling g0 j).isSome then List.range 8
  else (List.range 8).filter fun j =>
    g0 + j == v || (match l.sibling g0 j with
      | some x => x.dirty
      | none => false)

/-- The write of a gather and the cache after it: the words gathered are read out and checked, and the gathered siblings are
clean. A dirty word that cannot be corrected makes it the poisoned write of R281. -/
def Chan.gatherWrite (e : Env) (c : Chan) (v cls : Nat) (cleaning : Bool) : Chan :=
  let g0 := v / 8 * 8
  let was := c.loft.evicts.length
  let c := ((c.loft.gatherSlots g0 v).filterMap fun j => c.loft.sibling g0 j).foldl (Chan.checkData e) c
  if was < c.loft.evicts.length then c
  else
    let slots := c.loft.gatherSlots g0 v
    let val := fun j => match c.loft.sibling g0 j with
      | some x => x.value.toNat
      | none => 0
    let line := sumOf (slots.map fun j => val j * 2 ^ (64 * j))
    let be := sumOf (slots.map fun j => 0xFF * 2 ^ (8 * j))
    let ev : Evict :=
      { mdline := c.mdLineOf v, line := BitVec.ofNat 512 line, be := BitVec.ofNat 64 be, cls := cls, granule := v,
        cleaning := cleaning, psn := false }
    { c with loft := { c.loft with
        evicts := c.loft.evicts ++ [ev],
        entries := updateWhere (fun x => slots.any fun j => x.granule == g0 + j) (fun x => { x with dirty := false })
          c.loft.entries } }

/-- The evictions that may leave the buffer: the oldest of each metadata line (R270), none to a fenced rank (R265), and none of
class C15 while C15 sources hold (R203), unless an eviction of a host class waits behind it. -/
def Chan.evictHeads (c : Chan) : List Evict :=
  (c.loft.evicts.filter fun x =>
    (c.loft.evicts.find? fun y => y.mdline == x.mdline) == some x &&
    !c.fenced (c.devOf x.mdline).bank.rank &&
    !(c.sourcesHold && c.loft.evicts.all fun y => y.mdline != x.mdline || y.cls == 15))

/-! ### Responses of operations (R268, R277, R278) -/

/-- MDATA of an operation (R81, R277). -/
def mdataRsp (o : LoftOp) (ok : Bool) (v : Meta) (psn : Bool) (due : Nat) : Rsp :=
  { ty := .mdata, tag := o.tag, status := if ok then 0 else 1, poison := psn, mdval := v, line := none, due := due,
    cls := o.cls, priv := o.priv, req := 8, laddr := o.laddr }

/-- The result of an operation joins the responses, or waits for the final line response of its tag (R268). WRM and the
internal operations have no response of their own. -/
def Chan.answerOp (c : Chan) (o : LoftOp) : Chan :=
  match o.stage with
  | .done ok v psn =>
    if o.sent then c
    else
      match o.kind with
      | .rdm | .rdmu =>
        if o.lineDone then (c.modOp o.seq fun x => { x with sent := true }).push (mdataRsp o ok v psn c.lane.hclk) else c
      | .mdr | .mdcas =>
        (c.modOp o.seq fun x => { x with sent := true }).push (mdataRsp o ok v psn c.lane.hclk)
      | .mdw => (c.modOp o.seq fun x => { x with sent := true }).push (plainRsp .cmp o.tag 0 c.lane.hclk o.cls)
      | .wrm => if o.lineDone then c.releaseOp o.seq else c
      | .clear _ _ | .repair => c.releaseOp o.seq
  | _ => c

/-- An operation ends with a result. -/
def Chan.finishOp (c : Chan) (o : LoftOp) (ok : Bool) (v : Meta) (psn : Bool) : Chan :=
  let st := LoftStage.done ok v psn
  (c.modOp o.seq fun x => { x with stage := st }).answerOp ({ o with stage := st } : LoftOp)

/-- The final line response of a tag has left, or the CMP of a WRM (R268). -/
def Chan.lineSent (c : Chan) (tag : Tag) : Chan :=
  match c.loft.ops.find? fun o => o.tag == tag && !o.lineDone && (o.kind == .rdm || o.kind == .rdmu || o.kind == .wrm) with
  | none => c
  | some o =>
    let o : LoftOp := { o with lineDone := true }
    (c.modOp o.seq fun _ => o).answerOp o

/-! ### Starting an operation (R267, R269 to R273, R281, R282) -/

/-- The head of the Loft's input waits under condition `k` of R272. -/
def Chan.stall (e : Env) (c : Chan) (k : Nat) : Chan :=
  let l := c.loft
  let n := if l.stalled then l.stalls else satAdd 0xFFFF l.stalls 1
  let recent := match l.lastStallEv with
    | some t => decide (e.us < t + 1000)
    | none => false
  let fire := !l.stalled && !recent
  let c := { c with loft := { l with
      stalled := true, stalls := n, lastStallEv := if fire then some e.us else l.lastStallEv } }
  if fire then c.raise evLoftStall (k * 2 ^ 16 + n) else c

/-- The operation takes its place on a granule that has an entry. -/
def Chan.startOn (c : Chan) (o : LoftOp) (x : LoftEntry) : Chan :=
  let c := { c with loft := ({ c.loft with stalled := false }).touch x.set x.way }
  c.modOp o.seq fun y => { y with stage := if x.valid then .started else .waitFill }

/-- The occurrence of a hit or a miss (R376). -/
def LoftOp.occ (o : LoftOp) (code : Nat) : Occ :=
  let ty := match o.kind with
    | .rdm => 2
    | .rdmu => 3
    | .wrm => 6
    | .mdr | .mdw | .mdcas => 8
    | _ => 9
  occR code 0 o.cls o.priv ty o.laddr

/-- Place the fill of a metadata line in a reserved read-queue entry (R273). While the poisoned write of the line waits in the
eviction buffer, the fill receives its poison from there (DEDUCED, log entry 99). -/
def Chan.startFill (c : Chan) (o : LoftOp) (a : LAddr) : Chan :=
  if c.loft.fills.any fun f => f.mdline == a then c
  else
    let (seq, c) := c.takeSeq
    let psn := c.loft.evicts.any fun x => x.mdline == a && x.psn
    let f : LoftFill :=
      { mdline := a, seq := seq, failed := false,
        result := if psn then some { outcome := .poison, line := 0, chips := 0, nsym := 0 } else none }
    let c := { c with loft := { c.loft with fills := c.loft.fills ++ [f] } }
    if psn then c
    else c.placeRd (mkRd seq .fill 0 o.cls 0 false false a (c.devOf a) o.age .na) 2

/-- The newest eviction in the buffer that holds a granule (R273). -/
def Chan.inEvicts (c : Chan) (g : Nat) : Option Evict :=
  c.loft.evicts.reverse.find? fun x => x.mdline == c.mdLineOf g && x.be.getLsbD (8 * (g % 8)) && !x.psn

/-- The entry of a missing granule: back from the eviction buffer, or empty until its fill returns. -/
def Chan.missEntry (c : Chan) (g s w : Nat) : LoftEntry :=
  match c.inEvicts g with
  | some x =>
    { set := s, way := w, granule := g, value := slotOf x.line (g % 8), valid := true,
      dirty := x.granule == g && !x.cleaning, doomed := false }
  | none => { set := s, way := w, granule := g, value := 0, valid := false, dirty := false, doomed := false }

/-- A dirty granule that returns to the cache leaves its eviction, and an eviction without bytes leaves the buffer (R273). -/
def Loft.takeBack (l : Loft) (x : Evict) (g : Nat) : Loft :=
  let be := x.be &&& ~~~(BitVec.ofNat 64 (0xFF * 2 ^ (8 * (g % 8))))
  { l with evicts := if be = 0 then l.evicts.erase x
      else updateWhere (fun y => y == x) (fun _ => { x with be := be }) l.evicts }

/-- A miss (R267, R272, R273, R274). A fill is not started on a fenced rank: the operation waits (R265; DEDUCED, log entry
98). -/
def Chan.miss (e : Env) (c : Chan) (o : LoftOp) : Chan :=
  let g := o.granule
  let s := setOf g
  let a := c.mdLineOf g
  if 12 ≤ c.loft.pinsIn s then c.stall e 0
  else
    match c.pickWay s with
    | none => c.stall e 1
    | some w =>
      let back := (c.inEvicts g).isSome
      let newFill := !back && !(c.loft.fills.any fun f => f.mdline == a)
      let victim := c.loft.at s w
      let dirty := match victim with
        | some v => v.dirty
        | none => false
      if newFill && c.fenced (c.devOf a).bank.rank then c
      else if newFill && decide (12 ≤ c.loft.fills.length) then c.stall e 2
      else if dirty && decide (8 ≤ c.loft.evicts.length) then c.stall e 3
      else
        let c := c.log (o.occ 0x16)
        let x := c.missEntry g s w
        let c := match c.inEvicts g with
          | some v => if x.dirty then { c with loft := c.loft.takeBack v g } else c
          | none => c
        let c := match victim with
          | some v =>
            let c := if dirty then c.gatherWrite e v.granule o.cls false else c
            ({ c with loft := c.loft.del v.granule }).rewrite 3 v.granule
          | none => c
        let c := ({ c with loft := c.loft.put x }).rewrite 4 x.key
        let c := if back then c else c.startFill o a
        c.startOn o x

/-- A repair (R282): it waits until no entry of its eight granules is pinned and a reserved write-queue entry is free, and
while C15 sources hold (R203). -/
def Chan.repair (c : Chan) (o : LoftOp) : Chan :=
  let g0 := o.granule / 8 * 8
  let mine := fun g : Nat => decide (g0 ≤ g) && decide (g < g0 + 8)
  if c.loft.entries.any (fun x => mine x.granule && c.loft.pinned x.granule) || decide (8 ≤ c.resWq) || c.sourcesHold then c
  else
    let a := c.mdLineOf g0
    let v := match c.img with
      | some i => i.clearValue.toNat
      | none => 0
    let line := sumOf ((List.range 32).map fun i => v * 2 ^ (16 * i))
    let l := c.loft
    let c := { c with loft := { l with
        entries := l.entries.filter fun x => !mine x.granule,
        evicts := l.evicts.filter fun x => x.mdline != a,
        ops := l.ops.filter fun x => x.seq != o.seq, stalled := false } }
    let (seq, c) := c.takeSeq
    c.placeWr (mkWr seq .repair [] 15 a (c.devOf a) (BitVec.ofNat 512 line) allBytes false)

/-- The head of the Loft's input starts, or waits (R269 to R273). The lookup reads the tag words of the set, and the data word
of an entry that no operation pins (R230, R281). -/
def Chan.opStart (e : Env) (c : Chan) : Chan :=
  match c.loft.ops.find? fun o => o.stage == .input with
  | none => c
  | some o =>
    if o.isRepair then c.repair o
    else
      let c := c.checkTagWords e (setOf o.granule)
      let fresh := (c.loft.find o.granule).filter fun x => x.valid && !c.loft.pinned x.granule
      if fresh.any (fun x => x.dirty && c.dataBad x) && decide (8 ≤ c.loft.evicts.length) then c.stall e 3
      else
        let c := match fresh with
          | some x => c.checkData e x
          | none => c
        match c.loft.find o.granule with
        | some x =>
          if !c.loft.pinned o.granule && decide (12 ≤ c.loft.pinsIn x.set) then c.stall e 0
          else (c.log (o.occ (if x.valid then 0x15 else 0x16))).startOn o x
        | none => c.miss e o

/-! ### Completing an operation (R76, R268 to R270) -/

/-- The compare and update of an operation on its entry: the new value, whether it stores, and its result. -/
def LoftOp.execute (o : LoftOp) (v : BitVec 64) : BitVec 64 × Bool × Bool × Meta :=
  let cur := valueAt v o.slot
  match o.kind with
  | .rdm | .mdr => (v, false, true, cur)
  | .rdmu | .mdcas =>
    if cur = o.mdexp then (storeAt v o.slot o.mdnew, true, true, cur) else (v, false, false, cur)
  | .wrm | .mdw => (storeAt v o.slot o.mdnew, true, true, 0)
  | .clear mask x =>
    ((List.range 4).foldl (fun u i => if bitAt mask i then storeAt u i x else u) v, true, true, 0)
  | .repair => (v, false, true, 0)

/-! ### Fills (R273, R278) -/

/-- An operation that waited on a fill whose line cannot be delivered (R277, R278). -/
def Chan.failOp (failed : Bool) (c : Chan) (o : LoftOp) : Chan :=
  match o.kind with
  | .rdm => c.finishOp o true 0 true
  | .rdmu => c.finishOp o false 0 true
  | .mdr =>
    if failed then (c.modOp o.seq fun x => { x with stage := .done true 0 true, sent := true }).push
      { plainRsp .err o.tag errCmdFail c.lane.hclk o.cls with priv := o.priv, req := 8, laddr := o.laddr }
    else c.finishOp o true 0 true
  | .mdcas =>
    if failed then (c.modOp o.seq fun x => { x with stage := .done false 0 true, sent := true }).push
      { plainRsp .err o.tag errCmdFail c.lane.hclk o.cls with priv := o.priv, req := 8, laddr := o.laddr }
    else c.finishOp o false 0 true
  | .mdw =>
    if failed then (c.modOp o.seq fun x => { x with stage := .done true 0 true, sent := true }).push
      { plainRsp .err o.tag errCmdFail c.lane.hclk o.cls with priv := o.priv, req := 8, laddr := o.laddr }
    else ({ c with loft := c.loft.lose 1 }).finishOp o true 0 false
  | .wrm | .clear _ _ => ({ c with loft := c.loft.lose 1 }).finishOp o true 0 false
  | .repair => c

/-- The operation is a store that a lost fill discards (R278). -/
def LoftOp.discards (failed : Bool) (o : LoftOp) : Bool :=
  match o.kind with
  | .wrm | .clear _ _ => true
  | .mdw => !failed
  | _ => false

/-- The first started operation takes effect (R269, R270): operations on one granule are in lane order in the list. A value
that cannot be corrected is not delivered: its entry is pinned, so it leaves when its last pin is released (R271, R277,
R281). -/
def Chan.opComplete (e : Env) (c : Chan) : Chan :=
  match c.loft.ops.find? fun o => o.stage == .started with
  | none => c
  | some o =>
    match c.loft.find o.granule with
    | none => c.failOp false o
    | some x =>
      if c.dataBad x then
        if x.dirty && decide (8 ≤ c.loft.evicts.length) then c else (c.checkData e x).failOp false o
      else
        let c := c.checkData e x
        let r := o.execute x.value
        let c := { c with loft := c.loft.mod o.granule fun y =>
          { y with value := r.1, dirty := y.dirty || r.2.1 } }
        c.finishOp o r.2.2.1 r.2.2.2 false

/-- A fill has returned (R273, R278). -/
def Chan.fillBack (e : Env) (c : Chan) (f : LoftFill) : Chan :=
  let c := { c with loft := { c.loft with fills := c.loft.fills.filter fun x => x.seq != f.seq } }
  let g0 := c.granule0 f.mdline
  let mine := fun g : Nat => decide (g0 ≤ g) && decide (g < g0 + 8)
  let waits := c.loft.ops.filter fun o => o.stage == .waitFill && mine o.granule
  let good := match f.result with
    | some d => if d.outcome.isBad then none else some d.line
    | none => none
  match good with
  | some line =>
    { c with loft := { c.loft with
        entries := updateWhere (fun x => mine x.granule && !x.valid)
          (fun x => { x with valid := true, dirty := false, value := slotOf line (x.granule % 8) }) c.loft.entries,
        ops := updateWhere (fun o => o.stage == .waitFill && mine o.granule) (fun o => { o with stage := .started })
          c.loft.ops } }
  | none =>
    let c := { c with loft := { c.loft with
      entries := c.loft.entries.filter fun x => !(mine x.granule && !x.valid) } }
    let c := waits.foldl (Chan.failOp f.failed) c
    let c := match f.result with
      | some d => c.mdLost e f.mdline (if d.outcome = .poison then 0 else 1)
      | none => c.raiseMdLost e 1 0 0
    if waits.any (LoftOp.discards f.failed) then c.raiseMdLost e 6 0 0 else c

/-- The first fill that has its result returns. -/
def Chan.fillReturn (e : Env) (c : Chan) : Chan :=
  match c.loft.fills.find? fun f => f.result.isSome || f.failed with
  | none => c
  | some f => c.fillBack e f

/-! ### Cleaning, write-back, turning off (R264, R276, R283, R284) -/

/-- Granules that are dirty, by set and way. -/
def Loft.dirtyList (l : Loft) : List Nat := (l.entries.filter fun x => x.valid && x.dirty).map LoftEntry.granule

/-- A write-back is complete when every granule is visited and no write of it waits; an emptying Loft then starts its
write-back, or drops its entries (R264, R283, R284). -/
def Chan.loftSettle (c : Chan) : Chan :=
  let l := c.loft
  let l := if l.wbBusy && l.wball.isEmpty && !(l.evicts.any fun x => x.cleaning) then { l with wbBusy := false } else l
  let l :=
    if l.closing && !l.wbBusy && l.ops.isEmpty then
      if l.dirtyList.isEmpty && l.evicts.isEmpty then { l with entries := [], plru := [], closing := false }
      else { l with wball := l.dirtyList, wbBusy := true }
    else l
  { c with loft := l }

/-- An eviction moves from the buffer into a reserved write-queue entry, cleaning writes last (R275, R276, R283). -/
def Chan.evictOut (c : Chan) : Chan :=
  let heads := c.evictHeads
  let first := heads.find? fun x => c.loft.evicts.any fun y => y.mdline == x.mdline && !y.cleaning
  match first <|> heads.head? with
  | none => c
  | some x =>
    if 8 ≤ c.resWq then c
    else
      let (seq, c) := c.takeSeq
      let c := { c with loft := { c.loft with evicts := c.loft.evicts.erase x } }
      (c.placeWr (mkWr seq .evict [] x.cls x.mdline (c.devOf x.mdline) x.line x.be x.psn)).loftSettle

/-- One dirty entry is written back: the next of a write-back, or, above DIRTYMAX, the next from the cleaning pointer
(R276, R283); none while C15 sources hold (R203). -/
def Chan.clean (e : Env) (c : Chan) : Chan :=
  if 8 ≤ c.loft.evicts.length ∨ c.sourcesHold then c
  else
    match c.loft.wball with
    | g :: gs =>
      let c := { c with loft := { c.loft with wball := gs } }
      let c := match c.loft.find g with
        | some x => if x.valid && x.dirty then c.gatherWrite e g 15 true else c
        | none => c
      c.loftSettle
    | [] =>
      if c.loft.dirty ≤ c.loft.dirtyMax then c.loftSettle
      else
        let d := c.loft.entries.filter fun x => x.valid && x.dirty
        match (d.find? fun x => decide (c.loft.cleanPtr ≤ x.set)) <|> d.head? with
        | none => c
        | some x =>
          ({ c with loft := { c.loft with cleanPtr := (x.set + 1) % 16384 } }).gatherWrite e x.granule 15 true

/-- WBALL (R283). -/
def Chan.startWb (c : Chan) : Chan :=
  ({ c with loft := { c.loft with wball := c.loft.dirtyList, wbBusy := true } }).loftSettle

/-- ON is cleared (R264), or the Loft must be empty for a power state (R284). -/
def Chan.emptyLoft (c : Chan) : Chan := ({ c with loft := { c.loft with closing := true } }).loftSettle

/-- Every entry is invalidated without write-back (R284, R285). -/
def Loft.invalidate (l : Loft) : Loft := { l.abandon with entries := [], plru := [] }

/-- BUSY of CH_LOFT_STAT (R287). -/
def Loft.busy (l : Loft) : Bool := l.wbBusy || l.closing || l.ops.any LoftOp.isRepair

/-- The line of CH_LOFT_FIX as a line address, clamped (R288). -/
def Chan.fixLine (c : Chan) : LAddr := BitVec.ofNat 34 (c.loft.fixHi * 2 ^ 26 + c.loft.fixLo)

/-- A metadata operation enters the Loft's input (R269). -/
def Chan.addOp (c : Chan) (kind : LoftKind) (seq : Nat) (tag : Tag) (cls priv : Nat) (a : LAddr)
    (new exp : Meta) : Chan :=
  let o : LoftOp :=
    { kind := kind, seq := seq, tag := tag, cls := cls, priv := priv, age := 0, laddr := a, mdnew := new, mdexp := exp,
      stage := .input, lineDone := false, sent := false }
  { c with loft := { c.loft with ops := c.loft.ops ++ [o] } }

/-- REPAIR (R282). -/
def Chan.startRepair (c : Chan) : Chan :=
  let (seq, c) := c.takeSeq
  c.addOp .repair seq 0 15 0 c.fixLine 0 0

/-- A write of CH_LOFT_CTL: DIRTYMAX, ON, then WBALL and REPAIR (R264, R282, R283, R287). -/
def Chan.loftCtl (w : Word) (c : Chan) : Chan :=
  let v := w.toNat
  let md := match c.img with
    | some i => i.mdEn
    | none => false
  let on := bitAt v 20 && md
  let was := c.loft.on
  let c := { c with loft := { c.loft with
    dirtyMax := clampTo 256 262144 (bitsAt v 0 19), on := on, closing := c.loft.closing && !(on && !was) } }
  let c := if was && !on then c.emptyLoft else c
  let c := if bitAt v 31 && c.running then c.startWb else c
  if bitAt v 30 && c.running && md then c.startRepair else c

/-! ### Metadata lines that the Thatcher or a merge finds lost (R279, R280) -/

/-- The Thatcher finds a metadata line UE (R280): with all eight granules valid the line is written in full from the
cache; otherwise it is lost. -/
def Chan.mdUe (e : Env) (c : Chan) (a : LAddr) : Chan :=
  if !c.isMdLine a then c
  else
    let g0 := c.granule0 a
    if (List.range 8).all fun j => (c.loft.sibling g0 j).isSome then
      let l := (List.range 8).foldl (fun l j => l.mod (g0 + j) fun x => { x with dirty := true }) c.loft
      if 8 ≤ l.evicts.length then { c with loft := { l with wball := l.wball ++ [g0] } }
      else ({ c with loft := l }).gatherWrite e g0 15 true
    else c.mdLost e a 1

end Sys2Proof.Machine
end

