-- ==== Sys2Proof/Machine/Lane.lean ====
section
/-! DEFINITION. The channel lane: ingress checks, acceptance of requests and beats, resolution of RDS, FLUSH, completions
and the RSP link (04). -/
namespace Sys2Proof.Machine

/-! ### Checks (R66, R84, R85, R99, R100, R102, R265) -/

/-- RHP_PROTOCOL with a reason and a tag (R102). -/
def Chan.violation (c : Chan) (reason : Nat) (t : Tag) : Chan := c.raise evProtocol (reason * 2 ^ 16 + t.toNat)

/-- The request lacks a credit it needs (R85). -/
def Chan.lacksCredit (c : Chan) (op : ReqOp) (cls : Nat) : Bool :=
  nth0 c.lane.held cls == 0 || (op.isWrite && c.lane.wheld == 0)

/-- Within 64 HCLK of a CRST flit (R86). -/
def Chan.crstGrace (c : Chan) : Bool :=
  match c.lane.crstAt with
  | some h => decide (c.lane.hclk ≤ h + 64)
  | none => false

/-- Consume the credits of a request (R76). -/
def Chan.consume (c : Chan) (op : ReqOp) (cls : Nat) : Chan :=
  { c with
    lane := { c.lane with
      held := updateAt cls (· - 1) c.lane.held, wheld := if op.isWrite then c.lane.wheld - 1 else c.lane.wheld },
    bal := c.bal.use cls }

/-- The metadata line of a line. -/
def Chan.mdOf (c : Chan) (a : LAddr) : LAddr := c.mdLineOf (a.toNat / 4)

/-- The rank of a line is fenced for the request (R99, R265). -/
def Chan.reqFenced (c : Chan) (op : ReqOp) (a : LAddr) : Bool :=
  (op.hasLine && c.fenced (c.devOf a).bank.rank) || (op.hasMd && c.fenced (c.devOf (c.mdOf a)).bank.rank)

/-- The metadata region counts as enabled (R264). -/
def Chan.mdServes (c : Chan) : Bool :=
  c.loft.on && match c.img with
    | some i => i.mdEn
    | none => false

/-- U of the channel. -/
def Chan.usable (c : Chan) : Nat :=
  match c.img with
  | some i => i.usable
  | none => 0

/-- The error that answers an admitted request, in the precedence of R100. -/
def Chan.reqError (c : Chan) (op : ReqOp) (a : LAddr) : Option Nat :=
  if op = .bad then some errOpcode
  else if op.hasAddr && decide (c.usable ≤ a.toNat) then some errRange
  else if op.hasMd && !c.mdServes then some errNoMd
  else if op.hasAddr && c.reqFenced op a then some errFenced
  else none

/-- The beat of a rejected write is still expected (R78, R100). -/
def Chan.expectBeat (c : Chan) (op : ReqOp) (t : Tag) (w : Option WaitWr) : Chan :=
  if op.hasBeat then { c with lane := { c.lane with beats := c.lane.beats ++ [({ tag := t, wr := w } : BeatExp)] } } else c

/-! ### Acceptance (R79, R91, R92, R268) -/

/-- The metadata kind of a request. -/
def ReqOp.mdKind : ReqOp → LoftKind
  | .read .rdm => .rdm
  | .read .rdmu => .rdmu
  | .write _ => .wrm
  | .md .mdr => .mdr
  | .md .mdw => .mdw
  | _ => .mdcas

/-- The metadata part of a request enters the Loft's input (R268, R269). -/
def Chan.mdPart (c : Chan) (op : ReqOp) (f : ReqFlit) (seq : Nat) : Chan :=
  if op.hasMd then c.addOp op.mdKind seq f.tag (hostClass f.cls.toNat) f.priv.toNat f.laddr f.mdnew f.mdexp else c

/-- A line read is placed (R93, R118, R138). -/
def Chan.acceptRead (c : Chan) (op : RdOp) (f : ReqFlit) : Chan :=
  let (seq, c) := c.takeSeq
  let c := c.mdPart (.read op) f seq
  let r := mkRd seq (.host op) f.tag (hostClass f.cls.toNat) f.priv.toNat f.early (f.spec || op == .rds) f.laddr
    (c.devOf f.laddr) 0 (if op = .rds then .unresolved else .na)
  (c.placeRd r 4).directAll

/-- A write is accepted with its data: it enters the write queue, and its CMP falls due 3 HCLK later (R79, R91). -/
def Chan.acceptWrite (c : Chan) (w : WaitWr) (data : Line) (be : BitVec 64) (psn : Bool) : Chan :=
  let cls := hostClass w.f.cls.toNat
  let dev := c.devOf w.f.laddr
  let h : HostWr := { tag := w.f.tag, op := w.op, cls := cls, priv := w.f.priv.toNat, seq := w.seq, cmpSent := false }
  let c := c.log (occR 0x04 dev.bank.sub.num cls w.f.priv.toNat w.op.ty w.f.laddr)
  let c := c.placeWr (mkWr w.seq .host [h] cls w.f.laddr dev data be psn)
  let c := { c with lane := { c.lane with cmps := c.lane.cmps ++ [(w.f.tag, c.lane.hclk + 3)] } }
  (c.serveWaiting 4).directAll

/-- A write request: WRX is accepted at once, any other waits for its beat (R78, R79). -/
def Chan.captureWrite (c : Chan) (op : WrOp) (f : ReqFlit) : Chan :=
  let (seq, c) := c.takeSeq
  let c := if op = .wrm then c.mdPart (.write .wrm) f seq else c
  let w : WaitWr := { op := op, f := f, seq := seq }
  if op = .wrx then c.acceptWrite w 0 allBytes true
  else c.expectBeat (.write op) f.tag (some w)

/-- Sequence numbers of the writes on the lane whose column command has not reached the pins; a write-CRC resend does not make
a write wait again (R92). -/
def Chan.openWrites (c : Chan) : List Nat :=
  ((c.wq.filter fun w => !w.reached).map fun w => w.hosts.map HostWr.seq).flatten ++
    c.lane.beats.filterMap fun b => b.wr.map WaitWr.seq

/-- A FLUSH: with nothing to cover, its CMP follows within 4 HCLK (R92). -/
def Chan.acceptFlush (c : Chan) (f : ReqFlit) : Chan :=
  let (seq, c) := c.takeSeq
  let cov := c.openWrites
  let cls := hostClass f.cls.toNat
  let c := { c with lane := { c.lane with
    flushes := c.lane.flushes ++ [({ tag := f.tag, cls := cls, seq := seq, covers := cov } : FlushRec)] } }
  if cov = [] then
    let (n, c) := c.fresh
    c.push (plainRsp .cmp f.tag 0 (c.lane.hclk + Config.errDelay n % 5) cls)
  else c.directAll

/-- A request that passed every check takes effect. -/
def Chan.accept (c : Chan) (op : ReqOp) (f : ReqFlit) : Chan :=
  let c := (c.useTag f.tag).log
    (occR 0x02 (c.devOf f.laddr).bank.sub.num (hostClass f.cls.toNat) f.priv.toNat op.ty f.laddr)
  match op with
  | .read o => c.acceptRead o f
  | .write o => c.captureWrite o f
  | .md _ =>
    let (seq, c) := c.takeSeq
    c.mdPart op f seq
  | .flush => c.acceptFlush f
  | .sconf | .scan | .bad => c

/-! ### RDS resolution (R94, R95, R104 to R106, R258) -/

/-- The unresolved RDS of a tag. -/
def Chan.findRds (c : Chan) (t : Tag) : Option RdEntry :=
  c.rq.find? fun r => r.isRds && r.tag == t && r.rds == .unresolved

/-- The origin of a read entry. -/
def RdEntry.origin (r : RdEntry) (src : Nat) : Origin :=
  { laddr := r.laddr, dev := r.dev, src := src, priv := r.priv, colOrd := r.colOrd }

/-- What a line decoded in the hold sets in motion when its RDS is resolved (R258). A forwarded line sets nothing. -/
def Chan.resolved (e : Env) (c : Chan) (r : RdEntry) (src : Nat) : Chan :=
  match r.result with
  | some d => if r.colOrd = 0 then c else c.consequence e (r.origin src) d
  | none => c

/-- SCONF (R94, R105, R106). -/
def Chan.confirm (e : Env) (c : Chan) (t : Tag) : Chan :=
  match c.findRds t with
  | none => c
  | some r =>
    match r.stage, r.result with
    | .inHold, some d =>
      ((c.resolved e r srcHost).modRd r.seq fun x => { x with rds := .confirmed, stage := .answered }).push
        (dataRsp r d c.lane.hclk)
    | _, _ => c.modRd r.seq fun x => { x with rds := .confirmed }

/-- SCAN (R95, R104, R106). -/
def Chan.cancel (e : Env) (c : Chan) (t : Tag) : Chan :=
  match c.findRds t with
  | none => c
  | some r =>
    let c := c.freeTag t
    let late := r.colOrd != 0
    let c := c.log (occR (if late then 0x10 else 0x0F) r.dev.bank.sub.num r.cls r.priv r.req r.laddr)
    match r.stage with
    | .issued => c.modRd r.seq fun x => { x with rds := .cancelled }
    | .captured => c.modRd r.seq fun x => { x with rds := .cancelled, reserved := false }
    | .inHold | .answered => ((c.resolved e r srcScan).dropRd r.seq).directAll
    | .queued | .waitBeat => ((c.drop fun k => k.src == .read r.seq).dropRd r.seq).directAll

/-! ### Ingress (R66, R84 to R86, R99 to R103) -/

/-- A request of an open lane that carries a credit check. -/
def Chan.accept1 (c : Chan) (op : ReqOp) (f : ReqFlit) : Chan :=
  let cls := hostClass f.cls.toNat
  if c.lacksCredit op cls then
    if c.crstGrace then ((c.useTag f.tag).pushErr f op.ty errDown).expectBeat op f.tag none
    else c.violation 0 f.tag
  else
    let c := c.consume op cls
    if c.lane.inUse.contains f.tag then c.violation 1 f.tag
    else
      match c.reqError op f.laddr with
      | some code => ((c.useTag f.tag).pushErr f op.ty code).expectBeat op f.tag none
      | none => c.accept op f

/-- The flit as its opcode reads it: LADDR is ignored where the opcode has none (R74, R76). -/
def ReqOp.strip (op : ReqOp) (f : ReqFlit) : ReqFlit :=
  if op.hasAddr || op == .bad then f else { f with laddr := 0 }

/-- Ingress takes a request flit of a lane that is neither isolated nor asleep. -/
def Chan.take (e : Env) (c : Chan) (op : ReqOp) (f : ReqFlit) : Chan :=
  let f := op.strip f
  match op with
  | .sconf => if c.down then c else (c.log (occR 0x02 0 (hostClass f.cls.toNat) f.priv.toNat 8 0)).confirm e f.tag
  | .scan => if c.down then c else (c.log (occR 0x02 0 (hostClass f.cls.toNat) f.priv.toNat 8 0)).cancel e f.tag
  | _ => if c.down then c.refuseReq op f else c.accept1 op f

/-- Ingress takes a WDAT beat (R78, R102, R103). -/
def Chan.takeBeat (c : Chan) (b : Beat) : Chan :=
  if c.down then c
  else
    match c.lane.beats with
    | [] => c.violation 3 b.tag
    | x :: xs =>
      if x.tag ≠ b.tag then c.violation 2 b.tag
      else
        let c := { c with lane := { c.lane with beats := xs } }
        match x.wr with
        | none => c
        | some w => c.acceptWrite w b.data b.be b.psn

/-! ### Completions and FLUSH (R91, R92) -/

/-- Completions that have fallen due join the responses (R91). -/
def Chan.cmpDue (c : Chan) : Chan :=
  let due := c.lane.cmps.filter fun p => decide (p.2 ≤ c.lane.hclk)
  let c := { c with lane := { c.lane with cmps := c.lane.cmps.filter fun p => !decide (p.2 ≤ c.lane.hclk) } }
  due.foldl (fun c p => c.push (plainRsp .cmp p.1 0 p.2 0)) c

/-- A FLUSH whose covered writes have all reached the pins, and which is not answered yet. -/
def Chan.flushReady (c : Chan) (f : FlushRec) : Bool :=
  !(c.openWrites.any fun s => f.covers.contains s) && !(c.lane.ready.any fun r => r.ty == .cmp && r.tag == f.tag)

/-- The first such FLUSH receives its CMP. -/
def Chan.flushDone (c : Chan) : Chan :=
  match c.lane.flushes.find? c.flushReady with
  | none => c
  | some f => c.push (plainRsp .cmp f.tag 0 c.lane.hclk f.cls)

/-! ### The RSP link (R83 to R86, R98, R199, R230) -/

/-- The group of R83: smaller is sent first. -/
def RspType.group : RspType → Nat
  | .settle => 0
  | .retract => 1
  | .edata => 2
  | .data => 3
  | .mdata | .cmp | .err => 4
  | .cred => 5

/-- TYPE (R81). -/
def RspType.code : RspType → Nat
  | .data => 1 | .edata => 2 | .settle => 3 | .retract => 4 | .cmp => 5 | .mdata => 6 | .err => 7 | .cred => 8

/-- The 64 bits of a response flit; its reserved bits are zero (R80). -/
def RspFlit.word (x : RspFlit) : BitVec 64 :=
  BitVec.ofNat 64 (packFields
    [(60, x.rsp.ty.code), (50, x.rsp.tag.toNat), (46, x.rsp.status), (45, b2n x.rsp.poison), (29, x.rsp.mdval.toNat),
     (24, b2n x.crst), (20, x.rclass), (16, x.rcount), (12, x.wcount), (11, b2n x.rsp.line.isSome)])

/-- A response can be sent in this HCLK: it is due, and no EDATA of its tag is still ahead of it (R76). -/
def Lane.sendable (l : Lane) (r : Rsp) : Bool :=
  decide (r.due ≤ l.hclk) &&
  !((r.ty == .settle || r.ty == .retract) && l.ready.any fun x => x.ty == .edata && x.tag == r.tag)

/-- The response of this HCLK: the least group, the oldest within it (R83). -/
def Lane.pick (l : Lane) : Option Rsp := leastBy (fun r => r.ty.group) (l.ready.filter l.sendable)

/-- The read entry whose responses carry a tag. -/
def Chan.answeredRd (c : Chan) (t : Tag) : Option RdEntry :=
  c.rq.find? fun r => r.isHost && r.tag == t && r.stage == .answered && r.rds != .cancelled

/-- The buffered line of a response is read out (R230): a word that cannot be corrected makes the outcome UE, with the line as
read (R82). -/
def Chan.bufferCheck (c : Chan) (r : Rsp) : Rsp × Chan :=
  match c.answeredRd r.tag with
  | none => (r, c)
  | some x =>
    let store := if x.usesHold then 2 else 1
    let out := c.readOut store x.seq 2 store x.idx
    if !out.1 then (r, out.2)
    else
      let d : Decoded :=
        { outcome := .ue, line := c.lineAsRead store x.seq ((x.result.map Decoded.line).getD 0), chips := 0, nsym := 0 }
      let c := out.2.modRd x.seq fun y => { y with result := some d }
      if r.ty = .settle then ({ r with ty := .retract, status := d.outcome.num }, c)
      else ({ r with status := d.outcome.num, poison := true, line := some d.line }, c)

/-- A read has sent its final line response (R76, R94, R116). -/
def Chan.readDone (c : Chan) (x : RdEntry) : Chan :=
  let c := c.log (occR 0x03 x.dev.bank.sub.num x.cls x.priv x.req x.laddr)
  match x.kind with
  | .host .rdm | .host .rdmu => (c.modRd x.seq fun y => { y with reserved := false }).lineSent x.tag
  | _ => (c.dropRd x.seq).freeTag x.tag

/-- The operation of a tag whose own response has been sent is released. -/
def Chan.opSent (c : Chan) (t : Tag) : Chan :=
  match c.loft.ops.find? fun o => o.tag == t && o.sent with
  | some o => c.releaseOp o.seq
  | none => c

/-- The host writes of a tag in an entry have had their CMP sent. -/
def WrEntry.ack (t : Tag) (w : WrEntry) : WrEntry :=
  { w with hosts := updateWhere (fun h => h.tag == t) (fun h : HostWr => { h with cmpSent := true }) w.hosts }

/-- A CMP has been sent: the write's CMP, MDW's or a FLUSH's (R84, R116, R268). -/
def Chan.cmpSent (c : Chan) (t : Tag) : Chan :=
  let c := { c with
    wq := c.wq.map (WrEntry.ack t),
    lane := { c.lane with flushes := c.lane.flushes.filter fun f => f.tag != t } }
  ((c.lineSent t).opSent t).freeTag t

/-- An ERR has been sent. CMD_FAIL of an RDM or RDMU stands for its line responses only (R101). -/
def Chan.errSent (c : Chan) (r : Rsp) : Chan :=
  let c := c.log (occR 0x19 0 r.cls r.priv r.req r.laddr)
  let half := r.status == errCmdFail &&
    c.loft.ops.any fun o => o.tag == r.tag && (o.kind == .rdm || o.kind == .rdmu)
  if half then
    match c.answeredRd r.tag with
    | some x => (c.modRd x.seq fun y => { y with reserved := false }).lineSent r.tag
    | none => c.lineSent r.tag
  else
    let c := match c.answeredRd r.tag with
      | some x => c.dropRd x.seq
      | none => c
    (c.opSent r.tag).freeTag r.tag

/-- What a flit that has been sent changes (R84, R98, R116). -/
def Chan.sent (c : Chan) (r : Rsp) : Chan :=
  match r.ty with
  | .data | .settle =>
    match c.answeredRd r.tag with
    | some x => c.readDone x
    | none => c
  | .edata => c.log (occR 0x0D 0 r.cls r.priv r.req r.laddr)
  | .retract =>
    let c := c.log (occR 0x0E 0 r.cls r.priv r.req r.laddr)
    match c.answeredRd r.tag with
    | some x => match x.result with
      | some d => c.push (dataRsp x d (c.lane.hclk + 2))
      | none => c
    | none => c
  | .cmp => c.cmpSent r.tag
  | .mdata =>
    let c := match c.answeredRd r.tag with
      | some x => c.dropRd x.seq
      | none => c
    (c.opSent r.tag).freeTag r.tag
  | .err => c.errSent r
  | .cred => c

/-- CRST voids the credits (R86). -/
def Chan.voidCredits (c : Chan) : Chan :=
  if c.lane.crstDue then
    { c with lane := { c.lane with
        held := List.replicate 16 0, wheld := 0, crstDue := false, crstAt := some c.lane.hclk } }
  else c

/-- The RSP link may send: the lane is not isolated and its channel is not in a reset sequence (R334, R382). -/
def Chan.linkOpen (c : Chan) : Bool := !c.lane.iso && !c.power.rst

/-- The flit of this HCLK: the response chosen, with the credits granted; a CRED when only credits wait (R83, R199). -/
def Chan.sendFlit (e : Env) (c : Chan) : Chan :=
  let crst := c.lane.crstDue && !c.down
  let pick := c.lane.pick
  let c := if crst then c.voidCredits else c
  let g := c.grant e.win
  let w := c.wgrant
  let flit := fun r : Rsp =>
    ({ rsp := r, crst := crst, rclass := (g.getD (0, 0)).1, rcount := (g.getD (0, 0)).2, wcount := w } : RspFlit)
  match pick with
  | some r =>
    let c := (c.giveCredits g w)
    let c := { c with lane := { c.lane with ready := c.lane.ready.erase r } }
    let (r, c) := if r.ty = .data ∨ r.ty = .settle then c.bufferCheck r else (r, c)
    let c := { c with lane := { c.lane with out := some (flit r) } }
    c.sent r
  | none =>
    if crst || g.isSome || decide (0 < w) then
      let c := c.giveCredits g w
      { c with lane := { c.lane with out := some (flit (plainRsp .cred 0 0 c.lane.hclk 0)) } }
    else { c with lane := { c.lane with out := none } }

/-- EARLY of a class has been cleared: a line that has not left as EDATA leaves as DATA (R210). -/
def Chan.recheckEarly (c : Chan) (r : Rsp) : Chan :=
  if r.ty != .edata || (c.bal.cls r.cls).early then c
  else
    let c := { c with
      lane := { c.lane with ready := c.lane.ready.filter fun x : Rsp => !(x.ty == RspType.edata && x.tag == r.tag) },
      rq := updateWhere (fun x => x.isHost && x.tag == r.tag) (fun x => { x with edata := false }) c.rq }
    match c.answeredRd r.tag with
    | some x => match x.result with
      | some d =>
        let mine := fun y : Rsp => y.tag == r.tag && (y.ty == RspType.settle || y.ty == RspType.retract)
        let ready := updateWhere mine (fun y => dataRsp x d y.due) c.lane.ready
        { c with lane := { c.lane with ready := ready } }
      | none => c
    | none => c

/-- The lane at an HCLK edge before a flit is chosen: the clock has advanced, completions have fallen due, and an EDATA whose
class may no longer answer early has become the DATA of its read (R91, R210). -/
def Chan.atEdge (c : Chan) : Chan :=
  let c := ({ c with lane := { c.lane with hclk := c.lane.hclk + 1 } }).cmpDue
  c.lane.ready.foldl Chan.recheckEarly c

/-- An HCLK of the lane: what falls due does, and a flit may leave (R83, R91, R199). -/
def Chan.hclkEdge (e : Env) (c : Chan) : Chan :=
  let c := c.atEdge
  if c.linkOpen then c.sendFlit e else { c with lane := { c.lane with out := none } }

end Sys2Proof.Machine
end

