-- ==== Sys2Proof/Machine/Battens.lean ====
section
/-! DEFINITION. The batten fabric: clearance of a slot, displacement, QUIET, the time of a bank, and the shadow audit (06). -/
namespace Sys2Proof.Machine

/-! ### Clearance (R163) -/

/-- The candidate satisfies every batten at its time, against the timestamp file and the plan given. -/
def Chan.legal (c : Chan) (plan : List Cmd) (k : Cmd) : Bool :=
  let past := before k.time (c.fab.hist ++ plan)
  c.rules.all (fun p => c.ruleOk p.2 past k) && (c.holdsAt plan k.time).all (c.holdOk k)

/-- The CA slots of two commands of one subchannel overlap. -/
def Cmd.overlaps (x y : Cmd) : Bool :=
  x.bank.sub == y.bank.sub && decide (x.time < y.time + y.cls.cycles) && decide (y.time < x.time + x.cls.cycles)

/-- The slot is uncommitted, inside the tail, and free on the CA bus. -/
def Chan.slotFree (c : Chan) (tail : List Cmd) (k : Cmd) : Bool :=
  decide (c.dclk + 4 ≤ k.time) && decide (k.time + k.cls.cycles ≤ c.dclk + 16) && !tail.any k.overlaps

/-- The plan without the commands of `drop`. -/
def Chan.planLess (c : Chan) (drop : List Cmd) : List Cmd := c.planned.filter fun x => !drop.contains x

/-- The slot of the candidate is cleared, with the commands of `drop` taken out of the plan (R163). -/
def Chan.cleared (c : Chan) (drop : List Cmd) (k : Cmd) : Bool :=
  let plan := c.planLess drop
  c.slotFree (c.tail.filter fun x => !drop.contains x) k && c.legal plan k &&
    (plan.filter fun x => decide (k.time < x.time)).all fun x => c.legal (k :: plan.filter (· != x)) x

/-- The candidate at each uncommitted slot, earliest first. -/
def Chan.slots (c : Chan) (k : Cmd) : List Cmd := (List.range 12).map fun q => { k with time := c.dclk + 4 + q }

/-- The candidate in the first slot that is cleared and that `ok` allows. -/
def Chan.earliest (c : Chan) (ok : Nat → Bool) (k : Cmd) : Option Cmd :=
  (c.slots k).find? fun x => ok x.time && c.cleared [] x

/-! ### Displacement (R133) -/

/-- The order of the levels (R26, R129). -/
def Level.num : Level → Nat
  | .upkeep => 0 | .pause => 1 | .urgent => 2 | .host => 3 | .internal => 4

/-- A planned command binds the candidate through a batten. -/
def Chan.bindsVia (c : Chan) (past : List Cmd) (k x : Cmd) : Bool :=
  decide (x.time < k.time) &&
  (c.rules.any fun p =>
    let b := p.2
    if batKind b = 3 then
      x.cls.inMask (batFrom b) && !(c.stepHolds [] x).all (fun h => h.batten != p.1 || c.holdOk k h)
    else k.cls.inMask (batTo b) &&
      (if batKind b = 1 then !c.windowOk b past k && (c.perLrank k).any fun y => c.inWindow b y x
       else if batSameRow b then (c.sameRow past k).any fun y => !c.spaceOk b y x
       else !c.spaceOk b k x))

/-- A planned command may be displaced by a candidate: it is of a lower level on the same subchannel (R133), and no command of
an admitted pause (R188). -/
def Cmd.yields (k x : Cmd) : Bool := x.bank.sub == k.bank.sub && decide (k.level.num < x.level.num) && x.src != .pause

/-- The displacement set of the candidate at its slot, with its dependents (R131, R133, R165). -/
def Chan.displaceSet (c : Chan) (k : Cmd) : List Cmd :=
  let plan := c.planned
  let past := before k.time (c.fab.hist ++ plan)
  let low := plan.filter k.yields
  let d := low.filter fun x =>
    k.overlaps x || c.bindsVia past k x ||
      (decide (k.time < x.time) && !c.legal (k :: plan.filter (· != x)) x)
  c.cascade plan 16 d

/-- The first slot at which the candidate clears once its displacement set is removed; only commands that yield to it may be
displaced. -/
def Chan.displace (c : Chan) (ok : Nat → Bool) (k : Cmd) : Option (Cmd × List Cmd) :=
  ((c.slots k).map fun x => (x, c.displaceSet x)).find? fun p =>
    ok p.1.time && p.2.all (fun y => y.bank.sub != k.bank.sub || k.yields y) && c.cleared p.2 p.1

/-! ### QUIET (R168) and the time of a bank (R120) -/

/-- The largest bound that a batten can give a command of a class (R168). -/
def Chan.reach (c : Chan) (b : Nat) (f : CmdClass) : Nat :=
  c.burstTerm b f + batSpacing b c.fab.tset * (if batTempX2 b then 2 else 1)

/-- No SPACE, BURST or WINDOW batten can bind a future command (R168). -/
def Chan.quiet (c : Chan) : Bool :=
  c.tail.all (fun k => decide (k.time ≤ c.dclk)) &&
  c.fab.hist.all fun f =>
    decide (f.time + maxAge < c.dclk) ||
    c.rules.all fun p => batKind p.2 == 3 || !f.cls.inMask (batFrom p.2) || decide (f.time + c.reach p.2 f.cls ≤ c.dclk)

/-- The time of the committed commands of the classes `frm` on a bank has run out: at the first slot that can still be planned,
beyond the commit horizon, no SPACE or BURST batten from one of them binds a command of class `nxt` on the bank (R120, R131,
log entry 30). -/
def Chan.timeOut (c : Chan) (b : Bank) (frm nxt : List CmdClass) : Bool :=
  let t := c.dclk + 4
  let past := c.fab.hist.filter fun f => frm.contains f.cls && f.covers b && decide (t ≤ f.time + maxAge)
  past.all (fun f => decide (f.time + f.cls.cycles ≤ t)) && nxt.any fun cls =>
    let k : Cmd := { bareCmd cls b with row := (c.bank b).row, time := t }
    c.rules.all fun p => batKind p.2 == 1 || batKind p.2 == 3 || c.ruleOk p.2 past k

/-- A pause runs on the rank of a bank. -/
def Chan.pausedBank (c : Chan) (b : Bank) : Bool := c.upk.pauses.any fun p => p.running && p.sub == b.sub && p.rank == b.rank

/-- A precharged bank: PAUSED while a pause holds its rank, else IDLE (R120). -/
def Chan.restBank (c : Chan) (b : Bank) (e : BankEntry) : BankEntry :=
  { e with st := if c.pausedBank b then .paused else .idle, row := 0, hits := 0 }

/-- The state that a bank takes when the time of its command has run out (R120); CLAIM clears when the bank is usable
again (R148). A PAUSED bank is IDLE once no pause holds its rank and the time of the pause's commands has run out. -/
def Chan.expire (b : Bank) (c : Chan) : Chan :=
  let e := c.bank b
  match e.st with
  | .opening => if c.timeOut b [.act] [.rd, .wr] then c.setBank b { e with st := .opened } else c
  | .closing =>
    if c.timeOut b [.prepb, .presb, .preab, .rda, .wra] [.act] then c.setBank b (c.restBank b e) else c
  | .refreshing =>
    if c.timeOut b [.refab, .refsb, .rfmab, .rfmsb] [.act] then
      c.setBank b { c.restBank b e with claim := false }
    else c
  | .paused =>
    if !c.pausedBank b && c.timeOut b [.prepb, .presb, .preab, .rda, .wra, .mpc] [.act] then
      c.setBank b { c.restBank b e with claim := false }
    else c
  | _ => c

/-! ### The shadow audit (R161, R164, R169 to R171) -/

/-- The row table of the audit after a command (R160, R164): an ACT opens its row, a precharge or an auto-precharge closes. -/
def auditRow (rows : List (Bank × Nat × Bool)) (k : Cmd) : List (Bank × Nat × Bool) :=
  if k.cls = .act then rows.filter (fun (p : Bank × Nat × Bool) => p.1 != k.bank) ++ [(k.bank, k.row, true)]
  else if k.cls.isPre || k.cls == .rda || k.cls == .wra then
    rows.map fun (p : Bank × Nat × Bool) => if k.covers p.1 then (p.1, p.2.1, false) else p
  else rows

/-- The channel as the audit sees it: its own file, holds and rows, and HOT as it applies it (R161, R169). -/
def Chan.auditView (c : Chan) : Chan :=
  { c with
    banks := c.fab.audRows.map fun (p : Bank × Nat × Bool) =>
      (p.1, { BankEntry.idle with st := if p.2.2 then .opened else .idle, row := p.2.1, rowLast := some p.2.1 }),
    fab := { c.fab with hist := c.fab.audHist, holds := c.fab.audHolds, hot := c.fab.audHot } }

/-- The command violates a batten (R156 to R161). -/
def Chan.breaks (c : Chan) (p : Nat × Nat) (k : Cmd) : Bool :=
  if batKind p.2 = 3 then c.fab.holds.any fun h => h.batten == p.1 && !c.holdOk k h
  else !c.ruleOk p.2 (before k.time c.fab.hist) k

/-- The DCLK by which a command falls short of a batten, at most 4,095; 0 for a command issued during a hold (R171). -/
def Chan.shortOf (c : Chan) (p : Nat × Nat) (k : Cmd) : Nat :=
  if batKind p.2 = 3 then 0
  else ((List.range 4096).find? fun n => !c.breaks p { k with time := k.time + n }).getD 4095

/-- What the audit finds against a command: one record for each batten that it breaks, without the exempt ones. -/
def Chan.violations (c : Chan) (k : Cmd) : List AuditRec :=
  (c.rules.filter fun p => !batExempt p.2 && c.breaks p k).map fun p =>
    { batten := p.1, cls := k.cls, sub := k.bank.sub, rank := k.bank.rank, lrank := k.bank.lrank % 8,
      short := c.shortOf p k }

/-- The audit applies the changes of HOT that are due (R161). -/
def Fabric.audHotNow (f : Fabric) (dclk : Nat) : Fabric :=
  { f with
    audHot := (f.hotPend.filter fun p => decide (p.1 ≤ dclk)).foldl
      (fun (h : BitVec 8) p => BitVec.ofNat 8 (setBits h.toNat p.2.1 1 (b2n p.2.2))) f.audHot,
    hotPend := f.hotPend.filter fun p => decide (dclk < p.1) }

/-- The audit observes a command that reaches the pins: it checks and counts it while its file is full, and the file takes
it. -/
def Chan.observe (c : Chan) (k : Cmd) : Chan :=
  if !c.fab.auditEn then c
  else
    let c := { c with fab := c.fab.audHotNow c.dclk }
    let v := c.auditView
    let c := if c.fab.auditReady then
        { c with fab := { c.fab with auditCnt := c.fab.auditCnt + 1, audFound := c.fab.audFound ++ v.violations k } }
      else c
    { c with fab := { c.fab with
        audHist := c.fab.audHist.filter (fun (x : Cmd) => decide (c.dclk ≤ x.time + maxAge)) ++ [k],
        audHolds := v.stepHolds c.fab.audHolds k, audRows := auditRow c.fab.audRows k } }

/-- The audit reports a violation that it has found (R170). -/
def Chan.auditFail (batten : Nat) (cls : CmdClass) (sub : Sub) (rank lrank short : Nat) (c : Chan) : Chan :=
  let r : AuditRec := { batten := batten, cls := cls, sub := sub, rank := rank, lrank := lrank, short := short }
  if c.down || !c.fab.auditEn || !c.fab.audFound.contains r then c
  else
    let c := { c with fab := { c.fab with auditRec := some (c.fab.auditRec.getD r), audFound := c.fab.audFound.erase r } }
    (c.raise evBatten (batten * 2 ^ 12 + cls.num * 2 ^ 7 + sub.num * 2 ^ 6 + rank * 2 ^ 3 + lrank)).fatal

/-- The audit's own file is empty (R168, R171). -/
def Fabric.audClear (f : Fabric) : Fabric := { f with audHist := [], audHolds := [], audRows := [], audFound := [] }

/-- ENABLE is written (R171): clear stops checking; set again rebuilds the audit file first. -/
def Chan.auditCtl (en : Bool) (c : Chan) : Chan :=
  if en then
    if c.fab.auditEn then c
    else { c with fab := { c.fab.audClear with auditEn := true, auditReady := false, audSince := c.dclk } }
  else { c with fab := { c.fab with auditEn := false } }

/-- The audit file holds a full history again (R171). -/
def Chan.auditFull (c : Chan) : Chan :=
  if c.fab.auditEn && decide (c.fab.audSince + maxAge ≤ c.dclk) then { c with fab := { c.fab with auditReady := true } } else c

end Sys2Proof.Machine
end

