-- ==== Sys2Proof/Machine/Upkeep.lean ====
section
/-! DEFINITION. The upkeep scheduler: refresh accounts and ticks, temperature polls, refresh management, ZQ calibration,
pauses and their admission, and the commands that each piece of upkeep work needs next (07). -/
namespace Sys2Proof.Machine

/-! ### Clocks -/

/-- The module is an MRDIMM. -/
def Chan.mr (c : Chan) : Bool :=
  match c.img with
  | some i => i.mr
  | none => false

/-- DCLK in `n` REFCLK cycles of 10 ns: RCK is N × 100 MHz (R15). -/
def Chan.dclkOf (c : Chan) (n : Nat) : Nat := if c.mr then n * c.trim.nCur / 2 else n * c.trim.nCur

/-- KCLK in `n` nanoseconds (R18). -/
def Chan.kclkOfNs (c : Chan) (n : Nat) : Nat := n * c.trim.nCur / (10 * kDiv c.trim.nCur)

/-- REFCLK cycles in a millisecond. -/
def refMs : Nat := 100000

/-! ### Ranks (R181, R184, R297) -/

/-- The physical ranks of the channel in the order subchannel, rank. -/
def Chan.rankPairs (c : Chan) : List (Sub × Nat) :=
  match c.img with
  | some i => [Sub.a, Sub.b].flatMap fun s => i.rankList.map fun r => (s, r)
  | none => []

/-- The logical ranks of a subchannel in the order rank, logical rank. -/
def Chan.lranksOf (c : Chan) : List (Nat × Nat) :=
  match c.img with
  | some i => i.rankList.flatMap fun r => i.lranks.map fun l => (r, l)
  | none => []

/-- A rank exists in the channel. -/
def Chan.hasRank (c : Chan) (r : Nat) : Bool :=
  match c.img with
  | some i => decide (r < i.ranks)
  | none => false

/-- The record of a rank. -/
def Upkeep.rank (u : Upkeep) (s : Sub) (r : Nat) : Option RankSt := u.ranks.find? fun x => x.sub == s && x.rank == r

/-- Change the record of a rank. -/
def Chan.modRank (c : Chan) (s : Sub) (r : Nat) (f : RankSt → RankSt) : Chan :=
  { c with upk := { c.upk with ranks := updateWhere (fun x => x.sub == s && x.rank == r) f c.upk.ranks } }

/-- The rank is in Glide, or in self-refresh. -/
def Chan.inGlide (c : Chan) (s : Sub) (r : Nat) : Bool :=
  match c.upk.rank s r with
  | some x => x.glide
  | none => false
def Chan.inSelfRef (c : Chan) (s : Sub) (r : Nat) : Bool :=
  match c.upk.rank s r with
  | some x => x.selfRef
  | none => false

/-- Every rank is in self-refresh. -/
def Chan.allSelfRef (c : Chan) : Bool := c.upk.ranks.all fun x => x.selfRef

/-! ### The choice of a trim set (R303) -/

/-- A trim set of the gondola. -/
def Trim.set (t : Trim) (i : Nat) : TrimSet := t.sets.getD i Reset.trimSet

/-- Change a trim set. -/
def Trim.modSet (t : Trim) (i : Nat) (f : TrimSet → TrimSet) : Trim := { t with sets := updateAt i f t.sets }

/-- The better of two sets: valid, within the limit, and of the higher N (R303). -/
def Trim.better (t : Trim) (lim : Nat) (best : Option Nat) (i : Nat) : Option Nat :=
  if !(t.set i).valid || decide (lim < (t.set i).n) then best
  else match best with
    | none => some i
    | some j => if (t.set j).n < (t.set i).n then some i else some j

/-- The valid set with the highest N that does not exceed `lim` (R303). -/
def Trim.bestSet (t : Trim) (lim : Nat) : Option Nat := (List.range 4).foldl (t.better lim) none

/-! ### Refresh accounts (R172 to R175, R177, R430) -/

/-- The refresh mode is same-bank. -/
def Chan.sameBank (c : Chan) : Bool :=
  match c.img with
  | some i => i.sameBank
  | none => false

/-- LP of a POSTPONE value, and LI (R172). -/
def Chan.limitOf (c : Chan) (p : Nat) : Nat := if c.sameBank then 2 * p else p
def Chan.pullLimit (c : Chan) : Int := if c.sameBank then 8 else 4

/-- The tick interval of a rank (R172, R177). -/
def Chan.tick (c : Chan) (r : Nat) : Nat :=
  let hot := bitAt c.fab.hot.toNat r
  if c.sameBank then (if hot then 97 else 195) else (if hot then 195 else 390)

/-- The highest debt of an account. -/
def Account.top (a : Account) : Int := a.debts.foldl max (a.debts.headD 0)

/-- The limit above which a debt is at DEADLINE: a lowered limit counts at once (R430). -/
def Account.limit (a : Account) : Nat :=
  match a.newLp with
  | some n => min a.lp n
  | none => a.lp

/-- Debt `d` is at DEADLINE (R174). -/
def Account.atDeadline (a : Account) (d : Int) : Bool := decide ((a.limit : Int) + 1 ≤ d)

/-- The first tick after `now` at phase `ph` of an interval of `t`. The intervals start at REFCLK count 0 (DESIGN CHOICE, log
entry 94). -/
def nextAt (now t ph : Nat) : Nat := if now % t < ph then now - now % t + ph else now - now % t + t + ph

/-- The phase of the ticks of a logical rank within their interval (R173). -/
def Chan.tickPhase (c : Chan) (s : Sub) (r l : Nat) : Nat :=
  let lrs := c.lranksOf
  (2 * lrs.idxOf (r, l) + s.num) * c.tick r / (2 * max 1 lrs.length)

/-- The tick after `now` of a logical rank. -/
def Chan.tickAfter (c : Chan) (s : Sub) (r l now : Nat) : Nat := nextAt now (c.tick r) (c.tickPhase s r l)

/-- The accounts of a channel whose ranks leave self-refresh or initialisation at `now` (R172, R173, R185). -/
def Chan.freshAccounts (c : Chan) (now : Nat) : List Account :=
  let n := if c.sameBank then 4 else 1
  [Sub.a, Sub.b].flatMap fun s => c.lranksOf.map fun p =>
    { sub := s, rank := p.1, lrank := p.2, debts := List.replicate n 0, next := c.tickAfter s p.1 p.2 now,
      lp := c.limitOf c.upk.postpone, newLp := none, pull := 0, chosen := [] }

/-- Change the account of a logical rank. -/
def Chan.modAcct (c : Chan) (s : Sub) (r l : Nat) (f : Account → Account) : Chan :=
  { c with upk := { c.upk with
      accounts := updateWhere (fun a => a.sub == s && a.rank == r && a.lrank == l) f c.upk.accounts } }

/-- The highest debt of all accounts, not below 0. -/
def Upkeep.maxNow (u : Upkeep) : Nat := u.accounts.foldl (fun m a => max m a.top.toNat) 0

/-- MAXDEBT follows the debts (R189). -/
def Chan.noteDebt (c : Chan) : Chan := { c with upk := { c.upk with maxDebt := max c.upk.maxDebt (min 15 c.upk.maxNow) } }

/-- The account after its tick, with the next one at `nx` and the limit that a raised POSTPONE gives it (R174, R430). -/
def Account.ticked (a : Account) (nx : Nat) : Account :=
  let lp := match a.newLp with
    | some n => max a.lp n
    | none => a.lp
  let nl := match a.newLp with
    | some n => if n < a.lp then some n else none
    | none => none
  { a with debts := a.debts.map (· + 1), next := nx, lp := lp, newLp := nl }

/-- A tick of an account (R174, R175). In self-refresh the ticks go on and raise no debt (R185). -/
def Chan.refreshTick (sub : Sub) (r l : Nat) (e : Env) (c : Chan) : Chan :=
  match c.upk.accounts.find? fun a => a.sub == sub && a.rank == r && a.lrank == l with
  | none => c
  | some a =>
    if c.power.fatal || decide (e.now < a.next) then c
    else
      let nx := c.tickAfter sub r l a.next
      if c.inSelfRef sub r then c.modAcct sub r l fun a => { a with next := nx }
      else
        let b := a.ticked nx
        if (b.lp : Int) + 2 ≤ b.top then
          (c.raise evRefreshMissed (sub.num * 2 ^ 6 + r * 2 ^ 3 + l)).fatal
        else (c.modAcct sub r l fun _ => b).noteDebt

/-- A write of POSTPONE (R189, R430). -/
def Chan.setPostpone (w : Word) (c : Chan) : Chan :=
  let p := clampTo 0 4 (bitsAt w.toNat 0 3)
  let n := c.limitOf p
  let f := fun a : Account =>
    if a.lp < n then { a with newLp := some n }
    else if (n : Int) + 1 ≤ a.top ∧ n < a.lp then { a with newLp := some n }
    else { a with lp := n, newLp := none }
  { c with upk := { c.upk with postpone := p, accounts := c.upk.accounts.map f } }

/-- An account after a refresh of debt `b`, or of all debts (R172), with the limit that waited for its debt (R430). -/
def Chan.paid (c : Chan) (b : Option Nat) (a : Account) : Account :=
  let dec := fun d : Int => max (-c.pullLimit) (d - 1)
  let ds := match b with
    | none => a.debts.map dec
    | some i => updateAt i dec a.debts
  let a := { a with
    debts := ds, pull := a.pull - 1,
    chosen := match b with
      | none => []
      | some i => a.chosen.filter (· != i) }
  match a.newLp with
  | some n => if n < a.lp ∧ a.top ≤ (n : Int) + 1 then { a with lp := n, newLp := none } else a
  | none => a

/-! ### Temperature (R176, R177) -/

/-- Poll times after an entry into Flight (R176). -/
def Chan.freshPolls (c : Chan) (now : Nat) : List (Sub × Nat × Nat × Nat) :=
  let all := [Sub.a, Sub.b].flatMap fun s => c.lranksOf.map fun p => (s, p)
  ((List.range all.length).zip all).map fun p =>
    (p.2.1, p.2.2.1, p.2.2.2, now + p.1 * 8 * refMs / max 1 all.length)

/-- The temperature MRR of a logical rank falls due (R176). -/
def Chan.tempPoll (sub : Sub) (r l : Nat) (e : Env) (c : Chan) : Chan :=
  match c.upk.pollNext.find? fun p => p.1 == sub && p.2.1 == r && p.2.2.1 == l with
  | none => c
  | some p =>
    if !c.running || decide (e.now < p.2.2.2) then c
    else
      { c with upk := { c.upk with
          polls := c.upk.polls ++ [(sub, r, l)],
          pollNext := updateWhere (fun q => q == p) (fun (q : Sub × Nat × Nat × Nat) => (q.1, q.2.1, q.2.2.1, q.2.2.2 + 8 * refMs)) c.upk.pollNext } }

/-- HOT of a rank changes (R176): the next tick that is not due follows the new interval (R173, R177; DESIGN CHOICE, log entry
94), and the audit applies the change 16 DCLK later (R161). -/
def Chan.setHot (e : Env) (c : Chan) (r : Nat) (h : Bool) : Chan :=
  if bitAt c.fab.hot.toNat r = h then c
  else
    let c := { c with fab := { c.fab with
      hot := BitVec.ofNat 8 (setBits c.fab.hot.toNat r 1 (b2n h)), hotPend := c.fab.hotPend ++ [(c.dclk + 16, r, h)] } }
    let move := fun a : Account => { a with next := c.tickAfter a.sub a.rank a.lrank e.now }
    let due := fun a : Account => a.rank == r && decide (e.now < a.next)
    ({ c with upk := { c.upk with accounts := updateWhere due move c.upk.accounts } }).raise evThermalHot
      (b2n h * 2 ^ 8 + r * 2 ^ 3)

/-- Every logical rank of a rank, on both subchannels, has reported 1x in two consecutive polls. -/
def Chan.coolTwice (c : Chan) (r : Nat) : Bool :=
  (c.upk.ranks.filter fun x => x.rank == r).all fun x => x.poll1x.all fun n => decide (2 ≤ n)

/-- The poll round under way. -/
def Chan.pollRound (e : Env) (c : Chan) : Nat := (e.now - c.upk.flightAt) / (8 * refMs)

/-- The MRR data of a logical rank (R176). -/
def Chan.tempResult (sub : Sub) (r l : Nat) (t : TempReading) (e : Env) (c : Chan) : Chan :=
  if !c.running || !c.hasRank r then c
  else
    let set := fun n : Nat → Nat => c.modRank sub r fun x => { x with poll1x := updateAt l n x.poll1x }
    match t with
    | .x1 =>
      let c := set fun n => min 2 (n + 1)
      if c.coolTwice r then c.setHot e r false else c
    | .x2 => (set fun _ => 0).setHot e r true
    | .hot =>
      let c := (set fun _ => 0).setHot e r true
      let n := c.pollRound e
      if c.upk.overRounds.any fun (p : Nat × Nat) => p.1 == r && p.2 == n then c
      else
        ({ c with upk := { c.upk with overRounds := c.upk.overRounds.filter (fun (p : Nat × Nat) => p.1 != r) ++ [(r, n)] } }).raise evOvertemp
          (r * 2 ^ 3 + l)

/-! ### Pauses (R25, R181, R183, R298) -/

/-- The pause takes the data bus of its subchannel: every pause but a ZQ pause (R25). -/
def Pause.takesBus (p : Pause) : Bool := p.kind == .retrim || p.kind == .selftest || p.kind == .training

/-- A pause runs on a subchannel, and one that takes the data bus. -/
def Chan.pauseOn (c : Chan) (s : Sub) : Option Pause := c.upk.pauses.find? fun p => p.running && p.sub == s
def Chan.busTaken (c : Chan) (s : Sub) : Bool := c.upk.pauses.any fun p => p.running && p.sub == s && p.takesBus

/-- A bank of a rank. -/
def mkBank (s : Sub) (r l g b : Nat) : Bank := { sub := s, rank := r, lrank := l, bg := g, ba := b }

/-- Every bank of a rank. -/
def Chan.banksOf (c : Chan) (s : Sub) (r : Nat) : List Bank :=
  match c.img with
  | some i => i.lranks.flatMap fun l => (List.range 8).flatMap fun g => (List.range 4).map fun b => mkBank s r l g b
  | none => []

/-- A shift pause begins (R304 steps 1 to 4): uncommitted commands are dropped, and the ranks are parked after the mode
registers of each rank are written. -/
def Chan.startShift (c : Chan) : Chan :=
  let c := c.drop fun _ => true
  { c with trim := { c.trim with shift := some .prepare, mrw := c.rankPairs }, upk := { c.upk with park := true } }

/-- A shift pause that was due starts once no pause holds the channel (R305). -/
def Chan.settleShift (c : Chan) : Chan :=
  if c.trim.shift = some .due ∧ !(c.upk.pauses.any fun p => p.running) then c.startShift else c

/-- What follows of itself in a transition (R284, R327): the ranks that a write-back needs are awake; the write-back is
done and the ranks park; the ranks of an excursion are awake and its shift pause begins, if the selected set differs. -/
def Chan.settleTrans (c : Chan) : Chan :=
  match c.power.trans with
  | none => c
  | some t =>
    let asleep := c.upk.ranks.any fun x => x.selfRef
    if t.ph = .writeBack ∧ !asleep then
      if c.loft.entries.isEmpty && c.loft.evicts.isEmpty && c.wq.isEmpty && c.rq.isEmpty && c.planned.isEmpty then
        { c with
          upk := { c.upk with wake := false, park := true }, power := { c.power with trans := some { t with ph := .enter } } }
      else { c with upk := { c.upk with wake := false } }
    else if t.ph = .waking ∧ t.frm = .moored ∧ t.req.tgt = .moored ∧ !asleep then
      let c := { c with upk := { c.upk with wake := false } }
      match c.trim.bestSet c.trim.reqN with
      | some n =>
        if n = c.trim.tsel then
          { c with power := { c.power with trans := some { t with ph := .enter } }, upk := { c.upk with park := true } }
        else
          ({ c with
            trim := { c.trim with shiftTo := n },
            power := { c.power with trans := some { t with ph := .excursion } } }).startShift
      | none =>
        { c with
          trim := { c.trim with noset := true }, upk := { c.upk with park := true },
          power := { c.power with trans := some { t with ph := .enter } } }
    else c

/-- A pause ends: its rank's banks are usable again once the time of its commands has run out (R120). -/
def Chan.endPause (c : Chan) (p : Pause) : Chan :=
  ({ c with upk := { c.upk with pauses := c.upk.pauses.erase p } }).settleShift

/-- Ticks of an account from `now` to `til`. -/
def Account.ticksIn (a : Account) (t now til : Nat) : Nat :=
  if a.next ≤ til then (til - max now a.next) / max 1 t + 1 else 0

/-- The logical ranks of a rank with an open row, or one about to open. -/
def Chan.openLranks (c : Chan) (s : Sub) (r : Nat) : List Nat :=
  match c.img with
  | some i => i.lranks.filter fun l => c.banks.any fun p =>
      p.1.sub == s && p.1.rank == r && p.1.lrank == l && (p.2.st == .opened || p.2.st == .opening)
  | none => []

/-- A command of a pause, made once. -/
def seqCmd (cls : CmdClass) (b : Bank) (row col : Nat) : SeqCmd := { cls := cls, bank := b, row := row, col := col, tries := 0 }

/-- PREab to the logical ranks listed. -/
def closeAll (s : Sub) (r : Nat) (ls : List Nat) : List SeqCmd := ls.map fun l => seqCmd .preab (mkBank s r l 0 0) 0 0

/-- PREab to each logical rank of a rank that needs it. -/
def Chan.closeRank (c : Chan) (s : Sub) (r : Nat) : List SeqCmd := closeAll s r (c.openLranks s r)

/-- The column commands of a rank whose banks start precharged, with the row commands that they need: an ACT where another row
is needed, a PREpb before it where a row is open. `opened` lists the rows opened so far. -/
def accessSeq : List SeqCmd → List (Bank × Nat) → List SeqCmd
  | [], _ => []
  | x :: xs, opened =>
    let now := (x.bank, x.row)
    match opened.find? fun p => p.1 == x.bank with
    | some p =>
      if p.2 = x.row then x :: accessSeq xs opened
      else seqCmd .prepb x.bank p.2 0 :: seqCmd .act x.bank x.row 0 :: x :: accessSeq xs (now :: opened.filter fun q => q.1 != x.bank)
    | none => seqCmd .act x.bank x.row 0 :: x :: accessSeq xs (now :: opened)

/-- A column access of a pause. -/
def accessCmd (p : CmdClass × Dev) : SeqCmd := seqCmd p.1 p.2.bank p.2.row p.2.col

/-- `n` devices of a list, in turn. -/
def cycleDevs (l : List Dev) (n : Nat) : List Dev :=
  ((List.range n).map fun i => l[i % max 1 l.length]?).filterMap id

/-- One device for each bank group: one in a row of `rows` if there is one, else the first line of the group (R298). -/
def perGroup (rows : List (Bank × Nat)) (l : List Dev) : List Dev :=
  (List.range 8).filterMap fun g =>
    let mine := l.filter fun d => d.bank.bg == g
    (mine.find? fun d => rows.contains (d.bank, d.row)) <|> mine.head?

/-- The accesses of a retrim pause (R298): reads of the read region, writes of the write region and their read-backs, over the
rank's bank groups so that they follow at the burst length (R300): the first half of the reads uses the bank groups that open
first, and the read-backs begin with the bank group written longest ago. -/
def Chan.retrimAcc (c : Chan) (s : Sub) (r : Nat) (wide : Bool) : List (CmdClass × Dev) :=
  match c.img with
  | none => []
  | some i =>
    let ls := i.reserveLines s r
    let rd := perGroup [] ((ls.take 256).map i.devOf)
    let wr := perGroup (rd.map fun d => (d.bank, d.row)) (((ls.drop 256).take 256).map i.devOf)
    let n := if wide then 52 else 40
    (if rd.length ≤ 4 then cycleDevs rd n else cycleDevs (rd.take 4) (n / 2) ++ cycleDevs (rd.drop 4) (n / 2)).map
        (fun d => (CmdClass.rd, d)) ++
      (cycleDevs wr (n / 2)).map (fun d => (.wr, d)) ++ (cycleDevs (wr.rotateLeft (n / 2)) (n / 2)).map (fun d => (.rd, d))

/-- The commands of a retrim pause (R298, R300): PREab, the ACTs to the bank groups, the column commands, and PREab. -/
def Chan.retrimCmds (c : Chan) (s : Sub) (r : Nat) (wide : Bool) : List SeqCmd :=
  let acc := c.retrimAcc s r wide
  let first := ((acc.filter fun x => x.1 == .rd).map fun x => (x.2.bank, x.2.row)).eraseDups.foldl
    (fun (l : List (Bank × Nat)) p => if l.any fun q => q.1 == p.1 then l else l ++ [p]) []
  closeAll s r (match c.img with
    | some i => i.lranks
    | none => []) ++ (first.map fun p => seqCmd .act p.1 p.2 0) ++ accessSeq (acc.map accessCmd) first ++
    [seqCmd .preab (mkBank s r 0 0 0) 0 0]

/-! ### The length of a pause (R300) -/

/-- A command of a pause as a candidate. -/
def SeqCmd.cmd (x : SeqCmd) (level : Level) : Cmd :=
  { cls := x.cls, bank := x.bank, row := x.row, col := x.col, time := 0, level := level, src := .pause, specAct := false,
    tries := x.tries }

/-- The place of a command among those of its pause: column commands follow one another, ACTs follow one another, a command
follows the earlier ones of its bank, and a precharge or an MPC follows everything before it. -/
def Cmd.follows (k x : Cmd) : Bool :=
  k.bank.sub == x.bank.sub &&
    ((k.cls.isCol && x.cls.isCol) || (k.cls == .act && x.cls == .act) || x.covers k.bank || k.covers x.bank ||
      !(k.cls.isCol || k.cls == .act))

/-- The first DCLK from `t` on at which a command of a pause clears every batten beside the commands placed before it. -/
def Chan.clearFrom (c : Chan) (done : List Cmd) (k : Cmd) : Nat → Nat → Nat
  | 0, t => t
  | n + 1, t =>
    let x := { k with time := t }
    let ok := fun (l : List Cmd) (y : Cmd) => ({ c with fab := { c.fab with hist := l, holds := [] } }).legal [] y
    if ok done x &&
        (done.filter fun y => decide (t < y.time)).all fun y => ok (x :: done.erase y) y then t
    else c.clearFrom done k n (t + 1)

/-- The next command of a pause takes its earliest DCLK. -/
def Chan.placeAfter (c : Chan) (done : List Cmd) (k : Cmd) : List Cmd :=
  let t := (done.filter k.follows).foldl (fun m x => max m (x.time + 1)) (maxAge + 1)
  done ++ [{ k with time := c.clearFrom done k 4096 t }]

/-- The DCLK from the opening PREab of a pause until its rank's banks can take ACT again, under the batten program in force. -/
def Chan.seqLength (c : Chan) (cmds : List SeqCmd) : Nat :=
  let done := (cmds.map fun x => x.cmd .pause).foldl c.placeAfter []
  match done.head?, (done.filter fun x => x.cls == .act).head?, done.getLast? with
  | some a, some k, some z =>
    let next := (c.placeAfter done { k with time := 0 }).getLast?
    max z.time ((next.map Cmd.time).getD 0) - a.time
  | _, _, _ => 0

/-- The same in REFCLK cycles, rounded up. -/
def Chan.refOfDclk (c : Chan) (n : Nat) : Nat :=
  let per := max 1 c.trim.nCur
  if c.mr then (2 * n + per - 1) / per else (n + per - 1) / per

/-- Ask for a pause (R183). The declared length of a retrim is that of its commands (R300); that of any other pause is free within
its bound. -/
def Chan.askPause (c : Chan) (k : PauseKind) (s : Sub) (r : Nat) (wide : Bool) : Chan :=
  let (n, c) := c.fresh
  let len := if k = .retrim then c.refOfDclk (c.seqLength (c.retrimCmds s r wide)) else Config.pauseLength n % 101
  let p : Pause := { kind := k, sub := s, rank := r, len := len, wide := wide, running := false, endAt := 0, cmds := [] }
  { c with upk := { c.upk with pauses := c.upk.pauses ++ [p] } }

/-- The commands of an admitted pause; those of a self-test or training pause are given with it. The latch pause has its MPC
alone (R181; log entry 100). -/
def Chan.pauseCmds (c : Chan) (p : Pause) : List SeqCmd :=
  match p.kind with
  | .retrim => c.retrimCmds p.sub p.rank p.wide
  | .zqStart => c.closeRank p.sub p.rank ++ [seqCmd .mpc (mkBank p.sub p.rank 8 0 0) 0 0]
  | .zqLatch => [seqCmd .mpc (mkBank p.sub p.rank 8 0 0) 0 0]
  | .selftest | .training => p.cmds

/-! ### Admission (R183) -/

/-- A refresh or refresh management of the rank is planned, or has not completed. -/
def Chan.refreshing (c : Chan) (s : Sub) (r : Nat) : Bool :=
  (c.banks.any fun p => p.1.sub == s && p.1.rank == r && p.2.st == .refreshing) ||
  c.planned.any fun k => k.bank.sub == s && k.bank.rank == r &&
    (k.cls == .refab || k.cls == .refsb || k.cls == .rfmab || k.cls == .rfmsb)

/-- RFM is enabled; with RAAIMT 0 it counts as disabled (DESIGN CHOICE, log entry 103). -/
def Chan.rfmEn (c : Chan) : Bool :=
  match c.img with
  | some i => i.rfmEn && decide (0 < c.upk.raaimt)
  | none => false

/-- The activation count at which no ACT is offered: RAAMMT (R179). -/
def Chan.actStop (c : Chan) (b : Bank) : Bool := c.rfmEn && decide (c.upk.raammt ≤ (c.bank b).acts)

/-- The ACTs of a pause would bring a bank beyond RAAMMT, at which none is offered (R179). -/
def Chan.overActs (c : Chan) (p : Pause) : Bool :=
  let acts := ((c.pauseCmds p).filter fun x => x.cls == .act).map SeqCmd.bank
  c.rfmEn && acts.any fun b =>
    decide (0 < (c.bank b).acts) && decide (c.upk.raammt < (c.bank b).acts + countWhere (fun x => x == b) acts)

/-- Admission (R183): refused while a back-off runs, a deadline refresh is not committed, a refresh of the pause's own rank has
not completed, or a bank cannot take the pause's ACTs; and where a deadline would open inside the pause, after asking the first
such account for the refreshes to be pulled in. -/
def Chan.admits (e : Env) (c : Chan) (p : Pause) : Bool × Chan :=
  let s := p.sub
  let bo := if s = .a then c.upk.boA.active else c.upk.boB.active
  let acc := c.upk.accounts.filter fun a => a.sub == s
  if bo || acc.any (fun a => a.debts.any a.atDeadline) || c.refreshing s p.rank || c.overActs p then (false, c)
  else
    let excess := fun a : Account =>
      (a.top + (a.ticksIn (c.tick a.rank) e.now (e.now + p.len + 20) : Nat) - (a.limit : Int)).toNat
    match acc.find? fun a => excess a ≠ 0 with
    | none => (true, c)
    | some x => (false, c.modAcct s x.rank x.lrank fun a => { a with pull := max a.pull (excess x) })

/-- The pause that a subchannel may admit in this KCLK: none while one runs there, or while the channel drains or shifts;
the oldest that has been asked for. -/
def Chan.nextPause (c : Chan) (s : Sub) : Option Pause :=
  if (c.pauseOn s).isSome || c.trim.shift.isSome || (c.power.trans.isSome && !c.bringing) || c.upk.park then none
  else c.upk.pauses.find? fun p => p.sub == s && !p.running

/-- An admitted pause begins (R25): where it takes the data bus, planned host columns are dropped (R132). -/
def Chan.beginPause (c : Chan) (p : Pause) : Chan :=
  let q : Pause := { p with running := true, cmds := c.pauseCmds p }
  let c := { c with upk := { c.upk with pauses := updateWhere (fun x => x == p) (fun _ => q) c.upk.pauses } }
  if p.takesBus then c.drop fun k => k.bank.sub == p.sub && k.cls.isCol && k.src != .pause else c

/-- The next pause of a subchannel is admitted, or refused with pulled-in refreshes (R183). -/
def Chan.tryPause (e : Env) (s : Sub) (c : Chan) : Chan :=
  match c.nextPause s with
  | none => c
  | some p =>
    match c.admits e p with
    | (true, c) => c.beginPause p
    | (false, c) => c

/-- A ZQ pause whose MPC has been on the pins long enough ends: the start pause at once, the latch pause after tZQLAT
(R181). A self-test pause ends with its declared length. -/
def Chan.settlePauses (e : Env) (c : Chan) : Chan :=
  let ended := fun p : Pause => p.running && p.cmds.isEmpty && decide (p.endAt ≠ 0) && decide (p.endAt ≤ e.now) && p.kind != .retrim
  let fin := c.upk.pauses.filter ended
  fin.foldl (fun c p =>
    let c := c.endPause p
    match p.kind with
    | .zqStart => c.modRank p.sub p.rank fun x => { x with zqPhase := 2, zqAt := p.endAt + 100 }
    | .zqLatch => c.modRank p.sub p.rank fun x => { x with zqPhase := 0 }
    | _ => c) c

/-! ### ZQ, Glide and retrim timers (R181, R184, R297) -/

/-- The live intervals in REFCLK cycles. -/
def Chan.zqInterval (c : Chan) : Nat := c.upk.zqMs * refMs
def Chan.retrimInterval (c : Chan) : Nat := c.trim.interval * refMs

/-- The records of the ranks at an entry into Flight at `now`: the first calibrations and retrims spread over their
intervals (R181, R297). -/
def Chan.freshRanks (c : Chan) (now : Nat) : List RankSt :=
  let ps := c.rankPairs
  let n := max 1 ps.length
  ((List.range ps.length).zip ps).map fun p =>
    { sub := p.2.1, rank := p.2.2, zqNext := now + (p.1 + 1) * c.zqInterval / n, zqPhase := 0, zqAt := 0, glide := false,
      idleSince := now, selfRef := false, retrimNext := now + (p.1 + 1) * c.retrimInterval / n, retrimWide := false,
      poll1x := match c.img with
        | some i => List.replicate i.stack 0
        | none => [] }

/-- Start a calibration of a rank (R181). -/
def Chan.startZq (c : Chan) (s : Sub) (r : Nat) : Chan :=
  (c.modRank s r fun x => { x with zqPhase := 1 }).askPause .zqStart s r false

/-- A rank's ZQ interval falls due (R181). -/
def Chan.zqDue (s : Sub) (r : Nat) (e : Env) (c : Chan) : Chan :=
  match c.upk.rank s r with
  | none => c
  | some x =>
    if !c.running || decide (e.now < x.zqNext) || x.zqPhase != 0 then c
    else (c.startZq s r).modRank s r fun x => { x with zqNext := x.zqNext + c.zqInterval }

/-- tZQCAL ends: the latch pause is asked for (R181). -/
def Chan.zqcalDone (s : Sub) (r : Nat) (e : Env) (c : Chan) : Chan :=
  match c.upk.rank s r with
  | none => c
  | some x =>
    if !c.running || x.zqPhase != 2 || decide (e.now < x.zqAt) then c
    else (c.modRank s r fun x => { x with zqPhase := 3 }).askPause .zqLatch s r false

/-- A rank's retrim falls due (R297). -/
def Chan.retrimDue (s : Sub) (r : Nat) (e : Env) (c : Chan) : Chan :=
  match c.upk.rank s r with
  | none => c
  | some x =>
    if !c.running || c.trim.shift.isSome || decide (e.now < x.retrimNext) ||
        c.upk.pauses.any (fun p => p.kind == .retrim && p.sub == s && p.rank == r) then c
    else (c.askPause .retrim s r x.retrimWide).modRank s r fun x => { x with retrimNext := x.retrimNext + c.retrimInterval }

/-- A rank holds a queue entry or a planned command of a request (R184). -/
def Chan.rankBusy (c : Chan) (s : Sub) (r : Nat) : Bool :=
  c.rq.any (fun x => x.dev.bank.sub == s && x.dev.bank.rank == r) ||
  c.wq.any (fun x => x.dev.bank.sub == s && x.dev.bank.rank == r) ||
  c.planned.any fun k => k.bank.sub == s && k.bank.rank == r && k.src != .upkeep && k.src != .pause

/-- Busy ranks restart their idle timers. -/
def Chan.noteIdle (e : Env) (c : Chan) : Chan :=
  { c with upk := { c.upk with
      ranks := c.upk.ranks.map fun x => if c.rankBusy x.sub x.rank then { x with idleSince := e.now } else x } }

/-- A command for a rank's upkeep in its earliest slot. -/
def rankCmd (cls : CmdClass) (s : Sub) (r : Nat) (level : Level) : Cmd :=
  { bareCmd cls (mkBank s r 0 0 0) with level := level }

/-- A command enters the tail. -/
def Chan.insert (c : Chan) (k : Cmd) : Chan := { c with tail := insertBy Cmd.time k c.tail }

/-- A parity recovery of the subchannel (R248): commits stopped, or PREabs still to place. -/
def Chan.stopped (c : Chan) (s : Sub) : Bool := if s = .a then c.sched.stopA else c.sched.stopB
def Chan.recovering (c : Chan) (s : Sub) : Bool := !(if s = .a then c.sched.recA else c.sched.recB).isEmpty

/-- A rank idle for the Glide time has its PDE planned (R184); IDLE is in units of one REFCLK cycle. -/
def Chan.glideDue (s : Sub) (r : Nat) (e : Env) (c : Chan) : Chan :=
  match c.upk.rank s r with
  | none => c
  | some x =>
    if !c.running || x.glide || x.selfRef || c.rankBusy s r || c.upk.park || c.upk.wake || c.stopped s || c.recovering s ||
        decide (e.now < x.idleSince + c.power.glideIdle) || (c.planned.any fun k => k.bank.sub == s && k.bank.rank == r) ||
        (c.pauseOn s).any (fun p => p.rank == r) then c
    else
      match c.earliest (fun _ => true) (rankCmd .pde s r .internal) with
      | some k => c.insert k
      | none => c

/-! ### Upkeep work (R174, R179, R180, R185, R187) -/

/-- A piece of upkeep work: the command that ends it, its coverage, its level, whether it may displace, whether it claims its
banks, and the DCLK by which it must reach the pins (R133). -/
structure Work where
  cls : CmdClass
  bank : Bank
  level : Level
  disp : Bool
  claim : Bool
  dl : Option Nat
deriving DecidableEq, Repr

/-- The refresh, or the refresh-management command, that covers debt `i` of a logical rank. -/
def Chan.refreshCls (c : Chan) : CmdClass := if c.sameBank then .refsb else .refab
def Chan.rfmCls (c : Chan) : CmdClass := if c.sameBank then .rfmsb else .rfmab

/-- Work on a logical rank. -/
def mkWork (cls : CmdClass) (s : Sub) (r l b : Nat) (level : Level) (disp claim : Bool) : Work :=
  { cls := cls, bank := mkBank s r l 0 b, level := level, disp := disp, claim := claim, dl := none }

/-- The order of equal items of upkeep work: logical rank, then bank index (R187). -/
def Work.key (w : Work) : Nat := w.bank.lkey * 8 + w.bank.ba

/-- DEADLINE refreshes, the earliest next tick first; each must reach the pins before that tick (R148). -/
def Chan.deadlineWork (e : Env) (c : Chan) (s : Sub) : List Work :=
  ((sortBy Account.next (c.upk.accounts.filter fun a => a.sub == s))).flatMap fun a =>
    ((List.range a.debts.length).filter fun i => a.atDeadline (a.debts.getD i 0)).map fun i =>
      { mkWork c.refreshCls s a.rank a.lrank i .upkeep true true with dl := some (c.dclk + c.dclkOf (a.next - e.now)) }

/-- Banks of a subchannel whose activation count is at least `n`. -/
def Chan.hotBanks (c : Chan) (s : Sub) (n : Nat) : List Bank :=
  if c.rfmEn then (c.banks.filter fun p => p.1.sub == s && decide (n ≤ p.2.acts)).map Prod.fst else []

/-- The banks that a refresh-management command covers, each once. -/
def Chan.rfmBanks (c : Chan) (s : Sub) (n : Nat) : List Bank :=
  ((c.hotBanks s n).map fun b => mkBank s b.rank b.lrank 0 (if c.sameBank then b.ba else 0)).eraseDups

/-- Refresh management for banks at RAAMMT. -/
def Chan.rfmMaxWork (c : Chan) (s : Sub) : List Work :=
  sortBy Work.key ((c.rfmBanks s c.upk.raammt).map fun b => mkWork c.rfmCls s b.rank b.lrank b.ba .upkeep true true)

/-- The account of a logical rank. -/
def Chan.acct (c : Chan) (s : Sub) (r l : Nat) : Option Account :=
  c.upk.accounts.find? fun a => a.sub == s && a.rank == r && a.lrank == l

/-- The debt that a refresh of a bank's coverage lowers is above −LI. -/
def Chan.notAhead (c : Chan) (b : Bank) : Bool :=
  match c.acct b.sub b.rank b.lrank with
  | some a => decide (-c.pullLimit < a.debts.getD (if c.sameBank then b.ba else 0) 0)
  | none => false

/-- Refresh management for banks at RAAIMT: a pulled-in refresh of the same coverage unless the account is AHEAD. -/
def Chan.rfmWork (c : Chan) (s : Sub) : List Work :=
  (c.rfmBanks s c.upk.raaimt).map fun b =>
    mkWork (if c.notAhead b then c.refreshCls else c.rfmCls) s b.rank b.lrank b.ba .upkeep false true

/-- The RFMab commands owed to each logical rank in a back-off. -/
def Upkeep.backoff (u : Upkeep) (s : Sub) : Backoff := if s = .a then u.boA else u.boB
def Chan.backoffWork (c : Chan) (s : Sub) : List Work :=
  ((c.upk.backoff s).owed.filter fun o => decide (0 < o.2.2)).map fun o =>
    mkWork .rfmab s o.1 o.2.1 0 .upkeep true true

/-- The position of an account's highest debt, the lowest on a tie. -/
def Account.topIdx (a : Account) : Nat := ((List.range a.debts.length).find? fun i => a.debts.getD i 0 == a.top).getD 0

/-- Refreshes pulled in for pause admission, without displacement (DESIGN CHOICE, log entry 102). -/
def Chan.pullWork (c : Chan) (s : Sub) : List Work :=
  (c.upk.accounts.filter fun a => a.sub == s && decide (0 < a.pull) && decide (-c.pullLimit < a.top)).map fun a =>
    mkWork c.refreshCls s a.rank a.lrank a.topIdx .upkeep false true

/-- The accounts of a rank that must be paid before its SRE (R185). -/
def Chan.owing (c : Chan) (s : Sub) (r : Nat) : List Account :=
  c.upk.accounts.filter fun a => a.sub == s && a.rank == r && decide (0 < a.top)

/-- Before SRE every account is paid, by REFab; then each rank takes its SRE (R185). A shift pause takes its steps 2 to 4 in
order over every rank: the refreshes, the mode registers, the SREs (R304). -/
def Chan.parkWork (c : Chan) (s : Sub) : List Work :=
  if !c.upk.park then []
  else
    let up := c.upk.ranks.filter fun x => !x.selfRef
    let mine := (up.filter fun x => x.sub == s).map RankSt.rank
    let refs := fun r => (c.owing s r).map fun a => mkWork .refab s a.rank a.lrank 0 .upkeep true true
    let sre := fun r => mkWork .sre s r 0 0 .upkeep true true
    if c.trim.shift = some .prepare then
      if up.any fun x => !(c.owing x.sub x.rank).isEmpty then mine.flatMap refs
      else if c.trim.mrw.isEmpty then mine.map sre
      else (mine.filter fun r => c.trim.mrw.contains (s, r)).map fun r => mkWork .mrw s r 8 0 .upkeep true true
    else mine.flatMap fun r => if (c.owing s r).isEmpty then [sre r] else refs r

/-- SRX to every rank in self-refresh. -/
def Chan.wakeWork (c : Chan) (s : Sub) : List Work :=
  if !c.upk.wake then []
  else (c.upk.ranks.filter fun x => x.sub == s && x.selfRef).map fun x => mkWork .srx s x.rank 0 0 .upkeep true false

/-- Temperature MRRs that have fallen due. -/
def Chan.pollWork (c : Chan) (s : Sub) : List Work :=
  sortBy Work.key <| (c.upk.polls.filter fun p => p.1 == s).map fun p => mkWork .mrr s p.2.1 p.2.2 0 .upkeep false false

/-- PREab to the logical ranks of a subchannel in parity recovery (R248). -/
def Chan.recoverWork (c : Chan) (s : Sub) : List Work :=
  (if s = .a then c.sched.recA else c.sched.recB).map fun p => mkWork .preab s p.1 p.2 0 .upkeep true false

/-- Upkeep-level work of a subchannel, in the order of R187; the temperature polls of item 6 stand with the ZQ commands. -/
def Chan.upkeepWork (e : Env) (c : Chan) (s : Sub) : List Work :=
  c.recoverWork s ++ c.deadlineWork e s ++ c.rfmMaxWork s ++ c.backoffWork s ++
    sortBy Work.key (c.pullWork s ++ c.rfmWork s) ++ c.parkWork s ++ c.wakeWork s

/-- The logical rank holds no read-queue and no write-queue entry. -/
def Chan.lrankIdle (c : Chan) (s : Sub) (r l : Nat) : Bool :=
  !(c.rq.any fun x => x.dev.bank.sub == s && x.dev.bank.rank == r && x.dev.bank.lrank == l) &&
  !(c.wq.any fun x => x.dev.bank.sub == s && x.dev.bank.rank == r && x.dev.bank.lrank == l)

/-- The command that ends a piece of work. -/
def Work.cmd (w : Work) : Cmd := { bareCmd w.cls w.bank with level := w.level }

/-- Debts that a DUE or CURRENT refresh may be chosen for (R174, R187). The claim of the last refresh stands until its banks
are usable again (R148), so none is chosen before (log entry 29). -/
def Chan.dueChoices (c : Chan) (s : Sub) : List (Account × Nat) :=
  (c.upk.accounts.filter fun a => a.sub == s && c.lrankIdle s a.rank a.lrank && !c.inSelfRef s a.rank).flatMap fun a =>
    ((List.range a.debts.length).filter fun i =>
      let d := a.debts.getD i 0
      let k := (mkWork c.refreshCls s a.rank a.lrank i .internal false true).cmd
      !a.atDeadline d && decide (-c.pullLimit < d) && !a.chosen.contains i &&
        !(c.banks.any fun p => k.covers p.1 && p.2.st == .refreshing)).map fun i => (a, i)

/-- At most one DUE or CURRENT refresh of a subchannel is chosen in a KCLK: the highest debt, then the lower logical rank,
then the lower bank index (R187). -/
def Chan.chooseDue (s : Sub) (c : Chan) : Chan :=
  if c.upk.park || c.upk.wake || c.shifting then c
  else
    let best := (c.dueChoices s).foldl (fun (b : Option (Account × Nat)) p => match b with
      | none => some p
      | some q => if q.1.debts.getD q.2 0 < p.1.debts.getD p.2 0 then some p else b) none
    match best with
    | none => c
    | some p => c.modAcct s p.1.rank p.1.lrank fun a => { a with chosen := a.chosen ++ [p.2] }

/-- The DUE refreshes chosen, then the CURRENT ones (R187). -/
def Chan.dueWork (c : Chan) (s : Sub) : List Work :=
  let all := (c.upk.accounts.filter fun a => a.sub == s).flatMap fun a =>
    a.chosen.map fun i => (decide (0 < a.debts.getD i 0), mkWork c.refreshCls s a.rank a.lrank i .internal false true)
  sortBy Work.key ((all.filter fun p => p.1).map Prod.snd) ++ sortBy Work.key ((all.filter fun p => !p.1).map Prod.snd)

/-! ### Claims (R148) and the next command of a piece of work -/

/-- Two commands share a bank. -/
def shareBank (x y : Cmd) : Bool := related (fun _ => 0) 0 false x y

/-- A planned command changes the state of a bank that `k` covers. -/
def Chan.rowPlanned (c : Chan) (k : Cmd) : Bool := c.planned.any fun x => x.cls.isRow && shareBank x k

/-- PDX for a rank, unless it is planned; for upkeep work and pauses it is planned at the upkeep level (R129, R184). -/
def Chan.pdxFor (c : Chan) (s : Sub) (r : Nat) (level : Level) : Option Cmd :=
  if c.planned.any fun k => k.cls == .pdx && k.bank.sub == s && k.bank.rank == r then none
  else some (rankCmd .pdx s r level)

/-- What a piece of work offers now: PDX for a rank in Glide, a precharge of what is open, or its command; nothing while a
bank of it changes state. -/
def Chan.workCmd (c : Chan) (w : Work) : Option Cmd :=
  let k := w.cmd
  let s := w.bank.sub
  let r := w.bank.rank
  if c.inSelfRef s r && w.cls != .srx then none
  else if c.inGlide s r && w.cls != .preab then (if w.level = .upkeep then c.pdxFor s r .upkeep else none)
  else if c.planned.any (fun x => x.cls == w.cls && x.bank == w.bank) || c.rowPlanned k then none
  else if w.cls = .mrr ∨ w.cls = .srx ∨ w.cls = .preab then some k
  else
    let cover := c.banks.filter fun p => k.covers p.1
    match cover.find? fun p => p.2.st == .opened with
    | some p =>
      some (if w.cls = .refsb ∨ w.cls = .rfmsb then { k with cls := .presb }
        else { k with cls := .preab, bank := mkBank s r p.1.lrank 0 0 })
    | none => if cover.any fun p => p.2.st != .idle then none else some k

/-- The banks of a subchannel that upkeep work or a running pause claims. -/
def Chan.claimedBy (c : Chan) (works : List Work) (b : Bank) : Bool :=
  works.any (fun w => w.claim && w.cmd.covers b) ||
  c.upk.pauses.any fun p => p.running && p.sub == b.sub && p.rank == b.rank

/-- Every bank of a subchannel. -/
def Chan.allBanks (c : Chan) (s : Sub) : List Bank :=
  match c.img with
  | some i => i.rankList.flatMap (c.banksOf s)
  | none => []

/-- CLAIM follows the work of a subchannel, and stays on a bank until it is usable again; planned ACTs to claimed banks are
dropped (R148). -/
def Chan.setClaims (works : List Work) (s : Sub) (c : Chan) : Chan :=
  let any := works.any (fun w => w.claim) || (c.pauseOn s).isSome
  let bs := if any then c.allBanks s else (c.banks.filter fun p => p.1.sub == s).map Prod.fst
  let c := bs.foldl (fun c b =>
    let e := c.bank b
    let cl := c.claimedBy works b || (e.claim && (e.st == .closing || e.st == .refreshing || e.st == .paused))
    if e.claim = cl then c else c.modBank b fun e => { e with claim := cl }) c
  c.drop fun k => k.bank.sub == s && k.cls == .act && (k.level == .host || k.level == .urgent || k.level == .internal) &&
    (c.bank k.bank).claim

/-! ### Back-off (R180) -/

/-- Replace the back-off record of a subchannel. -/
def Chan.setBackoff (c : Chan) (s : Sub) (f : Backoff → Backoff) : Chan :=
  { c with upk := if s = .a then { c.upk with boA := f c.upk.boA } else { c.upk with boB := f c.upk.boB } }

/-- A back-off request (R180). An assertion during a back-off is only counted (DESIGN CHOICE, log entry 101). -/
def Chan.backoffAlert (e : Env) (s : Sub) (c : Chan) : Chan :=
  let c := { c with upk := { c.upk with aboCnt := satAdd 0xFFFF c.upk.aboCnt 1 } }
  let bo := c.upk.backoff s
  if bo.active || bo.delay then c
  else
    let lim := c.dclk + c.dclkOf 18
    let n := satAdd 255 bo.count 1
    let fire := match bo.lastEv with
      | some t => decide (t + refMs ≤ e.now)
      | none => true
    let c := c.setBackoff s fun b =>
      { b with
        active := true, owed := c.lranksOf.map fun p => (p.1, p.2, c.upk.aboRfm), actLimit := lim,
        count := if fire then 0 else n, lastEv := if fire then some e.now else b.lastEv }
    let c := c.drop fun k => k.bank.sub == s && k.cls == .act && decide (lim < k.time)
    if fire then c.raise evBackoff (s.num * 2 ^ 6 + n * 2 ^ 8) else c

/-- No ACT of a back-off's subchannel may reach the pins after its limit while its logical rank is not released. -/
def Chan.actOk (c : Chan) (k : Cmd) : Bool :=
  let bo := c.upk.backoff k.bank.sub
  k.cls != .act || !bo.active || !(bo.owed.any fun o => o.1 == k.bank.rank && o.2.1 == k.bank.lrank) ||
    decide (k.time ≤ bo.actLimit)

/-- The RFMab commands of a logical rank have completed: it is released (R180). -/
def Chan.backoffRelease (s : Sub) (r l : Nat) (e : Env) (c : Chan) : Chan :=
  let bo := c.upk.backoff s
  let done := bo.owed.any (fun o => o.1 == r && o.2.1 == l && o.2.2 == 0) &&
    !(c.banks.any fun p => p.1.sub == s && p.1.rank == r && p.1.lrank == l && p.2.st == .refreshing)
  if !bo.active || !done then c
  else
    let rest := bo.owed.filter fun o => !(o.1 == r && o.2.1 == l)
    c.setBackoff s fun b =>
      { b with
        owed := rest, active := !rest.isEmpty, delay := rest.isEmpty || b.delay,
        delayEnd := if rest.isEmpty then e.now + c.upk.aboDly else b.delayEnd }

/-- The back-off delay ends (R180). -/
def Chan.backoffDelayEnd (s : Sub) (e : Env) (c : Chan) : Chan :=
  if e.now < (c.upk.backoff s).delayEnd then c else c.setBackoff s fun b => { b with delay := false }

/-- A read of CH_UPK_HWM returns and reloads (R189). -/
def Chan.hwmRead (c : Chan) : Chan × Nat :=
  ({ c with upk := { c.upk with aboCnt := 0, maxDebt := min 15 c.upk.maxNow } },
    packFields [(16, c.upk.aboCnt), (4, max c.upk.maxDebt (min 15 c.upk.maxNow))])

end Sys2Proof.Machine
end

