-- ==== Sys2Proof/Machine/Sched.lean ====
section
/-! DEFINITION. The scheduler's planning: urgency, what each bank offers, auto-precharge, the bypass path, speculative
opens, displacement and the placements of a KCLK (05), and the scheduler's registers. -/
namespace Sys2Proof.Machine

/-! ### Urgency (R123, R124) -/

/-- T of a class in KCLK. -/
def Chan.target (c : Chan) (cls : Nat) : Nat := c.kclkOfNs (c.bal.cls cls).lat

/-- The urgency level of a read entry: U0 to U3 (R123). The block's own reads but Loft fills stay at U0. -/
def Chan.urgency (c : Chan) (r : RdEntry) : Nat :=
  if r.kind = .thatcher then 0
  else
    let t := c.target r.cls
    if t ≤ r.age then 3
    else if t * c.sched.thr2 / 100 ≤ r.age then 2
    else if t * c.sched.thr1 / 100 ≤ r.age then 1
    else 0

/-- A read's age has reached a threshold: its level rises (R123). -/
def Chan.escalate (seq : Nat) (c : Chan) : Chan :=
  match c.findRd seq with
  | none => c
  | some r =>
    let u := c.urgency r
    if u ≤ r.urg || !(r.stage == .queued || r.stage == .waitBeat) then c
    else
      let c := c.modRd seq fun x => { x with urg := u }
      if 2 ≤ u && r.urg < 2 && r.isHost then c.log (occR 0x11 r.dev.bank.sub.num r.cls r.priv r.req r.laddr) else c

/-- Ages are rescaled to the new KCLK at the end of a shift pause, rounding down (R124). -/
def Chan.rescaleAges (c : Chan) (oldN newN : Nat) : Chan :=
  let f := fun a : Nat => a * newN * kDiv oldN / max 1 (oldN * kDiv newN)
  { c with
    rq := c.rq.map fun r => { r with age := f r.age },
    loft := { c.loft with ops := c.loft.ops.map fun o => { o with age := f o.age } } }

/-! ### What a bank holds (R118, R128) -/

/-- A request as its bank sees it. -/
structure BankReq where
  seq : Nat
  row : Nat
  src : CmdSrc
  col : Nat
  write : Bool
  merge : Bool
  urg : Nat
  internal : Bool
deriving DecidableEq, Repr

/-- A command of a request is planned and not committed; a column command of it. -/
def Chan.colPlanned (c : Chan) (src : CmdSrc) : Bool := c.planned.any fun k => k.src == src && k.cls.isCol

/-- The write belongs to the internal level: patch and poison writes, and Loft writes of class C15, while no host write has
coalesced into them (R26, R128, R140). -/
def WrEntry.internal (w : WrEntry) : Bool := w.hosts.isEmpty && (w.patchW || w.cls == 15)

/-- A read entry has been on the normal path long enough to be selected (R135). -/
def RdEntry.ripe (r : RdEntry) : Bool := !r.isHost || decide (2 ≤ r.age)

/-- The reads of a bank's list that are not held back (R128, R145). -/
def Chan.bankReads (c : Chan) (b : Bank) : List BankReq :=
  ((c.rq.filter fun r => r.stage == .queued && r.dev.bank == b && r.ripe && !c.colPlanned (.read r.seq) &&
      c.lineFree r).map
    fun r => { seq := r.seq, row := r.dev.row, col := r.dev.col, src := .read r.seq, write := false, merge := false, urg := c.urgency r,
               internal := r.kind == .thatcher })

/-- The writes of a bank's list that are not held back, and the merge reads of those in MERGE (R128, R141, R144). -/
def Chan.bankWrites (c : Chan) (b : Bank) : List BankReq :=
  (c.wq.filter fun w => !w.committed && w.dev.bank == b).filterMap fun w =>
    match w.merge with
    | .need =>
      if c.colPlanned (.merge w.seq) then none
      else some { seq := w.seq, row := w.dev.row, col := w.dev.col, src := .merge w.seq, write := false, merge := true, urg := 0, internal := false }
    | .no =>
      if c.heldBack w || c.colPlanned (.write w.seq) then none
      else some { seq := w.seq, row := w.dev.row, col := w.dev.col, src := .write w.seq, write := true, merge := false, urg := 0, internal := w.internal }
    | _ => none

/-- All requests of a bank that may be chosen. -/
def Chan.bankReqs (c : Chan) (b : Bank) : List BankReq := c.bankReads b ++ c.bankWrites b

/-- The lowest sequence number in the two lists of a bank: the head of an ordered bank (R142). -/
def Chan.headSeq (c : Chan) (b : Bank) : Option Nat :=
  (((c.rq.filter fun r => r.stage == .queued && r.dev.bank == b).map RdEntry.seq) ++
    ((c.wq.filter fun w => !w.committed && w.dev.bank == b).map WrEntry.seq)).min?

/-- The merge reads that a drain's merge group has still to plan (R144). -/
def Chan.groupLeft (c : Chan) (s : Sub) : List Nat :=
  (c.sched.group s).filter fun n => match c.findWr n with
    | some w => w.merge == .need && !c.colPlanned (.merge n)
    | none => false

/-- The subchannel has a write that it could offer. -/
def Chan.hasWrite (c : Chan) (s : Sub) : Bool :=
  c.wq.any fun w => w.waits s && w.complete && !w.internal && !c.heldBack w && !c.colPlanned (.write w.seq)

/-- The request is a candidate in the present direction mode of its subchannel (R126, R144). -/
def Chan.candidate (c : Chan) (s : Sub) (q : BankReq) : Bool :=
  if q.internal then true
  else if c.sched.drain s then
    if q.merge then (c.groupLeft s).contains q.seq || (!c.hasWrite s && (c.groupLeft s).isEmpty)
    else q.write || decide (2 ≤ q.urg)
  else !q.write

/-! ### Selection (R128) -/

/-- The request with the lowest sequence number. -/
def oldest (l : List BankReq) : Option BankReq := leastBy BankReq.seq l

/-- The oldest request that hits the open row of its bank, else the oldest. -/
def hitFirst (e : BankEntry) (l : List BankReq) : Option BankReq :=
  if e.st = .opened then (oldest (l.filter fun q => q.row == e.row)) <|> oldest l else oldest l

/-- The request that a bank selects at a level (R128). -/
def Chan.select (c : Chan) (s : Sub) (b : Bank) (level : Level) : Option BankReq :=
  let e := c.bank b
  let all := c.bankReqs b
  if e.ord then
    match all.find? fun q => c.headSeq b == some q.seq with
    | none => none
    | some q =>
      let lv : Level := if !q.write && 2 ≤ q.urg then .urgent else .host
      if lv = level then some q else none
  else
    match level with
    | .urgent =>
      let reads := all.filter fun q => !q.write && !q.merge
      (oldest (reads.filter fun q => q.urg == 3)) <|> oldest (reads.filter fun q => q.urg == 2)
    | .internal => oldest (all.filter fun q => q.internal)
    | .host =>
      let host := all.filter fun q => !q.internal && decide (q.urg < 2)
      if c.sched.drain s then
        (oldest (host.filter fun q => q.merge && (c.groupLeft s).contains q.seq)) <|>
          (hitFirst e (host.filter fun q => q.write)) <|>
          oldest (host.filter fun q => q.merge && c.candidate s q)
      else hitFirst e (host.filter fun q => !q.write)
    | _ => none

/-! ### Offers (R121, R122, R128) -/

/-- A candidate for a slot, with the keys of R129 and the DCLK by which it must reach the pins (R133). -/
structure Offer where
  cmd : Cmd
  urg : Nat
  kind : Nat
  seq : Nat
  dl : Option Nat
deriving DecidableEq, Repr

/-- Another entry of a bank's lists, as the choice of R122 sees it: its row, its number, and whether it can be a candidate in the
present direction. -/
def Chan.bankOthers (c : Chan) (s : Sub) (b : Bank) (src : CmdSrc) : List (Nat × Nat × Bool) :=
  let d := c.sched.drain s
  ((c.rq.filter fun r => r.stage == .queued && r.dev.bank == b && src != .read r.seq).map fun r =>
      (r.dev.row, r.seq, !d || r.kind == .thatcher || decide (2 ≤ c.urgency r))) ++
    ((c.wq.filter fun w => !w.committed && w.dev.bank == b && src != .write w.seq && src != .merge w.seq).map fun w =>
      (w.dev.row, w.seq, if w.merge = .no then (d || w.internal) && !c.heldBack w
        else w.merge == .need && (!d || (c.groupLeft s).contains w.seq)))

/-- The auto-precharge form is chosen (R122). In ordered mode the next entry by number decides, until the write of ORD_SEQ. -/
def Chan.autoPre (c : Chan) (s : Sub) (b : Bank) (q : BankReq) : Bool :=
  let e := c.bank b
  let others := c.bankOthers s b q.src
  !e.spec &&
  (if e.ord && !(q.write && q.seq == e.ordSeq) then
    match leastBy (fun (x : Nat × Nat × Bool) => x.2.1) others with
    | some x => x.1 != e.row
    | none => e.claim
   else if others.any fun x => x.2.2 && x.1 == e.row then false
   else if e.claim || others.any fun x => x.2.2 && x.1 != e.row then true
   else !(others.any fun x => x.1 == e.row) && others.any fun x => x.1 != e.row)

/-- The column class of a request. -/
def colCls (write auto : Bool) : CmdClass := if write then (if auto then .wra else .wr) else (if auto then .rda else .rd)

/-- A command for a request. -/
def reqCmd (cls : CmdClass) (b : Bank) (row col : Nat) (level : Level) (src : CmdSrc) (spec : Bool) : Cmd :=
  { cls := cls, bank := b, row := row, col := col, time := 0, level := level, src := src, specAct := spec, tries := 0 }

/-- A planned command changes the state of a bank. -/
def Chan.bankPlanned (c : Chan) (b : Bank) : Bool := c.rowPlanned (bareCmd .act b)

/-- What a request of a bank needs next (R121, R128): its column command, PREpb for a conflict, or ACT. A write's column command
waits until the merge group is planned, but for the head of an ordered bank, which is never passed over (R142, R144). -/
def Chan.offerOf (c : Chan) (s : Sub) (b : Bank) (level : Level) (q : BankReq) : Option Offer :=
  let e := c.bank b
  let offer := fun (k : Cmd) (kind : Nat) => some ({ cmd := k, urg := q.urg, kind := kind, seq := q.seq, dl := none } : Offer)
  if e.claim || c.inSelfRef s b.rank || c.inGlide s b.rank || c.bankPlanned b then none
  else
    match e.st with
    | .opened =>
      if e.row = q.row then
        if q.write && !(c.groupLeft s).isEmpty && !e.ord then none
        else offer (reqCmd (colCls q.write (c.autoPre s b q)) b q.row q.col level q.src false) 1
      else if !e.ord && (c.bankReqs b).any (fun x => x.row == e.row && c.candidate s x) then none
      else offer (reqCmd .prepb b e.row 0 level q.src false) 3
    | .idle => if c.actStop b then none else offer (reqCmd .act b q.row 0 level q.src false) 2
    | _ => none

/-- The banks of a subchannel that hold a request. -/
def Chan.busyBanks (c : Chan) (s : Sub) : List Bank :=
  (((c.rq.filter fun r => r.stage == .queued && r.dev.bank.sub == s).map fun r => r.dev.bank) ++
    ((c.wq.filter fun w => w.waits s).map fun w => w.dev.bank)).eraseDups

/-- The requests that the banks of a rank select, each with its level; a claimed bank offers none (R128). -/
def Chan.rankSelected (c : Chan) (s : Sub) (r : Nat) : List (Level × BankReq) :=
  ((c.busyBanks s).filter fun b => b.rank == r && !(c.bank b).claim).flatMap fun b =>
    [Level.urgent, .host, .internal].filterMap fun lv => (c.select s b lv).map fun q => (lv, q)

/-- One PDX for each rank in Glide, at the level and with the keys of the oldest request that its banks selected (R128, R129). -/
def Chan.pdxOffers (c : Chan) (s : Sub) (level : Level) : List Offer :=
  ((c.upk.ranks.filter fun x => x.sub == s && x.glide && !x.selfRef).map RankSt.rank).filterMap fun r =>
    match leastBy (fun (p : Level × BankReq) => p.2.seq) (c.rankSelected s r) with
    | some (lv, q) =>
      if lv = level then
        (c.pdxFor s r level).map fun k => { cmd := { k with src := q.src }, urg := q.urg, kind := 0, seq := q.seq, dl := none }
      else none
    | none => none

/-- The order of R129: urgency, kind, age. -/
def Offer.key (o : Offer) : Nat := ((3 - o.urg) * 8 + o.kind) * 2 ^ 64 + o.seq

/-- The speculative ACTs of a subchannel (R136), of banks that offer nothing else at the host level (R128). -/
def Chan.specOffers (c : Chan) (s : Sub) (taken : List Bank) : List Offer :=
  if !c.sched.specOpen then []
  else ((c.busyBanks s).filter fun b => !taken.contains b).filterMap fun b =>
    let e := c.bank b
    let mine := (c.rq.filter fun r => r.stage == .queued && r.dev.bank == b && r.spec && r.isHost && r.ripe &&
      !c.colPlanned (.read r.seq))
    match leastBy RdEntry.seq mine with
    | none => none
    | some r =>
      let older := (c.bankReqs b).any fun q => decide (q.seq < r.seq) && c.candidate s q
      let blocked := (c.sched.drain s && decide (c.urgency r < 2)) || c.busTaken s || !c.lineFree r
      if e.st = .idle ∧ !e.claim ∧ !e.ord ∧ !older ∧ blocked ∧ !c.actStop b ∧ !c.inGlide s b.rank ∧
          !c.inSelfRef s b.rank ∧ !c.bankPlanned b then
        some { cmd := reqCmd .act b r.dev.row 0 .host (.read r.seq) true, urg := 0, kind := 4, seq := r.seq, dl := none }
      else none

/-- The offers of the urgent, host or internal level, in the order of R129. -/
def Chan.bankOffers (c : Chan) (s : Sub) (level : Level) : List Offer :=
  let l := (c.busyBanks s).filterMap fun b => (c.select s b level).bind (c.offerOf s b level)
  sortBy Offer.key (c.pdxOffers s level ++ l ++
    (if level = .host then c.specOffers s (l.map fun o => o.cmd.bank) else []))

/-- An upkeep or pause command as an offer: the upkeep scheduler's own order stands. -/
def ownOffer (k : Cmd) : Offer := { cmd := k, urg := 0, kind := 0, seq := 0, dl := none }

/-- The offers of pieces of upkeep work. -/
def Chan.upkeepOffers (c : Chan) (works : List Work) : List (Offer × Bool) :=
  works.filterMap fun w => (c.workCmd w).map fun k => ({ ownOffer k with dl := w.dl }, w.disp)

/-- A planned command is the command of a pause. -/
def SeqCmd.is (x : SeqCmd) (k : Cmd) : Bool :=
  k.cls == x.cls && k.bank == x.bank && k.row == x.row && k.col == x.col

/-- Commands of a running pause in the plan of its subchannel, and those that it has still to plan. -/
def Chan.pausePlanned (c : Chan) (s : Sub) : List Cmd := c.planned.filter fun k => k.bank.sub == s && k.src == .pause
def Chan.pauseLeft (c : Chan) (p : Pause) : List SeqCmd :=
  (c.pausePlanned p.sub).foldl (fun l k => l.eraseP fun x => x.is k) p.cmds

/-- A command of a pause can be offered: an ACT to a bank that is precharged and not at RAAMMT (R179); the MPC that starts a
calibration once the rank's rows are closed (R181). -/
def Chan.pauseReady (c : Chan) (p : Pause) (x : SeqCmd) : Bool :=
  let rest := fun e : BankEntry => e.st == .idle || e.st == .paused
  if x.cls = .act then rest (c.bank x.bank) && !c.actStop x.bank
  else if x.cls = .mpc ∧ p.kind = .zqStart then
    (c.banks.filter fun y => y.1.sub == p.sub && y.1.rank == p.rank).all fun y => rest y.2
  else true

/-- The next commands of a pause: the first that is not planned, and beside an ACT the first column command whose row it need not
wait for (R298, R300). A rank in Glide takes its PDX first (R184). -/
def Chan.pauseNext (c : Chan) (p : Pause) : List SeqCmd :=
  if c.inSelfRef p.sub p.rank || c.inGlide p.sub p.rank then []
  else
    let left := c.pauseLeft p
    let col := match left.head?, left.find? fun x => x.cls.isCol with
      | some a, some x =>
        if a.cls = .act ∧ !((left.takeWhile fun y => !y.cls.isCol).any fun y => y.bank == x.bank || y.cls != .act) then [x]
        else []
      | _, _ => []
    (left.head?.toList ++ col).filter (c.pauseReady p)

/-- A ZQ pause: its commands are upkeep commands (R181, R187). -/
def Pause.isZq (p : Pause) : Bool := p.kind == .zqStart || p.kind == .zqLatch

/-- The commands of the running pauses of a subchannel at their level. -/
def Chan.pauseCmdsOf (c : Chan) (s : Sub) (zq : Bool) : List Cmd :=
  (c.upk.pauses.filter fun p => p.running && p.sub == s && p.isZq == zq).flatMap fun p =>
    (c.pauseNext p).map fun x => x.cmd (if zq then .upkeep else .pause)

/-- Item 6 of R187: ZQ commands and temperature polls, by logical rank. -/
def Chan.item6 (c : Chan) (s : Sub) : List (Offer × Bool) :=
  sortBy (fun p : Offer × Bool => p.1.cmd.bank.lkey)
    (((c.pauseCmdsOf s true).map fun k => (ownOffer k, true)) ++ c.upkeepOffers (c.pollWork s))

/-- The next write-CRC resend of a subchannel, in original order (R246). -/
def Chan.resendWr? (c : Chan) (s : Sub) : Option WrEntry :=
  leastBy WrEntry.colOrd (c.wq.filter fun w => w.resend && w.dev.bank.sub == s && !c.colPlanned (.resend w.seq))

/-- What the next resend needs. -/
def Chan.resendNext (c : Chan) (s : Sub) : Option Cmd :=
  match c.resendWr? s with
  | none => none
  | some w =>
    let b := w.dev.bank
    let e := c.bank b
    if c.inSelfRef s b.rank || c.inGlide s b.rank || c.bankPlanned b then none
    else
      match e.st with
      | .opened =>
        some (if e.row = w.dev.row then reqCmd .wr b w.dev.row w.dev.col .pause (.resend w.seq) false
          else reqCmd .prepb b e.row 0 .pause (.resend w.seq) false)
      | .idle => if c.actStop b then none else some (reqCmd .act b w.dev.row 0 .pause (.resend w.seq) false)
      | _ => none

/-- The pause-level offers. -/
def Chan.pauseOffers (c : Chan) (s : Sub) : List (Offer × Bool) :=
  ((c.resendNext s).toList ++ c.pauseCmdsOf s false).map fun k => (ownOffer k, true)

/-- PDX at the upkeep level for the ranks in Glide that a pause, a resend, a memory clear or a chosen refresh needs (R129,
R184). -/
def Chan.wakePdx (c : Chan) (s : Sub) (due : List Work) (clear : Option Nat) : List (Offer × Bool) :=
  let rs := (c.upk.pauses.filter fun p => p.running && p.sub == s).map Pause.rank ++
    ((c.resendWr? s).toList.map fun w => w.dev.bank.rank) ++ clear.toList ++ due.map fun w => w.bank.rank
  (rs.eraseDups.filter fun r => c.inGlide s r && !c.inSelfRef s r).filterMap fun r =>
    (c.pdxFor s r .upkeep).map fun k => (ownOffer k, true)

/-! ### Placing (R129, R133) -/

/-- A slot that a command may take besides the battens: the order of a pause's commands and of resends, and the limit of
a back-off. -/
def Chan.slotOk (c : Chan) (k : Cmd) (t : Nat) : Bool :=
  c.actOk { k with time := t } &&
  (k.src != .pause || (c.pausePlanned k.bank.sub).all fun x => !k.follows x || decide (x.time < t)) &&
  match k.src with
  | .resend _ => (c.planned.filter fun x => x.bank.sub == k.bank.sub && x.cls.isCol).all fun x => match x.src with
    | .resend _ => decide (x.time < t)
    | _ => true
  | _ => true

/-- A command of no request takes over the retries that it stands for (R245). -/
def Chan.takeTries (c : Chan) (k : Cmd) : Cmd × Chan :=
  match k.src, c.sched.replays.find? fun x => x.is k with
  | .upkeep, some x | .clear, some x | .pause, some x =>
    ({ k with tries := x.tries }, { c with sched := { c.sched with replays := c.sched.replays.erase x } })
  | _, _ => (k, c)

/-- A command takes its slot: its line is reserved and its tokens are paid (R116, R204). -/
def Chan.place (c : Chan) (k : Cmd) : Chan :=
  let c := if c.isHostCol k then c.pay k.bank.sub else c
  let c := match k.src with
    | .read n => match c.findRd n with
      | some r => if k.cls.isCol && r.isHost then c.reserve r false else c
      | none => c
    | _ => c
  let (k, c) := c.takeTries k
  c.insert k

/-- A host column command may be planned at a level: the data bus is not taken by a pause, and the budget allows it
(R129, R148, R204). -/
def Chan.colAllowed (c : Chan) (k : Cmd) : Bool :=
  if !k.cls.isCol || k.src == .pause then true
  else !c.busTaken k.bank.sub &&
    (!(k.level == .host || k.level == .internal) || !c.isHostCol k || c.budgetOk k.bank.sub)

/-- A column command can reserve its line. -/
def Chan.canReserve (c : Chan) (k : Cmd) : Bool :=
  match k.src with
  | .read n => !k.cls.isCol || (match c.findRd n with
    | some r => c.lineFree r
    | none => false)
  | _ => true

/-- The free slot of a candidate that needs no displacement: one that meets its deadline. For the column command of an urgent
read the deadline is that slot itself, so an earlier one is sought first (R133). -/
def Chan.freeSlot (c : Chan) (o : Offer) : Option Cmd × Option Nat :=
  let free := c.earliest (c.slotOk o.cmd) o.cmd
  if o.cmd.level = .urgent ∧ o.cmd.cls.isCol then (none, free.map Cmd.time)
  else (free.filter fun x => o.dl.all fun d => decide (x.time ≤ d), o.dl)

/-- Where a candidate goes, with the commands it displaces: a free slot before its deadline, else, where it may displace, the
first slot up to the deadline that its displacement set clears, else a free slot (R129, R133). -/
def Chan.slotFor (c : Chan) (disp : Bool) (o : Offer) : Option (Cmd × List Cmd) :=
  let f := c.freeSlot o
  (f.1.map fun x => (x, [])) <|>
    (if disp then c.displace (fun t => c.slotOk o.cmd t && f.2.all fun d => decide (t ≤ d)) o.cmd else none) <|>
    ((c.earliest (c.slotOk o.cmd) o.cmd).map fun x => (x, []))

/-- One candidate of a subchannel's plan: `st` holds the channel, the commands placed so far, and whether a speculative
ACT has been placed. -/
def placeOne (disp : Bool) (st : Chan × Nat × Bool) (o : Offer) : Chan × Nat × Bool :=
  let c := st.1
  let k := o.cmd
  if 4 ≤ st.2.1 || (k.specAct && st.2.2) || !c.colAllowed k || !c.canReserve k then st
  else
    match c.slotFor disp o with
    | some (x, d) => ((if d.isEmpty then c else c.drop fun y => d.contains y).place x, st.2.1 + 1, st.2.2 || k.specAct)
    | none => st

/-- The candidates of a level. -/
def placeAll (st : Chan × Nat × Bool) (os : List (Offer × Bool)) : Chan × Nat × Bool :=
  os.foldl (fun st o => placeOne o.2 st o.1) st

/-! ### The bypass path (R134, R135) -/

/-- The read that may take the bypass path in this KCLK. -/
def Chan.bypassRd (c : Chan) (s : Sub) : Option RdEntry :=
  if !c.sched.bypass || c.busTaken s then none
  else
    match c.rq.filter fun r => r.stage == .queued && r.dev.bank.sub == s with
    | [r] =>
      let b := r.dev.bank
      let e := c.bank b
      let lists := c.wq.any fun w => w.waits s
      let hostPlan := c.planned.any fun k => k.bank.sub == s && (k.level == .host || k.level == .urgent)
      let claimed := c.banks.any fun p => p.1.sub == s && p.1.rank == b.rank && p.2.claim
      let rankFree := !claimed && !c.inGlide s b.rank && !c.inSelfRef s b.rank &&
        !(c.pauseOn s).any fun p => p.rank == b.rank
      let open_ := (e.st == .idle && !c.actStop b) || (e.st == .opened && e.row == r.dev.row)
      if r.isHost && r.age == 0 && !lists && !hostPlan && rankFree && open_ && c.lineFree r && c.budgetOk s &&
          !c.bankPlanned b then some r
      else none
    | _ => none

/-- The bypass plan: the ACT if the bank is idle, then the column command after it, as the first host placements. Where fewer
placements are left than it needs, the read takes the normal path (R135; DESIGN CHOICE for the last one, log entry 92). -/
def Chan.bypass (s : Sub) (st : Chan × Nat × Bool) : Chan × Nat × Bool :=
  let c := st.1
  match c.bypassRd s with
  | none => st
  | some r =>
    let b := r.dev.bank
    let col := reqCmd .rd b r.dev.row r.dev.col .host (.read r.seq) false
    let colAt := fun (c : Chan) (t0 n : Nat) =>
      match c.earliest (fun t => decide (t0 < t)) col with
      | some x => (c.place x, n + 1, st.2.2)
      | none => (c, n, st.2.2)
    if (c.bank b).st = .opened then (if 4 ≤ st.2.1 then st else colAt c 0 st.2.1)
    else if 3 ≤ st.2.1 then st
    else
      let act := reqCmd .act b r.dev.row 0 .host (.read r.seq) false
      match c.earliest (c.slotOk act) act with
      | none => st
      | some x => colAt (c.place x) x.time (st.2.1 + 1)

/-! ### Memory clear (R263, R347) -/

/-- The values of a metadata line that a clear affects: how many of its 32 lines lie on cleared ranks. -/
def ChanImg.clearVals (i : ChanImg) (mask m : Nat) : List Bool :=
  (List.range 32).map fun k => bitAt mask (i.field (32 * m + k) 1)

/-- A line of the data range that a clear writes, or a metadata line, on a subchannel. -/
def ChanImg.clears (i : ChanImg) (k : Clear) (s : Sub) (a : Nat) : Bool :=
  i.field a 0 == s.num &&
  (if a < i.mdBase then bitAt k.mask (i.field a 1) else !k.on && (i.clearVals k.mask (a - i.mdBase)).any id)

/-- The metadata line is written as an ordinary line: some of its values stay, or the clear value is not zero (R263). -/
def ChanImg.clearsByWrite (i : ChanImg) (k : Clear) (a : Nat) : Bool :=
  decide (i.mdBase ≤ a) && !((i.clearVals k.mask (a - i.mdBase)).all id && i.clearValue == 0)

/-- The next line at or after `a` that a clear writes; `n` bounds how far one KCLK looks. -/
def ChanImg.clearSeek (i : ChanImg) (k : Clear) (s : Sub) : Nat → Nat → Nat
  | 0, a => a
  | n + 1, a => if a < i.rsvBase ∧ i.clears k s a = false then i.clearSeek k s n (a + 1) else a

/-- The position of a clear on a subchannel. -/
def Clear.pos (k : Clear) (s : Sub) : Nat := if s = .a then k.posA else k.posB
def Clear.setPos (k : Clear) (s : Sub) (a : Nat) : Clear := if s = .a then { k with posA := a } else { k with posB := a }

/-- The write of a metadata line in a clear: the affected values set to the clear value (R263). -/
def Chan.clearWrite (c : Chan) (i : ChanImg) (k : Clear) (a : Nat) : Chan :=
  let vs := i.clearVals k.mask (a - i.mdBase)
  let v := i.clearValue.toNat
  let line := sumOf ((List.range 32).map fun j => b2n (vs.getD j false) * v * 2 ^ (16 * j))
  let be := sumOf ((List.range 32).map fun j => b2n (vs.getD j false) * 3 * 2 ^ (2 * j))
  let (seq, c) := c.takeSeq
  let l := BitVec.ofNat 34 a
  c.placeWr (mkWr seq .clear [] 15 l (c.devOf l) (BitVec.ofNat 512 line) (BitVec.ofNat 64 be) false)

/-- A clear goes on: not while C15 sources hold (R203), and with ON clear not before the cache is empty (R263, R264). -/
def Chan.clearRuns (c : Chan) (k : Clear) : Bool := !c.sourcesHold && (k.on || !c.loft.closing)

/-- The clear goes on to its next line on a subchannel; a metadata line that is not written by the write-pattern command
takes a reserved write-queue entry. -/
def Chan.clearStep (s : Sub) (c : Chan) : Chan :=
  match c.seqr.clear, c.img with
  | some k, some i =>
    let a := i.clearSeek k s 64 (k.pos s)
    let write := decide (a < i.rsvBase) && i.clears k s a && i.clearsByWrite k a
    let go := write && decide (c.resWq < 8) && c.clearRuns k
    let k := k.setPos s (if go then a + 1 else a)
    let c := { c with seqr := { c.seqr with clear := some k } }
    if go then c.clearWrite i k a else c
  | _, _ => c

/-- The granule's lines on cleared ranks, as a mask. -/
def ChanImg.granMask (i : ChanImg) (mask g : Nat) : Nat :=
  sumOf ((List.range 4).map fun j => b2n (bitAt mask (i.field (4 * g + j) 1)) * 2 ^ j)

/-- The next granule at or after `g` with a line on a cleared rank. -/
def ChanImg.granSeek (i : ChanImg) (mask : Nat) : Nat → Nat → Nat
  | 0, g => g
  | n + 1, g => if 4 * g < i.mdBase ∧ i.granMask mask g = 0 then i.granSeek mask n (g + 1) else g

/-- With ON set at its start, a clear places one internal store for each affected granule in the Loft's input (R263). -/
def Chan.clearStore (c : Chan) : Chan :=
  match c.seqr.clear, c.img with
  | some k, some i =>
    if !k.on || !c.clearRuns k || c.loft.ops.any (fun o => o.stage == .input) then c
    else
      let g := i.granSeek k.mask 64 k.gran
      if 4 * g < i.mdBase ∧ i.granMask k.mask g ≠ 0 then
        let c := { c with seqr := { c.seqr with clear := some { k with gran := g + 1 } } }
        let (seq, c) := c.takeSeq
        c.addOp (.clear (i.granMask k.mask g) i.clearValue) seq 0 15 0 (BitVec.ofNat 34 (4 * g)) 0 0
      else { c with seqr := { c.seqr with clear := some { k with gran := g } } }
  | _, _ => c

/-- The line that a clear writes next by the write-pattern command, if it is its turn. -/
def Chan.clearDev (c : Chan) (s : Sub) : Option Dev :=
  match c.seqr.clear, c.img with
  | some k, some i =>
    let a := k.pos s
    if i.rsvBase ≤ a || !i.clears k s a || i.clearsByWrite k a || c.busTaken s || !c.clearRuns k ||
        c.planned.any (fun x => x.src == .clear && x.bank.sub == s) then none
    else some (i.devOf a)
  | _, _ => none

/-- What the clear's next line needs: a precharge, an ACT, or the write-pattern command, at the pause level (R166). -/
def Chan.clearOffer (c : Chan) (s : Sub) : List (Offer × Bool) :=
  match c.clearDev s with
  | none => []
  | some d =>
    let e := c.bank d.bank
    let cmd := fun (cls : CmdClass) (row col : Nat) =>
      [(ownOffer (reqCmd cls d.bank row col .pause .clear false), false)]
    if e.claim || c.inSelfRef s d.bank.rank || c.inGlide s d.bank.rank || c.bankPlanned d.bank then []
    else
      match e.st with
      | .opened => if e.row = d.row then cmd .wrp d.row d.col else cmd .prepb e.row 0
      | .idle => if c.actStop d.bank then [] else cmd .act d.row 0
      | _ => []

/-! ### A KCLK of the scheduler (R129, R163) -/

/-- Upkeep and sequencer commands are planned: in Flight, while the channel parks or wakes its ranks, and in a bring-up
(R166). -/
def Chan.plansUpkeep (c : Chan) : Bool :=
  c.img.isSome && !c.power.fatal && c.pins.hold == .driven &&
    (c.running || c.upk.park || c.upk.wake || c.bringPlans)

/-- Requests are planned: in Flight, outside a shift pause and the end of a power-down. -/
def Chan.plansHost (c : Chan) : Bool := c.running && !c.shifting && !c.upk.park && !c.upk.wake

/-- Once the committed commands have reached the pins, the recovery goes on to the PREabs (R248). -/
def Chan.resume (s : Sub) (c : Chan) : Chan :=
  if c.stopped s && !(c.tail.any fun k => k.bank.sub == s) then
    { c with sched :=
        if s = .a then { c.sched with stopA := false, recA := c.lranksOf }
        else { c.sched with stopB := false, recB := c.lranksOf } }
  else c

/-- Pauses and DUE refreshes are planned: in Flight, and in a bring-up (R166, R390). -/
def Chan.plansPause (c : Chan) : Bool := c.plansHost || c.bringPlans

/-- The plan of one subchannel. -/
def Chan.planSub (e : Env) (s : Sub) (c : Chan) : Chan :=
  let c := c.resume s
  if !c.plansUpkeep || c.stopped s then c
  else if c.recovering s then (placeAll (c, 0, false) (c.upkeepOffers (c.recoverWork s))).1
  else
    let c := if c.plansPause then (c.tryPause e s).chooseDue s else c
    let works := c.upkeepWork e s
    let due := if c.plansPause then c.dueWork s else []
    let c := c.setClaims (works ++ due) s
    let st := placeAll (c, 0, false) (c.upkeepOffers works ++ c.item6 s ++
      c.wakePdx s due ((c.clearDev s).map fun d => d.bank.rank))
    let st := if c.plansPause then placeAll st (st.1.pauseOffers s) else st
    if !c.plansHost then (placeAll st (st.1.upkeepOffers due)).1
    else
      let st := placeAll st (st.1.clearOffer s)
      let st := placeAll st ((st.1.bankOffers s .urgent).map fun o => (o, true))
      let st := Chan.bypass s st
      let st := placeAll st ((st.1.bankOffers s .host).map fun o => (o, false))
      let st := placeAll st (st.1.upkeepOffers due)
      (placeAll st ((st.1.bankOffers s .internal).map fun o => (o, false))).1

/-- Ages advance for reads that wait for their column command, and for Loft operations (R123). -/
def Chan.ageUp (c : Chan) : Chan :=
  { c with
    rq := updateWhere (fun r => r.stage == .queued || r.stage == .waitBeat) (fun r => { r with age := r.age + 1 }) c.rq,
    loft := { c.loft with ops := c.loft.ops.map fun o => { o with age := o.age + 1 } } }

/-- The occurrences of a KCLK (R376): KCLK, RD_OCC, LOFT_STALL_K and CAPPED_K. -/
def Chan.kclkOccs (c : Chan) : Chan :=
  let occ := fun r : RdEntry => occR 0x05 r.dev.bank.sub.num r.cls r.priv r.req r.laddr
  let c := c.log (occ0 0x01 1)
  let c := (c.rq.filter RdEntry.isHost).foldl (fun c r => c.log (occ r)) c
  let c := if c.loft.stalled then c.log (occ0 0x17 1) else c
  if c.bal.pct < 100 then c.log (occ0 0x18 1) else c

/-- A KCLK of the channel's scheduler: both subchannels, A first (R129). -/
def Chan.plan (e : Env) (c : Chan) : Chan :=
  if !c.logicRuns then c
  else
    let c := (((c.settlePauses e).settleTrans).serveWaiting 2).refill.directAll
    let c := if c.plansHost then ((c.clearStep .a).clearStep .b).clearStore else c
    let c := (c.planSub e .a).planSub e .b
    let c := (c.kclkOccs.noteIdle e).ageUp
    { c with kclk := c.kclk + 1 }

/-! ### CH_SCHED_CTL and CH_SCHED_URG (R149, R150) -/

/-- A write of one of the scheduler's registers. -/
def Chan.schedWrite (reg : SchedReg) (w : Word) (c : Chan) : Chan :=
  let v := w.toNat
  match reg with
  | .ctl =>
    let hi := clampTo 2 127 (bitsAt v 8 8)
    let c := { c with sched := { c.sched with
        specOpen := bitAt v 17, bypass := bitAt v 16, wmHigh := hi, wmLow := clampTo 1 (hi - 1) (bitsAt v 0 8) } }
    let c := if bitAt v 17 then c else c.drop fun k => k.specAct
    c.directAll
  | .urg =>
    let t1 := clampTo 10 100 (bitsAt v 0 8)
    { c with sched := { c.sched with thr1 := t1, thr2 := clampTo t1 100 (bitsAt v 8 8) } }

end Sys2Proof.Machine
end

