-- ==== Sys2Proof/Machine/Tail.lean ====
section
/-! DEFINITION. The command tail: commit at position 3, the pins at position 0, and the release of writes (05, 09 R233,
10 R242). -/
namespace Sys2Proof.Machine

/-! ### Occurrences and records of a commit -/

/-- The request part of a counter occurrence for a command: class, PRIV, type and line; the block's own accesses carry
C15, PRIV 0 and type 9 (R376). -/
def Chan.occFor (c : Chan) (code : Nat) (k : Cmd) : Occ :=
  let s := k.bank.sub.num
  let own := fun a : LAddr => occR code s 15 0 9 a
  match k.src with
  | .read n => match c.findRd n with
    | some r => if r.isHost then occR code s r.cls r.priv r.req r.laddr else own r.laddr
    | none => occ0 code 1 s
  | .write n | .resend n => match c.findWr n with
    | some w => match w.hosts.getLast? with
      | some h => occR code s h.cls h.priv h.op.ty w.laddr
      | none => own w.laddr
    | none => occ0 code 1 s
  | .merge n => match c.findWr n with
    | some w => own w.laddr
    | none => occ0 code 1 s
  | _ => occ0 code 1 s

/-- A committed write of a line still matters: to the Slate's hit rule (R237), to a read under way (R251), or to a patch
that waits (R241). -/
def Chan.writeMatters (c : Chan) (a : LAddr) (ord : Nat) : Bool :=
  (match c.err.find a with
   | some i => decide ((c.err.entry i).hitOrd < ord)
   | none => false) ||
  c.rq.any (fun r => r.laddr == a && r.origOrd != 0 && decide (r.origOrd < ord)) ||
  c.err.patches.any fun p => p.laddr == a && decide (p.colOrd < ord)

/-- Record the commit of a write of a line. -/
def Chan.noteWrite (c : Chan) (a : LAddr) (ord : Nat) : Chan :=
  let c := { c with err := { c.err with lastWrite := c.err.lastWrite.filter fun (p : LAddr × Nat) => c.writeMatters p.1 p.2 } }
  if c.writeMatters a ord then { c with err := { c.err with lastWrite := c.err.lastWrite ++ [(a, ord)] } } else c

/-- PHOLD of a line's entry is set for 1,000 µs (R242). -/
def Chan.setPhold (c : Chan) (e : Env) (a : LAddr) : Chan :=
  match c.err.find a with
  | some i => { c with err := c.err.put i { c.err.entry i with phold := true, pholdUntil := e.now + refMs } }
  | none => c

/-- PHOLD clears (R242). -/
def Chan.pholdExpire (i : Nat) (e : Env) (c : Chan) : Chan :=
  let x := c.err.entry i
  if x.phold && decide (x.pholdUntil ≤ e.now) then { c with err := c.err.put i { x with phold := false } } else c

/-- The next commit order. -/
def Chan.takeOrd (c : Chan) : Nat × Chan := (c.commitOrd + 1, { c with commitOrd := c.commitOrd + 1 })

/-! ### Column commands (R117, R144, R191, R226, R233) -/

/-- The class whose SERVED a write counts for. -/
def Chan.serveCls (c : Chan) (n : Nat) : Chan := { c with bal := c.bal.serve n }

/-- A read's column command is committed. -/
def Chan.commitRead (c : Chan) (k : Cmd) (n : Nat) : Chan :=
  match c.findRd n with
  | none => c
  | some r =>
    let (ord, c) := c.takeOrd
    (c.modRd n fun x =>
      { x with stage := .issued, colOrd := ord, origOrd := if x.origOrd = 0 then ord else x.origOrd, pinTime := k.time }).serveCls
      r.cls

/-- A merge read is committed: its entry waits for its line, or, where a full write has taken the entry out of MERGE, for its
decode alone (R140, R144). -/
def Chan.commitMerge (c : Chan) (k : Cmd) (n : Nat) : Chan :=
  match c.findWr n with
  | none => c
  | some w =>
    let (ord, c) := c.takeOrd
    (c.modWr n fun x =>
      { x with merge := if x.merge = .need then .issued else x.merge, mread := .issued ord k.time }).serveCls w.cls

/-- The word that a write puts on the pins: its buffer line is read out, encoded or replaced by the poison word, and
passes the write injection point (R226, R230, R233). -/
def Chan.writeWord (c : Chan) (w : WrEntry) : CodeWord × Chan :=
  let (bad, c) := c.readBuf w
  c.inject 1 w.dev.bank.sub (!w.hosts.isEmpty) (if w.psn || bad then poisonWord else encodeLine w.line)

/-- A write's column command is committed. -/
def Chan.commitWrite (e : Env) (c : Chan) (k : Cmd) (n : Nat) : Chan :=
  match c.findWr n with
  | none => c
  | some w =>
    let (word, c) := c.writeWord w
    let (ord, c) := c.takeOrd
    let c := c.modWr n fun x => { x with committed := true, colOrd := ord, pinTime := k.time, word := word }
    let c := if w.patchW then
        ({ c with err := { c.err with issued := satAdd 0xFFFF c.err.issued 1 } }).setPhold e w.laddr
      else c
    let c := (c.noteWrite w.laddr ord).serveCls w.cls
    c.modBank w.dev.bank fun b => if b.ord && b.ordSeq == n then { b with ord := false, ordSeq := 0 } else b

/-- A resend is committed: the same word again (R246); the write stays one that has reached the pins (R92). -/
def Chan.commitResend (c : Chan) (k : Cmd) (n : Nat) : Chan :=
  c.modWr n fun x => { x with resend := false, pinTime := k.time, onPins := false }

/-! ### Bank states (R119, R120, R137, R178) -/

/-- The banks of the table that a command covers, those it names included. -/
def Chan.covered (c : Chan) (k : Cmd) : List Bank :=
  if k.cls.isCol || k.cls == .act || k.cls == .prepb || k.cls == .wrp then [k.bank]
  else if k.cls.isPre ∧ k.src ≠ .pause then (c.banks.filter fun p => k.covers p.1).map Prod.fst
  else (c.banksOf k.bank.sub k.bank.rank).filter k.covers

/-- A bank's state after a committed command of a pause: precharged, it is PAUSED, and stays so through the pause's own
accesses (R120). -/
def pauseSt (k : CmdClass) (st : BankSt) : BankSt :=
  if st = .idle then .paused
  else if k.isPre ∧ (st = .opened ∨ st = .opening) then .closing
  else st

/-- A bank's entry after a committed command that covers it. -/
def Chan.bankAfter (c : Chan) (k : Cmd) (e : BankEntry) : BankEntry :=
  let n := c.upk.raaimt
  let e := if k.cls = .act then { e with rowLast := some k.row, acts := if c.rfmEn then e.acts + 1 else e.acts } else e
  if k.src = .pause then { e with st := pauseSt k.cls e.st, spec := false }
  else
    match k.cls with
    | .act => { e with st := .opening, row := k.row, hits := 0, spec := k.specAct }
    | .rd | .wr => { e with hits := satAdd 255 e.hits 1, spec := false }
    | .rda | .wra => { e with hits := satAdd 255 e.hits 1, spec := false, st := .closing }
    | .prepb | .presb | .preab =>
      if e.st = .opened ∨ e.st = .opening then { e with st := .closing, spec := false } else e
    | .refab | .refsb | .rfmab | .rfmsb => { e with st := .refreshing, acts := e.acts - n }
    | _ => e

/-- The table after a commit: the banks of the table that the command covers; a pause takes every bank that it covers. -/
def Chan.commitBanks (c : Chan) (k : Cmd) : Chan :=
  match k.cls with
  | .mrw | .mrr | .sre | .srx | .pde | .pdx | .wrp => c
  | .mpc => if k.src = .pause then (c.covered k).foldl (fun c b => c.modBank b (c.bankAfter k)) c else c
  | _ => (c.covered k).foldl (fun c b => c.modBank b (c.bankAfter k)) c

/-! ### Upkeep commands (R172, R176, R180, R181, R184, R185, R248) -/

/-- A command of a pause is committed; after the last one the pause's hold ends as R181 and R349 state. -/
def Chan.commitPause (e : Env) (c : Chan) (k : Cmd) : Chan :=
  match c.upk.pauses.find? fun p => p.running && p.sub == k.bank.sub && p.cmds.any fun x => x.is k with
  | none => c
  | some p =>
    let rest := p.cmds.eraseP fun x => x.is k
    let til := match p.kind with
      | .zqLatch => e.now + 4
      | .selftest => p.endAt
      | _ => e.now + 1
    let q : Pause := { p with cmds := rest, endAt := if rest.isEmpty then til else p.endAt }
    { c with upk := { c.upk with pauses := updateWhere (fun x => x == p) (fun _ => q) c.upk.pauses } }

/-- The mode registers of a rank are written. Once those of every rank are, the RCDs receive the frequency control word of the
new rate (R304, step 3). -/
def Chan.mrwDone (c : Chan) (s : Sub) (r : Nat) : Chan :=
  let left := c.trim.mrw.filter fun (p : Sub × Nat) => p != (s, r)
  let c := { c with trim := { c.trim with mrw := left } }
  if c.trim.shift = some .prepare ∧ left = [] then
    { c with sb := { c.sb with rcdN := (c.trim.set c.trim.shiftTo).n } }
  else c

/-- What a committed command does to upkeep's own records. Every RFMab to a logical rank counts among those that a back-off
owes it (DESIGN CHOICE, log entry 104). -/
def Chan.commitUpkeep (c : Chan) (k : Cmd) : Chan :=
  let s := k.bank.sub
  let r := k.bank.rank
  let l := k.bank.lrank
  match k.cls with
  | .refab => (c.modAcct s r l (c.paid none)).log (occ0 0x13 1 s.num)
  | .refsb => (c.modAcct s r l (c.paid (some k.bank.ba))).log (occ0 0x13 1 s.num)
  | .rfmab =>
    c.setBackoff s fun b => { b with
      owed := b.owed.map fun o => if o.1 == r && o.2.1 == l then (o.1, o.2.1, o.2.2 - 1) else o }
  | .preab =>
    if s = .a then { c with sched := { c.sched with recA := c.sched.recA.filter fun (p : Nat × Nat) => p != (r, l) } }
    else { c with sched := { c.sched with recB := c.sched.recB.filter fun (p : Nat × Nat) => p != (r, l) } }
  | .mrr => { c with upk := { c.upk with polls := c.upk.polls.erase (s, r, l) } }
  | .mrw => c.mrwDone s r
  | .sre => c.modRank s r fun x => { x with selfRef := true, glide := false }
  | .srx =>
    let c := c.modRank s r fun x => { x with selfRef := false }
    { c with upk := { c.upk with
        accounts := c.upk.accounts.map fun (a : Account) =>
          if a.sub == s && a.rank == r then { a with debts := a.debts.map fun _ => 0, pull := 0, chosen := [] } else a } }
  | .pde => c.modRank s r fun x => { x with glide := true }
  | .pdx => c.modRank s r fun x => { x with glide := false }
  | _ => c

/-! ### Commit (R130, R164) -/

/-- The occurrences of a committed command (R376). -/
def Chan.commitOccs (c : Chan) (k : Cmd) : Chan :=
  let c := if k.cls = .act then c.log (c.occFor 0x08 k) else c
  let c := if k.cls = .act ∧ k.specAct then c.log (c.occFor 0x09 k) else c
  let c := if k.cls = .prepb ∧ k.src ≠ .upkeep ∧ k.src ≠ .pause then c.log (occ0 0x0A 1 k.bank.sub.num) else c
  if k.cls.isCol && k.src != .pause && decide (1 ≤ (c.bank k.bank).hits) then c.log (c.occFor 0x0B k) else c

/-- A command is committed: the timestamp file and the holds take it, and its bank, its request and the upkeep records
follow. -/
def Chan.commitCmd (e : Env) (c : Chan) (k : Cmd) : Chan :=
  let c := c.commitOccs k
  let c := { c with fab := { c.fab with
      hist := c.fab.hist.filter (fun (x : Cmd) => decide (c.dclk ≤ x.time + maxAge)) ++ [k],
      holds := c.stepHolds c.fab.holds k } }
  let c := (c.commitBanks k).commitUpkeep k
  match k.src with
  | .read n => if k.cls.isCol then c.commitRead k n else c
  | .merge n => if k.cls.isCol then c.commitMerge k n else c
  | .write n => if k.cls.isCol then c.commitWrite e k n else c
  | .resend n => if k.cls.isCol then c.commitResend k n else c
  | .pause => c.commitPause e k
  | .clear => match c.seqr.clear with
    | some x => if k.cls = .wrp then
        { c with seqr := { c.seqr with clear := some (x.setPos k.bank.sub (x.pos k.bank.sub + 1)) } }
      else c
    | none => c
  | .upkeep => c

/-! ### The pins -/

/-- A write burst on the pins of a subchannel, with its write CRC where it is enabled (R226, R290). -/
def Chan.putBurst (c : Chan) (s : Sub) (w : CodeWord) : Chan :=
  match c.img with
  | none => c
  | some i =>
    let p := i.toPins s w
    let crc := if i.wcrc then Config.writeCrc p else 0
    { c with pins := if s = .a then { c.pins with dqA := p, crcA := crc } else { c.pins with dqB := p, crcB := crc } }

/-- A command drives the pins; a write's word follows with it, and the pattern of a pause's write (R226, R298). -/
def Chan.drive (c : Chan) (k : Cmd) : Chan :=
  let s := k.bank.sub
  let c := { c with pins := if s = .a then { c.pins with caA := some k } else { c.pins with caB := some k } }
  match k.src with
  | .write n | .resend n =>
    if k.cls.isCol then
      let w := match c.findWr n with
        | some w => w.word
        | none => 0
      (c.modWr n fun x => { x with onPins := true, reached := true }).putBurst s w
    else c
  | .pause =>
    if k.cls = .wr then
      let (n, c) := c.fresh
      c.putBurst s (Config.patternWord n)
    else c
  | _ => c

/-- A data burst occupies the bus of a subchannel in this DCLK (R192). -/
def Chan.busBusy (c : Chan) (s : Sub) : Bool :=
  c.fab.hist.any fun k => k.bank.sub == s && k.cls != .wrp &&
    match c.burstStart k.cls with
    | some b => decide (k.time + b ≤ c.dclk) && decide (c.dclk < k.time + b + c.fab.bld)
    | none => false

/-- The DATA, WAIT and pause occurrences of one DCLK of a subchannel (R192, R376). -/
def Chan.busDclk (s : Sub) (c : Chan) : Chan :=
  let entries := c.rq.any (fun r => r.dev.bank.sub == s) || c.wq.any (fun w => w.dev.bank.sub == s)
  let c := if c.busTaken s then c.log (occ0 0x14 1 s.num) else c
  if c.busBusy s then
    ({ c with bal := { c.bal with dataCnt := c.bal.dataCnt + 1 } }).log (occ0 0x06 1 s.num)
  else if entries then ({ c with bal := { c.bal with waitCnt := c.bal.waitCnt + 1 } }).log (occ0 0x07 1 s.num)
  else c

/-- A DCLK edge of the channel's tails (R130). Commands that are committed reach the pins also where the channel's logic has
stopped (R24, R170). -/
def Chan.shiftTail (e : Env) (c : Chan) : Chan :=
  if !c.logicRuns && c.tail.isEmpty then c
  else
    let c := { c with dclk := c.dclk + 1, bal := { c.bal with dclkCnt := c.bal.dclkCnt + 1 } }
    let due := c.tail.filter fun k => decide (k.time = c.dclk + 3)
    let c := due.foldl (fun c k => c.commitCmd e k) c
    let out := c.tail.filter fun k => decide (k.time ≤ c.dclk)
    let c := (out.foldl Chan.drive c)
    let c := out.foldl Chan.observe c
    let c := { c with tail := c.tail.filter fun k => decide (c.dclk < k.time) }
    ((c.busDclk .a).busDclk .b).directAll

/-! ### Releasing writes and leaving MERGE (R117, R144, R227) -/

/-- A partial write takes its old line from an older entry of the line, whose readout failed or not (R144, R230). -/
def copyOld (o : WrEntry) (bad : Bool) (w : WrEntry) : WrEntry :=
  if o.psn || bad then { w with psn := true, line := 0, be := allBytes }
  else { w with line := mergeLine o.line w.line w.be, be := allBytes }

/-- The partial writes that wait for an entry copy its line. -/
def Chan.copyDependents (c : Chan) (o : WrEntry) : Chan :=
  if c.wq.any fun w => w.merge == .older o.seq then
    let (bad, c) := c.readBuf o
    { c with wq := c.wq.map fun w => if w.merge = .older o.seq then { copyOld o bad w with merge := .merged } else w }
  else c

/-- A write has passed the point of no retry (R117): the write-CRC window of its column command is closed, or, without write
CRC, its burst has left the pins. An entry whose merge read is still under way waits for its decode (R225). -/
def Chan.released (c : Chan) (w : WrEntry) : Bool :=
  let ends := w.pinTime + c.fab.wl + c.fab.bld
  let wcrc := match c.img with
    | some i => i.wcrc
    | none => false
  w.committed && w.onPins && !w.resend && w.mread == .none &&
    (if wcrc then decide (ends + c.err.crcWin < c.dclk) else decide (ends ≤ c.dclk))

/-- A write's buffer line is freed (R116, R117). -/
def Chan.releaseWr (seq : Nat) (c : Chan) : Chan :=
  match c.findWr seq with
  | none => c
  | some w => if c.released w then (((c.copyDependents w).dropWr seq).serveWaiting 2).directAll else c

/-- A partial write leaves MERGE: its line is merged, or the older entry it waits for is complete (R144, R227). -/
def Chan.mergeDone (seq : Nat) (c : Chan) : Chan :=
  match c.findWr seq with
  | none => c
  | some w =>
    match w.merge with
    | .merged => ((c.modWr seq fun x => { x with merge := .no }).serveWaiting 2).directAll
    | .older n =>
      match c.findWr n with
      | some o =>
        if o.complete then
          let (bad, c) := c.readBuf o
          ((c.modWr seq fun x => { copyOld o bad x with merge := .no }).serveWaiting 2).directAll
        else c
      | none => c
    | _ => c

/-! ### Patch writes (R203, R241) -/

/-- A waiting patch write or poison write-back takes a reserved entry, or is discarded by the skip checks (R241). -/
def Chan.patchEnter (c : Chan) : Chan :=
  match c.err.patches with
  | [] => c
  | p :: ps =>
    if !c.running || c.sourcesHold || decide (8 ≤ c.resWq) then c
    else
      let skip := c.superseded p.laddr p.colOrd
      let c := { c with err := { c.err with patches := ps } }
      if skip then c.skipPatch
      else
        let (seq, c) := c.takeSeq
        (c.placeWr (mkWr seq (if p.psn then .poisonWb else .patch) [] 15 p.laddr (c.devOf p.laddr) p.line allBytes p.psn)).directAll

end Sys2Proof.Machine
end

