-- ==== Sys2Proof/Machine/ReadPath.lean ====
section
/-! DEFINITION. Returned lines and link errors: capture, read-CRC retries, the decode and what it sets in motion, alerts
with resends and parity recovery, and the Thatcher (09 R225 to R234, 10 R243 to R260). -/
namespace Sys2Proof.Machine

/-! ### Ending work whose retries are exhausted (R249, R251) -/

/-- SOURCE of a read entry (R258). -/
def RdEntry.source (r : RdEntry) : Nat :=
  match r.kind with
  | .host _ => if r.rds == .cancelled then srcScan else srcHost
  | .fill => srcFill
  | .thatcher => srcThatch

/-- A read ends without its line: ERR CMD_FAIL for a host read, a failed fill for the Loft; READ_FAIL, but for a Thatcher
read that R251 ends. An RDS that SCAN resolved ends silently. -/
def Chan.failRead (c : Chan) (r : RdEntry) (r251 : Bool) : Chan :=
  match r.kind with
  | .host _ =>
    if r.rds = .cancelled then c.dropRd r.seq
    else
      let c := c.modRd r.seq fun x =>
        { x with stage := .answered, rds := if x.rds == .unresolved then .confirmed else x.rds, result := none }
      (c.push { plainRsp .err r.tag errCmdFail c.lane.hclk r.cls with priv := r.priv, req := r.req, laddr := r.laddr }).readFail
        srcHost r.dev r251
  | .fill =>
    let c := { c with loft := { c.loft with
      fills := updateWhere (fun f => f.seq == r.seq) (fun f => { f with failed := true }) c.loft.fills } }
    (c.dropRd r.seq).readFail srcFill r.dev r251
  | .thatcher =>
    let c := c.dropRd r.seq
    if r251 then c else c.readFail srcThatch r.dev false

/-- RCRC counts a retry (R247). -/
def Chan.countRcrc (c : Chan) : Chan := { c with err := { c.err with rcrcCnt := satAdd 0xFFFF c.err.rcrcCnt 1 } }

/-- A planned column command of a write of a line. -/
def Chan.writesLine (c : Chan) (a : LAddr) (k : Cmd) : Bool :=
  k.cls.isCol && match k.src with
    | .write n => (c.findWr n).any fun w => w.laddr == a
    | _ => false

/-- A read goes back to its bank list for a retry, unless R251 or the retry limit ends it (R245, R247, R251). It keeps its line
and its number, so the writes of its line wait for it again (R141). `crc` says that a read-CRC failure is the cause. -/
def Chan.retryRead (crc : Bool) (c : Chan) (r : RdEntry) : Chan :=
  if r.rds = .cancelled then c.dropRd r.seq
  else if r.origOrd ≠ 0 ∧ c.err.wroteSince r.laddr r.origOrd then c.failRead r true
  else if c.err.retry < r.retries + 1 then c.failRead r false
  else
    let c := if crc then c.countRcrc else c
    let c := c.modRd r.seq fun x =>
      { x with stage := .queued, colOrd := 0, retries := x.retries + 1, word := 0, edata := false, result := none }
    c.drop (c.writesLine r.laddr)

/-- WSRC of a write (R257). -/
def WrEntry.wsrc (w : WrEntry) : Nat := if !w.hosts.isEmpty then 0 else if w.patchW then 1 else 2

/-- A write is abandoned: UE record and WRITE_LOST; a write that holds metadata loses its line (R249, R279). -/
def Chan.abandonWr (e : Env) (c : Chan) (cause : Nat) (w : WrEntry) : Chan :=
  let c := ((c.copyDependents w).dropWr w.seq).writeLost w.wsrc cause w
  if w.loftW then c.mdLost e w.laddr 3 else c

/-- A merge read's retries are exhausted: the poisoned line is written (R228, R249). -/
def Chan.mergeFail (e : Env) (c : Chan) (w : WrEntry) : Chan :=
  let c := (c.modWr w.seq fun x =>
    { x with psn := true, line := 0, be := allBytes, merge := .merged, mread := .none, committed := false }).writeLost 3 1 w
  if w.loftW then c.mdLost e w.laddr 3 else c

/-- A merge read is issued again, or ends (R245, R249). Where a full write has taken its entry out of MERGE, its line is needed no
more. A merge that has been made is taken back, with the column command that followed it (R248). -/
def Chan.retryMerge (crc : Bool) (e : Env) (c : Chan) (w : WrEntry) : Chan :=
  if w.merge != .issued && w.part.isNone then c.modWr w.seq fun x => { x with mread := .none }
  else if c.err.retry < w.retries + 1 then c.mergeFail e w
  else
    (if crc then c.countRcrc else c).modWr w.seq fun x =>
      { x with
        merge := .need, mread := .none, retries := x.retries + 1, committed := false, onPins := false, reached := false,
        resend := false, psn := false, line := (x.part.getD (x.line, x.be)).1, be := (x.part.getD (x.line, x.be)).2, part := none }

/-! ### Capture (R97, R225, R233, R247) -/

/-- What a returned burst belongs to: a read, or the merge read of a write with its commit order and its DCLK on the pins. -/
inductive Burst where
  | read (r : RdEntry)
  | merge (w : WrEntry) (ord pin : Nat)
deriving DecidableEq, Repr

def Burst.ord : Burst → Nat
  | .read r => r.colOrd
  | .merge _ n _ => n

def Burst.pin : Burst → Nat
  | .read r => r.pinTime
  | .merge _ _ t => t

/-- The merge read of a write whose line has not come. -/
def WrEntry.due (w : WrEntry) : Option Burst :=
  match w.mread with
  | .issued n t => some (.merge w n t)
  | _ => none

/-- Reads and merge reads of a subchannel whose line has not come, oldest column command first. -/
def Chan.nextBurst (c : Chan) (s : Sub) : Option Burst :=
  leastBy Burst.ord
    (((c.rq.filter fun r => r.stage == .issued && r.dev.bank.sub == s).map Burst.read) ++
      (c.wq.filter fun w => w.dev.bank.sub == s).filterMap WrEntry.due)

/-- Read CRC is enabled. -/
def Chan.rcrc (c : Chan) : Bool :=
  match c.img with
  | some i => i.rcrc
  | none => false

/-- The line of a read may leave as EDATA (R97). -/
def Chan.mayEdata (c : Chan) (r : RdEntry) : Bool :=
  r.isHost && r.early && (c.bal.cls r.cls).early && (!r.isRds || r.rds == .confirmed)

/-- The code word of a burst on the pins (R214, R215, R290). -/
def Chan.wordOf (c : Chan) (s : Sub) (p : PinBurst) : CodeWord :=
  match c.img with
  | some i => i.ofPins s p
  | none => 0

/-- The good word of a read is captured: it passes the read injection point and may leave as EDATA. The hold entry of an RDS
that SCAN resolved is free as its line comes (R104, R105). -/
def Chan.captureRead (c : Chan) (s : Sub) (r : RdEntry) (w : CodeWord) : Chan :=
  let (w, c) := c.inject 2 s r.isHost w
  let ed := c.mayEdata r
  let c := c.modRd r.seq fun x =>
    { x with stage := .captured, word := w, edata := ed, reserved := x.reserved && x.rds != .cancelled }
  if ed then
    c.push { ty := .edata, tag := r.tag, status := 0, poison := false, mdval := 0,
             line := some (BitVec.ofNat 512 w.toNat), due := c.lane.hclk, cls := r.cls, priv := r.priv, req := r.req,
             laddr := r.laddr }
  else c

/-- The last beat of a burst is captured (R225): a read-CRC failure retries the read. -/
def Chan.capture (s : Sub) (p : PinBurst) (crcOk : Bool) (e : Env) (c : Chan) : Chan :=
  match c.nextBurst s with
  | none => c
  | some b =>
    if c.dclk < b.pin + c.fab.rl + c.fab.bld then c
    else
      let bad := c.rcrc && !crcOk
      let w := c.wordOf s p
      match b with
      | .read r => if bad then (c.retryRead true r).directAll else c.captureRead s r w
      | .merge m n _ =>
        if bad then (c.retryMerge true e m).directAll
        else
          let (w, c) := c.inject 2 s false w
          c.modWr m.seq fun x => { x with mread := .captured n w }

/-! ### Decode (R94, R95, R98, R217, R228, R235, R254) -/

/-- The captured words of a subchannel, oldest column command first. -/
def Chan.nextWord (c : Chan) (s : Sub) : Option (Burst × CodeWord) :=
  let rs := (c.rq.filter fun r => r.stage == .captured && r.dev.bank.sub == s).map fun r => (Burst.read r, r.word)
  let ws := (c.wq.filter fun w => w.dev.bank.sub == s).filterMap fun w =>
    match w.mread with
    | .captured n x => some (Burst.merge w n 0, x)
    | _ => none
  leastBy (fun (p : Burst × CodeWord) => p.1.ord) (rs ++ ws)

/-- The responses of a decoded host read: SETTLE or RETRACT after an EDATA, DATA otherwise (R98). -/
def Chan.answerRd (c : Chan) (r : RdEntry) (d : Decoded) : Chan :=
  let c := c.modRd r.seq fun x => { x with stage := .answered, result := some d }
  let data := dataRsp r d c.lane.hclk
  if !r.edata then c.push data
  else if d.outcome = .clean then c.push { data with ty := .settle, line := none, status := 0 }
  else c.push { data with ty := .retract, line := none, poison := false }

/-- A decoded read (R235): delivered, held for its RDS, discarded, given to the Loft, or scrubbed. -/
def Chan.decodedRd (e : Env) (c : Chan) (r : RdEntry) (d : Decoded) : Chan :=
  let o : Origin := r.origin r.source
  match r.kind with
  | .host _ =>
    if r.rds = .unresolved then c.modRd r.seq fun x => { x with stage := .inHold, result := some d }
    else
      let c := c.consequence e o d
      if r.rds = .cancelled then (c.dropRd r.seq).directAll else c.answerRd r d
  | .fill => (((c.consequence e o d).fillResult r.seq d).dropRd r.seq).directAll
  | .thatcher =>
    let c := ((c.consequence e o d).dropRd r.seq).directAll
    if d.outcome = .ue then c.mdUe e r.laddr else c

/-- A merge read's old line is written into the entry where enables are clear (R227, R228). An entry that a full write has taken
out of MERGE keeps its line. -/
def Chan.decodedMerge (e : Env) (c : Chan) (w : WrEntry) (ord : Nat) (d : Decoded) : Chan :=
  let o : Origin := { laddr := w.laddr, dev := w.dev, src := srcMerge, priv := 0, colOrd := ord }
  let c := (c.consequence e o d).modWr w.seq fun x => { x with mread := .none }
  if w.merge != .issued then c
  else
    let c := c.modWr w.seq fun x =>
      let x := { x with part := some (x.line, x.be), be := allBytes, merge := .merged }
      if d.outcome.isBad then { x with psn := true, line := 0 } else { x with line := mergeLine d.line x.line w.be }
    if d.outcome.isBad && w.loftW then c.mdLost e w.laddr 2 else c

/-- The classifier handles the oldest captured word of a subchannel (R217, R225). -/
def Chan.classify (s : Sub) (e : Env) (c : Chan) : Chan :=
  match c.nextWord s with
  | none => c
  | some (b, w) =>
    let d := decode c.x8 (c.mark s) w
    let c := c.countOutcome s d.outcome
    match b with
    | .read r => c.decodedRd e r d
    | .merge m n _ => c.decodedMerge e m n d

/-! ### Alerts (R180, R244 to R250) -/

/-- Live write CRC, CA parity, and Per-Row Activation Counting. -/
def Chan.imgBit (c : Chan) (f : ChanImg → Bool) : Bool :=
  match c.img with
  | some i => f i
  | none => false

/-- A write burst that ended at `t` less than the write-CRC window ago (R244). -/
def Chan.inCrcWin (c : Chan) (pin : Nat) : Bool :=
  let t := pin + c.fab.wl + c.fab.bld
  c.imgBit ChanImg.wcrc && decide (t ≤ c.dclk) && decide (c.dclk ≤ t + c.err.crcWin)

/-- The writes of the queue, and the WRs of pauses, whose write-CRC window holds the present DCLK (R244). -/
def Chan.crcHits (c : Chan) (s : Sub) : List WrEntry :=
  c.wq.filter fun w => w.committed && w.dev.bank.sub == s && !w.resend && c.inCrcWin w.pinTime
def Chan.crcPause (c : Chan) (s : Sub) : List Cmd :=
  c.fab.hist.filter fun k => k.bank.sub == s && k.src == .pause && k.cls == .wr && c.inCrcWin k.time

/-- The first command whose parity window holds the present DCLK. -/
def Chan.parHit (c : Chan) (s : Sub) : Option Cmd :=
  if c.imgBit ChanImg.capar then
    leastBy Cmd.time (c.fab.hist.filter fun k => k.bank.sub == s && decide (k.time ≤ c.dclk) &&
      decide (c.dclk ≤ k.time + c.err.parWin))
  else none

/-- A resend of a write, or its end (R246, R249). -/
def Chan.resendWr (e : Env) (c : Chan) (w : WrEntry) : Chan :=
  match c.findWr w.seq with
  | none => c
  | some x =>
    if !x.committed || x.resend then c
    else if c.err.retry < x.retries + 1 then c.abandonWr e 0 x
    else
      let c := c.modWr x.seq fun y => { y with resend := true, retries := y.retries + 1 }
      { c with err := { c.err with wcrcCnt := satAdd 0xFFFF c.err.wcrcCnt 1 } }

/-! ### Pauses that come again (R246, R248) -/

/-- A committed command as one that has still to be planned, with one retry more (R245). -/
def Cmd.again (k : Cmd) : SeqCmd := { cls := k.cls, bank := k.bank, row := k.row, col := k.col, tries := k.tries + 1 }

/-- The commands of a pause that is to make `again` beside what is left of it, from precharged banks: column commands with the
ACTs that they need, then an MPC, then the precharges. An ACT that comes again keeps its count. -/
def redoCmds (again left : List SeqCmd) : List SeqCmd :=
  let all := again ++ left
  let count := fun x : SeqCmd =>
    let old := again.find? fun y => x.cls == .act && y.cls == .act && y.bank == x.bank && y.row == x.row
    { x with tries := (old.map SeqCmd.tries).getD x.tries }
  let shut := all.filter fun x => x.cls == .preab
  (accessSeq (all.filter fun x => x.cls.isCol) []).map count ++ (all.filter fun x => x.cls == .mpc) ++
    shut.filter fun x => (shut.find? fun y => y.bank == x.bank) == some x

/-- The running pauses of a subchannel make the commands `ks` again. -/
def Chan.redoPause (c : Chan) (s : Sub) (ks : List Cmd) : Chan :=
  { c with upk := { c.upk with pauses := c.upk.pauses.map fun (p : Pause) =>
      let mine := ks.filter fun k => k.src == .pause && k.bank.rank == p.rank
      if !p.running || p.sub != s || mine.isEmpty then p
      else
        { p with
          cmds := redoCmds (mine.map Cmd.again) p.cmds, endAt := if p.kind = .selftest then p.endAt else 0 } } }

/-- An MPC of a pause that has ended is asked for again (R181, R248). -/
def Chan.redoZq (c : Chan) (k : Cmd) : Chan :=
  let s := k.bank.sub
  let r := k.bank.rank
  if k.cls != .mpc || k.src != .pause || (c.pauseOn s).any (fun p => p.isZq && p.rank == r) then c
  else
    let c := { c with sched := { c.sched with replays := c.sched.replays ++ [k.again] } }
    match c.upk.rank s r with
    | none => c
    | some x =>
      if x.zqPhase = 2 then c.startZq s r
      else if x.zqPhase = 0 then (c.modRank s r fun x => { x with zqPhase := 3 }).askPause .zqLatch s r false
      else c

/-- The WRs of pauses that a write-CRC alert names are made again, from precharged banks; one whose retries are exhausted is not
(R245, R246). -/
def Chan.resendPause (s : Sub) (c : Chan) (ks : List Cmd) : Chan :=
  let ks := ks.filter fun k => decide (k.tries + 1 ≤ c.err.retry)
  let rank := fun p : Pause => closeAll s p.rank (match c.img with
    | some i => i.lranks
    | none => [])
  let c := c.drop fun k => k.bank.sub == s && k.src == .pause
  let d := c.redoPause s ks
  { d with
    err := { c.err with wcrcCnt := satAdd 0xFFFF c.err.wcrcCnt ks.length },
    upk := { d.upk with pauses := d.upk.pauses.map fun (p : Pause) =>
      if c.upk.pauses.contains p then p else { p with cmds := rank p ++ p.cmds } } }

/-! ### Parity recovery (R245, R248 to R251) -/

/-- A line response of the tag waits for the RSP link. -/
def Chan.flitWaits (c : Chan) (t : Tag) : Bool :=
  c.lane.ready.any fun x => x.tag == t && (x.ty == .data || x.ty == .edata)

/-- The read is among those whose data a recovery discards: a command of it is treated as not executed, and no flit with its line
has left (R248; DESIGN CHOICE for the last one, log entry 105). -/
def Chan.replayed (c : Chan) (v : List Cmd) (r : RdEntry) : Bool :=
  match r.stage with
  | .issued | .queued => v.any fun k => k.src == .read r.seq
  | .captured => (v.any fun k => k.src == .read r.seq) && (!r.edata || c.flitWaits r.tag)
  | .inHold => !r.fwd && v.any fun k => k.src == .read r.seq && k.cls.isCol
  | .answered => !r.fwd && r.result.isSome && c.flitWaits r.tag && v.any fun k => k.src == .read r.seq && k.cls.isCol
  | .waitBeat => false

/-- The line responses of a host read that wait for the RSP link are discarded. -/
def Chan.pullRsp (c : Chan) (r : RdEntry) : Chan :=
  let mine := fun x : Rsp =>
    x.tag == r.tag && (x.ty == RspType.data || x.ty == RspType.edata || x.ty == RspType.settle || x.ty == RspType.retract)
  if r.isHost then { c with lane := { c.lane with ready := c.lane.ready.filter fun x => !mine x } } else c

/-- The requests that have a command among those treated as not executed are replayed (R248, steps 2 and 4). -/
def Chan.replayReads (c : Chan) (v : List Cmd) : Chan :=
  (c.rq.filter (c.replayed v)).foldl (fun c r => (c.pullRsp r).retryRead false r) c

/-- The write has a merge read, or a command of its own, among the commands. -/
def WrEntry.mergeIn (v : List Cmd) (w : WrEntry) : Bool := v.any fun k => k.src == .merge w.seq && k.cls.isCol
def WrEntry.cmdIn (v : List Cmd) (w : WrEntry) : Bool :=
  v.any fun k => k.src == .write w.seq || k.src == .resend w.seq || k.src == .merge w.seq

/-- The writes and merge reads are replayed. -/
def Chan.replayWrites (e : Env) (c : Chan) (v : List Cmd) : Chan :=
  (c.wq.filter (WrEntry.cmdIn v)).foldl (fun c w =>
    if w.mergeIn v && (w.merge == .issued || w.part.isSome) then c.retryMerge false e w
    else if c.err.retry < w.retries + 1 then c.abandonWr e 2 w
    else c.modWr w.seq fun x =>
      { x with
        committed := false, onPins := false, reached := false, resend := false, retries := x.retries + 1,
        mread := if w.mergeIn v then .none else x.mread }) c

/-- An upkeep command that is treated as not executed is owed again (R248). -/
def Chan.reowe (c : Chan) (k : Cmd) : Chan :=
  let s := k.bank.sub
  let r := k.bank.rank
  let l := k.bank.lrank
  let back := fun n : Nat => c.banksOf s r |>.foldl (fun c b =>
    if k.covers b then c.modBank b fun x => { x with acts := x.acts + n, st := if x.st = .refreshing then .idle else x.st }
    else c) c
  match k.cls with
  | .refab => (back c.upk.raaimt).modAcct s r l fun a => { a with debts := a.debts.map (· + 1) }
  | .refsb => (back c.upk.raaimt).modAcct s r l fun a => { a with debts := updateAt k.bank.ba (· + 1) a.debts }
  | .rfmab => (back c.upk.raaimt).setBackoff s fun b => { b with
      owed := b.owed.map fun o => if o.1 == r && o.2.1 == l then (o.1, o.2.1, o.2.2 + 1) else o }
  | .rfmsb => back c.upk.raaimt
  | .mrr => { c with upk := { c.upk with polls := c.upk.polls ++ [(s, r, l)] } }
  | .mrw => { c with trim := { c.trim with mrw := c.trim.mrw ++ [(s, r)] } }
  | .sre => c.modRank s r fun x => { x with selfRef := false }
  | .srx => c.modRank s r fun x => { x with selfRef := true }
  | .pde => c.modRank s r fun x => { x with glide := false }
  | .pdx => c.modRank s r fun x => { x with glide := true }
  | _ => c

/-- A memory clear goes back to the first line whose write-pattern command is treated as not executed (R248). -/
def Chan.reclear (s : Sub) (c : Chan) (v : List Cmd) : Chan :=
  match c.seqr.clear, c.img with
  | some x, some i =>
    let line := fun k : Cmd => i.lineOf (Dev.vals { bank := k.bank, row := k.row, col := k.col })
    let wrps := v.filter fun k => k.src == .clear && k.cls == .wrp
    { c with seqr := { c.seqr with
        clear := some (x.setPos s (wrps.foldl (fun m k => min m (line k)) (x.pos s))) } }
  | _, _ => c

/-- A command of the sequencer or of upkeep, which carries a retry count of its own (R245). -/
def Cmd.isOwn (k : Cmd) : Bool := k.src == .upkeep || k.src == .pause || k.src == .clear

/-- The commands of upkeep and of a memory clear that will be planned again keep their counts; a PREpb or PREsb gives way to the
PREabs of the recovery (R245, R248). -/
def Chan.keepTries (c : Chan) (v : List Cmd) : Chan :=
  let mine := v.filter fun k => (k.src == .upkeep || k.src == .clear) && k.cls != .prepb && k.cls != .presb
  { c with sched := { c.sched with replays := c.sched.replays ++ mine.map Cmd.again } }

/-- CA_FAIL (R249): every request that has a command in the failing recovery first receives the result of its row. -/
def Chan.caFail (e : Env) (s : Sub) (v : List Cmd) (c : Chan) (k : Cmd) : Chan :=
  let c := (c.rq.filter (c.replayed v)).foldl (fun c r => (c.pullRsp r).failRead r false) c
  let c := (c.wq.filter (WrEntry.cmdIn v)).foldl (fun c w =>
    if w.mergeIn v && w.merge == .issued then c.mergeFail e w else c.abandonWr e 2 w) c
  (c.raise evCaFail (s.num * 2 ^ 15 + k.bank.rank * 2 ^ 12 + k.cls.num)).fatal

/-- A parity alert: commits stop, planned commands are dropped, the commands from the first one in its window on are
treated as not executed, and PREabs follow (R248). -/
def Chan.parityRecover (e : Env) (s : Sub) (first : Cmd) (c : Chan) : Chan :=
  let v := c.fab.hist.filter fun k => k.bank.sub == s && decide (first.time ≤ k.time)
  let c := c.drop fun k => k.bank.sub == s
  let c := { c with
    err := { c.err with replays := satAdd 0xFFFF c.err.replays 1 },
    sched := (if s = Sub.a then { c.sched with stopA := true } else { c.sched with stopB := true } : Sched) }
  match v.find? fun k => k.isOwn && decide (c.err.retry < k.tries + 1) with
  | some k => c.caFail e s v k
  | none =>
    let c := (c.replayReads v).replayWrites e v
    let c := v.foldl Chan.redoZq (c.redoPause s v)
    let c := (v.filter fun k => k.src == .upkeep).foldl Chan.reowe c
    ((c.reclear s v).keepTries v).directAll

/-- An ALERT_n assertion is sampled (R180, R244, R250): a parity recovery, then write-CRC resends, then a back-off;
outside every window a back-off, or a stray alert. -/
def Chan.alert (s : Sub) (e : Env) (c : Chan) : Chan :=
  if c.down || !c.logicRuns then c
  else
    let crc := c.crcHits s
    let own := c.crcPause s
    let par := c.parHit s
    let prac := c.imgBit ChanImg.pracEn
    if crc.isEmpty && own.isEmpty && par.isNone && !prac then
      { c with err := { c.err with stray := satAdd 0xFFFF c.err.stray 1 } }
    else
      let c := match par with
        | some k => c.parityRecover e s k
        | none => if own.isEmpty then c else c.resendPause s own
      if c.down then c
      else
        let c := (sortBy WrEntry.colOrd crc).foldl (Chan.resendWr e) c
        let c := if prac then c.backoffAlert e s else c
        (c.serveWaiting 2).directAll

/-! ### The Thatcher (R252 to R256) -/

/-- ACTIVE: ENABLE is set and the channel is in Flight (R255, R259). -/
def Chan.thActive (c : Chan) : Bool := c.th.enable && !c.down && c.power.cur == .flight

/-- Active time of the pass so far, given that the Thatcher has been active, or not, since `passStart` (R255). -/
def Chan.thTime (e : Env) (c : Chan) : Nat := c.th.activeAcc + if c.thActive then e.now - c.th.passStart else 0

/-- The measure is brought up to date before ENABLE or the power state changes. -/
def Chan.thMark (e : Env) (c : Chan) : Chan :=
  { c with th := { c.th with activeAcc := c.thTime e, passStart := e.now } }

/-- Every INT REFCLK of active time OWED rises (R253). -/
def Chan.thTick (e : Env) (c : Chan) : Chan :=
  if !c.thActive || decide (e.now < c.th.next) then c
  else { c with th := { c.th with owed := satAdd 64 c.th.owed 1, next := c.th.next + c.th.int } }

/-- Lines of the patrol range. -/
def Chan.patrolLines (c : Chan) : Nat :=
  match c.img with
  | some i => i.patrolLines
  | none => 0

/-- The end of a pass (R255). -/
def Chan.passEnd (e : Env) (c : Chan) : Chan :=
  let late := decide (9 * c.th.int * c.patrolLines < 8 * c.thTime e)
  let p := (c.th.passes + 1) % 2 ^ 32
  let c := { c with th := { c.th with
    passes := p, late := late, pos := 0, activeAcc := 0, passStart := e.now } }
  let c := c.raise evPatrolPass (p % 2 ^ 16)
  if late then c.raise evPatrolLate (p % 2 ^ 16) else c

/-- A line is handled. -/
def Chan.thNext (e : Env) (c : Chan) : Chan :=
  let c := { c with th := { c.th with owed := c.th.owed - 1, pos := c.th.pos + 1 } }
  if c.patrolLines ≤ c.th.pos then c.passEnd e else c

/-- The Thatcher places the next line's read, or skips a fenced or about-to-be-written line (R203, R253, R254, R256). -/
def Chan.thPlace (e : Env) (c : Chan) : Chan :=
  let reads := countWhere (fun r : RdEntry => r.kind == .thatcher) c.rq
  if !c.thActive || c.power.trans.isSome || c.th.owed = 0 || c.sourcesHold || decide (4 ≤ reads) || decide (16 ≤ c.resRq) then c
  else
    let a := BitVec.ofNat 34 c.th.pos
    let d := c.devOf a
    if c.fenced d.bank.rank || c.wq.any (fun w => w.laddr == a) then c.thNext e
    else
      let (seq, c) := c.takeSeq
      ((c.placeRd (mkRd seq .thatcher 0 15 0 false false a d 0 .na) 2).directAll).thNext e

/-- A write of CH_THATCH_CTL (R255, R259): INT, ENABLE, then RESTART. -/
def Chan.thCtl (w : Word) (e : Env) (c : Chan) : Chan :=
  let v := w.toNat
  let c := c.thMark e
  let was := c.thActive
  let c := { c with th := { c.th with enable := bitAt v 16, int := clampTo 1 65535 (bitsAt v 0 16) } }
  let c := if c.thActive && !was then { c with th := { c.th with next := e.now + c.th.int } } else c
  if bitAt v 17 then { c with th := { c.th with pos := 0, activeAcc := 0, passStart := e.now } } else c

end Sys2Proof.Machine
end

