-- ==== Sys2Proof/Machine/Trim.lean ====
section
/-! DEFINITION. The trim engine and rate control: the clamp on N, the choice of a trim set, shift pauses, retrim results,
and the readings of the module sensors (12). -/
namespace Sys2Proof.Machine

/-! ### The requested rate (R17, R302, R303) -/

/-- The lowest of the limits on N: the level's maximum for the module type, 32 with two DIMMs, and the module's own
maximum (R17). -/
def Chan.maxRate (e : Env) (c : Chan) : Nat :=
  let two := match c.img with
    | some i => if i.dimms = 2 then 32 else 64
    | none => 64
  clampTo 24 64 (min (if c.mr then e.clampMr else e.clampRd) (min two c.trim.modMax))

/-- The requested rate is clamped under R17, and the clamped value reads back. -/
def Chan.clampRate (e : Env) (c : Chan) : Chan :=
  { c with trim := { c.trim with reqN := clampTo 24 (c.maxRate e) c.trim.reqN } }

/-- The fabric and its audit at a new rate (R168, step 4): the files and the rows that they remember are empty, and every standing
hold stays, with its minimum spacing satisfied. -/
def Fabric.newRate (f : Fabric) (t : Nat) : Fabric :=
  let keep := fun l : List Hold => l.map fun h => { h with start := none }
  { f with tset := t, hist := [], holds := keep f.holds, audHist := [], audHolds := keep f.audHolds, audRows := [] }

/-- Trim set `t` is in force at `n` (R168, R304): the fabric, the rows it remembers, and the bridge schedules follow. -/
def Chan.newRate (e : Env) (t n : Nat) (c : Chan) : Chan :=
  ({ c with
    trim := { c.trim with tsel := t, nCur := n }, fab := c.fab.newRate t,
    banks := (c.banks.map fun p => (p.1, { p.2 with rowLast := none })).filter fun p => p.2 != BankEntry.idle } : Chan).setBridges e n

/-- A set is in force without a shift pause: as the channel leaves a lower state (R302, R313). The bridge schedules follow
its N (log entry 88). -/
def Chan.loadSet (e : Env) (c : Chan) : Chan :=
  match c.trim.bestSet c.trim.reqN with
  | none => { c with trim := { c.trim with noset := true } }
  | some t =>
    if t = c.trim.tsel then c else c.newRate e t (c.trim.set t).n

/-- A shift pause to set `t` is asked for: it begins at once, or when the pauses that hold the channel end (R302, R305). -/
def Chan.askShift (c : Chan) (t : Nat) : Chan :=
  ({ c with trim := { c.trim with shift := some .due, shiftTo := t } }).settleShift

/-- The selection of R303 is applied: a shift pause in Flight, a record elsewhere, and nothing more during a shift pause,
which applies the newest request at its end (R302, R305). Without a valid set the set in force stays. -/
def Chan.applyRate (c : Chan) : Chan :=
  match c.trim.bestSet c.trim.reqN with
  | none =>
    { c with trim := { c.trim with noset := true, shift := if c.trim.shift = some .due then none else c.trim.shift } }
  | some t =>
    if c.trim.shift = some .due then
      if t = c.trim.tsel then { c with trim := { c.trim with shift := none } }
      else { c with trim := { c.trim with shiftTo := t } }
    else if c.trim.shift.isSome || (c.power.trans.isSome && !c.draining) || !c.running || t = c.trim.tsel then c
    else c.askShift t

/-- A write of N (R302). -/
def Chan.rateWrite (w : Word) (e : Env) (c : Chan) : Chan :=
  let n := clampTo 24 (c.maxRate e) (bitsAt w.toNat 0 8)
  ({ c with trim := { c.trim with reqN := n, noset := false } }).applyRate

/-! ### Shift pauses (R168, R304, R305, R315) -/

/-- QUIET (R168, step 2): the clocks may change; CK stops (R304, step 5). -/
def Chan.quietAssert (c : Chan) : Chan :=
  if c.trim.shift = some .prepare ∧ c.allSelfRef ∧ c.quiet then
    { c with
      trim := { c.trim with shift := some .clocks, mrw := [] }, upk := { c.upk with park := false },
      pins := { c.pins with ck := false } }
  else c

/-- The channel PLL has locked at the new rate (R168, step 4; R304, steps 5 and 6). -/
def Chan.pllLock (e : Env) (c : Chan) : Chan :=
  if c.trim.shift = some .clocks then
    let t := c.trim.shiftTo
    let old := c.trim.nCur
    let new := (c.trim.set t).n
    let c := { c with trim := { c.trim with shift := some .locked }, power := { c.power with readyAt := e.now } }
    (c.newRate e t new).rescaleAges old new
  else c

/-- CK restarts: the step start of a shift pause (R304, step 7). -/
def Chan.restartCk (c : Chan) : Chan :=
  { c with
    trim := { c.trim with shift := some .restart }, upk := { c.upk with wake := true }, pins := { c.pins with ck := true } }

/-- The latencies that the sequencer writes (R167, R244). -/
def Chan.setLat (lat : Latencies) (c : Chan) : Chan :=
  { c with
    fab := { c.fab with rl := lat.rl % 256, wl := lat.wl % 256, bld := if c.mr then 4 else 8 },
    err := { c.err with crcWin := lat.crcWin % 4096, parWin := lat.parWin % 4096 } }

/-- A normal retrim of every rank is requested; the spread of R297 counts from now. -/
def Chan.retrimAll (e : Env) (c : Chan) : Chan :=
  let ps := c.rankPairs
  let n := max 1 ps.length
  let c := { c with upk := { c.upk with
    pauses := c.upk.pauses.filter fun (p : Pause) => p.running || p.kind != .retrim } }
  ((List.range ps.length).zip ps).foldl (fun c p =>
    (c.askPause .retrim p.2.1 p.2.2 false).modRank p.2.1 p.2.2 fun x =>
      { x with retrimNext := e.now + (p.1 + 1) * c.retrimInterval / n }) c

/-- Idle timers start again, and a cap in force starts with no tokens (R184, R332). -/
def Chan.freshStart (e : Env) (c : Chan) : Chan :=
  { c with
    upk := { c.upk with ranks := c.upk.ranks.map fun (x : RankSt) => { x with idleSince := e.now } },
    bal := if c.bal.capped then { c.bal with tokA := 0, tokB := 0 } else c.bal }

/-- Every earlier burst has ended (R167). -/
def Chan.burstsOver (c : Chan) : Bool :=
  c.fab.hist.all fun k => match c.burstStart k.cls with
    | some b => decide (k.time + b + c.fab.bld ≤ c.dclk)
    | none => true

/-- SRX is complete at the new rate, nothing of it is left in the tail, and new latencies may take effect (R167). -/
def Chan.shiftReady (c : Chan) : Bool :=
  c.trim.shift == some .restart && !(c.upk.ranks.any fun x => x.selfRef) && c.tail.isEmpty && c.burstsOver

/-- The end of a shift pause (R304, steps 8 and 9; R305; R327 for an excursion). -/
def Chan.shiftEnd (lat : Latencies) (e : Env) (c : Chan) : Chan :=
  if !c.shiftReady then c
  else
    let c := (({ c with trim := { c.trim with shift := none }, upk := { c.upk with wake := false } }).setLat lat).freshStart e
    match c.power.trans with
    | some t =>
      if t.ph = .excursion then
        if c.lane.wake.isEmpty then
          { c with power := { c.power with trans := some { t with ph := .enter } }, upk := { c.upk with park := true } }
        else
          { c with power := { c.power with
              trans := some { t with ph := .waking, req := { t.req with tgt := .flight } } } }
      else ({ (c.retrimAll e) with bal := c.bal.ask 2 }).applyRate
    | none => ({ (c.retrimAll e) with bal := c.bal.ask 2 }).applyRate

/-! ### Retrim (R298 to R301) -/

/-- The maximal runs of passing offsets, each with its first and last offset, from a list of offsets with their results.
`cur` is the run under way. -/
def passRuns : List (Int × Bool) → Option (Int × Int) → List (Int × Int)
  | [], cur => cur.toList
  | (o, true) :: rest, cur =>
    passRuns rest (some (match cur with
      | some r => (r.1, o)
      | none => (o, o)))
  | (_, false) :: rest, cur => cur.toList ++ passRuns rest none

/-- The distance of a run from offset 0. -/
def runDist (r : Int × Int) : Nat := if r.1 ≤ 0 ∧ 0 ≤ r.2 then 0 else min r.1.natAbs r.2.natAbs

/-- The better of two runs: the longer, then the nearer to offset 0, then the lower (R299). -/
def betterRun (best : Option (Int × Int)) (r : Int × Int) : Option (Int × Int) :=
  match best with
  | none => some r
  | some b =>
    if b.2 - b.1 < r.2 - r.1 ∨ (b.2 - b.1 = r.2 - r.1 ∧ runDist r < runDist b) then some r else some b

/-- The move of a centre, or none without a pass: the middle of the best run, rounded toward zero, within the limit
(R299). -/
def retrimMove (offsets : List (Int × Bool)) (limit : Int) : Option Int :=
  ((passRuns offsets none).foldl betterRun none).map fun r => max (-limit) (min limit ((r.1 + r.2).tdiv 2))

/-- The offsets of a pause, in steps, from the lowest (R298). -/
def retrimOffsets (wide : Bool) : List Int :=
  if wide then (List.range 13).map fun (i : Nat) => 4 * (i : Int) - 24 else (List.range 5).map fun (i : Nat) => 4 * (i : Int) - 8

/-- The results of one probe, one for each offset. -/
def probeOf (wide : Bool) (l : List Bool) : List (Int × Bool) :=
  let os := retrimOffsets wide
  ((List.range os.length).zip os).map fun p => (p.2, l.getD p.1 false)

/-- The probes of a lane; the two lanes of an x8 device share a strobe and count together (R289, log entry 15). -/
def laneProbes (x8 : Bool) (ps : List LaneProbe) (lane : Nat) : LaneProbe :=
  let none_ : LaneProbe := { readPass := [], writePass := [] }
  let p := ps.getD lane none_
  if x8 then
    let q := ps.getD (if lane % 2 = 0 then lane + 1 else lane - 1) none_
    { readPass := List.zipWith (· && ·) p.readPass q.readPass, writePass := List.zipWith (· && ·) p.writePass q.writePass }
  else p

/-- Fields of a data-lane entry (R292). -/
def entFails (v : BitVec 128) : Nat := bitsAt v.toNat 124 2
def entMarg (v : BitVec 128) : Bool := bitAt v.toNat 126

/-- A centre field after a move; where the sum does not fit, a free value (log entry 14). -/
def moveCentre (v : Nat) (lo : Nat) (m : Int) (free : Nat) : Nat :=
  let x : Int := (bitsAt v lo 8 : Int) + m
  setBits v lo 8 (if 0 ≤ x ∧ x ≤ 255 then x.toNat else (Config.centreOut free).toNat)

/-- The entry after a pause: moved and clear, or marginal (R299, R301). -/
def entryAfter (v : BitVec 128) (rd wr : Option Int) (free : Nat) : BitVec 128 :=
  match rd, wr with
  | some a, some b =>
    BitVec.ofNat 128 (setBits (setBits (moveCentre (moveCentre v.toNat 116 a free) 108 b (free + 1)) 126 1 0) 124 2 0)
  | _, _ => BitVec.ofNat 128 (setBits (setBits v.toNat 126 1 1) 124 2 (min 3 (entFails v + 1)))

/-- The entry of a lane; zero where there is none. -/
def TrimSet.entry (t : TrimSet) (s : Sub) (r lane : Nat) : BitVec 128 :=
  match t.entries.find? fun x => x.1 == s && x.2.1 == r && x.2.2.1 == lane with
  | some x => x.2.2.2
  | none => 0

/-- Replace the entry of a lane. -/
def TrimSet.putEntry (t : TrimSet) (s : Sub) (r lane : Nat) (v : BitVec 128) : TrimSet :=
  { t with entries := t.entries.map fun x =>
      if x.1 == s && x.2.1 == r && x.2.2.1 == lane then (x.1, x.2.1, x.2.2.1, v) else x }

/-- The information field of TRIM_NOPASS and TRIM_LOST (R301). -/
def trimInfo (wr : Bool) (s : Sub) (r lane set fails : Nat) : Nat :=
  packFields [(18, b2n wr), (16, s.num), (13, r), (9, lane), (7, set), (5, fails)]

/-- One lane of a retrim pause (R299, R301). `base` numbers the free values of the pause; on x8 the two lanes of a chip share
them, as they share their strobe (R289). -/
def Chan.retrimLane (p : Pause) (probes : List LaneProbe) (base : Nat) (c : Chan) (lane : Nat) : Chan :=
  let limit : Int := if p.wide then 24 else 2
  let q := laneProbes c.x8 probes lane
  let rd := retrimMove (probeOf p.wide q.readPass) limit
  let wr := retrimMove (probeOf p.wide q.writePass) limit
  let t := c.trim.tsel
  let v := (c.trim.set t).entry p.sub p.rank lane
  let v' := entryAfter v rd wr (base + 2 * (if c.x8 then lane / 2 * 2 else lane))
  let c := { c with trim := c.trim.modSet t fun (x : TrimSet) => x.putEntry p.sub p.rank lane v' }
  if rd.isSome && wr.isSome then c
  else
    let c := { c with trim := { c.trim with noPass := satAdd 0xFFFF c.trim.noPass 1 } }
    if entFails v = 3 then c
    else c.raise (if entFails v = 2 then evTrimLost else evTrimNopass)
      (trimInfo wr.isNone p.sub p.rank lane t (min 3 (entFails v + 1)))

/-- The lanes of a rank that are marginal, and those that have no pass left, as masks (R309). -/
def Chan.laneMask (c : Chan) (s : Sub) (r : Nat) (f : BitVec 128 → Bool) : Nat :=
  sumOf ((List.range 10).map fun l => b2n (f ((c.trim.set c.trim.tsel).entry s r l)) * 2 ^ l)

/-- A RETRIM request waits for the rank's results: the lanes without a pass and those passed (R347). -/
def Chan.noteRetrim (c : Chan) (p : Pause) (probes : List LaneProbe) : Chan :=
  let ok := fun l =>
    let q := laneProbes c.x8 probes l
    (retrimMove (probeOf p.wide q.readPass) 24).isSome && (retrimMove (probeOf p.wide q.writePass) 24).isSome
  let pass := sumOf ((List.range 10).map fun l => b2n (ok l) * 2 ^ l)
  if c.mbxIn.working && c.mbxIn.op == some 0x20 then
    { c with mbxIn := { c.mbxIn with res := c.mbxIn.res ++ [(p.sub, p.rank, (1023 - pass) * 65536 + pass)] } }
  else c

/-- The running retrim pause of a rank whose last command has taken effect. -/
def Chan.retrimOver (e : Env) (c : Chan) (s : Sub) (r : Nat) : Option Pause :=
  c.upk.pauses.find? fun p =>
    p.running && p.kind == .retrim && p.sub == s && p.rank == r && p.cmds.isEmpty && decide (0 < p.endAt) && decide (p.endAt ≤ e.now)

/-- A retrim pause ends (R299, R301). -/
def Chan.retrimEnd (s : Sub) (r : Nat) (probes : List LaneProbe) (e : Env) (c : Chan) : Chan :=
  match c.retrimOver e s r with
  | none => c
  | some p =>
    let c := ((List.range 10).foldl (Chan.retrimLane p probes c.free) c).noteRetrim p probes
    let c := { c with trim := { c.trim with pauses := satAdd 0xFFFF c.trim.pauses 1 }, free := c.free + 20 }
    let bad := c.laneMask s r (fun v => 1 ≤ entFails v) != 0
    let c := c.modRank s r fun x =>
      { x with
        retrimWide := bad,
        retrimNext := if bad then e.now + refMs else if p.wide then e.now + c.retrimInterval else x.retrimNext }
    c.endPause p

/-! ### Module sensors (R308) -/

/-- A temperature field as a signed number of quarter degrees (R309). -/
def quarterDeg (t : BitVec 12) : Int := t.toInt

/-- Whole degrees, clamped to 0 to 255 (R308, R335). -/
def wholeDeg (t : BitVec 12) : Nat := min 255 (quarterDeg t / 4).toNat

/-- A sensor is present (R309): bits 1 and 2 of its DIMM's field. -/
def Sideband.hasSensor (b : Sideband) (dimm sensor : Nat) : Bool := bitAt b.present.toNat (5 * dimm + 1 + sensor)

/-- A reading of a sensor in Flight (R308). -/
def Chan.sensorRead (dimm sensor : Nat) (t : BitVec 12) (c : Chan) : Chan :=
  let k := 2 * dimm + sensor
  let hi : Int := 4 * (c.sb.thermHi : Int)
  let off := c.sb.hotOff.getD k false
  let hot := decide (hi ≤ quarterDeg t)
  let below := decide (quarterDeg t < hi - 20)
  let c := { c with sb := { c.sb with
    therm := updateAt k (fun _ => (true, t)) c.sb.therm,
    hotOff := updateAt k (fun _ => if hot then true else if below then false else off) c.sb.hotOff } }
  if hot && !off then c.raise evModuleHot (packFields [(9, dimm), (8, sensor), (0, wholeDeg t)]) else c

/-- A transaction begins on the sideband bus: a change of RATE applies, and the bus is in I2C-compatible mode where a device has
failed to answer in I3C mode or RATE is 3 (R306, R309). -/
def Chan.sbBegin (c : Chan) : Chan := { c with sb := { c.sb with i2c := c.sb.noI3c || c.sb.rate == 3 } }

/-- The poll of a sensor, once per 32 ms in Flight with POLL set (R308); it waits while a transaction is under way (R307). -/
def Chan.sensorPoll (dimm sensor : Nat) (t : BitVec 12) (e : Env) (c : Chan) : Chan :=
  let k := 2 * dimm + sensor
  if !c.running || !c.sb.poll || c.sb.busy || !c.sb.hasSensor dimm sensor || decide (e.now < nth0 c.sb.nextPoll k) then c
  else
    ({ c.sbBegin with sb := { c.sbBegin.sb with
      nextPoll := updateAt k (fun n => n + 32 * refMs) c.sb.nextPoll } }).sensorRead dimm sensor t

/-- A sensor's in-band interrupt, which only the I3C mode carries (R306, R308). -/
def Chan.sensorIbi (dimm sensor : Nat) (t : BitVec 12) (c : Chan) : Chan :=
  if !c.running || !c.sb.poll || c.sb.busy || c.sb.i2c || !c.sb.hasSensor dimm sensor then c
  else c.sbBegin.sensorRead dimm sensor t

end Sys2Proof.Machine
end

