-- ==== Sys2Proof/Machine/Mailbox.lean ====
section
/-! DEFINITION. The sequencer: its start, the two mailboxes, the messages it serves, self-test, memory clear, and fencing
(14). -/
namespace Sys2Proof.Machine

/-! ### Messages (R341) -/

/-- CHECK over words 0 to 14. -/
def msgCheck (ws : List Word) : Word := ~~~ ((ws.take 15).foldl (· + ·) 0)

/-- A message: header, payload, zero words, CHECK. -/
def mkMsg (alive op len status : Nat) (payload : List Word) : List Word :=
  let ws := (mkWord [(24, alive % 256), (16, op % 256), (12, len % 16), (0, status % 256)] :: payload ++ List.replicate 15 0).take 15
  ws ++ [msgCheck ws]

/-- A word of the inbound mailbox as a number. -/
def MbxIn.word (m : MbxIn) (i : Nat) : Nat := (m.words.getD i 0).toNat

/-- ALIVE and OPCODE of the request. -/
def MbxIn.aliveOf (m : MbxIn) : Nat := bitsAt (m.word 0) 24 8
def MbxIn.opcode (m : MbxIn) : Nat := bitsAt (m.word 0) 16 8

/-! ### Phases (R355) -/

/-- PHASE. -/
def Chan.phase (c : Chan) : SeqPhase :=
  if !c.seqr.run then .stopped
  else if c.bringing then (if c.bring.step = 0 then .bringUp else .training)
  else if c.shifting then .shift
  else if c.upk.pauses.any fun p => p.running then .pause
  else if c.seqr.clear.isSome then .clear
  else .idle

/-- The code of a phase (R355). -/
def SeqPhase.num : SeqPhase → Nat
  | .stopped => 0 | .bringUp => 1 | .training => 2 | .idle => 3 | .shift => 4 | .pause => 5 | .clear => 6

/-- HELD: the request waits for the sequencer to run, or for the end of a bring-up or a shift pause, in which only STATUS
is served (R344). -/
def Chan.mbxHeld (c : Chan) : Bool :=
  c.mbxIn.busy && c.mbxIn.op.isNone &&
    (!c.seqr.run || ((c.bringing || c.shifting) && c.mbxIn.opcode != 1))

/-! ### The inbound mailbox (R342 to R344, R351) -/

/-- A GO (R342, R351). -/
def Chan.mbxGo (legacy : Bool) (c : Chan) : Chan :=
  if c.mbxIn.busy then { c with mbxIn := { c.mbxIn with ovr := true } }
  else
    { c with mbxIn := { c.mbxIn with
        busy := true, done := false, legacy := legacy, op := none, working := false, res := [] } }

/-- A write of an inbound word, ignored while BUSY (R342). -/
def Chan.mbxPut (i : Nat) (w : Word) (c : Chan) : Chan :=
  if c.mbxIn.busy then c else { c with mbxIn := { c.mbxIn with words := c.mbxIn.words.set (i % 16) w } }

/-- The reply stands in the inbound words: BUSY clears, DONE sets, MBX_IN_DONE is raised (R342, R354). -/
def Chan.finishMbx (ws : List Word) (c : Chan) : Chan :=
  let w0 := (ws.getD 0 0).toNat
  ({ c with mbxIn := { c.mbxIn with
      words := ws, busy := false, done := true, op := none, working := false, res := [] } }).raise evMbxIn
    (packFields [(8, bitsAt w0 24 8), (0, bitsAt w0 0 8)])

/-- The sequencer replies to an executed request, and keeps the reply of a native one (R342, R343, R351). -/
def Chan.reply (status len : Nat) (payload : List Word) (c : Chan) : Chan :=
  let m := c.mbxIn
  let ws := mkMsg m.aliveOf m.opcode len status payload
  ({ c with mbxIn := { m with kept := if m.legacy then m.kept else some (m.aliveOf, ws) } }).finishMbx ws

/-- STATUS values of a reply (R346). -/
def stOk : Nat := 0
def stAccepted : Nat := 1
def stBadCheck : Nat := 2
def stBadOpcode : Nat := 3
def stBadTarget : Nat := 4
def stInUse : Nat := 5
def stNack : Nat := 6
def stDenied : Nat := 7
def stNone : Nat := 8
def stAborted : Nat := 9

/-- The opcodes of R347, and those of the legacy mailbox (R351). -/
def servedOps (legacy : Bool) : List Nat := if legacy then [1, 2, 3] else [1, 2, 3, 0x10, 0x11, 0x12, 0x20, 0x30]

/-- The sequencer begins the waiting request: CHECK, then ALIVE, then the opcode (R342, R343, R351). -/
def Chan.mbxServe (c : Chan) : Chan :=
  let m := c.mbxIn
  if !m.busy || m.op.isSome || c.mbxHeld then c
  else if !m.legacy && m.words.getD 15 0 != msgCheck m.words then
    c.finishMbx (mkMsg m.aliveOf m.opcode 0 stBadCheck [])
  else
    match m.kept with
    | some (a, ws) =>
      if !m.legacy && a == m.aliveOf then c.finishMbx ws
      else if (servedOps m.legacy).contains m.opcode then { c with mbxIn := { m with op := some m.opcode } }
      else c.reply stBadOpcode 0 []
    | none =>
      if (servedOps m.legacy).contains m.opcode then { c with mbxIn := { m with op := some m.opcode } }
      else c.reply stBadOpcode 0 []

/-- The request of an opcode is dispatched and not begun, and the sequencer runs. -/
def Chan.serving (c : Chan) (op : Nat) : Bool := c.seqr.run && c.mbxIn.op == some op && !c.mbxIn.working

/-- The request goes on working until MBX_IN_DONE. -/
def Chan.work (c : Chan) : Chan := { c with mbxIn := { c.mbxIn with working := true } }

/-! ### The outbound mailbox (R345) -/

/-- A message of the sequencer joins the queue, or is dropped (R345). -/
def Chan.post (op status : Nat) (payload : List Word) (c : Chan) : Chan :=
  if 8 ≤ c.mbxOut.queue.length then { c with mbxOut := { c.mbxOut with dropped := satAdd 255 c.mbxOut.dropped 1 } }
  else { c with mbxOut := { c.mbxOut with queue := c.mbxOut.queue ++ [(op, status, payload)] } }

/-- The next message is shown (R345). With messages dropped, LOST stands in STATUS, and the result of a SELFTEST_DONE in
word 9 (R350). -/
def Chan.deliver (c : Chan) : Chan :=
  match c.mbxOut.queue with
  | [] => c
  | (op, status, payload) :: rest =>
    if c.mbxOut.valid || !c.seqr.run then c
    else
      let lost := c.mbxOut.dropped
      let pay := if op = 0x90 then payload.take 8 ++ [BitVec.ofNat 32 (if lost = 0 then 0 else status)] else payload
      let ws := mkMsg c.mbxOut.alive op pay.length (if lost = 0 then status else lost) pay
      ({ c with mbxOut := { c.mbxOut with
          words := ws, valid := true, queue := rest, alive := (c.mbxOut.alive + 1) % 256, dropped := 0 } }).raise evMbxOut
        (packFields [(8, c.mbxOut.alive % 256), (0, op)])

/-- ACK (R345). -/
def Chan.mbxAck (c : Chan) : Chan := { c with mbxOut := { c.mbxOut with valid := false } }

/-! ### The legacy pointer mailbox (R351) -/

/-- A write of CH_MBX_LPTR. -/
def Chan.lptrWrite (w : Word) (c : Chan) : Chan :=
  let v := w.toNat
  let c := { c with mbxOut := { c.mbxOut with indexDir := bitAt v 4, index := bitsAt v 0 4 } }
  let c := if bitAt v 31 then c.mbxGo true else c
  if bitAt v 30 then c.mbxAck else c

/-- INDEX after an access to CH_MBX_LDATA. -/
def Chan.stepIndex (c : Chan) : Chan := { c with mbxOut := { c.mbxOut with index := (c.mbxOut.index + 1) % 16 } }

/-- A read of CH_MBX_LDATA. -/
def Chan.ldataRead (c : Chan) : Chan × Word :=
  (c.stepIndex, (if c.mbxOut.indexDir then c.mbxOut.words else c.mbxIn.words).getD c.mbxOut.index 0)

/-- A write of CH_MBX_LDATA; the outbound words are read-only. -/
def Chan.ldataWrite (w : Word) (c : Chan) : Chan :=
  (if c.mbxOut.indexDir then c else c.mbxPut c.mbxOut.index w).stepIndex

/-! ### Requests (R347) -/

/-- RANK and SUBMASK of a request word; SUBMASK 0 counts as both. -/
def reqRank (w : Nat) : Nat := bitsAt w 8 3
def reqSubs (w : Nat) : Nat := if bitsAt w 0 2 = 0 then 3 else bitsAt w 0 2
def inSubs (m : Nat) (s : Sub) : Bool := bitAt m s.num

/-- STATUS. -/
def Chan.doStatus (c : Chan) : Chan :=
  if !c.serving 1 then c
  else
    let v := match c.img with
      | some i => leAt i.code 0 4
      | none => 0
    let runs := b2n (c.seqr.test.isSome || c.seqr.clear.isSome)
    c.reply stOk 2 [BitVec.ofNat 32 v, mkWord [(16, c.mbxOut.queue.length), (8, runs), (0, c.phase.num)]]

/-- The position of a device of R307 among the presence bits of its DIMM (R309). -/
def devIndex (ident : Nat) : Option Nat :=
  if ident = 0b1010 then some 0 else if ident = 0b0010 then some 1 else if ident = 0b0110 then some 2
  else if ident = 0b1001 then some 3 else if ident = 0b1011 then some 4 else none

/-- The device of a sideband request answered at bring-up. -/
def Chan.sbPresent (c : Chan) (w : Nat) : Bool :=
  match devIndex (bitsAt w 12 4) with
  | some k => bitAt c.sb.present.toNat (5 * b2n (bitAt w 8) + k)
  | none => false

/-- Byte count of a sideband request, clamped to 1 to 32. -/
def sbCount (w2 : Nat) : Nat := clampTo 1 32 (bitsAt w2 16 8)

/-- SB_READ begins: the transaction runs until MBX_IN_DONE. It queues behind the sequencer's own (R307). -/
def Chan.doSbRead (c : Chan) : Chan :=
  if !c.serving 2 || c.sb.busy then c
  else if !c.sbPresent (c.mbxIn.word 1) then c.reply stBadTarget 0 []
  else { c.work.sbBegin with sb := { c.sbBegin.sb with busy := true } }

/-- SB_WRITE begins, for a temperature sensor or the SPD hub. -/
def Chan.doSbWrite (c : Chan) : Chan :=
  let id := bitsAt (c.mbxIn.word 1) 12 4
  if !c.serving 3 || c.sb.busy then c
  else if !c.sbPresent (c.mbxIn.word 1) then c.reply stBadTarget 0 []
  else if id = 0b1001 ∨ id = 0b1011 then c.reply stDenied 0 []
  else { c.work.sbBegin with sb := { c.sbBegin.sb with busy := true } }

/-- Rows of the device (R57, R58). -/
def ChanImg.rows (i : ChanImg) : Nat :=
  if threeQuarter i.density then 3 * 2 ^ (rowWidth i.density - 2) else 2 ^ rowWidth i.density

/-- SELFTEST (R349): accepted with word 1 as run. -/
def Chan.doSelftest (e : Env) (c : Chan) : Chan :=
  match c.img with
  | none => c
  | some i =>
    let w := c.mbxIn.word 1
    let r := reqRank w
    if !c.serving 0x10 then c
    else if !c.hasRank r then c.reply stBadTarget 0 []
    else if c.seqr.test.isSome || c.seqr.clear.isSome then c.reply stInUse 0 []
    else
      let destr := bitAt w 31 && bitAt c.seqr.fenceDone.toNat r
      let run := packFields [(31, b2n destr), (24, min 2 (bitsAt w 24 2)), (8, r), (0, reqSubs w)]
      let t : SelfTest :=
        { word1 := run, first := min (i.rows - 1) (bitsAt (c.mbxIn.word 2) 0 18),
          last := min (i.rows - 1) (bitsAt (c.mbxIn.word 3) 0 18), pace := min 1000 (bitsAt (c.mbxIn.word 4) 0 10),
          seed := c.mbxIn.word 5, posA := 0, posB := 0, fails := 0, corrected := 0, chips := 0, sig := 0xFFFFFFFF,
          firstFail := none, abort := false, next := e.now }
      ({ c with seqr := { c.seqr with test := some t } }).reply stAccepted 1 [BitVec.ofNat 32 run]

/-- SELFTEST_ABORT. -/
def Chan.doAbortTest (c : Chan) : Chan :=
  if !c.serving 0x11 then c
  else
    match c.seqr.test with
    | some t => ({ c with seqr := { c.seqr with test := some { t with abort := true } } }).reply stOk 0 []
    | none => c.reply stNone 0 []

/-- The subchannels of a mask. -/
def subsOf (m : Nat) : List Sub := [Sub.a, Sub.b].filter (inSubs m)

/-- ZQ_NOW begins: the calibration of R181 on the named subchannels, and their intervals start again. -/
def Chan.doZqNow (e : Env) (c : Chan) : Chan :=
  let w := c.mbxIn.word 1
  let r := reqRank w
  if !c.serving 0x12 then c
  else if !c.hasRank r then c.reply stBadTarget 0 []
  else
    ((subsOf (reqSubs w)).foldl (fun c s =>
      let c := match c.upk.rank s r with
        | some x => if x.zqPhase = 0 then c.startZq s r else c
        | none => c
      c.modRank s r fun x => { x with zqNext := e.now + c.zqInterval }) c).work

/-- RETRIM begins: a pause of each named subchannel, and the rank's interval starts again. -/
def Chan.doRetrim (e : Env) (c : Chan) : Chan :=
  let w := c.mbxIn.word 1
  let r := reqRank w
  if !c.serving 0x20 then c
  else if !c.hasRank r then c.reply stBadTarget 0 []
  else
    ((subsOf (reqSubs w)).foldl (fun c s =>
      (c.askPause .retrim s r (bitAt w 16)).modRank s r fun x => { x with retrimNext := e.now + c.retrimInterval }) c).work

/-- MEM_CLEAR: the fenced ranks of RANKMASK are cleared (R263, R347). -/
def Chan.doMemClear (c : Chan) : Chan :=
  match c.img with
  | none => c
  | some i =>
    if !c.serving 0x30 then c
    else if c.seqr.test.isSome || c.seqr.clear.isSome then c.reply stInUse 0 []
    else
      let m := bitsAt (c.mbxIn.word 1) 0 8 &&& c.seqr.fence.toNat &&& (2 ^ i.ranks - 1)
      let k : Clear := { mask := m, on := c.loft.on, posA := 0, posB := 0, gran := 0 }
      ({ c with seqr := { c.seqr with clear := some k } }).reply stAccepted 1 [BitVec.ofNat 32 m]

/-- A retrim of the rank is still asked for or running. -/
def Chan.retrimOpen (c : Chan) (s : Sub) (r : Nat) : Bool :=
  c.upk.pauses.any fun p => p.kind == .retrim && p.sub == s && p.rank == r

/-- The result word of a RETRIM for a subchannel: the latest pause of the rank. -/
def Chan.retrimRes (c : Chan) (s : Sub) (r : Nat) : Option Nat :=
  (c.mbxIn.res.reverse.find? fun x => x.1 == s && x.2.1 == r).map fun x => x.2.2

/-- What the bytes of a sideband read fill, four to a word. -/
def sbWords (n : Nat) (bytes : List Nat) : List Word :=
  (List.range ((n + 3) / 4)).map fun i => BitVec.ofNat 32 (leAt (bytes.take n) (4 * i) 4)

/-- A sideband transaction ends (R309). -/
def Chan.sbEnd (c : Chan) (ack : Bool) : Chan :=
  { c with sb := { c.sb with busy := false, nacks := if ack then c.sb.nacks else satAdd 0xFFFF c.sb.nacks 1 } }

/-- A request that took time ends (R342, R347). -/
def Chan.mbxInDone (r : SbResult) (c : Chan) : Chan :=
  if !c.seqr.run || !c.mbxIn.working then c
  else
    match c.mbxIn.op with
    | some 2 =>
      let n := sbCount (c.mbxIn.word 2)
      let c := c.sbEnd r.ack
      if r.ack then c.reply stOk ((n + 3) / 4) (sbWords n r.bytes) else c.reply stNack 0 []
    | some 3 => let c := c.sbEnd r.ack
      if r.ack then c.reply stOk 0 [] else c.reply stNack 0 []
    | some 0x12 =>
      let w := c.mbxIn.word 1
      if (subsOf (reqSubs w)).all fun s => match c.upk.rank s (reqRank w) with
        | some x => x.zqPhase == 0
        | none => true
      then c.reply stOk 0 []
      else c
    | some 0x20 =>
      let w := c.mbxIn.word 1
      let rank := reqRank w
      let subs := subsOf (reqSubs w)
      let val := fun s : Sub => if inSubs (reqSubs w) s then (c.retrimRes s rank).getD 0 else 0
      if subs.all fun s => (c.retrimRes s rank).isSome && !c.retrimOpen s rank then
        c.reply stOk 2 [BitVec.ofNat 32 (val .a), BitVec.ofNat 32 (val .b)]
      else c
    | _ => c

/-! ### Self-test (R349, R350, R353) -/

/-- RANK, SUBMASK and DESTRUCTIVE of the test as run. -/
def SelfTest.rank (t : SelfTest) : Nat := reqRank t.word1
def SelfTest.destr (t : SelfTest) : Bool := bitAt t.word1 31

/-- Lines of the test on one subchannel. -/
def SelfTest.total (t : SelfTest) (i : ChanImg) : Nat :=
  i.stack * (t.last + 1 - t.first) * 32 * 2 ^ i.width 6

/-- Position of the test on a subchannel. -/
def SelfTest.pos (t : SelfTest) (s : Sub) : Nat := if s = .a then t.posA else t.posB
def SelfTest.setPos (t : SelfTest) (s : Sub) (n : Nat) : SelfTest := if s = .a then { t with posA := n } else { t with posB := n }

/-- Lines left on a subchannel. -/
def SelfTest.left (t : SelfTest) (i : ChanImg) (s : Sub) : Nat := if inSubs t.word1 s then t.total i - t.pos s else 0

/-- The subchannel of the next pause: the one that is behind, A before B. -/
def SelfTest.nextSub (t : SelfTest) (i : ChanImg) : Option Sub :=
  if t.left i .a = 0 then (if t.left i .b = 0 then none else some .b)
  else if t.left i .b = 0 ∨ t.posA ≤ t.posB then some .a else some .b

/-- The `k`-th line of a test: logical rank, row, bank group, bank, column, each ascending (R349). -/
def SelfTest.dev (t : SelfTest) (i : ChanImg) (s : Sub) (k : Nat) : Dev :=
  let cols := 2 ^ i.width 6
  let rows := t.last + 1 - t.first
  let b := k / cols
  { bank := mkBank s t.rank (b / 32 / max 1 rows) (b / 4 % 8) (b % 4), row := t.first + b / 32 % max 1 rows, col := k % cols }

/-- A line that failed is remembered, the first only (R350). -/
def SelfTest.fail (t : SelfTest) (d : Dev) : SelfTest :=
  let b := d.bank
  let w7 := packFields [(7, d.row), (0, d.col)]
  let w8 := packFields [(31, 1), (11, b.sub.num), (8, b.rank), (5, b.lrank), (2, b.bg), (0, b.ba)]
  { t with fails := t.fails + 1, firstFail := some (t.firstFail.getD (w7, w8)) }

/-- One line of a test: its outcome, or its mismatch, and the signature. -/
def SelfTest.line (t : SelfTest) (x8 : Bool) (mark : Option Nat) (d : Dev) (l : TestLine) : SelfTest :=
  let t := { t with sig := crcFeeds 32 0x1EDC6F41 true t.sig (toBytes 80 l.word.toNat) }
  if t.destr then
    let m := l.mismatch.toNat
    let t := { t with chips := t.chips ||| m }
    if m = 0 then t else t.fail d
  else
    let r := decode x8 mark l.word
    let t := if r.outcome.isCorr then { t with corrected := t.corrected + 1, chips := t.chips ||| r.chips } else t
    if r.outcome = .ue then t.fail d else t

/-- The commands of a pause that reads lines, or writes them and reads them back, on a rank that it precharges first and last
(R295, R349). -/
def lineCmds (i : ChanImg) (write : Bool) (s : Sub) (r : Nat) (ds : List Dev) : List SeqCmd :=
  let acc := (if write then ds.map fun d => (CmdClass.wr, d) else []) ++ ds.map fun d => (CmdClass.rd, d)
  closeAll s r i.lranks ++ accessSeq (acc.map accessCmd) [] ++ closeAll s r i.lranks

/-- A self-test pause may be asked for now (R349): the test is due, and no pause holds the subchannel. -/
def Chan.testMay (e : Env) (c : Chan) (t : SelfTest) (s : Sub) : Bool :=
  c.running && c.seqr.run && !t.abort && decide (t.next ≤ e.now) && (c.pauseOn s).isNone && c.trim.shift.isNone &&
    c.power.trans.isNone && !c.upk.park

/-- A self-test pause (R349). -/
def Chan.testPause (lines : List TestLine) (e : Env) (c : Chan) : Chan :=
  match c.seqr.test, c.img with
  | some t, some i =>
    match t.nextSub i with
    | none => c
    | some s =>
      let n := min lines.length (min (if t.destr then 32 else 64) (t.left i s))
      if n = 0 ∨ c.testMay e t s = false then c
      else
        let (k, c) := c.fresh
        let len := Config.pauseLength k % 101
        let ds := (List.range n).map fun j => t.dev i s (t.pos s + j)
        let p : Pause :=
          { kind := .selftest, sub := s, rank := t.rank, len := len, wide := false, running := false, endAt := e.now + len,
            cmds := lineCmds i t.destr s t.rank ds }
        match c.admits e p with
        | (false, c) => c
        | (true, c) =>
          let t' := (ds.zip lines).foldl (fun (t : SelfTest) p => t.line i.x8 (c.mark s) p.1 p.2) t
          let t' := { t'.setPos s (t.pos s + n) with next := e.now + len + 100 * t.pace }
          let c := { c with
            seqr := { c.seqr with test := some t' }, upk := { c.upk with pauses := c.upk.pauses ++ [p] } }
          c.beginPause p
  | _, _ => c

/-- The payload of SELFTEST_DONE, words 1 to 8 (R350). -/
def SelfTest.report (t : SelfTest) : List Word :=
  [t.word1, t.posA + t.posB, t.fails, t.corrected, t.chips, crcResult 32 0xFFFFFFFF true t.sig,
    (t.firstFail.getD (0, 0)).1, (t.firstFail.getD (0, 0)).2].map (BitVec.ofNat 32)

/-- The self-test in progress ends with SELFTEST_DONE. -/
def Chan.endTest (status : Nat) (t : SelfTest) (c : Chan) : Chan :=
  ({ c with seqr := { c.seqr with test := none } }).post 0x90 status t.report

/-- SELFTEST_DONE: the test is complete, or it is abandoned and no pause of it runs (R347, R349). -/
def Chan.testDone (c : Chan) : Chan :=
  match c.seqr.test, c.img with
  | some t, some i =>
    if !c.seqr.run || c.upk.pauses.any (fun p => p.kind == .selftest) then c
    else if t.abort then c.endTest stAborted t
    else if (t.nextSub i).isNone then c.endTest stOk t
    else c
  | _, _ => c

/-! ### The end of a memory clear (R347) -/

/-- The memory clear in progress ends with CLEAR_DONE. -/
def Chan.endClear (status : Nat) (k : Clear) (c : Chan) : Chan :=
  ({ c with seqr := { c.seqr with clear := none } }).post 0x91 stOk [BitVec.ofNat 32 k.mask, BitVec.ofNat 32 status]

/-- A Loft operation is a store of a memory clear (R263). -/
def LoftOp.isClear (o : LoftOp) : Bool :=
  match o.kind with
  | .clear _ _ => true
  | _ => false

/-- Nothing of a memory clear is left to write, and no parity window of its commands is open (R248). -/
def Chan.clearOver (c : Chan) (i : ChanImg) (k : Clear) : Bool :=
  k.mask == 0 ||
  (decide (i.rsvBase ≤ k.posA) && decide (i.rsvBase ≤ k.posB) && (!k.on || decide (i.mdBase ≤ 4 * k.gran)) &&
    !(c.tail.any fun x => x.src == .clear) && !(c.wq.any fun w => w.src == .clear) && !(c.loft.ops.any LoftOp.isClear) &&
    !(c.imgBit ChanImg.capar &&
      c.fab.hist.any fun x => x.src == .clear && x.cls == .wrp && decide (c.dclk ≤ x.time + c.err.parWin)))

/-- CLEAR_DONE. -/
def Chan.clearDone (c : Chan) : Chan :=
  match c.seqr.clear, c.img with
  | some k, some i => if c.seqr.run && c.clearOver i k then c.endClear stOk k else c
  | _, _ => c

/-! ### Fencing (R99, R201, R348, R349) -/

/-- A write of CH_FENCE.RANK. A destructive test of a rank that is unfenced is abandoned. -/
def Chan.setFence (w : Word) (c : Chan) : Chan :=
  let f := BitVec.ofNat 8 w.toNat
  let c := { c with seqr := { c.seqr with
    fence := f, fenceDone := c.seqr.fenceDone &&& f,
    test := c.seqr.test.map fun (t : SelfTest) => { t with abort := t.abort || (t.destr && !bitAt f.toNat t.rank) } } }
  c.modeNow

/-- The rank holds no read-queue or write-queue entry of a host, patch or Loft access (R348). -/
def Chan.fenceEmpty (c : Chan) (r : Nat) : Bool :=
  !(c.rq.any fun x => x.dev.bank.rank == r && x.kind != .thatcher) &&
  !(c.wq.any fun x => x.dev.bank.rank == r && x.src != .clear)

/-- DONE of a fenced rank sets. -/
def Chan.fenceSettle (r : Nat) (c : Chan) : Chan :=
  if bitAt c.seqr.fence.toNat r && c.fenceEmpty r then
    { c with seqr := { c.seqr with fenceDone := c.seqr.fenceDone ||| BitVec.ofNat 8 (2 ^ r) } }
  else c

/-! ### Start and stop (R339, R343, R345) -/

/-- The sequencer stops as the channel logic powers down, or its clocks stop. -/
def Chan.seqStop (c : Chan) : Chan := { c with seqr := { c.seqr with run := false, test := none, clear := none } }

/-- The sequencer starts as the channel logic powers up: it checks its code; a failed check is a fatal event of the
channel (R339). -/
def Chan.seqStart (c : Chan) : Chan :=
  let code := match c.img with
    | some i => i.code
    | none => []
  if Config.codeCheckOk code then
    { c with
      seqr := { c.seqr with run := true, fault := false, test := none, clear := none },
      mbxOut := { c.mbxOut with alive := 0 }, mbxIn := { c.mbxIn with kept := none } }
  else
    let (n, c) := c.fresh
    let c := (c.raise evSeqFault (Config.seqFaultDetail n % 2 ^ 16)).fatal
    { c with
      power := { c.power with fatal := true, trans := none },
      seqr := { c.seqr with run := false, fault := true, test := none, clear := none } }

end Sys2Proof.Machine
end

