-- ==== Sys2Proof/Machine/Power.lean ====
section
/-! DEFINITION. Channel power states: requests and the pending slot, drains, step starts, transitions, the wake store, the
Tethered duty cycle, and lane isolation (13). -/
namespace Sys2Proof.Machine

/-! ### Ends of transitions (R324, R335) -/

/-- DRAM contents are kept in Grounded: by a transition with KEEP 1, or through a reset (R310, R337, R384). -/
def Chan.keptNow (c : Chan) : Bool := c.power.cur == .grounded && (c.power.kept || c.power.held)

/-- CH_STATE_DONE (R335). -/
def Chan.stateDone (frm tgt : PState) (src : Nat) (c : Chan) : Chan :=
  c.raise evStateDone (packFields [(16, src % 8), (14, frm.num), (12, tgt.num), (11, b2n c.keptNow)])

/-- The transition leaves a lower state (R324). -/
def Trans.isWake (t : Trans) : Bool :=
  decide (t.req.tgt.num < t.frm.num) || (t.frm == .moored && t.req.tgt == .moored)

/-- SOURCE of CH_STATE_DONE: that of a wake, 0 otherwise. -/
def Trans.src (t : Trans) : Nat := if t.isWake then t.req.wake.source else 0

/-! ### Requests (R313, R314, R320, R392) -/

/-- A request that cannot be met is dropped: NOT_ENABLED, and CH_STATE_DONE where an image is in force (R314). -/
def Chan.dropReq (e : Env) (c : Chan) : Chan :=
  let c := { c with bring := { c.bring with done := true, result := 7 }, power := { c.power with pend := none } }
  if e.inForce then c.stateDone .grounded .grounded 0 else c

/-- The request names a channel without an image that no load can give one (R314). -/
def Chan.notEnabled (e : Env) (q : PReq) (c : Chan) : Bool :=
  q.tgt != .grounded && c.img.isNone && (e.inForce || !e.loadOpen)

/-- The request waits for the load to end (02, "When a channel is asked to leave Grounded during a load"). -/
def Chan.loadHolds (e : Env) (q : PReq) (c : Chan) : Bool :=
  c.power.cur == .grounded && q.tgt != .grounded && (!e.inForce || e.loadOpen)

/-- A transition begins. -/
def Chan.begin (q : PReq) (ph : TransPh) (e : Env) (c : Chan) : Chan :=
  { c with power := { c.power with
      trans := some { frm := c.power.cur, req := q, ph := ph }, pend := none, readyAt := e.now } }

/-- The contents of a held channel are discarded: RESET_n low, then the floating fall-back (R384, R392). -/
def Chan.discard (c : Chan) : Chan :=
  { c.holdPins .floating with power := { c.power with held := false, initDone := false } }

/-- RESET_n is driven low: the modules lose their contents (R313, R333). -/
def Chan.assertReset (c : Chan) : Chan :=
  { c.holdPins .resetLow with power := { c.power with initDone := false } }

/-- The channel parks its ranks. -/
def Chan.parkRanks (c : Chan) : Chan := { c with upk := { c.upk with park := true } }

/-- The transition of a request from the state that the channel is in (R313). -/
def Chan.startReq (q : PReq) (e : Env) (c : Chan) : Chan :=
  if q.tgt = c.power.cur then
    (if q.tgt = .grounded ∧ c.power.held ∧ q.keep = false then c.discard else c)
  else
    match c.power.cur with
    | .flight => (c.begin q .drain e).directAll
    | .moored =>
      if q.tgt = .flight then c.begin q .stagger e
      else if q.tgt = .grounded ∧ q.keep = false then
        { (c.begin q .enter e).assertReset with loft := c.loft.invalidate }
      else if c.loft.dirty = 0 then { c.begin q .enter e with loft := c.loft.invalidate }
      else
        let c := c.begin q .writeBack e
        ({ c with upk := { c.upk with wake := true } }).emptyLoft
    | .tethered => c.begin q (if q.tgt = .grounded then .enter else .stagger) e
    | .grounded => c.begin q .stagger e

/-- A state request (R313, R314, R320). KEEP counts as 0 without pad retention (R333). -/
def Chan.request (q : PReq) (e : Env) (c : Chan) : Chan :=
  let q := { q with keep := q.keep && e.retention }
  if c.notEnabled e q then c.dropReq e
  else if c.power.rst || c.power.fatal || c.power.trans.isSome || c.loadHolds e q then
    { c with power := { c.power with pend := some q } }
  else c.startReq q e

/-- The pending request starts, unless it names the state just reached (R320). -/
def Chan.startPend (e : Env) (c : Chan) : Chan :=
  match c.power.pend with
  | none => c
  | some q =>
    if c.power.rst || c.power.fatal || c.power.trans.isSome then c
    else ({ c with power := { c.power with pend := none } }).request q e

/-- A write of CH_STATE_CTL (R313, R337). -/
def Chan.stateCtl (w : Word) (e : Env) (c : Chan) : Chan :=
  let v := w.toNat
  let keep := bitAt v 8 && e.retention
  let tgt := PState.ofNum (bitsAt v 0 2)
  let c := { c with power := { c.power with target := tgt, keep := keep } }
  if bitAt v 2 then
    c.request { tgt := tgt, keep := keep, wake := { source := 1, dimm := 0, sensor := 0, temp := 0 } } e
  else c

/-! ### Drains (R317) -/

/-- Every accepted request is served and answered, every RDS resolved, every patch write committed; nothing of the Loft, a
pause or a shift pause is under way; and the lane is not isolated (R317, R334). -/
def Chan.drainedNow (c : Chan) : Bool :=
  c.rq.isEmpty && c.wq.isEmpty && c.err.patches.isEmpty && c.lane.ready.isEmpty && c.lane.cmps.isEmpty &&
    c.lane.flushes.isEmpty && c.lane.beats.isEmpty && c.loft.ops.isEmpty && c.loft.fills.isEmpty &&
    c.loft.evicts.isEmpty && !c.lane.iso && c.trim.shift.isNone && !(c.upk.pauses.any fun p => p.running)

/-- The self-test and the memory clear in progress are abandoned (log entry 24). -/
def Chan.abandonWork (c : Chan) : Chan :=
  let c := match c.seqr.test with
    | some t => c.endTest stAborted t
    | none => c
  match c.seqr.clear with
  | some k => c.endClear stAborted k
  | none => c

/-- The drain ends and the channel goes on into the lower state (R313, R317). -/
def Chan.drainEnd (c : Chan) : Chan :=
  match c.power.trans with
  | none => c
  | some t =>
    if t.ph ≠ .drain ∨ c.drainedNow = false then c
    else
      let c := (c.drop fun _ => true).abandonWork
      let go := fun (ph : TransPh) (c : Chan) =>
        ({ c with power := { c.power with trans := some { t with ph := ph } } } : Chan)
      if t.req.tgt = .moored then (go .enter c).parkRanks.directAll
      else if t.req.tgt = .grounded ∧ t.req.keep = false then
        { (go .enter c).directAll.assertReset with loft := c.loft.invalidate }
      else if c.loft.dirty = 0 then
        { (go .enter c).parkRanks.directAll with loft := c.loft.invalidate }
      else (go .writeBack c).emptyLoft.directAll

/-! ### Entering a lower state (R103, R310, R313, R322, R333) -/

/-- What is left of a bank's entry without power: its activation count (R178, R185). -/
def BankEntry.gated (x : BankEntry) : BankEntry := { BankEntry.idle with acts := x.acts }

/-- The channel logic is power-gated: what it holds of the banks, the timestamps and the pauses is gone (R310). Activation counts
carry over self-refresh (R178, R185), and a latch pause that waits is not dropped (R181). -/
def Chan.gateLogic (c : Chan) : Chan :=
  { c with
    banks := (c.banks.map fun p => (p.1, p.2.gated)).filter fun p => p.2 != BankEntry.idle,
    tail := [],
    fab := { c.fab with hist := [], holds := [], audHist := [], audHolds := [], audRows := [] },
    upk := { c.upk with pauses := c.upk.pauses.filterMap Pause.waitingLatch, polls := [], park := false, wake := false } }

/-- The DRAM contents are gone, and with them the records of the ranks (R310). -/
def Chan.dropRanks (c : Chan) : Chan :=
  { c with banks := [], upk := { c.upk with accounts := [], ranks := [], pauses := [] } }

/-- A Moored channel above the clamp leaves Moored for a shift pause (R327). -/
def Chan.excursion (e : Env) (c : Chan) : Chan :=
  if c.power.cur = .moored ∧ c.power.trans.isNone ∧ c.down = false ∧ c.maxRate e < c.trim.nCur then
    c.begin { tgt := .moored, keep := false, wake := { source := 5, dimm := 0, sensor := 0, temp := 0 } } .stagger e
  else c

/-- The channel reaches the lower state of its transition. The Thatcher's measure ends with the time in Flight (R255). -/
def Chan.enterLow (t : Trans) (e : Env) (c : Chan) : Chan :=
  let ground := t.req.tgt == .grounded
  let keep := ground && t.req.keep
  let hold : PinHold := if t.req.tgt = .moored then .driven else if ground && !keep then .floating else .selfRef
  let c := if ground then c.thMark e |>.empty else c.thMark e
  let c := if t.req.tgt = .moored then { c with upk := { c.upk with park := false, wake := false } } else c.gateLogic
  let c := if ground && !keep then c.dropRanks else c
  let c := { c.seqStop.holdPins hold with
    power := { c.power with
      cur := t.req.tgt, kept := keep, trans := none, initDone := c.power.initDone && (!ground || keep), tetherNext := e.now + c.power.period * 10 * refMs },
    sb := { c.sb with silent := List.replicate 4 0 } }
  ((c.stateDone t.frm t.req.tgt t.src).startPend e).excursion e

/-- The ranks are in self-refresh, or need not be, and nothing is left in the tail. -/
def Chan.lowReady (t : Trans) (c : Chan) : Bool :=
  c.tail.isEmpty && ((t.req.tgt == .grounded && !t.req.keep) || c.allSelfRef)

/-! ### The wake store (R319) -/

/-- The lane's front end captures what arrives: the channel is Moored or Tethered, or past the drain on its way down. -/
def Chan.asleep (c : Chan) : Bool :=
  !c.down && (c.power.cur == .moored || c.power.cur == .tethered ||
    match c.power.trans with
    | some t => t.ph == .enter || t.ph == .writeBack
    | none => false)

/-- A request, not a beat. -/
def capIsReq : Captured → Bool
  | .req _ _ => true
  | .beat _ => false

/-- The captured request asks for Flight: any but SCONF and SCAN. -/
def capWakes : Captured → Bool
  | .req op _ => op.toNat != 3 && op.toNat != 4
  | .beat _ => false

/-- The channel is on its way to Grounded. -/
def Chan.grounding (c : Chan) : Bool :=
  match c.power.trans with
  | some t => t.req.tgt == .grounded
  | none => false

/-- A flit or a beat is stored; the first request that wakes asks for Flight with source HOST. -/
def Chan.storeWake (x : Captured) (e : Env) (c : Chan) : Chan :=
  let n := countWhere capIsReq c.lane.wake
  let full := if capIsReq x then decide (176 ≤ n) else decide (120 + n ≤ c.lane.wake.length)
  if full then c
  else
    let first := capWakes x && !(c.lane.wake.any capWakes)
    let c := { c with lane := { c.lane with wake := c.lane.wake ++ [x] } }
    if first && !c.grounding then
      c.request { tgt := .flight, keep := false, wake := { source := 2, dimm := 0, sensor := 0, temp := 0 } } e
    else c

/-- Ingress takes a captured flit or beat. -/
def Chan.ingress (e : Env) (c : Chan) (x : Captured) : Chan :=
  match x with
  | .req op f => c.take e (reqOpOf op.toNat) f
  | .beat b => c.takeBeat b

/-- A flit or a beat arrives on the lane: ignored while the lane is isolated (R334), stored while the channel sleeps
(R319), taken by ingress otherwise. -/
def Chan.arrive (x : Captured) (e : Env) (c : Chan) : Chan :=
  if c.lane.iso then c else if c.asleep then c.storeWake x e else c.ingress e x

/-- Ingress takes the wake store in arrival order (R319). -/
def Chan.replayWake (e : Env) (c : Chan) : Chan :=
  c.lane.wake.foldl (Chan.ingress e) { c with lane := { c.lane with wake := [] } }

/-! ### Entering Flight (R201, R302, R315, R316, R332) -/

/-- The live fields and timers of a channel that enters Flight. The accounts of a PRESERVE bring-up run since its SRX (R390). -/
def Chan.freshFlight (t : Trans) (e : Env) (c : Chan) : Chan :=
  let off := t.frm == .tethered || t.frm == .grounded
  let own := t.ph == .bringUp && c.bring.form == 2
  let c := if off then
      { c with upk := { c.upk with
          accounts := if own then c.upk.accounts else c.freshAccounts e.now, ranks := c.freshRanks e.now } }
    else c.freshStart e
  let c := { c with upk := { c.upk with flightAt := e.now, pollNext := c.freshPolls e.now, polls := [], park := false, wake := false } }
  let c := if t.frm = .grounded then
      { c with bal := { (c.bal.ask 1) with eff := 850 }, lane := { c.lane with crstDue := true } }
    else { c with bal := c.bal.ask 2 }
  let c := if e.ripReq then
      { c with bal := { c.bal with pct := e.cap, capped := true, ramp := false, tokA := 0, tokB := 0, capPend := none } }
    else c
  let c := { c with th := { c.th with next := e.now + c.th.int, passStart := e.now } }
  { c with sb := { c.sb with nextPoll := List.replicate 4 e.now } }

/-- The calibrations and retrims of R315. -/
def Chan.wakeUpkeep (e : Env) (c : Chan) : Chan :=
  (c.rankPairs.foldl (fun c p => c.startZq p.1 p.2) c).retrimAll e

/-- The channel enters Flight. `woken` says that its contents were kept while its logic was off. A request from Grounded
for Moored or Tethered goes on into its target; otherwise the pending request starts. -/
def Chan.enterFlight (t : Trans) (woken : Bool) (e : Env) (c : Chan) : Chan :=
  let c := { c.holdPins .driven with power := { c.power with cur := .flight, kept := false, held := false, trans := none } }
  let c := c.freshFlight t e
  let c := if woken then c.wakeUpkeep e else c
  let c := ((c.replayWake e).applyRate).stateDone t.frm .flight t.src
  if t.frm = .grounded ∧ t.req.tgt ≠ .flight then c.startReq t.req e else c.startPend e

/-- A transition ends (R313, R320). -/
def Chan.transDone (e : Env) (c : Chan) : Chan :=
  match c.power.trans with
  | none => c
  | some t =>
    match t.ph with
    | .enter => if c.lowReady t then c.enterLow t e else c
    | .waking =>
      if t.frm = .tethered ∧ t.req.tgt = .moored then c.enterLow t e
      else if (t.req.tgt = .flight ∨ t.frm = .grounded) ∧ !(c.upk.ranks.any fun x => x.selfRef) ∧
          !(c.tail.any fun k => k.cls == .srx) then
        c.enterFlight t (t.frm != .moored) e
      else c
    | _ => c

/-! ### Step starts (R321, R324) -/

/-- The channel is ready for a step start. -/
def Chan.stepReady (c : Chan) : Bool :=
  c.trim.shift == some .locked ||
  match c.power.trans with
  | some t => t.ph == .stagger
  | none => false

/-- CH_WAKE_SRC is written. -/
def Chan.noteWake (t : Trans) (c : Chan) : Chan :=
  { c with power := { c.power with wakeRec := { valid := true, frm := t.frm.num, info := t.req.wake } } }

/-- The ranks are woken. -/
def Chan.wakeRanks (t : Trans) (c : Chan) : Chan :=
  { c.holdPins .driven with
    upk := { c.upk with wake := true }, power := { c.power with trans := some { t with ph := .waking } } }

/-- The bring-up of a channel that keeps nothing, or is held in self-refresh, begins (R388): the sideband bus starts in
I2C-compatible mode, and the sequencer's SPD read is under way (R306, R307). -/
def Chan.startBring (t : Trans) (e : Env) (c : Chan) : Chan :=
  { c with
    bring := { Reset.bringUp with form := if c.power.held then 2 else 0, started := e.now },
    sb := { c.sb with i2c := true, noI3c := false, busy := true, started := false },
    power := { c.power with trans := some { t with ph := .bringUp } } }

/-- A wake from Grounded with KEPT whose pins have floated fails (R417, log entry 11). -/
def Chan.lostWake (e : Env) (c : Chan) : Chan :=
  let (n, c) := c.fresh
  let c := { c.seqStop with
    bring := { c.bring with done := true, result := 2 + Config.lostResult n % 5 },
    power := { c.power with trans := none } }
  (c.stateDone .grounded .grounded 0).startPend e

/-- The step start of a transition: the channel leaves its lower state (R313, R321, R324, R339). -/
def Chan.leaveLow (t : Trans) (e : Env) (c : Chan) : Chan :=
  let c := c.noteWake t
  match t.frm with
  | .moored =>
    let c := { c with seqr := { c.seqr with run := true } }
    if t.req.tgt = .moored then c.wakeRanks t else (c.loadSet e).wakeRanks t
  | .tethered =>
    let c := { c with power := { c.power with trans := some { t with ph := .waking } } }.seqStart
    if c.power.fatal then c
    else if t.req.tgt = .moored then (c.loadSet e).holdPins .driven
    else (c.loadSet e).wakeRanks t
  | _ =>
    let c := { c with power := { c.power with trans := some { t with ph := .waking } } }.seqStart
    if c.power.fatal then c
    else if !c.power.kept then c.startBring t e
    else if c.pins.hold = .floating then c.lostWake e
    else (c.loadSet e).wakeRanks t

/-- A step start of the channel. -/
def Chan.stepStart (e : Env) (c : Chan) : Chan :=
  if c.trim.shift = some .locked then c.restartCk
  else
    match c.power.trans with
    | some t => if t.ph = .stagger then c.leaveLow t e else c
    | none => c

/-- The position of a channel in the wake order (R40). -/
def BlkImg.wakePos (i : BlkImg) (ch : ChanId) : Nat := ((List.range 8).find? fun k => nth0 i.wakeOrder k == ch.val).getD 8

/-- The stagger interval in REFCLK cycles (R321). -/
def BlkImg.stagger (i : BlkImg) : Nat := 10 * leAt i.wakeOrder 8 2

/-- The channel whose step start comes next: ready first, then first in the wake order (R321). -/
def State.nextStep (s : State) (i : BlkImg) : Option ChanId :=
  leastBy (fun ch => (s.chan ch).power.readyAt * 8 + i.wakePos ch) (allChans.filter fun ch => (s.chan ch).stepReady)

/-- A step start may take place now (R321). -/
def State.stepOpen (s : State) (i : BlkImg) : Bool :=
  match s.rst.lastStep with
  | some t => decide (t + i.stagger ≤ s.now)
  | none => true

/-- BLK_WAKE_SRC is written as a channel leaves a lower state (R324, R336). -/
def State.noteWake (s : State) (ch : ChanId) : State :=
  match (s.chan ch).power.trans with
  | some t => if t.ph = .stagger then
      { s with rst := { s.rst with wakeV := true, wakeCh := ch.val, wakeSrc := t.req.wake.source } }
    else s
  | none => s

/-- A step start of channel `ch`. -/
def State.step1 (s : State) (ch : ChanId) : State :=
  match s.img with
  | none => s
  | some i =>
    if s.stepOpen i && s.nextStep i == some ch then
      let s := s.noteWake ch
      ({ s with rst := { s.rst with lastStep := some s.now } }).onChan ch Chan.stepStart
    else s

/-! ### The Tethered duty cycle (R322, R323) -/

/-- One sensor of a sample: its reading, or no answer. -/
def Chan.sampleOne (c : Chan) (k : Nat) (r : Option (BitVec 12)) : Chan × Option WakeInfo :=
  let dimm := k / 2
  let sensor := k % 2
  if !c.sb.hasSensor dimm sensor then (c, none)
  else
    match r with
    | some t =>
      let c := { c with sb := { c.sb with
        therm := updateAt k (fun _ => (true, t)) c.sb.therm, silent := updateAt k (fun _ => 0) c.sb.silent } }
      if (4 * c.power.wakeTemp : Nat) ≤ quarterDeg t then
        (c.raise evTether (packFields [(9, dimm), (8, sensor), (0, wholeDeg t)]),
          some { source := 3, dimm := dimm, sensor := sensor, temp := wholeDeg t })
      else (c, none)
    | none =>
      let c := { c with sb := { c.sb with
        silent := updateAt k (fun n => min 3 (n + 1)) c.sb.silent, nacks := satAdd 0xFFFF c.sb.nacks 1 } }
      if 3 ≤ nth0 c.sb.silent k then
        (c.raise evTether (packFields [(18, 1), (9, dimm), (8, sensor)]),
          some { source := 4, dimm := dimm, sensor := sensor, temp := 0 })
      else (c, none)

/-- A sample of the Tethered duty cycle. -/
def Chan.tetherSample (rs : List (Option (BitVec 12))) (e : Env) (c : Chan) : Chan :=
  if c.down || c.power.cur != .tethered || c.power.trans.isSome || decide (e.now < c.power.tetherNext) then c
  else
    let c := { c with power := { c.power with tetherNext := c.power.tetherNext + c.power.period * 10 * refMs } }
    let r := (List.range 4).foldl (fun (p : Chan × Option WakeInfo) k =>
      let q := p.1.sampleOne k (rs.getD k none)
      (q.1, p.2 <|> q.2)) (c, none)
    match r.2 with
    | some w => r.1.request { tgt := .moored, keep := false, wake := w } e
    | none => r.1

/-! ### Isolation and pad retention (R334, R417, R426) -/

/-- The isolation of the lane takes effect, or is released. -/
def Chan.isolate (on : Bool) (c : Chan) : Chan :=
  { c with lane := { c.lane with iso := on, out := if on then none else c.lane.out } }

/-- The pins that pad retention holds float (R417). -/
def Chan.vretLost (c : Chan) : Chan :=
  if c.power.cur = .grounded ∧ c.power.kept ∧ c.power.trans.isNone then c.holdPins .floating else c

end Sys2Proof.Machine
end

