-- ==== Sys2Proof/Machine/Level.lean ====
section
/-! DEFINITION. Performance levels, the AVSBus master and the ripcord (13). -/
namespace Sys2Proof.Machine

/-! ### Levels (R325 to R331) -/

/-- The maximum N of a level for MRDIMM and for RDIMM, and its voltage (R40). -/
def BlkImg.levMr (i : BlkImg) (l : Nat) : Nat := nth0 i.levels (8 * l + 2)
def BlkImg.levRd (i : BlkImg) (l : Nat) : Nat := nth0 i.levels (8 * l + 3)
def BlkImg.levMv (i : BlkImg) (l : Nat) : Nat := leAt i.levels (8 * l) 2

/-- The channel runs again on its trim sets (R328). -/
def Chan.holdsSets (c : Chan) : Bool :=
  c.img.isSome && !c.power.fatal &&
    (c.power.cur != .grounded || c.power.trans.isSome || c.power.kept || c.power.held)

/-- A valid trim set lies at or below `n` (R328). -/
def Chan.hasSetWithin (c : Chan) (n : Nat) : Bool := (c.trim.bestSet n).isSome

/-- The channels for which level `b` is refused (R328). -/
def State.refusing (s : State) (mr rd : Nat) : List ChanId :=
  allChans.filter fun ch =>
    let c := s.chan ch
    c.holdsSets && !c.hasSetWithin (if c.mr then mr else rd)

/-- PLEVEL_DONE (R335). -/
def State.plevelDone (s : State) (old : Nat) : State :=
  s.raiseBlk 0x078 0 (packFields [(17, b2n s.lvl.noset), (16, b2n s.lvl.fail), (14, old), (12, s.lvl.cur),
    (0, min 4095 ((s.now - s.lvl.started) / 100))])

/-- A channel is brought within a clamp that fell (R327): the request is clamped, and by the channel's state a shift pause or
an excursion follows. -/
def Chan.bringWithin (e : Env) (c : Chan) : Chan :=
  let c := c.clampRate e
  if c.img.isNone || c.down then c else (c.applyRate).excursion e

/-- The channel is within the clamp, and no transition under way ends above it (R326, R331). -/
def Chan.withinClamp (e : Env) (c : Chan) : Bool :=
  c.img.isNone || c.power.fatal || c.power.rst ||
  (c.trim.shift.isNone &&
    match c.power.trans with
    | none => decide (c.trim.nCur ≤ c.maxRate e) || c.power.cur == .tethered || c.power.cur == .grounded
    | some t =>
      (t.ph == .stagger && (t.frm == .tethered || t.frm == .grounded)) ||
        (t.ph != .bringUp && decide (c.trim.nCur ≤ c.maxRate e)))

/-- The channels in wake order. -/
def BlkImg.order (i : BlkImg) : List ChanId := sortBy i.wakePos allChans

/-- Rising clamps rise, and the level is in force (R326). -/
def State.levelDone (i : BlkImg) (b : Nat) (s : State) : State :=
  let old := s.lvl.cur
  let s := { s with lvl := { s.lvl with clampMr := i.levMr b, clampRd := i.levRd b, cur := b, change := none } }
  (s.plevelDone old).blkCount 0xC6 1

/-- The AVSBus write of a level, unless the voltage stands already (R326, R329). -/
def State.avsStage (i : BlkImg) (b : Nat) (s : State) : State :=
  if i.levMv b ≠ i.levMv s.lvl.cur ∨ s.lvl.volt = 0 then
    { s with lvl := { s.lvl with change := some (b, .avs false), avsAt := s.now, avsMv := i.levMv b } }
  else s.levelDone i b

/-- A level change starts, or is refused (R326, R328). -/
def State.startLevel (i : BlkImg) (b : Nat) (s : State) : State :=
  let s := { s with lvl := { s.lvl with fail := false, noset := false, started := s.now } }
  let mr := min (i.levMr b) s.lvl.clampMr
  let rd := min (i.levRd b) s.lvl.clampRd
  if mr = s.lvl.clampMr ∧ rd = s.lvl.clampRd then s.avsStage i b
  else
    match s.refusing mr rd with
    | [] =>
      let s := { s with lvl := { s.lvl with clampMr := mr, clampRd := rd, change := some (b, .shifting) } }
      s.onChans i.order Chan.bringWithin
    | chs =>
      let s := chs.foldl (fun (s : State) ch =>
        let c := s.chan ch
        s.setChan ch { c with trim := { c.trim with noset := true } }) s
      ({ s with lvl := { s.lvl with noset := true } }).plevelDone s.lvl.cur

/-- GO (R325, R331, R336). -/
def State.levelGo (b : Nat) (s : State) : State :=
  match s.img with
  | none => s
  | some i =>
    if s.lvl.change.isSome then { s with lvl := { s.lvl with pend := some b } } else s.startLevel i b

/-- A write of BLK_PLEVEL_CTL (R336). -/
def State.plevelCtl (w : Word) (s : State) : State :=
  let b := bitsAt w.toNat 0 2
  let s := { s with lvl := { s.lvl with target := b } }
  if bitAt w.toNat 2 then s.levelGo b else s

/-- The pending level request starts, unless it names the level in force (R331). -/
def State.pendLevel (i : BlkImg) (s : State) : State :=
  match s.lvl.pend with
  | none => s
  | some b =>
    let s := { s with lvl := { s.lvl with pend := none } }
    if b = s.lvl.cur then s else s.startLevel i b

/-- Every channel is within the lowered clamp (R326). -/
def State.clampReached (s : State) : State :=
  match s.img, s.lvl.change with
  | some i, some (b, .shifting) =>
    if allChans.all fun ch => (s.chan ch).withinClamp s.env then
      let s := s.avsStage i b
      if s.lvl.change.isNone then s.pendLevel i else s
    else s
  | _, _ => s

/-- The settle time in REFCLK cycles: |ΔV| over SLEW, in whole microseconds (R326, R329). -/
def settleRef (a b slew : Nat) : Nat := 100 * ((max a b - min a b + slew - 1) / max 1 slew)

/-- The regulator acknowledges (R329). -/
def State.avsAck (s : State) : State :=
  match s.img, s.lvl.change with
  | some i, some (b, .avs _) =>
    { s with lvl := { s.lvl with
        volt := s.lvl.avsMv, lastOk := true, change := some (b, .settle),
        settleAt := s.now + settleRef (i.levMv s.lvl.cur) (i.levMv b) s.lvl.slew } }
  | _, _ => s

/-- No acknowledgement within the timeout, or a regulator error: one repeat, then the change fails (R330). -/
def State.avsTimeout (regErr : Bool) (s : State) : State :=
  match s.img, s.lvl.change with
  | some i, some (b, .avs rep) =>
    if !regErr && decide (s.now < s.lvl.avsAt + 100 * s.lvl.timeout) then s
    else
      let s := { s with lvl := { s.lvl with avsErrors := satAdd 255 s.lvl.avsErrors 1, lastOk := false } }
      if rep then
        let s := s.raiseBlk 0x079 2 (b2n regErr * 2 ^ 18 + s.lvl.avsMv)
        let s := { s with lvl := { s.lvl with fail := true, change := none } }
        ((s.plevelDone s.lvl.cur).blkCount 0xC6 1).pendLevel i
      else { s with lvl := { s.lvl with change := some (b, .avs true), avsAt := s.now } }
  | _, _ => s

/-- The settle wait ends (R326). -/
def State.settled (s : State) : State :=
  match s.img, s.lvl.change with
  | some i, some (b, .settle) => if s.now < s.lvl.settleAt then s else (s.levelDone i b).pendLevel i
  | _, _ => s

/-! ### The ripcord (R204 to R207, R332) -/

/-- RIPCORD_REQ rises: every channel caps. Nothing is sampled while PWR_RST_n is low (R381). -/
def State.ripRise (s : State) : State :=
  if s.lvl.ripReq || s.rst.pwrLow then s
  else
    let s := { s with lvl := { s.lvl with
      ripReq := true, ripAck := false, ripCount := satAdd 0xFFFF s.lvl.ripCount 1, ripRise := s.now, capNow := s.lvl.ripCap } }
    s.onChans allChans Chan.cap

/-- RIPCORD_ACK rises once every channel is capped. -/
def State.ripAckNow (s : State) : State :=
  if s.lvl.ripReq && !s.lvl.ripAck && allChans.all fun ch => (s.chan ch).capDone then
    { s with lvl := { s.lvl with ripAck := true, ripLat := min 4095 (s.now - s.lvl.ripRise) } }
  else s

/-- A channel reports capped. -/
def State.capped (ch : ChanId) (s : State) : State :=
  (s.onChan ch fun _ c => if c.capDone then { c with bal := { c.bal with capPend := none } } else c).ripAckNow

/-- RIPCORD_REQ falls: RIPCORD_ACK falls and the ramp governor starts. Before RIPCORD_ACK has risen, the cap completes and
RIPCORD_ACK rises and falls. -/
def State.ripFall (s : State) : State :=
  if !s.lvl.ripReq then s
  else
    let lat := if s.lvl.ripAck then s.lvl.ripLat else min 4095 (s.now - s.lvl.ripRise)
    let s := { s with lvl := { s.lvl with ripReq := false, ripAck := false, ripLat := lat, ripNext := s.now + 100 } }
    s.onChans allChans fun _ c => c.release

/-- A step of the ramp governor, at every microsecond after the release (R206). -/
def State.rampStep (s : State) : State :=
  if s.lvl.ripReq || decide (s.now < s.lvl.ripNext) || !(allChans.any fun ch => (s.chan ch).bal.ramp) then s
  else
    ({ s with lvl := { s.lvl with ripNext := s.lvl.ripNext + 100 } }).onChans allChans fun _ c => c.rampUp s.lvl.ripStep

end Sys2Proof.Machine
end

