-- ==== Sys2Proof/Machine/Live.lean ====
section
/-! DEFINITION. The live registers that commit and a channel reset load from the image in force (R53). -/
namespace Sys2Proof.Machine

/-- Scheduler policy (R149). -/
def loadSched (i : ChanImg) (h : Sched) : Sched :=
  { h with
    wmHigh := nth0 i.sched 0, wmLow := nth0 i.sched 1, specOpen := bitAt (nth0 i.sched 2) 0,
    bypass := bitAt (nth0 i.sched 2) 1, thr1 := leAt i.sched 4 2, thr2 := leAt i.sched 6 2 }

/-- POSTPONE and ZQ_MS (R189). -/
def loadUpkeep (i : ChanImg) (u : Upkeep) : Upkeep :=
  { u with postpone := nth0 i.upk 1, zqMs := leAt i.upk 6 2 }

/-- The class parameters of the Ballast (R190, R209). -/
def loadClass (i : ChanImg) (n : Nat) (k : ClassSt) : ClassSt :=
  let b := 16 * n
  { k with
    minbw := leAt i.ballast b 2, minbwNext := leAt i.ballast b 2, lat := leAt i.ballast (b + 2) 2,
    limit := leAt i.ballast (b + 4) 2, weight := nth0 i.ballast (b + 6), weightNext := nth0 i.ballast (b + 6),
    early := n != 15 && bitAt (nth0 i.ballast (b + 7)) 0 }

/-- The Ballast registers (R209). -/
def loadBallast (i : ChanImg) (b : Ballast) : Ballast :=
  { b with
    classes := (List.range 16).map fun n => loadClass i n (b.cls n), rankCap := nth0 i.ballast 256, forceShare := false }

/-- Chip marks (R232). -/
def loadMarks (i : ChanImg) (p : Protect) : Protect :=
  let a := nth0 i.prot 2
  let b := nth0 i.prot 3
  { p with
    markAEn := a != 0xFF, markA := if a = 0xFF then 0 else a % 16, markBEn := b != 0xFF,
    markB := if b = 0xFF then 0 else b % 16 }

/-- Error control (R260). -/
def loadErr (i : ChanImg) (k : ErrCtl) : ErrCtl :=
  { k with
    patch := bitAt (nth0 i.prot 0) 3, retry := nth0 i.prot 1, pthr := nth0 i.prot 4, csus := nth0 i.prot 5 }

/-- Glide time, WAKE_TEMP and PERIOD (R338). -/
def loadPower (i : ChanImg) (p : Power) : Power :=
  { p with glideIdle := leAt i.upk 8 2, wakeTemp := nth0 i.upk 10, period := nth0 i.upk 11 }

/-- The fields that the channel's part of the image gives. DESIGN CHOICE (log entry 89): a channel without a part in the image
keeps its live fields as they are. -/
def Chan.loadImg (c : Chan) : Chan :=
  match c.img with
  | none => c
  | some i =>
    { c with
      sched := loadSched i c.sched, upk := loadUpkeep i c.upk, bal := loadBallast i c.bal, prot := loadMarks i c.prot,
      err := loadErr i c.err, trim := { c.trim with interval := leAt i.upk 4 2 }, power := loadPower i c.power,
      th := { c.th with int := i.patrolInt } }

/-- What commit and a channel reset do in every channel they affect: the timestamp file empties and the holds are released
(R164), the audit starts again (R171), the activation counts are 0 (R178), the patrol stands at CPA 0 and is off (R260), and
the Loft is off with its counts and record clear (R288). -/
def Chan.loadLive (c : Chan) : Chan :=
  let c := { c with
    fab := { c.fab.audClear with
      hist := [], holds := [], auditEn := true, auditReady := true, auditRec := none, auditCnt := 0, audHot := c.fab.hot,
      hotPend := [] },
    banks := (c.banks.map fun (p : Bank × BankEntry) => (p.1, { p.2 with acts := 0 })).filter fun p => p.2 != BankEntry.idle,
    th := { Reset.thatcher with next := c.th.next },
    loft := { c.loft with
      on := false, dirtyMax := Reset.loft.dirtyMax, stalls := 0, lost := 0, mdRec := Reset.loftRec } }
  c.loadImg

/-- The N that the bridge schedules of a commit are computed for, while the channel is Grounded: that of the bring-up set
(log entry 88). -/
def ChanImg.bringN (i : ChanImg) : Nat := i.setN i.bringSet

/-- Commit stores the channel's part of the new image, loads its live registers and computes its bridge schedules (R19,
R51). -/
def Chan.commitImg (e : Env) (i : Option ChanImg) (c : Chan) : Chan :=
  ({ c with img := i }).loadLive.setBridges e (match i with
    | some x => x.bringN
    | none => 0)

/-- Commit loads TIMEOUT, CAP and STEP from performance-level record 4 (R338), and the clamps of the level in force are those
of the new image (R325). -/
def State.loadLevels (i : BlkImg) (s : State) : State :=
  let l := s.lvl
  let keep := l.fail || l.change.isSome
  { s with lvl := { l with
      timeout := leAt i.levels 32 2, ripCap := nth0 i.levels 34, ripStep := nth0 i.levels 35,
      clampMr := if keep then min l.clampMr (i.levMr l.cur) else i.levMr l.cur,
      clampRd := if keep then min l.clampRd (i.levRd l.cur) else i.levRd l.cur } }

/-- The clamps have changed: every requested rate is clamped again (R17). -/
def State.clampRates (s : State) : State := { s with chans := s.chans.map (Chan.clampRate s.env) }

end Sys2Proof.Machine
end

