-- ==== Sys2Proof/Machine/Reset.lean ====
section
/-! DEFINITION. Bring-up with its three forms, and the cold, warm and channel resets (16, 12 R293 to R296). -/
namespace Sys2Proof.Machine

/-! ### What a bring-up trains (R295, R388 to R391) -/

/-- The tag of R293: over the topology section, the PHY section and the serial bytes of the modules. -/
def ChanImg.tagOf (i : ChanImg) (serial : List Nat) : Nat := crc32c (i.topo ++ i.phy ++ serial)

/-- The sets that training visits: those within `lim`, in ascending N, the lower number first on a tie; the bring-up set
comes last (R295, R391). `skip` is a set that has its turn elsewhere. -/
def ChanImg.trainOrder (i : ChanImg) (lim : Nat) (skip : Option Nat) : List Nat :=
  let ok := fun t : Nat => i.setN t != 0 && decide (i.setN t ≤ lim) && skip != some t
  let others := sortBy i.setN ((List.range 4).filter fun t => ok t && t != i.bringSet)
  others ++ (if ok i.bringSet then [i.bringSet] else [])

/-- The steps of R295 for a set. `first` says that step 2 has still to run; `last` that step 12 runs for the set. -/
def trainSteps (form : Nat) (mr first last : Bool) : List Nat :=
  [1] ++ (if form = 0 ∧ first then [2] else []) ++ [3, 4] ++ (if form = 0 then [if mr then 6 else 5] else []) ++
    [7, 8, 9, 10, 11] ++ (if last then [12] else [])

/-- The step after `n` in a list of steps. -/
def stepAfter (n : Nat) : List Nat → Option Nat
  | a :: b :: rest => if a = n then some b else stepAfter n (b :: rest)
  | _ => none

/-- Step 12 runs for the set in training: the bring-up set, and the first set of PRESERVE form (R390, R295). -/
def Chan.lastStep12 (c : Chan) (i : ChanImg) : Bool :=
  c.bring.setNow == i.bringSet || (c.bring.form == 2 && c.bring.first)

/-- A trained set: every data lane of every rank and every CA lane holds a valid entry without failures; reserved fields and
DFE taps beyond the PHY section's count are zero (R292, log entry 7). On x8 the two lanes of a chip hold equal DQS-level fields,
RDQS, WDQ, RDEN and WLVL (R289; DEDUCED, log entry 15). -/
def trainedSet (i : ChanImg) (t tagv free : Nat) : TrimSet :=
  let taps := nth0 i.phy 84
  let data := fun v : Nat =>
    let v := setBits (setBits (setBits v 127 1 1) 126 1 0) 124 2 0
    (List.range 4).foldl (fun v k => if taps ≤ k then setBits v (48 + 5 * k) 5 0 else v) v
  let ca := fun v : Nat => setBits (setBits v 127 1 1) 62 65 0
  let dqs := fun (lane : Nat) (v mate : Nat) => if i.x8 && lane % 2 == 1 then setBits v 86 38 (bitsAt mate 86 38) else v
  let pairs := [Sub.a, Sub.b].flatMap fun s => i.rankList.map fun r => (s, r)
  let lanes := pairs.flatMap fun p => (List.range 10).map fun l => (p.1, p.2, l)
  let cas := [Sub.a, Sub.b].flatMap fun s => (List.range i.dimms).map fun d => (s, d, 15)
  let all := lanes ++ cas
  { valid := true, failed := false, n := i.setN t, tagv := tagv,
    entries := ((List.range all.length).zip all).map fun p =>
      let v := (Config.trainedTrim (free + p.1)).toNat
      let mate := (Config.trainedTrim (free + (p.1 - 1))).toNat
      (p.2.1, p.2.2.1, p.2.2.2, BitVec.ofNat 128 (if p.2.2.2 = 15 then ca v else data (dqs p.2.2.2 v mate))) }

/-! ### Ends of a bring-up (R392, R393) -/

/-- TIME: units of 100 µs, to the nearest, saturating (R393; the worked cold start rounds 989.8 to 990). -/
def Chan.bringTime (e : Env) (c : Chan) : Nat := min 0xFFFF ((e.now - c.bring.started + 5000) / 10000)

/-- A bring-up fails: the channel stays Grounded; a channel that is not held drives RESET_n low and lets its pins float
(R392). -/
def Chan.bringFail (result : Nat) (e : Env) (c : Chan) : Chan :=
  match c.power.trans with
  | none => c
  | some t =>
    let held := c.power.held
    let c := if held then c.seqStop.gateLogic else c.seqStop.gateLogic.dropRanks
    let c := { c.holdPins (if held then .selfRef else .floating) with
      bring := { c.bring with done := true, result := result, time := c.bringTime e, ready := false, asleep := false },
      power := { c.power with trans := none, initDone := held }, sb := { c.sb with busy := false } }
    (c.stateDone .grounded .grounded t.req.wake.source).startPend e

/-- Nothing is left to do but the end of the bring-up. -/
def Chan.bringReady (result : Nat) (c : Chan) : Chan :=
  { c with bring := { c.bring with ready := true, outcome := result, todo := [] } }

/-- The set that a bring-up ends at: the bring-up set, or, in PRESERVE form, the best valid set within the clamp where the
bring-up set lies above it (R390, R392). -/
def Chan.endSet (e : Env) (c : Chan) (i : ChanImg) : Option Nat :=
  if c.bring.form = 2 ∧ c.maxRate e < i.setN i.bringSet then c.trim.bestSet (c.maxRate e)
  else if (c.trim.set i.bringSet).valid then some i.bringSet else none

/-! ### What a training step does through the tail and the pins (R166, R295, R389, R390) -/

/-- Some rank of the channel takes commands: its devices are initialised and not in self-refresh. -/
def Chan.someAwake (c : Chan) : Bool := c.power.initDone && c.upk.ranks.any fun x => !x.selfRef

/-- The writes of the retrim read region of a rank, with their verify, as pauses of 32 lines each (R295, step 12; R390). -/
def Chan.patternPauses (c : Chan) (i : ChanImg) (p : Sub × Nat) : List Pause :=
  let ds := ((i.reserveLines p.1 p.2).take 256).map i.devOf
  (List.range 8).map fun j =>
    { kind := .training, sub := p.1, rank := p.2, len := 100, wide := false, running := false, endAt := 0,
      cmds := lineCmds i true p.1 p.2 ((ds.drop (32 * j)).take 32) }

/-- A step of training begins: between two sets the devices go into self-refresh (R295); the PMICs are enabled and RESET_n is
low in step 2; step 12 writes the retrim read region, and STORED form ends with a widened retrim (R389). The training commands
of steps 3 to 11 are the firmware's (log entry 48). -/
def Chan.stepBegin (i : ChanImg) (c : Chan) : Chan :=
  let b := c.bring
  if b.step = 1 then
    if c.someAwake then { c.parkRanks with bring := { b with asleep := true } }
    else if b.form = 2 then c.holdPins .driven
    else c
  else if b.step = 2 ∧ b.verify = false then { c.holdPins .resetLow with sb := { c.sb with pmicOn := true } }
  else if b.step = 12 ∧ b.verify = false then
    { c with upk := { c.upk with pauses := c.upk.pauses ++ c.rankPairs.flatMap (c.patternPauses i) } }
  else if b.step = 12 then c.rankPairs.foldl (fun c p => c.askPause .retrim p.1 p.2 true) c
  else c

/-- A step of training ends: the channel runs at the set's N after step 1, and the ranks of an earlier set wake; after step 2 the
devices are initialised; in PRESERVE form the ranks wake after step 4, with accounts at D = 0 (R390). -/
def Chan.stepEnd (e : Env) (i : ChanImg) (c : Chan) : Chan :=
  let b := c.bring
  let t := b.setNow
  let c := { c with upk := { c.upk with wake := false } }
  if b.step = 1 then
    { c.newRate e t (i.setN t) with
      upk := { c.upk with park := false, wake := b.asleep }, bring := { b with asleep := false } }
  else if b.step = 2 ∧ b.verify = false then
    { c.holdPins .driven with
      sb := { c.sb with rcdN := i.setN t }, power := { c.power with initDone := true },
      upk := { c.upk with ranks := c.freshRanks e.now } }
  else if b.step = 4 ∧ b.form = 2 ∧ b.first then
    { c with upk := { c.upk with wake := true, accounts := c.freshAccounts e.now } }
  else c

/-- Ranks of a bring-up are on their way into or out of self-refresh, or a pause of it has not ended: its step cannot end. -/
def Chan.bringBusy (c : Chan) : Bool :=
  (c.upk.park && !c.allSelfRef) || (c.upk.wake && c.upk.ranks.any fun x => x.selfRef) ||
    (c.tail.any fun k => k.cls == .sre || k.cls == .srx) ||
    c.upk.pauses.any fun p => p.kind == .training || p.kind == .retrim

/-- Training goes on with the next set, or is over. -/
def Chan.nextSet (e : Env) (i : ChanImg) (c : Chan) : Chan :=
  match c.bring.todo with
  | t :: rest => ({ c with bring := { c.bring with setNow := t, todo := rest, step := 1, verify := false } }).stepBegin i
  | [] => c.bringReady (if (c.endSet e i).isSome then 1 else 5)

/-! ### The SPD read (R4, R388, R390, R391) -/

/-- The topology section that the SPD data would have (R40). -/
def spdTopo (s : SpdInfo) : List Nat := [s.moduleType, s.dimms, s.ranksPerDimm, s.stack, s.density]

/-- The SPD data describes a module that R3 does not list, or a population beyond the figures of R2 (R4): the kinds and
sizes of the topology section (R40), a stack on 3DS modules only, and at most 512 GiB. -/
def spdUnsupported (s : SpdInfo) : Bool :=
  let i : ChanImg :=
    { topo := spdTopo s, battens := [], maps := [], prot := [], ballast := [], phy := [], code := [], routing := [], loft := [],
      sched := [], upk := [] }
  !(decide (1 ≤ s.moduleType ∧ s.moduleType ≤ 6) && decide (1 ≤ s.dimms ∧ s.dimms ≤ 2) &&
    [1, 2, 4].contains s.ranksPerDimm && (s.stack == 1 || (type3ds s.moduleType && [2, 4, 8].contains s.stack)) &&
    [16, 24, 32, 48, 64].contains s.density && decide (i.cap * 64 ≤ 512 * 2 ^ 30))

/-- The module disagrees with the topology section (R388). -/
def spdMismatch (s : SpdInfo) (i : ChanImg) : Bool :=
  s.moduleType != i.mtype || s.dimms != i.dimms || s.ranksPerDimm != i.rpd || s.stack != i.stack || s.density != i.density

/-- Sets whose tag differs from the one computed are cleared (R293). -/
def Chan.checkTags (tagv : Nat) (c : Chan) : Chan :=
  { c with trim := { c.trim with
      sets := c.trim.sets.map fun (x : TrimSet) => if x.valid && x.tagv != tagv then Reset.trimSet else x } }

/-- Every stored set is cleared. -/
def Chan.clearSets (c : Chan) : Chan := { c with trim := { c.trim with sets := List.replicate 4 Reset.trimSet } }

/-- Training in FULL form begins (R391). -/
def Chan.startFull (e : Env) (i : ChanImg) (c : Chan) : Chan :=
  let c := c.clearSets
  ({ c with bring := { c.bring with form := 0, todo := i.trainOrder (c.maxRate e) none } }).nextSet e i

/-- The set of the topology section with a given N. -/
def ChanImg.setWithN (i : ChanImg) (n : Nat) : Option Nat := (List.range 4).find? fun t => i.setN t == n && n != 0

/-- The form of the bring-up is chosen, or the bring-up is refused (R388, R390, R391). -/
def Chan.chooseForm (e : Env) (i : ChanImg) (spd : SpdInfo) (c : Chan) : Chan :=
  let lim := c.maxRate e
  if c.power.held then
    match i.setWithN spd.rcdSpeedN with
    | some t =>
      if i.setN t ≤ lim then
        let asleep := (c.freshRanks e.now).map fun x => { x with selfRef := true }
        ({ c with
          bring := { c.bring with form := 2, setNow := t, step := 1, first := true, todo := i.trainOrder lim (some t) },
          sb := { c.sb with rcdN := spd.rcdSpeedN }, upk := { c.upk with ranks := asleep } }).stepBegin i
      else c.bringFail 6 e
    | none => c.bringFail 6 e
  else if lim < i.setN i.bringSet then c.bringFail 6 e
  else if (c.trim.set i.bringSet).valid then
    ({ c with bring := { c.bring with form := 1, setNow := i.bringSet, step := 1, first := true, verify := false } }).stepBegin i
  else c.startFull e i

/-- The SPD read completes (R388): the bus has been started with SETAASA (R306). -/
def Chan.spdDone (spd : Option SpdInfo) (e : Env) (c : Chan) : Chan :=
  match c.img with
  | none => c
  | some i =>
    if !c.bringing || c.bring.step != 0 || c.bring.ready then c
    else
      match spd with
      | none => c.bringFail 2 e
      | some x =>
        let c := { c with
          bring := { c.bring with tagv := i.tagOf x.serial }, trim := { c.trim with modMax := x.maxN },
          sb := { c.sb with
            present := x.present, noI3c := x.i2c, i2c := x.i2c || c.sb.rate == 3, started := true, busy := false, therm := c.sb.therm.map fun (p : Bool × BitVec 12) => (false, p.2),
            hotOff := List.replicate 4 false } }
        if spdUnsupported x then c.bringFail 3 e
        else if spdMismatch x i then c.bringFail 4 e
        else (c.checkTags (i.tagOf x.serial)).chooseForm e i x

/-! ### Training steps (R295, R296, R389, R390) -/

/-- The set in training is complete. -/
def Chan.setDone (e : Env) (i : ChanImg) (tagv : Nat) (c : Chan) : Chan :=
  let t := c.bring.setNow
  let c := { c with
    trim := c.trim.modSet t fun _ => trainedSet i t tagv c.free, free := c.free + 164,
    bring := { c.bring with first := false } }
  c.nextSet e i

/-- STORED form: the step, or the check, that follows (R389). -/
def Chan.storedNext (i : ChanImg) (c : Chan) : Chan :=
  let b := c.bring
  if b.step = 12 ∧ b.verify then { c with bring := { b with ready := true, outcome := 1, todo := [] } }
  else
    let b := if b.step = 1 then { b with step := 2 }
      else if b.verify = false then { b with verify := true, first := false }
      else { b with step := 12, verify := false }
    ({ c with bring := b }).stepBegin i

/-- A step, or a check of STORED form, completes (R295, R389). The tag of a trained set is that of the last SPD read. -/
def Chan.stepOk (e : Env) (i : ChanImg) (tagv : Nat) (c : Chan) : Chan :=
  let first := c.bring.first || c.bring.step = 2
  let c := c.stepEnd e i
  if c.bring.form = 1 then c.storedNext i
  else
    let c := if c.bring.step = 2 then { c with bring := { c.bring with first := false } } else c
    match stepAfter c.bring.step (trainSteps c.bring.form i.mr first (c.lastStep12 i)) with
    | some n => ({ c with bring := { c.bring with step := n } }).stepBegin i
    | none => c.setDone e i tagv

/-- TRAIN_FAIL (R296). -/
def Chan.trainFail (sub : Sub) (rank lane : Nat) (c : Chan) : Chan :=
  c.raise evTrainFail (packFields [(15, c.bring.step), (14, sub.num), (11, rank % 8), (7, lane % 16), (5, c.bring.setNow)])

/-- A step, or a check of STORED form, fails (R296, R389, R390). In PRESERVE form the ranks go back into self-refresh. -/
def Chan.stepFail (sub : Sub) (rank lane : Nat) (e : Env) (i : ChanImg) (c : Chan) : Chan :=
  if c.bring.form = 1 then c.startFull e i
  else
    let t := c.bring.setNow
    let c := c.trainFail sub rank lane
    let c := { c with trim := c.trim.modSet t fun x => { x with valid := false, failed := true, entries := [] } }
    if c.bring.form = 2 then (if c.someAwake then (c.bringReady 5).parkRanks else c.bringReady 5)
    else if t = i.bringSet then c.bringReady 5
    else c.nextSet e i

/-- The widened retrim of STORED form has left a lane without a pass (R389). -/
def Chan.retrimFailed (c : Chan) : Bool :=
  c.bring.form == 1 && c.bring.step == 12 && c.bring.verify &&
    c.rankPairs.any fun p => c.laneMask p.1 p.2 (fun v => 1 ≤ entFails v) != 0

/-- A training step ends, once the commands that it makes through the tail have been made; the sequencer may have written the
latencies with the mode registers (R167). -/
def Chan.trainStep (r : StepResult) (e : Env) (c : Chan) : Chan :=
  match c.img with
  | none => c
  | some i =>
    if !c.bringing || c.bring.step = 0 || c.bring.ready || c.bringBusy then c
    else
      match r with
      | .ok lat =>
        let c := match lat with
          | some l => c.setLat l
          | none => c
        if c.retrimFailed then c.startFull e i else c.stepOk e i c.bring.tagv
      | .failed sub rank lane => c.stepFail sub rank lane e i

/-- The bring-up ends: the channel enters Flight at its end set, or stays Grounded (R302, R392, R393). -/
def Chan.bringEnd (lat : Latencies) (rfm : RfmInfo) (e : Env) (c : Chan) : Chan :=
  match c.img, c.power.trans with
  | some i, some t =>
    if !c.bringing || !c.bring.ready || c.bringBusy then c
    else if c.bring.outcome ≠ 1 then c.bringFail c.bring.outcome e
    else
      match c.endSet e i with
      | none => c.bringFail 5 e
      | some n =>
        let c := if n = c.trim.tsel then c else c.newRate e n (i.setN n)
        let c := { c with
          trim := { c.trim with reqN := clampTo 24 (c.maxRate e) (i.setN n), noset := false },
          upk := { c.upk with
            aboRfm := rfm.aboRfm, aboDly := rfm.aboDly, raammt := rfm.raammt, raaimt := rfm.raaimt },
          bring := { c.bring with done := true, result := 1, tset := n, time := c.bringTime e, ready := false },
          power := { c.power with initDone := true } }
        (c.setLat lat).enterFlight t false e
  | _, _ => c

/-! ### The warm and the channel reset (R382 to R385) -/

/-- The channel keeps its DRAM contents through a reset (R383). -/
def Chan.resetKeeps (c : Chan) : Bool :=
  c.power.held ||
    (c.power.initDone && !c.power.fatal && !c.bringing &&
      (c.power.cur != .grounded || c.power.kept || c.power.trans.isSome))

/-- ACT (R385): the highest value of the activities that apply. -/
def Chan.resetAct (c : Chan) : Nat :=
  if c.bringing then 7
  else if !c.resetKeeps then 0
  else if c.seqr.test.any SelfTest.destr then 6
  else if c.seqr.clear.isSome then 5
  else if c.power.trans.isSome then 4
  else if c.shifting then 3
  else if c.power.cur = .flight then 1
  else 2

/-- Writes that had received CMP are abandoned (R385). -/
def Chan.resetLoses (c : Chan) : Bool := c.wq.any fun w => !w.committed && w.hosts.any fun h => h.cmpSent

/-- The reset sequence begins: the safe point and the decision (R382, R383). A channel whose bring-up is in progress keeps
nothing, whether it was held or not. -/
def Chan.startReset (c : Chan) : Chan :=
  if c.power.rst then c
  else
    let keep := c.resetKeeps && !c.bringing
    let act := c.resetAct
    let lost := c.resetLoses
    let d := (c.drop fun _ => true).empty
    { d.holdPins (if !keep then .resetLow else if c.power.cur = .flight ∨ c.power.cur = .moored then .driven else d.pins.hold) with
      power := { d.power with rst := true, rstKeep := keep, rstAct := act, rstWlost := lost, trans := none },
      trim := { d.trim with shift := none, mrw := [] }, upk := { d.upk with park := keep, wake := false },
      lane := { d.lane with out := none } }

/-- The steps before the record have ended: nothing is left in the tail, and the ranks that are kept are in
self-refresh. -/
def Chan.resetOver (c : Chan) : Bool := c.power.rst && c.tail.isEmpty && (!c.power.rstKeep || c.allSelfRef)

/-- The field of BLK_RESET_REC of a channel (R385, R387). -/
def Chan.resetField (old : Nat) (c : Chan) : Nat :=
  if c.power.held && c.power.rstKeep then (old % 16 / 8) * 8 + 2 else b2n c.power.rstWlost * 8 + c.power.rstAct

/-- The channel after its reset sequence: Grounded and down, at its reset values, held in self-refresh if it keeps its
contents, as do the PMICs and the RCDs of its modules (R380, R382, R384, R390). Responses that still wait are ERR CHAN_DOWN (R103). DESIGN CHOICE (log entry 91): the translation
registers of R68 return to 0x0 with the rest. -/
def Chan.afterReset (c : Chan) : Chan :=
  let keep := c.power.rstKeep
  { Reset.chan with
    power := { Reset.power with held := keep, initDone := keep },
    pins := { Reset.pins with hold := if keep then .selfRef else .resetLow },
    sb := { Reset.sideband with pmicOn := keep && c.sb.pmicOn, rcdN := if keep then c.sb.rcdN else 0 },
    lane := { Reset.lane with ready := c.lane.ready, inUse := c.lane.inUse, hclk := c.lane.hclk, iso := c.lane.iso },
    free := c.free }

/-- The channel after a channel reset: its image, its wake record and its pending slot stay, and the live registers are
those of the image (R380). -/
def Chan.afterChrst (c : Chan) : Chan :=
  let d := c.afterReset
  ({ d with
    img := c.img, bridges := c.bridges, power := { d.power with wakeRec := c.power.wakeRec, pend := c.power.pend } }).loadLive

/-- BLK_RESET_REC with the field of channel `n` written. -/
def putRec (r : Word) (n v : Nat) : Word := BitVec.ofNat 32 (setBits r.toNat (4 * n) 4 v)

/-- What a reset of the whole block leaves: the queue of commands, the clock counts, the free values used and the isolation
inputs go on, and, but for a cold reset, which aborts everything in progress (R381), a management transaction that the lane
holds; the timestamp and the windows start again (R360, R380). -/
def State.resetAll (s : State) (f : Chan → Chan) (ctl : ResetCtl) : State :=
  { State.reset with
    pending := s.pending, now := s.now, tsBase := s.now, winNext := s.now + 400, rclk := s.rclk, chans := s.chans.map f,
    rst := { ctl with isoBlk := s.rst.isoBlk }, mgt := { Reset.mgt with held := if ctl.pwrLow then none else s.mgt.held } }

/-- PWR_RST_n falls (R381). -/
def State.powerReset (s : State) : State :=
  s.resetAll
    (fun (c : Chan) => { Reset.chan with
      lane := { Reset.lane with hclk := c.lane.hclk, iso := c.lane.iso }, free := c.free })
    Reset.resetCtl

/-- WARM_RST_n falls (R382, R387): the sequence starts on every channel; those in a channel reset go on. -/
def State.warmStart (s : State) : State :=
  if s.rst.pwrLow || s.rst.warm then s
  else
    { s with
      chans := s.chans.map Chan.startReset,
      rst := { s.rst with ready := false, warm := true, warmLeft := allChans } }

/-- The last channel of a warm reset has ended its sequence: the block is reset (R380, R382). -/
def State.warmEnd (s : State) : State :=
  if s.rst.warmLeft.isEmpty then
    s.resetAll (fun c => c) { Reset.resetCtl with pwrLow := false, resetRec := s.rst.resetRec }
  else s

/-- The reset sequence of a channel ends (R382, R385, R387). -/
def State.resetSeqEnd (ch : ChanId) (s : State) : State :=
  let c := s.chan ch
  if !c.resetOver then s
  else
    let field := c.resetField (bitsAt s.rst.resetRec.toNat (4 * ch.val) 4)
    let s := { s with rst := { s.rst with resetRec := putRec s.rst.resetRec ch.val field } }
    if s.rst.warm then
      (({ s with rst := { s.rst with warmLeft := s.rst.warmLeft.filter (· != ch) } }).setChan ch c.afterReset).warmEnd
    else (s.setChan ch c.afterChrst).onChan ch Chan.startPend

end Sys2Proof.Machine
end

