-- ==== Sys2Proof/Machine/Events.lean ====
section
/-! DEFINITION. The event queue as software sees it, the interrupt outputs, the performance counters at an RCLK edge, the
wide-value mailboxes and the user pages (15, 17 R403 to R405). -/
namespace Sys2Proof.Machine

/-! ### The event queue (R360 to R368) -/

/-- The two words of a record (R360). -/
def Record.lo (r : Record) : Word := mkWord [(19, r.time % 2 ^ 13), (0, r.info % 2 ^ 19)]
def Record.hi (r : Record) : Word := mkWord [(22, r.ident % 1024), (19, r.sev % 8), (0, r.time / 2 ^ 13 % 2 ^ 19)]

/-- The head record of the draining bank: highest severity, then oldest (R363). -/
def Events.head (e : Events) : Option Record := leastBy (fun r => 7 - r.sev) e.draining

/-- What an empty queue reads as (R366). -/
def emptyRead : Word := 0xFFFFFFFF

/-- A read of BLK_EVQ_LO (R365, R366). -/
def Events.readLo (e : Events) : Events × Word :=
  match e.latched with
  | some r => (e, r.lo)
  | none =>
    match e.head with
    | some r => ({ e with latched := some r, draining := e.draining.erase r }, r.lo)
    | none => (e, emptyRead)

/-- A read of BLK_EVQ_HI (R365, R366). -/
def Events.readHi (e : Events) : Events × Word :=
  match e.latched with
  | some r => ({ e with latched := none }, r.hi)
  | none =>
    match e.head with
    | some r => ({ e with draining := e.draining.erase r }, r.hi)
    | none => (e, emptyRead)

/-- The banks swap at an RCLK edge (R362). -/
def Events.swapEdge (e : Events) : Events := if e.drained && !e.filling.isEmpty then e.swap else e

/-- FLUSH (R367). -/
def Events.flush (e : Events) : Events := { e with filling := [], draining := [], latched := none }

/-- CLR_FATAL (R368, R370). -/
def Events.clrFatal (e : Events) : Events := { e with fatal := false, fatalCh := 0 }

/-- A read of CH_STICKY (R369). -/
def Events.readSticky (e : Events) (n : Nat) : Events × Word :=
  ({ e with sticky := updateAt n (fun _ => 0) e.sticky }, BitVec.ofNat 32 (nth0 e.sticky n))

/-- The queue holds a record of a route. -/
def Events.holds (e : Events) (route : Nat) : Bool :=
  e.filling.any (fun r => r.route == route) || e.draining.any (fun r => r.route == route) ||
    e.latched.any fun r => r.route == route

/-- The levels of the three interrupt lines, before isolation (R368). -/
def Events.irqEvt (e : Events) : Bool := e.evtEn && e.holds 1
def Events.irqUrg (e : Events) : Bool := e.urgEn && e.holds 2

/-- The outputs under ISO_BLK (R333): the interrupt lines, RIPCORD_ACK, the lane's RSP pins and the management response. -/
def State.irqEvt (s : State) : Bool := !s.rst.isoBlk && s.ev.irqEvt
def State.irqUrg (s : State) : Bool := !s.rst.isoBlk && s.ev.irqUrg
def State.irqFatal (s : State) : Bool := !s.rst.isoBlk && s.ev.fatal
def State.ripAckPin (s : State) : Bool := s.rst.isoBlk || s.lvl.ripAck
def State.rspPin (s : State) (ch : ChanId) : Option RspFlit :=
  if s.rst.isoBlk || (s.chan ch).lane.iso then none else (s.chan ch).lane.out
def State.mgtPin (s : State) : Bool × Bool × Word :=
  if s.rst.isoBlk then (false, false, 0) else (s.mgt.rspV, s.mgt.rspErr, s.mgt.rdata)

/-! ### Counters (R372 to R378) -/

/-- One counter at an RCLK edge: the load, or the addition; the second component says that it overflowed (R372, R373,
R375). -/
def Counter.edge (frozen : Bool) (load : Option Nat) (c : Counter) : Counter × Bool :=
  let sum := c.value + (if frozen then 0 else c.acc)
  let wraps := decide (2 ^ 48 ≤ sum)
  ({ c with value := load.getD (sum % 2 ^ 48), ovf := c.ovf || wraps, acc := 0 }, wraps)

/-- The page at an RCLK edge, with the indices of the counters that overflowed, ascending. FREEZE takes effect after the
edge's additions (R378). -/
def Counters.edge (k : Counters) : Counters × List Nat :=
  let n := k.cs.length
  let rs := ((List.range n).zip k.cs).map fun p =>
    p.2.edge k.freeze ((k.load.reverse.find? fun l => l.1 == p.1).map Prod.snd)
  ({ k with cs := rs.map Prod.fst, load := [], freeze := k.freezeNext },
    (List.range n).filter fun i => (rs.map Prod.snd).getD i false)

/-- CFG_A and CFG_B of a counter (R378). -/
def Counter.cfgA (c : Counter) : Word :=
  mkWord [(31, b2n c.en), (30, b2n c.user), (28, c.submask), (24, c.privmask), (16, c.event), (0, c.classmask)]
def Counter.cfgB (blk : Bool) (c : Counter) : Word :=
  mkWord [(16, if blk then c.chmask else 0), (10, c.range), (0, c.typemask)]

/-- EVENT after clamping: in a channel page to 0x19; in the block page to the nearest legal value, the lower on a tie
(R376, R377). -/
def clampEvent (blk : Bool) (n : Nat) : Nat :=
  if n ≤ 0x19 then n
  else if !blk then 0x19
  else if 0xC0 ≤ n ∧ n ≤ 0xC6 then n
  else if 0xC6 < n then 0xC6
  else if n - 0x19 ≤ 0xC0 - n then 0x19 else 0xC0

/-- A write of CFG_A, and of CFG_B. -/
def Counter.setA (blk : Bool) (w : Word) (c : Counter) : Counter :=
  let v := w.toNat
  { c with
    en := bitAt v 31, user := bitAt v 30, submask := bitsAt v 28 2, privmask := bitsAt v 24 4,
    event := clampEvent blk (bitsAt v 16 8), classmask := bitsAt v 0 16 }
def Counter.setB (blk : Bool) (w : Word) (c : Counter) : Counter :=
  let v := w.toNat
  { c with chmask := if blk then bitsAt v 16 8 else c.chmask, range := bitsAt v 10 2, typemask := bitsAt v 0 10 }

/-- A write of WHI: the counter is loaded at the next RCLK edge (R375). INDEX above the page's last counter is clamped. -/
def Counters.whi (w : Word) (k : Counters) : Counters :=
  let i := min (k.cs.length - 1) (bitsAt w.toNat 16 4)
  { k with load := k.load ++ [(i, bitsAt w.toNat 0 16 * 2 ^ 32 + k.wlo)] }

/-- A write of the control register: OVF_CLR and FREEZE (R373, R378). -/
def Counters.ctl (w : Word) (k : Counters) : Counters :=
  let n := k.cs.length
  { k with
    freezeNext := bitAt w.toNat 0,
    cs := ((List.range n).zip k.cs).map fun p => if bitAt w.toNat (16 + p.1) then { p.2 with ovf := false } else p.2 }

/-- The overflow bits of a page. -/
def Counters.ovfBits (k : Counters) : Nat :=
  sumOf (((List.range k.cs.length).zip k.cs).map fun p => b2n p.2.ovf * 2 ^ p.1)

/-! ### Wide-value mailboxes (R403 to R405) -/

/-- The four words of a 128-bit value. -/
def wideWords (v : Nat) : List Word := (List.range 4).map fun i => BitVec.ofNat 32 (v / 2 ^ (32 * i))

/-- The snapshot of a counter (R374). -/
def Counters.snap (k : Counters) (us i : Nat) : List Word :=
  match k.cs[i]? with
  | some c => [BitVec.ofNat 32 c.value, mkWord [(31, b2n c.ovf), (0, c.value / 2 ^ 32 % 2 ^ 16)], c.cfgA, BitVec.ofNat 32 us]
  | none => [0, 0, 0, 0]

/-- A Slate entry as 128 bits (R236). -/
def SlateEntry.bits (x : SlateEntry) : Nat :=
  packFields [(127, b2n x.valid), (126, b2n x.persist), (125, x.sub.num), (124, b2n x.phold), (122, x.priv % 4),
    (119, x.source % 8), (115, x.hits % 16), (113, x.outcome % 4), (103, x.chips % 1024), (99, x.maxsym % 16),
    (67, x.first % 2 ^ 32), (35, x.last % 2 ^ 32), (1, x.laddr.toNat)]

/-- The timestamp snapshot. -/
def State.stampWords (s : State) : List Word := [BitVec.ofNat 32 s.us, BitVec.ofNat 32 ((s.now - s.tsBase) % 100), 0, 0]

end Sys2Proof.Machine
end

