-- ==== Sys2Proof/Machine/Cv.lean ====
section
/-! DEFINITION. The check-value unit of a channel (14, R352, R355) and the translation commands (03, R68 to R70). -/
namespace Sys2Proof.Machine

/-! ### The check-value unit -/

/-- W, the width of REG (R355). -/
def CvUnit.w (u : CvUnit) : Nat := crcWidth u.width

/-- Bits above W are ignored and read as zero (R352): the register keeps them (log entry 27). -/
def CvUnit.cut (u : CvUnit) (n : Nat) : Nat := n % 2 ^ u.w

/-- A write of CH_CV_IN feeds INBYTES bytes of the word, least significant first (R352). -/
def CvUnit.input (w : Word) (u : CvUnit) : CvUnit :=
  { u with reg := crcFeeds u.w (u.cut u.poly) u.refin (u.cut u.reg) (toBytes u.inbytes w.toNat) }

/-- RES (R352). -/
def CvUnit.res (u : CvUnit) : Nat := crcResult u.w (u.cut u.xor) u.refout (u.cut u.reg)

/-- A write of CH_CV_CFG: INBYTES and WIDTH are clamped, and START loads REG with INIT (R352, R355). -/
def CvUnit.cfg (w : Word) (u : CvUnit) : CvUnit :=
  let n := w.toNat
  let u := { u with
    inbytes := clampTo 1 4 (bitsAt n 4 3), refout := bitAt n 3, refin := bitAt n 2, width := min 2 (bitsAt n 0 2) }
  if bitAt n 7 then { u with reg := u.cut u.init } else u

/-- CH_CV_CFG as read. -/
def CvUnit.cfgWord (u : CvUnit) : Word :=
  mkWord [(4, u.inbytes), (3, b2n u.refout), (2, b2n u.refin), (0, u.width)]

/-- Replace one half of a 64-bit register. -/
def setHalf (hi : Bool) (w : Word) (n : Nat) : Nat :=
  if hi then n % 2 ^ 32 + w.toNat * 2 ^ 32 else n / 2 ^ 32 * 2 ^ 32 + w.toNat

/-- One half of a 64-bit number. -/
def halfWord (hi : Bool) (n : Nat) : Word := BitVec.ofNat 32 (if hi then n / 2 ^ 32 else n)

/-! ### Translation -/

/-- The bits [39:6] of CH_XLATE_A, as a line address. -/
def Xlate.line (x : Xlate) : Nat := x.cpaLo + x.cpaHi * 2 ^ 26

/-- INRANGE and NOEXIST of a line address (R68). -/
def Xlate.mark (i : ChanImg) (a : Nat) (x : Xlate) : Xlate :=
  { x with inrange := decide (a < i.usable), noexist := decide (i.cap ≤ a) }

/-- FWD (R69). -/
def Xlate.fwd (i : ChanImg) (x : Xlate) : Xlate :=
  let a := x.line
  let d := i.devOf a
  ({ x with
    row := d.row, col := d.col, sub := d.bank.sub.num, rank := d.bank.rank, lrank := d.bank.lrank, bg := d.bank.bg,
    ba := d.bank.ba } : Xlate).mark i a

/-- The device fields clamped to their widths, by TARGET code (R9, R69). -/
def Xlate.clamped (i : ChanImg) (x : Xlate) : List Nat :=
  ((List.range 7).zip [x.sub, x.rank, x.lrank, x.bg, x.ba, x.row, x.col]).map fun p => min p.2 (2 ^ i.width p.1 - 1)

/-- REV (R69). -/
def Xlate.rev (i : ChanImg) (x : Xlate) : Xlate :=
  let v := x.clamped i
  let a := i.lineOf v
  ({ x with
    sub := nth0 v 0, rank := nth0 v 1, lrank := nth0 v 2, bg := nth0 v 3, ba := nth0 v 4, row := nth0 v 5,
    col := nth0 v 6, cpaLo := a % 2 ^ 26, cpaHi := a / 2 ^ 26 } : Xlate).mark i a

/-- A write of CH_XLATE_CTL: without a mapping, or with both bits, no effect (R70). -/
def Chan.xlateCtl (w : Word) (c : Chan) : Chan :=
  match c.img with
  | none => c
  | some i =>
    let f := bitAt w.toNat 0
    let r := bitAt w.toNat 1
    if f && r then c
    else if f then { c with xl := c.xl.fwd i }
    else if r then { c with xl := c.xl.rev i }
    else c

/-- The registers of R68 as read; without a mapping all but the RW fields read 0 (R70). -/
def Chan.xlateRead (c : Chan) (off : Nat) : Word :=
  let x := c.xl
  let tv (f : ChanImg → Word) : Word := match c.img with
    | some i => f i
    | none => 0
  if off = 0x40 then tv fun i => BitVec.ofNat 32 (i.usable * 64)
  else if off = 0x44 then tv fun i => mkWord [(8, i.lw), (0, i.usable / 2 ^ 26 % 256)]
  else if off = 0x48 then tv fun i => BitVec.ofNat 32 (i.mdBase * 64)
  else if off = 0x4C then tv fun i => mkWord [(8, b2n i.mdEn), (0, i.mdBase / 2 ^ 26 % 256)]
  else if off = 0x50 then tv fun i => BitVec.ofNat 32 (i.rsvBase * 64)
  else if off = 0x54 then tv fun i => mkWord [(0, i.rsvBase / 2 ^ 26 % 256)]
  else if off = 0x58 then mkWord [(6, x.cpaLo)]
  else if off = 0x5C then mkWord [(0, x.cpaHi)]
  else if off = 0x60 then mkWord [(7, x.row), (0, x.col)]
  else if off = 0x64 then mkWord [(11, x.sub), (8, x.rank), (5, x.lrank), (2, x.bg), (0, x.ba)]
  else tv fun _ => mkWord [(3, b2n x.inrange), (2, b2n x.noexist)]

/-- Writes of the RW registers of R68. -/
def Xlate.write (off : Nat) (w : Word) (x : Xlate) : Xlate :=
  let n := w.toNat
  if off = 0x58 then { x with cpaLo := bitsAt n 6 26 }
  else if off = 0x5C then { x with cpaHi := bitsAt n 0 8 }
  else if off = 0x60 then { x with row := bitsAt n 7 18, col := bitsAt n 0 7 }
  else if off = 0x64 then { x with sub := bitsAt n 11 1, rank := bitsAt n 8 3, lrank := bitsAt n 5 3, bg := bitsAt n 2 3, ba := bitsAt n 0 2 }
  else x

end Sys2Proof.Machine
end

