-- ==== Sys2Proof/Machine/Loader.lean ====
section
/-! DEFINITION. The Truss loader: frames, sections, the checks of commit, and the image that a load carries
(02, R29 to R51). -/
namespace Sys2Proof.Machine

/-! ### Fault codes (R47) -/

def fBadMagic : Nat := 1
def fBadVersion : Nat := 2
def fBadTarget : Nat := 3
def fFrameFormat : Nat := 4
def fGap : Nat := 5
def fExtraFrame : Nat := 6
def fCount : Nat := 7
def fTrailer : Nat := 8
def fMissing : Nat := 9
def fChannel : Nat := 10
def fDuplicate : Nat := 11
def fMapping : Nat := 12
def fStructure : Nat := 13
def fClock : Nat := 14
def fNotGrounded : Nat := 15

/-- A structural fault: code, section involved, channels involved (R47, R48). -/
abbrev TFault := Nat × Nat × Nat

/-- The load ends in REFUSED with a fault (R48, R50). -/
def Loader.refuse (l : Loader) (f : TFault) : Loader :=
  { l with
    st := .refused, fault := f.1, faultFrame := l.accepted, faultSection := f.2.1, faultChannels := f.2.2,
    cur := none, sects := [] }

/-! ### The trailer check (R37, R429) -/

/-- CHK_WIDTH, CHK_POLY, CHK_INIT and CHK_XOR of a header payload, within the width (R34). -/
def hdrW (h : List Nat) : Nat := crcWidth (nth0 h 16)
def hdrPoly (h : List Nat) : Nat := leAt h 24 8 % 2 ^ hdrW h
def hdrInit (h : List Nat) : Nat := leAt h 32 8 % 2 ^ hdrW h
def hdrXor (h : List Nat) : Nat := leAt h 40 8 % 2 ^ hdrW h

/-- The running check takes in a payload. -/
def Loader.feed (l : Loader) (pay : List Nat) : Loader :=
  match l.header with
  | none => l
  | some h => { l with chkReg := crcFeeds (hdrW h) (hdrPoly h) (bitAt (nth0 h 17) 0) l.chkReg pay }

/-- CHK: the finished check over the frames accepted so far (R429). -/
def Loader.chk (l : Loader) : Nat :=
  match l.header with
  | none => 0
  | some h => crcResult (hdrW h) (hdrXor h) (bitAt (nth0 h 17) 1) l.chkReg

/-! ### Sections (R38 to R42, R155) -/

/-- Record size, least and greatest record count of a section (R40); section 0x09 has no record size. -/
def sectRule (id chmask : Nat) : Nat × Nat × Nat :=
  if id = 2 then (16, 1, 128) else if id = 3 then (8, 1, 64) else if id = 5 then (16, 17, 17)
  else if id = 6 then (8, 5, 5) else if id = 8 then (96, 1, 1)
  else if id = 10 then (4, 1, if chmask = 0 then 64 else 120) else if id = 11 then (8, 1, 1)
  else (16, 1, 1)

/-- The sections that every enabled channel requires, and the block sections (R40). -/
def requiredSects : List Nat := [1, 2, 3, 4, 8, 9, 13]
def isBlockSect (id chmask : Nat) : Bool := id == 6 || id == 7 || (id == 10 && chmask == 0)

/-- `n` records of `k` bytes. -/
def records (k n : Nat) (b : List Nat) : List (List Nat) := (List.range n).map fun i => (b.drop (k * i)).take k

/-- The numbers held in `n` records of `k` bytes, least significant byte first. -/
def recordNums (k n : Nat) (b : List Nat) : List Nat := (records k n b).map leBytes

/-- The mask rules at the FIRST frame of a section (R41). -/
def maskFault (hdrMask : Nat) (sects : List SectLoad) (id m : Nat) : Option TFault :=
  if (id = 6 ∨ id = 7) ∧ m ≠ 0 then some (fChannel, id, m)
  else if isBlockSect id m = false ∧ (m = 0 ∨ m &&& (255 - hdrMask) ≠ 0) then
    some (fChannel, id, m &&& (255 - hdrMask))
  else
    match sects.find? (fun s => s.id == id &&
        (if isBlockSect id m then s.chmask == 0 else s.chmask &&& m != 0)) with
    | some s => some (fDuplicate, id, s.chmask &&& m)
    | none => none

/-- RECORDS and BODYLEN of a section (R39, R42). -/
def countFault (o : OpenSect) : Bool :=
  o.bodylen ≠ o.body.length ||
  (if o.id = 9 then o.records ≠ 1 || o.bodylen % 4 ≠ 0 || decide (o.bodylen < 16) || decide (65536 < o.bodylen)
   else
    let r := sectRule o.id o.chmask
    decide (o.records < r.2.1) || decide (r.2.2 < o.records) || o.bodylen ≠ o.records * r.1)

/-- A list of the numbers 0 to n − 1, each once. -/
def isPerm (n : Nat) (l : List Nat) : Bool := l.length == n && (List.range n).all fun i => l.contains i

/-- A batten of the given kind that is enabled. -/
def batIs (kind b : Nat) : Bool := batEnable b && batKind b == kind

/-- A name that occurs earlier in the list. -/
def repeats (l : List (Nat × Nat)) : Bool := decide (l.eraseDups.length ≠ l.length)

/-- Two of the descriptors loaded so far name the same target bit: the check of R62 that runs as each descriptor of a
mapping section is loaded. A descriptor is loaded with its eighth byte. -/
def OpenSect.sameBit (o : OpenSect) : Bool :=
  o.id == 3 && repeats ((recordNums 8 (min o.records (o.body.length / 8)) o.body).map fun d =>
    (mapTarget d, min 17 (mapIndex d)))

/-- Structural faults found at the end of a section (R40, R155). DESIGN CHOICE (log entry 85): a byte of the PHY map above 39
is clamped first (R42), and the permutation is checked on the clamped map. -/
def contentFault (o : OpenSect) : Option TFault :=
  let bad := some (fStructure, o.id, o.chmask)
  if o.id = 1 then (if 1 ≤ nth0 o.body 0 ∧ nth0 o.body 0 ≤ 6 then none else bad)
  else if o.id = 2 then
    let bs := recordNums 16 o.records o.body
    if 8 < countWhere (batIs 1) bs ∨ 8 < countWhere (batIs 3) bs then bad else none
  else if o.id = 7 then (if isPerm 8 (o.body.take 8) then none else bad)
  else if o.id = 8 then
    let p := (o.body.take 80).map (clampTo 0 39)
    if isPerm 40 (p.take 40) && isPerm 40 (p.drop 40) then none else bad
  else none

/-- What a frame of a section leaves open or ends: a repeated target bit at once (R62); at the LAST frame LAYOUT, the
counts, then the content. -/
def Loader.takeBody (l : Loader) (o : OpenSect) (last : Bool) : Loader :=
  if o.sameBit then l.refuse (fMapping, o.id, o.chmask)
  else if last = false then { l with cur := some o }
  else if o.layout ≠ 1 then l.refuse (fStructure, o.id, o.chmask)
  else if countFault o then l.refuse (fCount, o.id, o.chmask)
  else
    match contentFault o with
    | some f => l.refuse f
    | none =>
      { l with
        cur := none,
        sects := l.sects ++ [{ id := o.id, chmask := o.chmask, records := o.records, body := o.body }] }

/-! ### Frames (R29 to R36, R50) -/

/-- SECTION reported with a fault of a frame: the open section, else the frame's own, if it names one (R48). -/
def Loader.faultSect (l : Loader) (sid : Nat) : Nat :=
  match l.cur with
  | some o => o.id
  | none => if 1 ≤ sid ∧ sid ≤ 13 then sid else 0

/-- Faults of the header payload, in the order of its fields (R34). -/
def headerFault (pay : List Nat) : Option TFault :=
  if pay.take 4 ≠ [0x50, 0x4C, 0x59, 0x58] then some (fBadMagic, 0, 0)
  else if nth0 pay 4 ≠ 3 then some (fBadVersion, 0, 0)
  else if nth0 pay 7 ≠ 3 ∨ 1 < nth0 pay 6 then some (fBadTarget, 0, 0)
  else none

/-- The first accepted frame (R34, R36). -/
def Loader.headerFrame (l : Loader) (sid len : Nat) (both : Bool) (pay : List Nat) : Loader :=
  if sid ≠ 0 ∨ len ≠ 56 then l.refuse (fFrameFormat, l.faultSect sid, 0)
  else
    let l := ({ l with header := some pay, chkReg := hdrInit pay }).feed pay
    if both = false then l.refuse (fFrameFormat, 0, 0)
    else
      match headerFault pay with
      | some f => l.refuse f
      | none => l

/-- The trailer frame (R35 to R37). -/
def Loader.trailerFrame (l : Loader) (h : List Nat) (len : Nat) (both : Bool) (pay : List Nat) : Loader :=
  let v := leAt pay 0 8
  if l.cur.isSome ∨ both = false ∨ len ≠ 8 then l.refuse (fFrameFormat, l.faultSect 0xFF, 0)
  else if v / 2 ^ hdrW h ≠ 0 ∨ v ≠ l.chk then l.refuse (fTrailer, 0, 0)
  else { l with st := .ready, trailer := v }

/-- A frame of a section (R31, R38). DESIGN CHOICE (log entry 86): CHANNELS of a FRAME_FORMAT fault is 0x00, inside an open
section as well. -/
def Loader.sectionFrame (l : Loader) (h : List Nat) (sid len : Nat) (first last : Bool) (pay : List Nat) : Loader :=
  let l := l.feed pay
  match l.cur with
  | none =>
    if first = false ∨ len < 8 then l.refuse (fFrameFormat, sid, 0)
    else
      match maskFault (nth0 h 8) l.sects sid (nth0 pay 0) with
      | some f => l.refuse f
      | none =>
        let o : OpenSect :=
          { id := sid, chmask := nth0 pay 0, layout := nth0 pay 1, records := leAt pay 2 2, bodylen := leAt pay 4 4,
            body := pay.drop 8 }
        l.takeBody o last
  | some o =>
    if first ∨ sid ≠ o.id then l.refuse (fFrameFormat, o.id, 0) else l.takeBody { o with body := o.body ++ pay } last

/-- The content of an accepted frame, a list of 64 bytes (R31, R36). -/
def Loader.content (l : Loader) (f : List Nat) : Loader :=
  let sid := nth0 f 1
  let len := nth0 f 2
  let first := bitAt (nth0 f 3) 0
  let last := bitAt (nth0 f 3) 1
  let pay := (f.drop 4).take (min len 56)
  match l.header with
  | none => l.headerFrame sid len (first && last) pay
  | some h =>
    if sid = 0xFF then l.trailerFrame h len (first && last) pay
    else if sid = 0 ∨ 13 < sid ∨ len = 0 ∨ 56 < len then (l.feed pay).refuse (fFrameFormat, l.faultSect sid, 0)
    else l.sectionFrame h sid len first last pay

/-- The 64 bytes of the load window (R44). -/
def Loader.frame (l : Loader) : List Nat := (l.window.map fun w => toBytes 4 w.toNat).flatten

/-- A frame is submitted in LOADING or READY (R32, R33, R50). CHANNELS of GAP and EXTRA_FRAME is 0x00 (log entry 86). -/
def Loader.check (l : Loader) : Loader :=
  let f := l.frame
  let alive := nth0 f 0
  if crc32c (f.take 60) ≠ leAt f 60 4 then { l with crcRej := satAdd 0xFFFF l.crcRej 1 }
  else if l.based = false ∨ (l.st = .loading ∧ alive = l.nextAlive) then
    ({ l with accepted := l.accepted + 1, nextAlive := (alive + 1) % 256, based := true }).content f
  else if alive = (l.nextAlive + 255) % 256 then { l with dup := satAdd 0xFFFF l.dup 1 }
  else l.refuse (if l.st = .ready then fExtraFrame else fGap, l.faultSect 0, 0)

/-- A frame is submitted (R44, R50): outside LOADING and READY it sets IGN. -/
def Loader.submit (l : Loader) : Loader :=
  if l.st = .loading ∨ l.st = .ready then l.check else { l with ign := true }

/-- The word of the load window at offset 4 × i is written. -/
def Loader.setWord (l : Loader) (i : Nat) (w : Word) : Loader := { l with window := l.window.set i w }

/-! ### START, COMMIT and ABORT (R50, R428, R429) -/

/-- START opens a load: the load registers of R429 clear, IGN stays. -/
def Loader.start (l : Loader) : Loader :=
  { Reset.loader with st := .loading, ign := l.ign, window := l.window }

/-- START (R50, R54). A START that is refused leaves the load as it is, and BLK_TRUSS_FAULT names no section and no channel
(R48). -/
def Loader.doStart (l : Loader) (grounded : Bool) : Loader :=
  if l.st = .committing then l
  else if grounded then l.start
  else { l with fault := fNotGrounded, faultFrame := l.accepted, faultSection := 0, faultChannels := 0 }

/-- COMMIT (R50). -/
def Loader.doCommit (l : Loader) : Loader :=
  if l.st = .ready then { l with st := .committing }
  else if l.st = .loading then l.refuse (fCount, 0, 0)
  else l

/-- ABORT (R45, R50). -/
def Loader.doAbort (l : Loader) (inForce : Bool) : Loader :=
  if l.st = .loading ∨ l.st = .ready then
    { l with st := if inForce then .committed else .empty, cur := none, sects := [] }
  else l

/-- A write of BLK_TRUSS_CTL: exactly one of its three bits, or nothing (R45, R428). -/
def Loader.ctl (l : Loader) (w : Word) (grounded inForce : Bool) : Loader :=
  let v := w.toNat % 8
  if v = 1 then l.doStart grounded else if v = 2 then l.doCommit else if v = 4 then l.doAbort inForce else l

/-! ### The image of a load (R40 to R43, R51, R56) -/

/-- The header payload of the load. -/
def Loader.hdr (l : Loader) : List Nat := l.header.getD []

/-- Channel `n` is enabled by the header's CHMASK (R34). -/
def Loader.enabled (l : Loader) (n : Nat) : Bool := bitAt (nth0 l.hdr 8) n

/-- The section `id` that serves channel `n`. -/
def Loader.chanSect (l : Loader) (id n : Nat) : Option SectLoad :=
  l.sects.find? fun s => s.id == id && bitAt s.chmask n

/-- The block section `id`. -/
def Loader.blkSect (l : Loader) (id : Nat) : Option SectLoad :=
  l.sects.find? fun s => s.id == id && s.chmask == 0

/-- The body of the section `id` of channel `n`, or a default. -/
def Loader.body (l : Loader) (id n : Nat) (dflt : List Nat) : List Nat :=
  match l.chanSect id n with
  | some s => s.body
  | none => dflt

/-- The records of the section `id` of channel `n` as numbers. -/
def Loader.nums (l : Loader) (id k n : Nat) : List Nat :=
  match l.chanSect id n with
  | some s => recordNums k s.records s.body
  | none => []

/-- A routing word after clamping, with the page bits of IDENT replaced (R40). -/
def clampRoute (page w : Nat) : Nat := w % 128 + page * 128 + bitsAt w 10 2 * 2 ^ 10 + min 4 (bitsAt w 12 3) * 2 ^ 12 +
  bitsAt w 15 2 * 2 ^ 15

/-- The routing words of channel `n`: defaults, replaced by the records of channel sources in order (R40, R43). -/
def chanRouting (n : Nat) (recs : List Nat) : List Nat :=
  recs.foldl (fun t w => if w % 128 < 120 then t.set (w % 128) (clampRoute n w) else t)
    ((List.range 120).map fun i => defaultRoute (n * 128 + i))

/-- The routing words of the block sources, in identifier order (R40, R43). -/
def blkRouting (recs : List Nat) : List Nat :=
  recs.foldl (fun t w =>
      let id := w % 1024
      if 120 ≤ id % 128 then t.set (blkSourceIdx id) (clampRoute (id / 128) w) else t)
    ((List.range 64).map fun i => defaultRoute (i / 8 * 128 + 120 + i % 8))

/-- The part of the image for channel `n`, after clamping. -/
def Loader.chanImg (l : Loader) (n : Nat) : ChanImg :=
  let topo := clampTopo (l.body 1 n [])
  let x8 := typeX8 (nth0 topo 0)
  { topo := topo,
    battens := (l.nums 2 16 n).map clampBatten,
    maps := (l.nums 3 8 n).map clampDesc,
    prot := clampProt x8 (l.body 4 n []),
    ballast := match l.chanSect 5 n with
      | some s => clampBallast s.body
      | none => defaultBallast,
    phy := clampPhy (l.body 8 n []),
    code := l.body 9 n [],
    routing := chanRouting n (l.nums 10 4 n),
    loft := clampLoft (l.body 11 n []),
    sched := match l.chanSect 12 n with
      | some s => clampSched s.body
      | none => defaultSched,
    upk := clampUpk (l.body 13 n []) }

/-- The header payload after clamping, reserved bytes zero (R34, R56). -/
def clampHeader (h : List Nat) : List Nat :=
  h.take 5 ++ [0] ++ (h.drop 6).take 3 ++ [clampTo 16 24 (nth0 h 9)] ++ (h.drop 10).take 2 ++
    le 4 (clampTo 3 65535 (leAt h 12 4)) ++ [min 2 (nth0 h 16), nth0 h 17 % 4] ++ List.replicate 6 0 ++ h.drop 24

/-- The block part of the image, with the measured phase (R21, R51). -/
def Loader.blkImg (l : Loader) (phasePs : Nat) : BlkImg :=
  { header := clampHeader l.hdr, frames := l.accepted, sections := leAt l.hdr 10 2, trailer := l.trailer,
    levels := match l.blkSect 6 with
      | some s => clampLevels s.body
      | none => defaultLevels,
    wakeOrder := match l.blkSect 7 with
      | some s => clampWake s.body
      | none => defaultWake,
    routing := match l.blkSect 10 with
      | some s => blkRouting (recordNums 4 s.records s.body)
      | none => blkRouting [],
    phasePs := phasePs }

/-! ### The checks of commit (R20, R21, R51, R62) -/

/-- The enabled channels that satisfy `p`, as a mask. -/
def Loader.maskOf (l : Loader) (p : Nat → Bool) : Nat :=
  sumOf ((List.range 8).map fun n => if l.enabled n && p n then 2 ^ n else 0)

/-- Step 1: frames and sections against FRAMES and SECTIONS. -/
def Loader.countStep (l : Loader) : Option TFault :=
  if l.accepted = clampTo 3 65535 (leAt l.hdr 12 4) ∧ l.sects.length = leAt l.hdr 10 2 then none
  else some (fCount, 0, 0)

/-- Step 2: the first required section, in identifier order, that some enabled channel lacks. -/
def Loader.missingStep (l : Loader) : List Nat → Option TFault
  | [] => none
  | id :: ids =>
    let m := l.maskOf fun n => (l.chanSect id n).isNone
    if m = 0 then l.missingStep ids else some (fMissing, id, m)

/-- Each group of `g` controller bits maps to one group of `g` pins (R40). -/
def groupsOk (g : Nat) (m : List Nat) : Bool :=
  (List.range (40 / g)).all fun c => (List.range g).all fun k => nth0 m (g * c + k) / g == nth0 m (g * c) / g

/-- The pin map of a channel meets the nibble or byte rule of its module type. -/
def phyOk (i : ChanImg) : Bool :=
  let g := if i.x8 then 8 else 4
  groupsOk g (i.phy.take 40) && groupsOk g ((i.phy.drop 40).take 40)

/-- Step 2, second part: the pin maps. -/
def Loader.phyStep (l : Loader) : Option TFault :=
  let m := l.maskOf fun n => !phyOk (l.chanImg n)
  if m = 0 then none else some (fStructure, 8, m)

/-- Step 3: the address mappings (R62). -/
def Loader.mapStep (l : Loader) : Option TFault :=
  let m := l.maskOf fun n => !mapOk (l.chanImg n) (l.chanImg n).maps
  if m = 0 then none else some (fMapping, 3, m)

/-- M of the load, clamped (R34). -/
def Loader.hclkM (l : Loader) : Nat := clampTo 16 24 (nth0 l.hdr 9)

/-! Samples count the 5 ps steps of the converter (R21). Scaled by M, one HCLK period, 10,000 / M ps, is 2,000, so that all
comparisons are between whole numbers. -/

/-- The way from `a` to `b` on the circle of one HCLK period: at most half a period either way. -/
def circWay (a b : Nat) : Int :=
  let d := (b + 2000 - a % 2000) % 2000
  if d < 1000 then (d : Int) else (d : Int) - 2000

/-- φ in steps of 5 ps: the mean of the samples modulo one HCLK period, rounded (R21). The ways are measured from the first
sample (log entry 87). -/
def phaseSteps (m : Nat) : List Nat → Nat
  | [] => 0
  | x :: xs =>
    let n := xs.length + 1
    let way : Int := (xs.map fun y => circWay (x * m) (y * m)).foldl (· + ·) 0
    let mean := ((x * m * n : Int) + way).emod (2000 * n)
    let q := (2 * mean.toNat + n * m) / (2 * n * m)
    if 2000 ≤ q * m then 0 else q

/-- Every sample lies within 40 ps, 8 steps, of φ (R21). -/
def phaseHolds (m : Nat) (samples : List Nat) : Bool :=
  samples.all fun x => decide ((circWay (phaseSteps m samples * m) (x * m)).natAbs ≤ 8 * m)

/-- Step 4: HCLK against REFCLK over 1,024 REFCLK, within one HCLK cycle, and the samples of the phase (R20, R21). -/
def Loader.clockStep (l : Loader) (hclkCount : Nat) (samples : List Nat) : Option TFault :=
  let want := 1024 * l.hclkM
  if want ≤ hclkCount + 1 ∧ hclkCount ≤ want + 1 ∧ phaseHolds l.hclkM samples then none else some (fClock, 0, 0)

/-- The first fault of steps 1 to 4. -/
def Loader.commitFault (l : Loader) (hclkCount : Nat) (samples : List Nat) : Option TFault :=
  l.countStep <|> l.missingStep requiredSects <|> l.phyStep <|> l.mapStep <|> l.clockStep hclkCount samples

/-- φ in ps (R21). -/
def Loader.phase (l : Loader) (samples : List Nat) : Nat := 5 * phaseSteps l.hclkM samples

end Sys2Proof.Machine
end

