-- ==== Sys2Proof/Machine/Edge.lean ====
section
/-! DEFINITION. The Truss loader as commands reach it, with what the end of a load releases (02, R45 to R54), and one RCLK
edge of the common: the counters, their overflows and the wide-value snapshots (15, R372 to R375; 17, R403 to R405). -/
namespace Sys2Proof.Machine

/-! ### The loader -/

/-- Every channel is Grounded, with no transition under way (R54). -/
def State.allGrounded (s : State) : Bool :=
  allChans.all fun ch => (s.chan ch).power.cur == .grounded && (s.chan ch).power.trans.isNone

/-- The channels whose requests a load held go on when it ends (02, "When a channel is asked to leave Grounded during a
load"; R314). -/
def State.loadEnds (s : State) (chs : List ChanId) : State :=
  if s.loader.isOpen then s else s.onChans chs Chan.startPend

/-- The loader has entered COMMITTED or REFUSED: TRUSS_DONE (R357). -/
def State.trussDone (was : LoadState) (s : State) : State :=
  if s.loader.st ≠ was ∧ s.loader.st = .refused then s.raiseBlk 0x07B 0 s.loader.fault
  else if was = .committing ∧ s.loader.st = .committed then s.raiseBlk 0x07B 0 (16 + s.loader.fault)
  else s

/-- The loader's step, then what follows it: the waiting requests and TRUSS_DONE, in the order of their identifiers
(R361). -/
def State.withLoader (l : Loader) (s : State) : State :=
  ((({ s with loader := l }).loadEnds [0]).trussDone s.loader.st).loadEnds [1, 2, 3, 4, 5, 6, 7]

/-- A write of BLK_TRUSS_CTL (R45, R428). -/
def State.trussCtl (w : Word) (s : State) : State := s.withLoader (s.loader.ctl w s.allGrounded s.img.isSome)

/-- A write of the load window at word `i`; the last word submits the frame (R44). -/
def State.loadWindow (i : Nat) (w : Word) (s : State) : State :=
  if i = 15 then s.withLoader (s.loader.setWord 15 w).submit
  else { s with loader := s.loader.setWord i w }

/-- The new image takes force in the common and in every channel (R51 to R53). -/
def State.takeImage (phasePs : Nat) (s : State) : State :=
  let l := s.loader
  let s := { s with img := some (l.blkImg phasePs) }
  let s := { s with chans := Vector.ofFn fun ch : Fin 8 =>
      (s.chan ch).commitImg s.env (if l.enabled ch.val then some (l.chanImg ch.val) else none) }
  (s.loadLevels (l.blkImg phasePs)).clampRates

/-- The measurement of step 4 has ended: commit passes or is refused (R51, R52). -/
def State.commitEnd (hclkCount : Nat) (samples : List Nat) (s : State) : State :=
  if s.loader.st ≠ .committing then s
  else
    match s.loader.commitFault hclkCount samples with
    | some f => s.withLoader (s.loader.refuse f)
    | none => (s.takeImage (s.loader.phase samples)).withLoader { s.loader with st := .committed, sects := [], cur := none }

/-! ### Wide-value snapshots -/

/-- The patrol position (R260). -/
def Chan.patrolWords (e : Env) (c : Chan) : List Word :=
  let cpa := c.th.pos * 64
  [BitVec.ofNat 32 cpa, BitVec.ofNat 32 (cpa / 2 ^ 32 % 256), BitVec.ofNat 32 c.th.passes,
    BitVec.ofNat 32 (c.thTime e / refMs)]

/-- The trim entry of a selector; zero for a lane, a rank or a set that does not exist (R294). -/
def Chan.trimWords (sel : Nat) (c : Chan) : List Word :=
  match c.img with
  | none => [0, 0, 0, 0]
  | some i =>
    let k := sel - 0x400
    let rank := bitsAt k 4 3
    let lane := bitsAt k 0 4
    let set := c.trim.set (bitsAt k 8 2)
    if i.ranks ≤ rank then [0, 0, 0, 0]
    else wideWords (set.entry (subOf (bitsAt k 7 1)) (if lane = 15 then i.dimmOf rank else rank) lane).toNat

/-- The value of a selector in a channel page; none for BADSEL (R405). -/
def State.wideChan (s : State) (c : Chan) (sel : Nat) : Option (List Word) :=
  if sel ≤ 0xF then some (c.cnt.snap s.us sel)
  else if 0x100 ≤ sel ∧ sel ≤ 0x11F then some (wideWords (c.err.entry (sel - 0x100)).bits)
  else if sel = 0x200 then some (c.patrolWords s.env)
  else if sel = 0x300 then some s.stampWords
  else if 0x400 ≤ sel ∧ sel ≤ 0x7FF then some (c.trimWords sel)
  else none

/-- The value of a selector in the block page (R405, log entry 28). -/
def State.wideBlk (s : State) (sel : Nat) : Option (List Word) :=
  if sel ≤ 0xF then some (s.cnt.snap s.us sel)
  else if sel = 0x300 then some s.stampWords
  else none

/-- A write of WIDE_ADDR (R404). -/
def Wide.start (w : Word) (_ : Wide) : Wide :=
  { sel := bitsAt w.toNat 0 16, pending := true, valid := false, badsel := false, d := [0, 0, 0, 0] }

/-- The snapshot at an RCLK edge (R404). -/
def Wide.take (f : Nat → Option (List Word)) (x : Wide) : Wide :=
  if x.pending then
    { x with pending := false, valid := true, badsel := (f x.sel).isNone, d := (f x.sel).getD [0, 0, 0, 0] }
  else x

/-- Every snapshot in progress is taken. -/
def State.takeWide (s : State) : State :=
  { s with
    wide := s.wide.take s.wideBlk,
    chans := s.chans.map fun (c : Chan) => { c with wide := c.wide.take (s.wideChan c) } }

/-! ### An RCLK edge -/

/-- The counters of a channel at the edge: CNT_OVF for each overflow (R372, R373). -/
def Chan.counterEdge (c : Chan) : Chan :=
  let r := c.cnt.edge
  r.2.foldl (fun c i => c.raise evCntOvf i) { c with cnt := r.1 }

/-- The counters of the block at the edge: BLK_CNT_OVF for each overflow (R373). -/
def State.blkCounterEdge (s : State) : State :=
  let r := s.cnt.edge
  r.2.foldl (fun s i => s.raiseBlk 0x07A 0 i) { s with cnt := r.1 }

/-- An RCLK edge adds the occurrences gathered in every page, in the order of the identifiers of the events they may raise,
and then takes the snapshots (R361, R372, R404). -/
def State.rclkEdge (s : State) : State :=
  let s := { s with rclk := s.rclk + 1 }
  let s := if s.lvl.ripReq then s.blkCount 0xC5 1 else s
  let s := s.onChan 0 fun _ c => c.counterEdge
  let s := s.blkCounterEdge
  (s.onChans [1, 2, 3, 4, 5, 6, 7] fun _ c => c.counterEdge).takeWide

end Sys2Proof.Machine
end

