-- ==== Sys2Proof/Machine/RegRead.lean ====
section
/-! DEFINITION. The registers as read (17, R395 to R402): the tables of the channel page, of the block page, of the Truss view
and of the user pages. A table lists offsets with the value, or with what the read does; an offset that no table lists is
unimplemented. -/
namespace Sys2Proof.Machine

/-! ### Words of bit vectors and of number pairs -/

/-- The bits of a list of conditions, the first in bit 0. -/
def maskBits (l : List Bool) : Nat := sumOf (((List.range l.length).zip l).map fun p => b2n p.2 * 2 ^ p.1)

/-- A register of two 16-bit halves. -/
def halves (hi lo : Nat) : Word := mkWord [(16, hi % 2 ^ 16), (0, lo % 2 ^ 16)]

/-- The value of an offset in a table. -/
def regAt {α : Type} (off : Nat) (t : List (Nat × α)) : Option α := (t.find? fun p => p.1 == off).map Prod.snd

/-- `n` registers, `step` bytes apart. -/
def regRow {α : Type} (base step n : Nat) (f : Nat → α) : List (Nat × α) := (List.range n).map fun i => (base + step * i, f i)

/-! ### The channel page: registers without a read effect (R398) -/

/-- A TV field of a channel: 0 while the channel has no image (R7). -/
def Chan.tv (c : Chan) (f : ChanImg → Nat) : Nat :=
  match c.img with
  | some i => f i
  | none => 0

/-- Power (R337), rate and bring-up (R309, R393), and the fence (R355). -/
def Chan.powerRegs (e : Env) (c : Chan) : List (Nat × Word) :=
  let p := c.power
  [(0x0, mkWord [(8, b2n (p.keep && e.retention)), (0, p.target.num)]),
   (0x4, mkWord [
      (24, maskBits ((List.range 8).map fun r => c.inGlide .a r || c.inGlide .b r)),
      (23, b2n c.down), (22, b2n c.keptNow), (21, b2n c.draining), (20, b2n p.trans.isSome),
      (19, b2n p.pend.isSome),
      (18, match p.pend with | some q => b2n q.keep | none => 0),
      (16, match p.pend with | some q => q.tgt.num | none => 0),
      (12, match p.trans with | some t => t.req.tgt.num | none => 0),
      (8, p.cur.num)]),
   (0x8, mkWord [(31, b2n p.wakeRec.valid), (20, p.wakeRec.frm % 4), (16, p.wakeRec.info.source % 8),
      (9, p.wakeRec.info.dimm % 2), (8, p.wakeRec.info.sensor % 2), (0, p.wakeRec.info.temp % 256)]),
   (0x10, mkWord [(31, b2n c.shifting), (30, b2n c.trim.noset), (24, c.trim.tsel % 4), (16, c.trim.nCur % 256),
      (0, c.trim.reqN % 256)]),
   (0x18, mkWord [(8, c.seqr.fenceDone.toNat), (0, c.seqr.fence.toNat)]),
   (0x1C, mkWord [(31, b2n c.bring.done), (30, b2n c.bringing), (28, c.bring.form % 4), (24, c.bring.result % 16),
      (20, c.bring.step % 16), (16, c.bring.tset % 4), (0, c.bring.time % 2 ^ 16)]),
   (0x20, mkWord [(8, p.period), (0, p.wakeTemp)]),
   (0x24, mkWord [(0, p.glideIdle)])]

/-- Scheduler (R149), battens (R171) and upkeep (R189). QUIET reads its reset value while the channel is down (DEDUCED, log
entry 31). -/
def Chan.schedRegs (c : Chan) : List (Nat × Word) :=
  let h := c.sched
  let ordOn (s : Sub) : Nat := b2n (c.banks.any fun p => p.1.sub == s && p.2.ord)
  let u := c.upk
  [(0x80, mkWord [(17, b2n h.specOpen), (16, b2n h.bypass), (8, h.wmHigh), (0, h.wmLow)]),
   (0x84, mkWord [(8, h.thr2), (0, h.thr1)]),
   (0x88, mkWord [(24, c.rspUsed), (16, c.holdUsed), (8, c.wq.length), (0, c.rqUsed)]),
   (0x8C, mkWord [(8, c.rankCaps), (3, b2n h.drainB), (2, b2n h.drainA), (1, ordOn .b), (0, ordOn .a)]),
   (0xC0, mkWord [(24, c.fab.hot.toNat), (16, c.fab.tset % 4), (8, c.tv fun i => countWhere batEnable i.battens),
      (0, b2n (c.quiet && !c.down))]),
   (0xC4, mkWord [(16, c.fab.bld % 256), (8, c.fab.wl % 256), (0, c.fab.rl % 256)]),
   (0xC8, mkWord [(0, b2n c.fab.auditEn)]),
   (0xCC, match c.fab.auditRec with
      | some r => mkWord [(31, 1), (24, r.batten), (19, r.cls.num), (18, r.sub.num), (15, r.rank % 8), (12, r.lrank % 8),
          (0, r.short)]
      | none => 0),
   (0xD0, c.fab.auditCnt),
   (0xE0, mkWord [(11, c.tv fun i => b2n i.pracEn), (10, c.tv fun i => b2n i.rfmEn), (9, c.tv fun i => b2n i.sameBank),
      (0, u.postpone)]),
   (0xE4, mkWord [(0, u.zqMs)]),
   (0xE8, mkWord [(26, u.aboRfm % 8), (20, u.aboDly % 64), (10, u.raammt % 1024), (0, u.raaimt % 1024)]),
   (0xEC, mkWord [
      (8, maskBits ((List.range 8).map fun r => u.accounts.any fun a => a.rank == r && a.debts.any a.atDeadline)),
      (1, b2n u.boB.active), (0, b2n u.boA.active)])]

/-- Mailboxes and sequencer (R355). -/
def Chan.mbxRegs (c : Chan) : List (Nat × Word) :=
  regRow 0x100 4 16 (fun i => c.mbxIn.words.getD i 0) ++ regRow 0x180 4 16 (fun i => c.mbxOut.words.getD i 0) ++
  [(0x1C0, mkWord [(31, b2n c.mbxOut.valid), (8, c.mbxOut.queue.length % 16)]),
   (0x1D0, mkWord [(29, b2n c.mbxIn.done), (28, b2n c.mbxOut.valid), (4, b2n c.mbxOut.indexDir), (0, c.mbxOut.index % 16)]),
   (0x1E0, mkWord [(31, b2n c.seqr.run), (30, b2n c.seqr.fault), (0, c.phase.num)])]

/-- Protection (R231) and error control (R259). -/
def Chan.protRegs (c : Chan) : List (Nat × Word) :=
  let p := c.prot
  let k := c.err
  [(0x200, mkWord [(15, b2n p.markBEn), (8, p.markB % 16), (7, b2n p.markAEn), (0, p.markA % 16)]),
   (0x204, mkWord [(24, p.flipCount % 256), (16, p.flipRemain % 256), (5, b2n p.flipSrc), (4, b2n p.flipSub), (2, p.flipMode % 4)])] ++
  regRow 0x208 4 20 (fun i => p.mask.getD i 0) ++
  [(0x300, mkWord [(16, b2n c.th.enable), (0, c.th.int % 2 ^ 16)]),
   (0x304, mkWord [(16, c.th.passes % 2 ^ 16), (8, c.th.owed % 256), (1, b2n c.th.late), (0, b2n c.thActive)]),
   (0x308, mkWord [(16, k.csus % 64), (12, k.pthr % 16), (8, k.retry % 16), (3, b2n k.patch),
      (2, c.tv fun i => b2n i.capar), (1, c.tv fun i => b2n i.rcrc), (0, c.tv fun i => b2n i.wcrc)]),
   (0x30C, mkWord [(12, k.parWin % 4096), (0, k.crcWin % 4096)]),
   (0x320, mkWord [(0, k.slateIdx % 32)]),
   (0x324, mkWord [(6, k.ue.laddrLo % 2 ^ 26)])]

/-- Ballast (R209). -/
def Chan.balRegs (c : Chan) : List (Nat × Word) :=
  let b := c.bal
  regRow 0x400 8 16 (fun n => mkWord [(16, (b.cls n).lat), (0, (b.cls n).minbwNext)]) ++
  regRow 0x404 8 16 (fun n => mkWord [(31, b2n (b.cls n).early), (16, (b.cls n).limit), (0, (b.cls n).weightNext)]) ++
  [(0x480, mkWord [(8, b2n b.forceShare), (0, b.rankCap)]),
   (0x484, mkWord [(16, b.short % 2 ^ 16), (4, b2n b.ramp), (3, b2n b.capped), (0, b.mode % 8)]),
   (0x488, mkWord [(16, b.db % 2 ^ 13), (0, b.eff % 1024)]),
   (0x48C, mkWord [(0, b.pct % 128)]),
   (0x490, mkWord [(8, c.heldSum % 256), (0, c.lane.wheld % 256)])] ++
  regRow 0x4C0 4 16 (fun n => halves (b.cls n).servedPub (b.cls n).allocPub)

/-- The counter registers of a page from `base` on, `n` counters (R378). CNT_WHI is write-only. -/
def Counters.regs (blk : Bool) (base n : Nat) (k : Counters) : List (Nat × Word) :=
  let at' (i : Nat) : Counter := k.cs.getD i Reset.counter
  regRow base 8 n (fun i => (at' i).cfgA) ++ regRow (base + 4) 8 n (fun i => (at' i).cfgB blk) ++
  [(base + 8 * n, BitVec.ofNat 32 k.wlo), (base + 8 * n + 4, 0), (base + 8 * n + 8, mkWord [(0, b2n k.freezeNext)]),
   (base + 8 * n + 12, BitVec.ofNat 32 k.ovfBits)]

/-- The two words of a range register. -/
def rangeRegs (off line : Nat) : List (Nat × Word) :=
  [(off, mkWord [(6, line % 2 ^ 26)]), (off + 4, mkWord [(0, line / 2 ^ 26 % 256)])]

/-- The counters of a channel and their ranges (R378). -/
def Chan.cntRegs (c : Chan) : List (Nat × Word) :=
  c.cnt.regs false 0x500 16 ++ rangeRegs 0x590 c.cnt.r0base ++ rangeRegs 0x598 c.cnt.r0lim ++ rangeRegs 0x5A0 c.cnt.r1base ++
    rangeRegs 0x5A8 c.cnt.r1lim

/-- Trim and sideband (R309). -/
def Chan.trimRegs (c : Chan) : List (Nat × Word) :=
  let t := c.trim
  let lost := fun (v : BitVec 128) => entFails v == 3
  let marg (s : Sub) : List (Nat × Word) := regRow (0x640 + 0x20 * s.num) 4 8 (fun r =>
    mkWord [(16, c.laneMask s r lost), (0, c.laneMask s r entMarg)])
  [(0x600, mkWord [(0, t.interval)]),
   (0x604, mkWord [(28, maskBits (t.sets.map TrimSet.valid)), (24, maskBits (t.sets.map TrimSet.failed)),
      (16, maskBits ((List.range 8).map fun r => c.laneMask .a r entMarg != 0 || c.laneMask .b r entMarg != 0)),
      (0, b2n (c.upk.pauses.any fun p => p.running && p.kind == .retrim))]),
   (0x700, mkWord [(8, b2n c.sb.poll), (0, c.sb.rate)]),
   (0x708, mkWord [(0, c.sb.thermHi)])] ++
  marg .a ++ marg .b ++
  regRow 0x710 4 4 (fun i => mkWord [(31, b2n (c.sb.therm.getD i (false, 0)).1), (0, (c.sb.therm.getD i (false, 0)).2.toNat)])

/-- Check values (R355). CH_CV_IN is write-only. -/
def CvUnit.regs (u : CvUnit) : List (Nat × Word) :=
  let pair (off n : Nat) : List (Nat × Word) := [(off, halfWord false n), (off + 4, halfWord true n)]
  pair 0x800 (u.cut u.poly) ++ [(0x808, u.cfgWord)] ++ pair 0x80C (u.cut u.init) ++ pair 0x814 (u.cut u.xor) ++
    pair 0x81C (u.cut u.reg) ++ [(0x824, 0)] ++ pair 0x828 u.res ++ [(0x830, mkWord [(0, b2n u.owner)])]

/-- A wide-value mailbox (R403). -/
def Wide.regs (base : Nat) (x : Wide) : List (Nat × Word) :=
  [(base, BitVec.ofNat 32 (x.sel % 2 ^ 16)), (base + 4, mkWord [(1, b2n x.badsel), (0, b2n x.valid)])] ++
    regRow (base + 0x10) 4 4 (fun i => x.d.getD i 0)

/-- The Loft (R287). -/
def Chan.loftRegs (c : Chan) : List (Nat × Word) :=
  let l := c.loft
  [(0xA00, mkWord [(20, b2n l.on), (0, l.dirtyMax)]),
   (0xA04, mkWord [(31, b2n l.busy), (30, b2n l.stalled), (0, l.dirty % 2 ^ 19)]),
   (0xA0C, mkWord [(6, l.fixLo % 2 ^ 26)]),
   (0xA10, mkWord [(0, l.fixHi % 256)]),
   (0xA14, mkWord [(6, l.mdRec.lo % 2 ^ 26)])]

/-- Every register of a channel page whose read changes nothing. -/
def Chan.regs (e : Env) (c : Chan) : List (Nat × Word) :=
  c.powerRegs e ++ regRow 0x40 4 11 (fun i => c.xlateRead (0x40 + 4 * i)) ++ c.schedRegs ++ c.mbxRegs ++ c.protRegs ++ c.balRegs ++
    c.cntRegs ++ c.trimRegs ++ c.cv.regs ++ c.wide.regs 0x900 ++ c.loftRegs

/-! ### The channel page: registers that a read clears, or steps (R401) -/

/-- CH_MBX_IN_CTL: OVR clears. -/
def Chan.readInCtl (c : Chan) : Chan × Word :=
  ({ c with mbxIn := { c.mbxIn with ovr := false } },
    mkWord [(31, b2n c.mbxIn.done), (30, b2n c.mbxIn.busy), (29, b2n (c.mbxIn.busy && c.mbxHeld)), (28, b2n c.mbxIn.legacy),
      (1, b2n c.mbxIn.ovr)])

/-- The decode and internal-store counts (R231). -/
def Chan.readCorr (c : Chan) : Chan × Word :=
  ({ c with prot := { c.prot with corrA := 0, corrB := 0 } }, halves c.prot.corrB c.prot.corrA)
def Chan.readUe (c : Chan) : Chan × Word :=
  ({ c with prot := { c.prot with ueA := 0, ueB := 0 } }, halves c.prot.ueB c.prot.ueA)
def Chan.readPsn (c : Chan) : Chan × Word :=
  ({ c with prot := { c.prot with psnA := 0, psnB := 0 } }, halves c.prot.psnB c.prot.psnA)
def Chan.readIbuf (c : Chan) : Chan × Word :=
  ({ c with prot := { c.prot with ibufCorr := 0, ibufUe := 0 } }, halves c.prot.ibufCorr c.prot.ibufUe)

/-- The link, parity, patch and Slate counts (R259). -/
def Chan.readLink (c : Chan) : Chan × Word :=
  ({ c with err := { c.err with rcrcCnt := 0, wcrcCnt := 0 } }, halves c.err.rcrcCnt c.err.wcrcCnt)
def Chan.readPar (c : Chan) : Chan × Word :=
  ({ c with err := { c.err with stray := 0, replays := 0 } }, halves c.err.stray c.err.replays)
def Chan.readPatch (c : Chan) : Chan × Word :=
  ({ c with err := { c.err with skip := 0, issued := 0 } }, halves c.err.skip c.err.issued)
def Chan.readSlate (c : Chan) : Chan × Word :=
  ({ c with err := { c.err with notLogged := 0 } }, halves c.err.notLogged (countWhere SlateEntry.valid c.err.slate))

/-- CH_UE_HI clears the record; CH_UE_LO keeps its value (R402). -/
def Chan.readUeHi (c : Chan) : Chan × Word :=
  let u := c.err.ue
  ({ c with err := { c.err with ue := { Reset.ueRec with laddrLo := u.laddrLo } } },
    mkWord [(31, b2n u.valid), (28, u.source % 8), (27, b2n u.sub), (26, b2n u.write), (16, u.missed % 1024),
      (0, u.laddrHi % 256)])

/-- CH_CHIPCNT(s, r, q): four chips; chips that the layout does not have read as zero (R240, R259). -/
def Chan.readChips (s : Sub) (r q : Nat) (c : Chan) : Chan × Word :=
  let chips := ((List.range 4).map fun j => 4 * q + j).filter fun n => decide (n < if c.x8 then 5 else 10)
  (chips.foldl (fun (c : Chan) n => { c with err := c.err.setChip s r n 0 false }) c,
    mkWord (chips.map fun n =>
      (8 * (n - 4 * q), b2n (c.err.chip s r n).2 * 128 + (c.err.chip s r n).1 % 128)))

/-- CH_TRIM_CNT, CH_SB_STAT (R309). -/
def Chan.readTrimCnt (c : Chan) : Chan × Word :=
  ({ c with trim := { c.trim with noPass := 0, pauses := 0 } }, halves c.trim.noPass c.trim.pauses)
def Chan.readSbStat (c : Chan) : Chan × Word :=
  ({ c with sb := { c.sb with nacks := 0 } },
    mkWord [(16, c.sb.nacks % 2 ^ 16), (5, c.sb.present.toNat), (1, b2n c.sb.i2c), (0, b2n c.sb.busy)])

/-- CH_LOFT_CNT and CH_LOFT_REC_HI; CH_LOFT_REC_LO keeps its value (R287, R402). -/
def Chan.readLoftCnt (c : Chan) : Chan × Word :=
  ({ c with loft := { c.loft with stalls := 0, lost := 0 } }, halves c.loft.stalls c.loft.lost)
def Chan.readLoftRec (c : Chan) : Chan × Word :=
  let r := c.loft.mdRec
  ({ c with loft := { c.loft with mdRec := { Reset.loftRec with lo := r.lo } } },
    mkWord [(31, b2n r.valid), (28, r.cause % 8), (18, r.missed % 1024), (0, r.hi % 256)])

/-- CH_UPK_HWM (R189). -/
def Chan.readHwm (c : Chan) : Chan × Word := ((c.hwmRead).1, BitVec.ofNat 32 (c.hwmRead).2)

/-- Every register of a channel page whose read changes the channel. -/
def rcRegs : List (Nat × (Chan → Chan × Word)) :=
  [(0xF0, Chan.readHwm), (0x140, Chan.readInCtl), (0x1D4, Chan.ldataRead), (0x260, Chan.readCorr), (0x264, Chan.readUe),
   (0x268, Chan.readPsn), (0x26C, Chan.readIbuf), (0x310, Chan.readLink), (0x314, Chan.readPar), (0x318, Chan.readPatch),
   (0x31C, Chan.readSlate), (0x328, Chan.readUeHi), (0x608, Chan.readTrimCnt), (0x704, Chan.readSbStat),
   (0xA08, Chan.readLoftCnt), (0xA18, Chan.readLoftRec)] ++
  ([Sub.a, Sub.b].flatMap fun s => (List.range 8).flatMap fun r => (List.range 3).map fun q =>
    (0x340 + 0x60 * s.num + 0xC * r + 4 * q, Chan.readChips s r q))

/-! ### The Truss view (R56) -/

/-- A word of a region; none beyond its size. -/
def viewWord (base size : Nat) (bytes : List Nat) (off : Nat) : Option Word :=
  if base ≤ off ∧ off < base + size ∧ off % 4 = 0 then some (BitVec.ofNat 32 (leAt bytes (off - base) 4)) else none

/-- Numbers as bytes, `k` bytes each. -/
def flatBytes (k : Nat) (l : List Nat) : List Nat := l.flatMap (toBytes k)

/-- The view of a channel. -/
def ChanImg.view (i : ChanImg) (off : Nat) : Option Word :=
  viewWord 0x1000 16 i.topo off <|> viewWord 0x1100 16 i.prot off <|> viewWord 0x1200 16 i.sched off <|>
  viewWord 0x1300 16 i.upk off <|> viewWord 0x1400 8 i.loft off <|> viewWord 0x1800 512 (flatBytes 8 i.maps) off <|>
  viewWord 0x2000 2048 (flatBytes 16 i.battens) off <|> viewWord 0x2800 272 i.ballast off <|> viewWord 0x2C00 96 i.phy off <|>
  viewWord 0x3000 480 (flatBytes 4 i.routing) off <|> viewWord 0x3400 20 (i.code.take 16 ++ toBytes 4 i.code.length) off

/-- The view of the block. -/
def BlkImg.view (i : BlkImg) (off : Nat) : Option Word :=
  viewWord 0x1000 56 i.header off <|> viewWord 0x1040 16 (toBytes 4 i.frames ++ toBytes 4 i.sections ++ toBytes 8 i.trailer) off <|>
  viewWord 0x1100 40 i.levels off <|> viewWord 0x1200 16 i.wakeOrder off <|> viewWord 0x1300 256 (flatBytes 4 i.routing) off

/-! ### The block page (R397) -/

/-- Identification (R407, R408) and resets (R394, R336). -/
def State.idRegs (s : State) : List (Nat × Word) :=
  [(0x0, 0xB1700880), (0x4, 0x03010300), (0x8, 0),
   (0xC, mkWord [(31, b2n s.rst.ready), (8, maskBits (allChans.map fun ch => (s.chan ch).power.rst)),
      (0, maskBits (allChans.map fun ch => (s.chan ch).power.held))]),
   (0x10, s.rst.resetRec),
   (0x14, mkWord [(31, b2n s.rst.wakeV), (24, s.rst.wakeCh % 8), (16, s.rst.wakeSrc % 8)])]

/-- STATE of BLK_TRUSS_STAT (R46). -/
def LoadState.num : LoadState → Nat
  | .empty => 0 | .loading => 1 | .ready => 2 | .committing => 3 | .committed => 4 | .refused => 5

/-- The loader (R45 to R49) without BLK_TRUSS_STAT. -/
def Loader.regs (l : Loader) : List (Nat × Word) :=
  [(0x100, 0), (0x108, mkWord [(16, l.faultFrame % 2 ^ 16), (8, l.faultSection % 256), (0, l.faultChannels % 256)]),
   (0x10C, halves l.crcRej l.dup), (0x110, halfWord false l.chk), (0x114, halfWord true l.chk),
   (0x118, mkWord [(0, l.nextAlive % 256)])]

/-- Levels, AVSBus and ripcord (R336) without the registers that a read clears. -/
def Levels.regs (e : Env) (l : Levels) : List (Nat × Word) :=
  [(0x200, mkWord [(0, l.target % 4)]),
   (0x204, mkWord [(31, b2n l.change.isSome), (30, b2n l.pend.isSome), (28, l.pend.getD 0 % 4),
      (26, match l.change with | some p => p.1 % 4 | none => 0),
      (24, l.cur % 4), (23, b2n l.fail), (22, b2n e.retention), (21, b2n l.noset), (0, l.volt % 2 ^ 16)]),
   (0x210, mkWord [(16, l.slew), (8, l.div), (0, l.rail)]),
   (0x218, mkWord [(0, l.timeout)]),
   (0x220, mkWord [(8, l.ripStep), (0, l.ripCap)])]

/-- Events (R370) without the registers that a read changes. -/
def Events.regs (e : Events) : List (Nat × Word) :=
  [(0x308, 0), (0x310, mkWord [(1, b2n e.urgEn), (0, b2n e.evtEn)]),
   (0x314, mkWord [(18, b2n e.fatal), (17, b2n e.irqUrg), (16, b2n e.irqEvt), (0, e.fatalCh % 256)])]

/-- Every register of the block page whose read changes nothing. -/
def State.blkRegs (s : State) : List (Nat × Word) :=
  s.idRegs ++ s.loader.regs ++ s.lvl.regs s.env ++ s.ev.regs ++ s.wide.regs 0x400 ++ s.cnt.regs true 0x800 8

/-- BLK_TRUSS_STAT: IGN clears (R46). -/
def State.readTrussStat (s : State) : State × Word :=
  ({ s with loader := { s.loader with ign := false } },
    mkWord [(16, s.loader.accepted % 2 ^ 16), (8, s.loader.fault % 16), (7, b2n s.loader.ign), (3, b2n s.img.isSome),
      (0, s.loader.st.num)])

/-- BLK_AVS_STAT: ERRORS clears. BUSY is a frame in progress (R336). -/
def State.readAvsStat (s : State) : State × Word :=
  ({ s with lvl := { s.lvl with avsErrors := 0 } },
    mkWord [(8, s.lvl.avsErrors % 256),
      (1, match s.lvl.change with | some (_, .avs _) => 1 | _ => 0), (0, b2n s.lvl.lastOk)])

/-- BLK_RIPCORD_STAT: COUNT clears (R336). -/
def State.readRipStat (s : State) : State × Word :=
  ({ s with lvl := { s.lvl with ripCount := 0 } },
    mkWord [(16, s.lvl.ripCount % 2 ^ 16), (4, s.lvl.ripLat % 2 ^ 12), (1, b2n s.lvl.ripAck), (0, b2n s.lvl.ripReq)])

/-- BLK_EVQ_STAT: DROPPED clears (R370). -/
def State.readEvqStat (s : State) : State × Word :=
  ({ s with ev := { s.ev with dropped := 0 } },
    mkWord [(16, s.ev.dropped % 2 ^ 16), (15, b2n s.ev.latched.isSome), (8, s.ev.filling.length % 128),
      (0, (s.ev.draining.length + b2n s.ev.latched.isSome) % 128)])

/-- BLK_EVQ_LO and BLK_EVQ_HI (R365). -/
def State.readEvqLo (s : State) : State × Word := ({ s with ev := s.ev.readLo.1 }, s.ev.readLo.2)
def State.readEvqHi (s : State) : State × Word := ({ s with ev := s.ev.readHi.1 }, s.ev.readHi.2)

/-- CH_STICKY (R369). -/
def State.readSticky (ch : ChanId) (s : State) : State × Word :=
  ({ s with ev := (s.ev.readSticky ch.val).1 }, (s.ev.readSticky ch.val).2)

/-- Every register of the block page whose read changes the block. -/
def blkRcRegs : List (Nat × (State → State × Word)) :=
  [(0x104, State.readTrussStat), (0x214, State.readAvsStat), (0x224, State.readRipStat), (0x300, State.readEvqLo),
   (0x304, State.readEvqHi), (0x30C, State.readEvqStat)]

/-! ### The user pages (R379) -/

/-- The counters of user page `n`. -/
def State.userCnt (s : State) (n : Nat) : Counters :=
  if h : n < 8 then (s.chan ⟨n, h⟩).cnt else s.cnt

/-- The state with the counters of user page `n` replaced. -/
def State.setUserCnt (s : State) (n : Nat) (k : Counters) : State :=
  if h : n < 8 then s.setChan ⟨n, h⟩ { s.chan ⟨n, h⟩ with cnt := k } else { s with cnt := k }

/-- Counter `i` of a page, if it exists and its USER bit is set. -/
def Counters.userAt (k : Counters) (i : Nat) : Option Counter :=
  match k.cs[i]? with
  | some c => if c.user then some c else none
  | none => none

/-- U_CNT_LO(i): the page's latch takes the value and OVF (R374, R379). -/
def State.readULo (n i : Nat) (s : State) : Option (State × Word) :=
  let k := s.userCnt n
  (k.userAt i).map fun c =>
    (s.setUserCnt n { k with latchLo := c.value % 2 ^ 32, latchHi := b2n c.ovf * 2 ^ 31 + c.value / 2 ^ 32 % 2 ^ 16 },
      BitVec.ofNat 32 c.value)

/-- A read of user page `n` at offset `o`; none is a bus error. -/
def State.userRead (n o : Nat) (s : State) : Option (State × Word) :=
  let k := s.userCnt n
  if o % 4 ≠ 0 then none
  else if o < 0x80 then
    let i := o / 8
    if o % 8 = 0 then s.readULo n i else (k.userAt i).map fun _ => (s, BitVec.ofNat 32 k.latchHi)
  else if 0x100 ≤ o ∧ o < 0x140 then (k.userAt ((o - 0x100) / 4)).map fun c => (s, c.cfgA)
  else none

/-! ### A read of an address (R395, R399) -/

/-- A channel's own part of a read: the tables, then the Truss view; none is a bus error. -/
def Chan.readReg (e : Env) (off : Nat) (c : Chan) : Option (Chan × Word) :=
  match regAt off (c.regs e) with
  | some w => some (c, w)
  | none =>
    match regAt off rcRegs with
    | some f => some (f c)
    | none =>
      match c.img with
      | some i => (i.view off).map fun w => (c, w)
      | none => none

/-- A read of a channel register that changes the channel. -/
def State.chanRc (ch : ChanId) (f : Chan → Chan × Word) (s : State) : State × Word :=
  (s.onChan ch fun _ c => (f c).1, (f (s.chan ch)).2)

/-- A read in a channel page. -/
def State.chanRead (ch : ChanId) (off : Nat) (s : State) : Option (State × Word) :=
  if off = 0xC then some (s.readSticky ch)
  else ((s.chan ch).readReg s.env off).map fun p => (s.onChan ch fun _ _ => p.1, p.2)

/-- A read in the block page. -/
def State.blkRead (off : Nat) (s : State) : Option (State × Word) :=
  match regAt off s.blkRegs with
  | some w => some (s, w)
  | none =>
    match regAt off blkRcRegs with
    | some f => some (f s)
    | none =>
      match s.img with
      | some i => (i.view off).map fun w => (s, w)
      | none => none

/-- A read of an address; none is a bus error. The load window is write-only and reads 0 (R396). -/
def State.readAddr (a : Nat) (s : State) : Option (State × Word) :=
  match addrChan a with
  | some ch => s.chanRead ch (addrOff a)
  | none =>
    if a < 0x100000 then s.blkRead a
    else if 0xA00000 ≤ a ∧ a < 0xA09000 then s.userRead ((a - 0xA00000) / 0x1000) (a % 0x1000)
    else if 0xF00000 ≤ a ∧ a < 0xF00040 ∧ a % 4 = 0 then some (s, 0)
    else none

end Sys2Proof.Machine
end

