-- ==== Sys2Proof/Machine/RegWrite.lean ====
section
/-! DEFINITION. The registers as written (17, R395 to R400; R7 and R9 for clamping): the tables of writes, and a transaction
of the management lane, held or done. A write of a register without a writer changes nothing. -/
namespace Sys2Proof.Machine

/-! ### Writes of a channel's registers -/

/-- CH_TETHER_CTL and CH_GLIDE_CTL (R337). -/
def Chan.setTether (w : Word) (c : Chan) : Chan :=
  { c with power := { c.power with
      period := clampTo 1 255 (bitsAt w.toNat 8 8), wakeTemp := clampTo 40 125 (bitsAt w.toNat 0 8) } }
def Chan.setGlide (w : Word) (c : Chan) : Chan :=
  { c with power := { c.power with glideIdle := clampTo 1 10000 (bitsAt w.toNat 0 14) } }

/-- The translation registers (R68). -/
def Chan.setXlate (off : Nat) (w : Word) (c : Chan) : Chan := { c with xl := c.xl.write off w }

/-- CH_UPK_ZQ (R189). -/
def Chan.setZq (w : Word) (c : Chan) : Chan :=
  { c with upk := { c.upk with zqMs := clampTo 1 1024 (bitsAt w.toNat 0 11) } }

/-- CH_AUDIT_CTL (R171). -/
def Chan.setAudit (w : Word) (c : Chan) : Chan := c.auditCtl (bitAt w.toNat 0)

/-- CH_MBX_IN_CTL and CH_MBX_OUT_CTL (R342, R345). -/
def Chan.inCtl (w : Word) (c : Chan) : Chan := if bitAt w.toNat 0 then c.mbxGo false else c
def Chan.outCtl (w : Word) (c : Chan) : Chan := if bitAt w.toNat 0 then c.mbxAck else c

/-- CH_CHIPMARK: chip indices clamp to those of the module (R231, R232). -/
def Chan.setChipmark (w : Word) (c : Chan) : Chan :=
  let n := w.toNat
  let top := if c.x8 then 4 else 9
  { c with prot := { c.prot with
      markBEn := bitAt n 15, markB := clampTo 0 top (bitsAt n 8 4), markAEn := bitAt n 7, markA := clampTo 0 top (bitsAt n 0 4) } }

/-- CH_FLIP_CTL: the fields, then ARM, or else DISARM (R231, R233). -/
def Protect.setFlip (w : Word) (p : Protect) : Protect :=
  let n := w.toNat
  let cnt := clampTo 1 255 (bitsAt n 24 8)
  let p := { p with flipCount := cnt, flipSrc := bitAt n 5, flipSub := bitAt n 4, flipMode := min 2 (bitsAt n 2 2) }
  if bitAt n 0 then { p with armed := p.mask, flipRemain := cnt }
  else if bitAt n 1 then { p with flipRemain := 0 }
  else p
def Chan.setFlip (w : Word) (c : Chan) : Chan := { c with prot := c.prot.setFlip w }
def Chan.setFlipMask (i : Nat) (w : Word) (c : Chan) : Chan := { c with prot := { c.prot with mask := c.prot.mask.set i w } }

/-- CH_ERR_CTL (R259). -/
def Chan.setErr (w : Word) (c : Chan) : Chan :=
  let n := w.toNat
  { c with err := { c.err with
      csus := clampTo 2 32 (bitsAt n 16 6), pthr := clampTo 2 15 (bitsAt n 12 4), retry := clampTo 1 8 (bitsAt n 8 4),
      patch := bitAt n 3 } }

/-- A Slate entry is invalidated. -/
def SlateEntry.inval (x : SlateEntry) : SlateEntry := { x with valid := false }

/-- CH_SLATE_CTL: INDEX, then INVAL and INVAL_ALL (R259). -/
def Chan.slateCtl (w : Word) (c : Chan) : Chan :=
  let n := w.toNat
  let i := bitsAt n 0 5
  let l := c.err.slate
  let l := if bitAt n 31 then updateAt i SlateEntry.inval l else l
  let l := if bitAt n 30 then l.map SlateEntry.inval else l
  { c with err := { c.err with slateIdx := i, slate := l } }

/-- The Ballast's class registers (R190, R209, R210): MINBW and WEIGHT wait for the next window; C15 has no EARLY. -/
def Chan.setClsA (n : Nat) (w : Word) (c : Chan) : Chan :=
  { c with bal := c.bal.modCls n fun (k : ClassSt) =>
      { k with lat := clampTo 20 65535 (bitsAt w.toNat 16 16), minbwNext := clampTo 0 1024 (bitsAt w.toNat 0 11) } }
def Chan.setClsB (n : Nat) (w : Word) (c : Chan) : Chan :=
  { c with bal := c.bal.modCls n fun (k : ClassSt) =>
      { k with
        early := n != 15 && bitAt w.toNat 31, limit := clampTo 1 1024 (bitsAt w.toNat 16 11),
        weightNext := clampTo 1 255 (bitsAt w.toNat 0 8) } }

/-- CH_BAL_CTL (R201, R209). -/
def Chan.setBal (w : Word) (c : Chan) : Chan :=
  ({ c with bal := { c.bal with forceShare := bitAt w.toNat 8, rankCap := clampTo 10 100 (bitsAt w.toNat 0 8) } }).modeNow

/-- A counter of a page is changed. -/
def Counters.modAt (i : Nat) (f : Counter → Counter) (k : Counters) : Counters := { k with cs := updateAt i f k.cs }

/-- The half of a range register (R378). -/
def rangeHalf (hi : Bool) (w : Word) (line : Nat) : Nat :=
  if hi then bitsAt w.toNat 0 8 * 2 ^ 26 + line % 2 ^ 26 else line / 2 ^ 26 * 2 ^ 26 + bitsAt w.toNat 6 26

/-- The writers of a page's counters (R375, R378). -/
def Counters.writers (blk : Bool) (base n : Nat) : List (Nat × (Word → Counters → Counters)) :=
  regRow base 8 n (fun i w => Counters.modAt i (Counter.setA blk w)) ++
  regRow (base + 4) 8 n (fun i w => Counters.modAt i (Counter.setB blk w)) ++
  [(base + 8 * n, fun w k => { k with wlo := w.toNat }), (base + 8 * n + 4, Counters.whi), (base + 8 * n + 8, Counters.ctl)]

/-- The writers of the range registers. -/
def rangeWriters : List (Nat × (Word → Counters → Counters)) :=
  [(0x590, fun w k => { k with r0base := rangeHalf false w k.r0base }), (0x594, fun w k => { k with r0base := rangeHalf true w k.r0base }),
   (0x598, fun w k => { k with r0lim := rangeHalf false w k.r0lim }), (0x59C, fun w k => { k with r0lim := rangeHalf true w k.r0lim }),
   (0x5A0, fun w k => { k with r1base := rangeHalf false w k.r1base }), (0x5A4, fun w k => { k with r1base := rangeHalf true w k.r1base }),
   (0x5A8, fun w k => { k with r1lim := rangeHalf false w k.r1lim }), (0x5AC, fun w k => { k with r1lim := rangeHalf true w k.r1lim })]

/-- CH_TRIM_CTL, CH_SB_CTL, CH_THERM_LIM (R309). -/
def Chan.setTrim (w : Word) (c : Chan) : Chan :=
  { c with trim := { c.trim with interval := clampTo 16 1024 (bitsAt w.toNat 0 11) } }
def Chan.setSb (w : Word) (c : Chan) : Chan :=
  { c with sb := { c.sb with poll := bitAt w.toNat 8, rate := min 3 (bitsAt w.toNat 0 4) } }
def Chan.setTherm (w : Word) (c : Chan) : Chan :=
  { c with sb := { c.sb with thermHi := clampTo 40 125 (bitsAt w.toNat 0 8) } }

/-- The check-value unit (R352, R355). -/
def cvWriters : List (Nat × (Word → CvUnit → CvUnit)) :=
  [(0x800, fun w u => { u with poly := setHalf false w u.poly }), (0x804, fun w u => { u with poly := setHalf true w u.poly }),
   (0x808, CvUnit.cfg),
   (0x80C, fun w u => { u with init := setHalf false w u.init }), (0x810, fun w u => { u with init := setHalf true w u.init }),
   (0x814, fun w u => { u with xor := setHalf false w u.xor }), (0x818, fun w u => { u with xor := setHalf true w u.xor }),
   (0x81C, fun w u => { u with reg := setHalf false w u.reg }), (0x820, fun w u => { u with reg := setHalf true w u.reg }),
   (0x824, CvUnit.input)]

/-- A write of CH_WIDE_ADDR (R404). -/
def Chan.wideWrite (w : Word) (c : Chan) : Chan := { c with wide := c.wide.start w }

/-- CH_LOFT_FIX: a line at or above U is clamped to the last one below it (R288). -/
def Chan.setFix (hi : Bool) (w : Word) (c : Chan) : Chan :=
  let l := rangeHalf hi w (c.loft.fixHi * 2 ^ 26 + c.loft.fixLo)
  let l := match c.img with
    | some i => min l (i.usable - 1)
    | none => l
  { c with loft := { c.loft with fixLo := l % 2 ^ 26, fixHi := l / 2 ^ 26 } }

/-- A write of the counters, and of the check-value unit, of one channel. -/
def Chan.cntWrite (f : Counters → Counters) (c : Chan) : Chan := { c with cnt := f c.cnt }
def Chan.cvWrite (f : CvUnit → CvUnit) (c : Chan) : Chan := { c with cv := f c.cv }

/-- A write of a channel register that is a function of the channel alone. -/
abbrev ChanWriter := Word → Env → Chan → Chan

/-- A writer that needs nothing of the common. -/
def plainW (f : Word → Chan → Chan) : ChanWriter := fun w _ c => f w c

/-- A writer of the counters, and one of the check-value unit. -/
def cntW (f : Word → Counters → Counters) : ChanWriter := fun w _ c => c.cntWrite (f w)
def cvW (f : Word → CvUnit → CvUnit) : ChanWriter := fun w _ c => c.cvWrite (f w)

/-- Every register of a channel page that a write can change (R398). -/
def chanWriters : List (Nat × ChanWriter) :=
  [(0x0, Chan.stateCtl), (0x10, Chan.rateWrite), (0x18, plainW Chan.setFence), (0x20, plainW Chan.setTether), (0x24, plainW Chan.setGlide),
   (0x68, plainW Chan.xlateCtl), (0x80, plainW (Chan.schedWrite .ctl)), (0x84, plainW (Chan.schedWrite .urg)), (0xC8, plainW Chan.setAudit),
   (0xE0, plainW Chan.setPostpone), (0xE4, plainW Chan.setZq), (0x140, plainW Chan.inCtl), (0x1C0, plainW Chan.outCtl),
   (0x1D0, plainW Chan.lptrWrite), (0x1D4, plainW Chan.ldataWrite), (0x200, plainW Chan.setChipmark), (0x204, plainW Chan.setFlip),
   (0x300, Chan.thCtl), (0x308, plainW Chan.setErr), (0x320, plainW Chan.slateCtl), (0x480, plainW Chan.setBal), (0x600, plainW Chan.setTrim),
   (0x700, plainW Chan.setSb), (0x708, plainW Chan.setTherm), (0x900, plainW Chan.wideWrite), (0xA00, plainW Chan.loftCtl),
   (0xA0C, plainW (Chan.setFix false)), (0xA10, plainW (Chan.setFix true))] ++
  regRow 0x58 4 4 (fun i => plainW (Chan.setXlate (0x58 + 4 * i))) ++
  regRow 0x100 4 16 (fun i => plainW (Chan.mbxPut i)) ++ regRow 0x208 4 20 (fun i => plainW (Chan.setFlipMask i)) ++
  regRow 0x400 8 16 (fun n => plainW (Chan.setClsA n)) ++ regRow 0x404 8 16 (fun n => plainW (Chan.setClsB n)) ++
  ((Counters.writers false 0x500 16 ++ rangeWriters).map fun p => (p.1, cntW p.2)) ++ cvWriters.map fun p => (p.1, cvW p.2)

/-! ### Writes of the block page -/

/-- BLK_CTL: CHRST resets each channel named (R382, R394). -/
def State.chrstMask (w : Word) (s : State) : State :=
  s.onChans (allChans.filter fun ch => bitAt w.toNat ch.val) fun _ c => c.startReset

/-- BLK_AVS_CTL, BLK_AVS_TMO, BLK_RIPCORD_CTL (R336). -/
def Levels.setAvs (w : Word) (l : Levels) : Levels :=
  { l with slew := clampTo 1 50 (bitsAt w.toNat 16 8), div := clampTo 5 100 (bitsAt w.toNat 8 8), rail := bitsAt w.toNat 0 4 }
def Levels.setTmo (w : Word) (l : Levels) : Levels := { l with timeout := clampTo 10 1000 (bitsAt w.toNat 0 10) }
def Levels.setRip (w : Word) (l : Levels) : Levels :=
  { l with ripStep := clampTo 1 100 (bitsAt w.toNat 8 7), ripCap := clampTo 5 100 (bitsAt w.toNat 0 7) }

/-- BLK_EVQ_CTL, BLK_IRQ_EN, BLK_IRQ_STAT (R367, R370). -/
def Events.evqCtl (w : Word) (e : Events) : Events := if bitAt w.toNat 0 then e.flush else e
def Events.irqEn (w : Word) (e : Events) : Events := { e with urgEn := bitAt w.toNat 1, evtEn := bitAt w.toNat 0 }
def Events.irqStat (w : Word) (e : Events) : Events := if bitAt w.toNat 31 then e.clrFatal else e

/-- Every register of the block page that a write can change (R397). -/
def blkWriters : List (Nat × (Word → State → State)) :=
  [(0x8, State.chrstMask), (0x100, State.trussCtl), (0x200, State.plevelCtl),
   (0x210, fun w s => { s with lvl := s.lvl.setAvs w }), (0x218, fun w s => { s with lvl := s.lvl.setTmo w }),
   (0x220, fun w s => { s with lvl := s.lvl.setRip w }), (0x308, fun w s => { s with ev := s.ev.evqCtl w }),
   (0x310, fun w s => { s with ev := s.ev.irqEn w }), (0x314, fun w s => { s with ev := s.ev.irqStat w }),
   (0x400, fun w s => { s with wide := s.wide.start w })] ++
  (Counters.writers true 0x800 8).map fun p => (p.1, fun w s => { s with cnt := p.2 w s.cnt })

/-! ### A write of an address (R395, R399) -/

/-- The offset names a register or a Truss-view word of a channel page. -/
def Chan.implemented (e : Env) (off : Nat) (c : Chan) : Bool := off == 0xC || (c.readReg e off).isSome

/-- A write in a channel page; none is a bus error. -/
def State.chanWrite (ch : ChanId) (off : Nat) (w : Word) (s : State) : Option State :=
  match regAt off chanWriters with
  | some f => some (s.onChan ch (f w))
  | none => if (s.chan ch).implemented s.env off then some s else none

/-- A write in the block page; none is a bus error. -/
def State.blkWrite (off : Nat) (w : Word) (s : State) : Option State :=
  match regAt off blkWriters with
  | some f => some (f w s)
  | none => if (s.blkRead off).isSome then some s else none

/-- A write of an address; none is a bus error. User pages are read-only (R379). -/
def State.writeAddr (a : Nat) (w : Word) (s : State) : Option State :=
  match addrChan a with
  | some ch => s.chanWrite ch (addrOff a) w
  | none =>
    if a < 0x100000 then s.blkWrite a w
    else if 0xF00000 ≤ a ∧ a < 0xF00040 ∧ a % 4 = 0 then some (s.loadWindow ((a - 0xF00000) / 4) w)
    else none

/-! ### Transactions of the management lane (R112 to R114, R400) -/

/-- The channel to whose REPAIR the lane holds the transaction until the repair write is in the write queue (R282). -/
def repairOf (t : MgtTxn) : Option ChanId :=
  match addrChan t.addr.toNat with
  | some ch => if t.we && addrOff t.addr.toNat == 0xA00 && bitAt t.data.toNat 30 then some ch else none
  | none => none

/-- A transaction takes effect and is answered; a bus error changes nothing (R399), and a REPAIR is answered when its write
is in the queue. -/
def State.regTxn (t : MgtTxn) (s : State) : State :=
  let a := t.addr.toNat
  if t.we then
    match repairOf t with
    | some ch =>
      ({ s with mgt := { s.mgt with held := some t, repair := some ch, rspV := false } }).onChan ch fun _ c => c.loftCtl t.data
    | none =>
      match s.writeAddr a t.data with
      | some s => s.respond false 0
      | none => s.respond true 0
  else
    match s.readAddr a with
    | some (s, w) => s.respond false w
    | none => s.respond true 0

/-- A transaction is presented (R113, R400; outside the manual while another is outstanding, R11). -/
def mgtTxn (t : MgtTxn) (s : State) : Res :=
  match s.mgt.held with
  | some _ => .fault .mgtOverlap
  | none => if mgtHeld s t then .next { s with mgt := { s.mgt with held := some t, rspV := false } } else .next (s.regTxn t)

/-- The lane goes on with the transaction it holds, once nothing holds it any more (R400). -/
def State.mgtRetry (s : State) : State :=
  match s.mgt.held with
  | none => s
  | some t =>
    if s.mgt.repair.isSome || mgtHeld s t then s else ({ s with mgt := { s.mgt with held := none } }).regTxn t

end Sys2Proof.Machine
end

