-- ==== Sys2Proof/Machine/BallastCmds.lean ====
section
/-! DEFINITION. The commands of the Ballast and the ripcord (08, 13). -/
namespace Sys2Proof.Machine

/-- A window of the Ballast ends, 400 REFCLK after the last one, in every channel (R191 to R195). -/
def execBallastWindow (s : State) : Res :=
  .next (if s.now < s.winNext then s
    else ({ s with winNext := s.winNext + 400 }).onChans allChans fun _ c => c.window)

/-- RIPCORD_REQ rises (R204, R205, R332). -/
def execRipcordReqRise (s : State) : Res :=
  .next s.ripRise

/-- A channel reports capped; RIPCORD_ACK rises with the last (R205, R207, R332). -/
def execChannelCapped (ch : ChanId) (s : State) : Res :=
  .next (s.capped ch)

/-- RIPCORD_REQ falls: the ramp governor starts (R206, R332). -/
def execRipcordReqFall (s : State) : Res :=
  .next s.ripFall

/-- A step of the ramp governor (R206). -/
def execRampStep (s : State) : Res :=
  .next s.rampStep

end Sys2Proof.Machine
end

