-- ==== Sys2Proof/Machine/EventCmds.lean ====
section
/-! DEFINITION. The commands of events, counters and wide values (15, 17). -/
namespace Sys2Proof.Machine

/-- An RCLK edge at which the banks of the event queue swap (R362). -/
def execEvqSwap (s : State) : Res :=
  .next { s with ev := s.ev.swapEdge }

/-- A read of BLK_EVQ_LO (R365, R366). -/
def execEvqLoRead (s : State) : Res :=
  mgtRead .blk 0x300 State.readEvqLo s

/-- A read of BLK_EVQ_HI (R365, R366). -/
def execEvqHiRead (s : State) : Res :=
  mgtRead .blk 0x304 State.readEvqHi s

/-- FLUSH in BLK_EVQ_CTL (R367). -/
def execEvqFlush (s : State) : Res :=
  mgtWrite .blk 0x308 1 (fun s => { s with ev := s.ev.evqCtl 1 }) s

/-- CLR_FATAL in BLK_IRQ_STAT (R368, R370). -/
def execClrFatal (s : State) : Res :=
  mgtWrite .blk 0x314 0x80000000 (fun s => { s with ev := s.ev.irqStat 0x80000000 }) s

/-- A read of CH_STICKY (R369). -/
def execStickyRead (ch : ChanId) (s : State) : Res :=
  mgtRead (.chan ch) 0xC (State.readSticky ch) s

/-- An RCLK edge: every counter adds, every snapshot is taken, and the lane goes on (R372, R373, R404). -/
def execCounterAdd (s : State) : Res :=
  .next s.rclkEdge.mgtRetry

/-- A write of CNT_WHI (R375). -/
def execCntWhiWrite (p : Page) (w : Word) (s : State) : Res :=
  match p with
  | .blk => mgtWrite .blk 0x844 w (fun s => { s with cnt := s.cnt.whi w }) s
  | .chan ch => mgtWrite (.chan ch) 0x584 w (fun s => s.onChan ch fun _ c => c.cntWrite (Counters.whi w)) s

/-- A write of CNT_CTL with OVF_CLR bits (R373, R378). -/
def execOvfClr (p : Page) (w : Word) (s : State) : Res :=
  match p with
  | .blk => mgtWrite .blk 0x848 w (fun s => { s with cnt := s.cnt.ctl w }) s
  | .chan ch => mgtWrite (.chan ch) 0x588 w (fun s => s.onChan ch fun _ c => c.cntWrite (Counters.ctl w)) s

/-- A write of CNT_CTL with FREEZE (R378). -/
def execFreeze (p : Page) (w : Word) (s : State) : Res :=
  match p with
  | .blk => mgtWrite .blk 0x848 w (fun s => { s with cnt := s.cnt.ctl w }) s
  | .chan ch => mgtWrite (.chan ch) 0x588 w (fun s => s.onChan ch fun _ c => c.cntWrite (Counters.ctl w)) s

/-- A read of U_CNT_LO(i) of a user page (R379). -/
def execUCntLoRead (n : Fin 9) (i : Fin 16) (s : State) : Res :=
  mgtTxn { we := false, addr := BitVec.ofNat 24 (0xA00000 + 0x1000 * n.val + 8 * i.val), data := 0 } s

/-- A write of WIDE_ADDR (R404). -/
def execWideAddrWrite (p : Page) (w : Word) (s : State) : Res :=
  match p with
  | .blk => mgtWrite .blk 0x400 w (fun s => { s with wide := s.wide.start w }) s
  | .chan ch => mgtWrite (.chan ch) 0x900 w (fun s => s.onChan ch fun _ c => c.wideWrite w) s

end Sys2Proof.Machine
end

