-- ==== Sys2Proof/Machine/GuardCmds.lean ====
section
/-! DEFINITION. The commands of protection, the Slate, the Thatcher and the address translation (03, 09, 10). -/
namespace Sys2Proof.Machine

/-- A write of CH_FLIP_CTL with ARM: the masks are copied and REMAIN takes COUNT (R233). -/
def execFlipArm (ch : ChanId) (w : Word) (s : State) : Res :=
  mgtWrite (.chan ch) 0x204 (w ||| 1) (fun s => s.onChan ch fun _ c => c.setFlip (w ||| 1)) s

/-- A write of CH_FLIP_CTL with DISARM and without ARM: REMAIN is 0 (R233). -/
def execFlipDisarm (ch : ChanId) (w : Word) (s : State) : Res :=
  mgtWrite (.chan ch) 0x204 ((w &&& 0xFFFFFFFC) ||| 2) (fun s => s.onChan ch fun _ c => c.setFlip ((w &&& 0xFFFFFFFC) ||| 2)) s

/-- A write of CH_CHIPMARK (R224, R231). -/
def execChipmarkWrite (ch : ChanId) (w : Word) (s : State) : Res :=
  mgtWrite (.chan ch) 0x200 w (fun s => s.onChan ch fun _ c => c.setChipmark w) s

/-- INT REFCLK of active time have passed: a line is owed (R253). -/
def execThatcherInterval (ch : ChanId) (s : State) : Res :=
  .next (s.onChan ch Chan.thTick)

/-- The Thatcher places the read of the next line, or skips it (R253, R254, R256). -/
def execThatcherReadPlace (ch : ChanId) (s : State) : Res :=
  .next (s.onChan ch Chan.thPlace)

/-- A write of CH_THATCH_CTL with RESTART (R255). -/
def execThatcherRestart (ch : ChanId) (w : Word) (s : State) : Res :=
  mgtWrite (.chan ch) 0x300 (w ||| 0x20000) (fun s => s.onChan ch (Chan.thCtl (w ||| 0x20000))) s

/-- A write of CH_SLATE_CTL with INVAL for one entry (R259). -/
def execSlateInval (ch : ChanId) (idx : Fin 32) (s : State) : Res :=
  let w : Word := 0x80000000 ||| BitVec.ofNat 32 idx.val
  mgtWrite (.chan ch) 0x320 w (fun s => s.onChan ch fun _ c => c.slateCtl w) s

/-- A write of CH_SLATE_CTL with INVAL_ALL (R259). -/
def execSlateInvalAll (ch : ChanId) (w : Word) (s : State) : Res :=
  mgtWrite (.chan ch) 0x320 (w ||| 0x40000000) (fun s => s.onChan ch fun _ c => c.slateCtl (w ||| 0x40000000)) s

/-- A read of CH_UE_HI returns and clears the UE record (R259, R402). -/
def execUeRecordRead (ch : ChanId) (s : State) : Res :=
  mgtRead (.chan ch) 0x328 (State.chanRc ch Chan.readUeHi) s

/-- A read of CH_CHIPCNT(s, r, q) returns and clears its chip counters (R240, R259). -/
def execChipcntRead (ch : ChanId) (sub : Sub) (rank : Fin 8) (q : Fin 3) (s : State) : Res :=
  mgtRead (.chan ch) (0x340 + 0x60 * sub.num + 0xC * rank.val + 4 * q.val)
    (State.chanRc ch (Chan.readChips sub rank.val q.val)) s

/-- A read of CH_UPK_HWM returns ABO_CNT and MAXDEBT and reloads MAXDEBT (R189). -/
def execUpkHwmRead (ch : ChanId) (s : State) : Res :=
  mgtRead (.chan ch) 0xF0 (State.chanRc ch Chan.readHwm) s

/-- FWD: a channel physical address into a device address (R69, R70). -/
def execXlateFwd (ch : ChanId) (s : State) : Res :=
  mgtWrite (.chan ch) 0x68 1 (fun s => s.onChan ch fun _ c => c.xlateCtl 1) s

/-- REV: a device address into a channel physical address (R69, R70). -/
def execXlateRev (ch : ChanId) (s : State) : Res :=
  mgtWrite (.chan ch) 0x68 2 (fun s => s.onChan ch fun _ c => c.xlateCtl 2) s

end Sys2Proof.Machine
end

