-- ==== Sys2Proof/Machine/HostCmds.lean ====
section
/-! DEFINITION. The commands of the host lane (04): requests, beats and responses. -/
namespace Sys2Proof.Machine

/-- RD: a line read (R75, R88). -/
def execRd (ch : ChanId) (f : ReqFlit) (s : State) : Res :=
  .next (s.onChan ch (Chan.arrive (.req 1 f)))

/-- RDS: a speculative line read, held until SCONF or SCAN (R75, R93). -/
def execRds (ch : ChanId) (f : ReqFlit) (s : State) : Res :=
  .next (s.onChan ch (Chan.arrive (.req 2 f)))

/-- SCONF: the RDS that holds the tag is confirmed (R94). -/
def execSconf (ch : ChanId) (f : ReqFlit) (s : State) : Res :=
  .next (s.onChan ch (Chan.arrive (.req 3 f)))

/-- SCAN: the RDS that holds the tag is cancelled (R95). -/
def execScan (ch : ChanId) (f : ReqFlit) (s : State) : Res :=
  .next (s.onChan ch (Chan.arrive (.req 4 f)))

/-- RDM: a line read with its metadata (R75, R268). -/
def execRdm (ch : ChanId) (f : ReqFlit) (s : State) : Res :=
  .next (s.onChan ch (Chan.arrive (.req 5 f)))

/-- RDMU: a line read with a compare and store of its metadata (R75, R268). -/
def execRdmu (ch : ChanId) (f : ReqFlit) (s : State) : Res :=
  .next (s.onChan ch (Chan.arrive (.req 6 f)))

/-- WR: a line write, accepted when its beat has come (R75, R78). -/
def execWr (ch : ChanId) (f : ReqFlit) (s : State) : Res :=
  .next (s.onChan ch (Chan.arrive (.req 8 f)))

/-- WRP: a partial write (R75, R144). -/
def execWrp (ch : ChanId) (f : ReqFlit) (s : State) : Res :=
  .next (s.onChan ch (Chan.arrive (.req 9 f)))

/-- WRM: a line write with its metadata (R75, R268). -/
def execWrm (ch : ChanId) (f : ReqFlit) (s : State) : Res :=
  .next (s.onChan ch (Chan.arrive (.req 10 f)))

/-- WRX: a poisoned line, without a beat (R75, R90). -/
def execWrx (ch : ChanId) (f : ReqFlit) (s : State) : Res :=
  .next (s.onChan ch (Chan.arrive (.req 11 f)))

/-- MDR: a metadata read (R75, R268). -/
def execMdr (ch : ChanId) (f : ReqFlit) (s : State) : Res :=
  .next (s.onChan ch (Chan.arrive (.req 12 f)))

/-- MDW: a metadata write (R75, R268). -/
def execMdw (ch : ChanId) (f : ReqFlit) (s : State) : Res :=
  .next (s.onChan ch (Chan.arrive (.req 13 f)))

/-- MDCAS: a metadata compare and store (R75, R268). -/
def execMdcas (ch : ChanId) (f : ReqFlit) (s : State) : Res :=
  .next (s.onChan ch (Chan.arrive (.req 14 f)))

/-- FLUSH: its CMP reports that the covered writes have reached the pins (R92). -/
def execFlush (ch : ChanId) (f : ReqFlit) (s : State) : Res :=
  .next (s.onChan ch (Chan.arrive (.req 16 f)))

/-- A flit with a reserved opcode: ERR BAD_OPCODE (R75, R99). -/
def execBadOpcodeRequest (ch : ChanId) (opcode : BitVec 5) (f : ReqFlit) (s : State) : Res :=
  .next (s.onChan ch (Chan.arrive (.req opcode f)))

/-- A write-data beat completes the oldest expected write of its tag (R78). -/
def execWdatBeat (ch : ChanId) (b : Beat) (s : State) : Res :=
  .next (s.onChan ch (Chan.arrive (.beat b)))

/-- A flit or a beat arrives at a channel that sleeps: the wake store takes it (R319). -/
def execWakeStoreCapture (ch : ChanId) (c : Captured) (s : State) : Res :=
  .next (s.onChan ch (Chan.arrive c))

/-- One HCLK of the lane: a response, credits, or nothing leaves (R80, R83, R199). The HCLK of the block counter, and the
one HCLK for which the management lane presents a response, are those of lane 0 (R112, R377). -/
def execResponseSend (ch : ChanId) (s : State) : Res :=
  let t := s.onChan ch Chan.hclkEdge
  .next (if ch = 0 then ({ t with mgt := { t.mgt with rspV := false } }).blkCount 0xC0 1 else t)

/-- The CMP of a write falls due, 3 HCLK after acceptance (R91). -/
def execCmpSend (ch : ChanId) (s : State) : Res :=
  .next (s.onChan ch fun _ c => c.cmpDue)

/-- A FLUSH whose covered writes have reached the pins gets its CMP (R92). -/
def execFlushComplete (ch : ChanId) (s : State) : Res :=
  .next (s.onChan ch fun _ c => c.flushDone)

end Sys2Proof.Machine
end

