-- ==== Sys2Proof/Machine/LoftCmds.lean ====
section
/-! DEFINITION. The commands of the Loft (11). -/
namespace Sys2Proof.Machine

/-- The oldest metadata operation starts in the Loft: hit, miss or wait (R269 to R273). -/
def execLoftOpStart (ch : ChanId) (s : State) : Res :=
  .next (s.onChan ch Chan.opStart)

/-- A metadata line returns from DRAM: its granule is filled (R273, R279). -/
def execLoftFillReturn (ch : ChanId) (s : State) : Res :=
  .next (s.onChan ch Chan.fillReturn)

/-- The oldest waiting eviction enters the write queue (R275). -/
def execLoftEvictEnqueue (ch : ChanId) (s : State) : Res :=
  .next (s.onChan ch fun _ c => c.evictOut)

/-- The cleaner writes back a dirty granule above DIRTYMAX (R276). -/
def execLoftClean (ch : ChanId) (s : State) : Res :=
  .next (s.onChan ch Chan.clean)

/-- The oldest started operation completes on its valid entry (R269, R270). -/
def execLoftOpComplete (ch : ChanId) (s : State) : Res :=
  .next (s.onChan ch Chan.opComplete)

/-- A write of CH_LOFT_CTL with ON (R264, R287). -/
def execLoftOn (ch : ChanId) (w : Word) (s : State) : Res :=
  mgtTxn { we := true, addr := regAddr (.chan ch) 0xA00, data := w ||| 0x100000 } s

/-- A write of CH_LOFT_CTL without ON: the Loft writes back and empties (R264, R287). -/
def execLoftOff (ch : ChanId) (w : Word) (s : State) : Res :=
  mgtTxn { we := true, addr := regAddr (.chan ch) 0xA00, data := w &&& 0xFFEFFFFF } s

/-- A write of CH_LOFT_CTL with WBALL (R283). -/
def execWball (ch : ChanId) (w : Word) (s : State) : Res :=
  mgtTxn { we := true, addr := regAddr (.chan ch) 0xA00, data := w ||| 0x80000000 } s

/-- A write of CH_LOFT_CTL with REPAIR: the lane holds it until the repair write is in the write queue (R282, R400). -/
def execRepair (ch : ChanId) (w : Word) (s : State) : Res :=
  mgtTxn { we := true, addr := regAddr (.chan ch) 0xA00, data := w ||| 0x40000000 } s

/-- A read of CH_LOFT_REC_HI returns and clears the record (R288, R402). -/
def execLoftRecRead (ch : ChanId) (s : State) : Res :=
  mgtRead (.chan ch) 0xA18 (State.chanRc ch Chan.readLoftRec) s

end Sys2Proof.Machine
end

