-- ==== Sys2Proof/Machine/PhyCmds.lean ====
section
/-! DEFINITION. The commands of the PHY, the trims and the sensors (12). -/
namespace Sys2Proof.Machine

/-- A retrim of a rank falls due (R297). -/
def execRetrimIntervalExpire (ch : ChanId) (sub : Sub) (rank : Nat) (s : State) : Res :=
  .next (s.onChan ch (Chan.retrimDue sub rank))

/-- A retrim pause ends with the results of its probes (R298 to R301). -/
def execRetrimPauseEnd (ch : ChanId) (sub : Sub) (rank : Nat) (probes : List LaneProbe) (s : State) : Res :=
  .next (s.onChan ch (Chan.retrimEnd sub rank probes))

/-- A write of CH_RATE_REQ (R302, R303). -/
def execRateRequestWrite (ch : ChanId) (w : Word) (s : State) : Res :=
  mgtWrite (.chan ch) 0x10 w (fun s => s.onChan ch (Chan.rateWrite w)) s

/-- The fabric asserts QUIET in a shift pause: the clocks may change (R168, R304). -/
def execQuietAssert (ch : ChanId) (s : State) : Res :=
  .next (s.onChan ch fun _ c => c.quietAssert)

/-- The channel PLL has locked at the new rate (R304). -/
def execPllLock (ch : ChanId) (s : State) : Res :=
  .next (s.onChan ch Chan.pllLock)

/-- The shift pause ends at the new rate (R304, R305). -/
def execShiftPauseEnd (ch : ChanId) (lat : Latencies) (s : State) : Res :=
  .next (s.onChan ch (Chan.shiftEnd lat))

/-- The poll of a temperature sensor in Flight (R308). -/
def execSensorPoll (ch : ChanId) (dimm sensor : Fin 2) (temp : BitVec 12) (s : State) : Res :=
  .next (s.onChan ch (Chan.sensorPoll dimm.val sensor.val temp))

/-- A reading after the in-band interrupt of a sensor (R308). -/
def execSensorIbi (ch : ChanId) (dimm sensor : Fin 2) (temp : BitVec 12) (s : State) : Res :=
  .next (s.onChan ch fun _ c => c.sensorIbi dimm.val sensor.val temp)

end Sys2Proof.Machine
end

