-- ==== Sys2Proof/Machine/PowerCmds.lean ====
section
/-! DEFINITION. The commands of power states, levels and isolation (13, 18). -/
namespace Sys2Proof.Machine

/-- A write of CH_STATE_CTL with GO (R313, R314, R320). -/
def execStateGo (ch : ChanId) (w : Word) (s : State) : Res :=
  mgtWrite (.chan ch) 0x0 (w ||| 4) (fun s => s.onChan ch (Chan.stateCtl (w ||| 4))) s

/-- The drain of a power-down ends (R317, R318). -/
def execDrainComplete (ch : ChanId) (s : State) : Res :=
  .next (s.onChan ch fun _ c => c.drainEnd)

/-- A step start of a waking channel (R321). -/
def execStaggerStepStart (ch : ChanId) (s : State) : Res :=
  .next (s.step1 ch)

/-- A transition reaches its state (R313, R315, R316). -/
def execTransitionComplete (ch : ChanId) (s : State) : Res :=
  .next (s.onChan ch Chan.transDone)

/-- A sample of the Tethered duty cycle (R322, R323). -/
def execTetherSample (ch : ChanId) (readings : List (Option (BitVec 12))) (s : State) : Res :=
  .next (s.onChan ch (Chan.tetherSample readings))

/-- A write of BLK_PLEVEL_CTL with GO (R325, R331). -/
def execPlevelGo (w : Word) (s : State) : Res :=
  mgtWrite .blk 0x200 (w ||| 4) (State.plevelCtl (w ||| 4)) s

/-- Every channel is within the lowered clamp (R326, R327). -/
def execClampReached (s : State) : Res :=
  .next s.clampReached

/-- The regulator acknowledges the AVSBus write (R329). -/
def execAvsAck (s : State) : Res :=
  .next s.avsAck

/-- No acknowledgement within the timeout, or a regulator error (R330). -/
def execAvsTimeout (regulatorError : Bool) (s : State) : Res :=
  .next (s.avsTimeout regulatorError)

/-- The settle wait of a level change ends (R326). -/
def execVoltageSettled (s : State) : Res :=
  .next s.settled

/-- ISO_RHP of a lane rises (R334). -/
def execIsoRhpAssert (ch : ChanId) (s : State) : Res :=
  .next (s.onChan ch fun _ c => c.isolate true)

/-- ISO_RHP of a lane falls (R334). -/
def execIsoRhpRelease (ch : ChanId) (s : State) : Res :=
  .next (s.onChan ch fun _ c => c.isolate false)

/-- ISO_BLK changes: it clamps the outputs of the common (R333). -/
def execIsoBlkChange (level : Bool) (s : State) : Res :=
  .next { s with rst := { s.rst with isoBlk := level } }

/-- VRET_IO of a Grounded channel is lost (R417). -/
def execVretIoLost (ch : ChanId) (s : State) : Res :=
  .next (s.onChan ch fun _ c => c.vretLost)

end Sys2Proof.Machine
end

