-- ==== Sys2Proof/Machine/ResetCmds.lean ====
section
/-! DEFINITION. The commands of resets and bring-up (16). -/
namespace Sys2Proof.Machine

/-- PWR_RST_n falls: a cold reset (R380, R381). -/
def execPwrRstAssert (s : State) : Res :=
  .next s.powerReset

/-- PWR_RST_n rises (R381). -/
def execPwrRstRelease (s : State) : Res :=
  .next { s with rst := { s.rst with pwrLow := false } }

/-- The common has left reset: READY sets, and the lane goes on (R381, R400). -/
def execBlockReady (s : State) : Res :=
  .next (if s.rst.pwrLow || s.rst.warm then s else ({ s with rst := { s.rst with ready := true } }).mgtRetry)

/-- A low pulse of WARM_RST_n (R382). -/
def execWarmRst (s : State) : Res :=
  .next s.warmStart

/-- A CHRST bit of BLK_CTL (R382, R394). -/
def execChrst (ch : ChanId) (s : State) : Res :=
  mgtWrite .blk 0x8 (BitVec.ofNat 32 (2 ^ ch.val)) (State.chrstMask (BitVec.ofNat 32 (2 ^ ch.val))) s

/-- The reset sequence of a channel ends, and the lane goes on (R382 to R387, R400). -/
def execResetSequenceEnd (ch : ChanId) (s : State) : Res :=
  .next (s.resetSeqEnd ch).mgtRetry

/-- The SPD read of a bring-up ends (R388, R389). -/
def execSpdReadDone (ch : ChanId) (spd : Option SpdInfo) (s : State) : Res :=
  .next (s.onChan ch (Chan.spdDone spd))

/-- A training step ends (R295, R296, R389). -/
def execTrainingStepDone (ch : ChanId) (r : StepResult) (s : State) : Res :=
  .next (s.onChan ch (Chan.trainStep r))

/-- A bring-up ends (R390 to R393). -/
def execBringUpComplete (ch : ChanId) (lat : Latencies) (rfm : RfmInfo) (s : State) : Res :=
  .next (s.onChan ch (Chan.bringEnd lat rfm))

end Sys2Proof.Machine
end

