-- ==== Sys2Proof/Machine/SchedCmds.lean ====
section
/-! DEFINITION. The commands of the scheduler, the tail, the read path and the battens (05, 06). -/
namespace Sys2Proof.Machine

/-- One KCLK of the channel: ages, upkeep, pauses and the plan of both subchannels (R127 to R148). -/
def execSchedulerPlan (ch : ChanId) (s : State) : Res :=
  .next (s.onChan ch Chan.plan)

/-- One DCLK of the channel: the tail shifts, commits and drives (R131, R160, R164). -/
def execTailShift (ch : ChanId) (s : State) : Res :=
  .next (s.onChan ch Chan.shiftTail)

/-- The timing that keeps a bank OPENING, CLOSING or REFRESHING has run out (R120). -/
def execBankTimingExpire (ch : ChanId) (b : Bank) (s : State) : Res :=
  .next (s.onChan ch fun _ c => c.expire b)

/-- A read reaches its next urgency threshold (R124). -/
def execUrgencyEscalate (ch : ChanId) (seq : Nat) (s : State) : Res :=
  .next (s.onChan ch fun _ c => c.escalate seq)

/-- The read path captures the next burst of a subchannel (R225, R97, R244). -/
def execLineCaptured (ch : ChanId) (sub : Sub) (w : PinBurst) (crcOk : Bool) (s : State) : Res :=
  .next (s.onChan ch (Chan.capture sub w crcOk))

/-- The decoder classifies the oldest captured word of a subchannel (R217 to R221, R235). -/
def execDecodeClassify (ch : ChanId) (sub : Sub) (s : State) : Res :=
  .next (s.onChan ch (Chan.classify sub))

/-- A partial write merges with the word its merge read brought (R144). -/
def execMergeComplete (ch : ChanId) (seq : Nat) (s : State) : Res :=
  .next (s.onChan ch fun _ c => c.mergeDone seq)

/-- A write-queue entry is released: its burst is on the pins and no window is open (R117, R249). -/
def execWriteRelease (ch : ChanId) (seq : Nat) (s : State) : Res :=
  .next (s.onChan ch fun _ c => c.releaseWr seq)

/-- The oldest waiting patch write or poison write-back enters the write queue (R241, R243). -/
def execPatchWriteEnqueue (ch : ChanId) (s : State) : Res :=
  .next (s.onChan ch fun _ c => c.patchEnter)

/-- PHOLD of a Slate entry clears one millisecond after it was set (R242). -/
def execPholdExpire (ch : ChanId) (idx : Fin 32) (s : State) : Res :=
  .next (s.onChan ch (Chan.pholdExpire idx.val))

/-- The shadow audit finds a committed command that a batten forbids (R169, R170). -/
def execAuditViolation (ch : ChanId) (batten : Fin 128) (cls : CmdClass) (sub : Sub) (rank lrank short : Nat) (s : State) : Res :=
  .next (s.onChan ch fun _ c => c.auditFail batten.val cls sub rank lrank short)

/-- CH_AUDIT_CTL.ENABLE is written 1 (R171). -/
def execAuditEnable (ch : ChanId) (s : State) : Res :=
  mgtWrite (.chan ch) 0xC8 1 (fun s => s.onChan ch fun _ c => c.setAudit 1) s

/-- The audit file holds a full history again (R171). -/
def execAuditHistoryFull (ch : ChanId) (s : State) : Res :=
  .next (s.onChan ch fun _ c => c.auditFull)

/-- A write of CH_SCHED_CTL or CH_SCHED_URG (R149, R150). -/
def execSchedCtlWrite (ch : ChanId) (reg : SchedReg) (w : Word) (s : State) : Res :=
  match reg with
  | .ctl => mgtWrite (.chan ch) 0x80 w (fun s => s.onChan ch fun _ c => c.schedWrite .ctl w) s
  | .urg => mgtWrite (.chan ch) 0x84 w (fun s => s.onChan ch fun _ c => c.schedWrite .urg w) s

end Sys2Proof.Machine
end

