-- ==== Sys2Proof/Machine/SeqCmds.lean ====
section
/-! DEFINITION. The commands of the sequencer, the mailboxes and the check-value unit (14). -/
namespace Sys2Proof.Machine

/-- GO in CH_MBX_IN_CTL (R342). -/
def execMbxInGo (ch : ChanId) (s : State) : Res :=
  mgtWrite (.chan ch) 0x140 1 (fun s => s.onChan ch fun _ c => c.inCtl 1) s

/-- The sequencer takes the inbound request: checks, duplicate, dispatch (R342 to R344). -/
def execMbxRequestServe (ch : ChanId) (s : State) : Res :=
  .next (s.onChan ch fun _ c => c.mbxServe)

/-- The sequencer serves STATUS (R347). -/
def execStatus (ch : ChanId) (s : State) : Res :=
  .next (s.onChan ch fun _ c => c.doStatus)

/-- The sequencer serves SB_READ (R347). -/
def execSbRead (ch : ChanId) (s : State) : Res :=
  .next (s.onChan ch fun _ c => c.doSbRead)

/-- The sequencer serves SB_WRITE (R347). -/
def execSbWrite (ch : ChanId) (s : State) : Res :=
  .next (s.onChan ch fun _ c => c.doSbWrite)

/-- The sequencer serves SELFTEST (R347, R349). -/
def execSelftest (ch : ChanId) (s : State) : Res :=
  .next (s.onChan ch Chan.doSelftest)

/-- The sequencer serves SELFTEST_ABORT (R347). -/
def execSelftestAbort (ch : ChanId) (s : State) : Res :=
  .next (s.onChan ch fun _ c => c.doAbortTest)

/-- The sequencer serves ZQ_NOW (R347). -/
def execZqNow (ch : ChanId) (s : State) : Res :=
  .next (s.onChan ch Chan.doZqNow)

/-- The sequencer serves RETRIM (R347). -/
def execRetrim (ch : ChanId) (s : State) : Res :=
  .next (s.onChan ch Chan.doRetrim)

/-- The sequencer serves MEM_CLEAR (R263, R347). -/
def execMemClear (ch : ChanId) (s : State) : Res :=
  .next (s.onChan ch fun _ c => c.doMemClear)

/-- The work of a request ends: its reply is written (R347). -/
def execMbxInDone (ch : ChanId) (r : SbResult) (s : State) : Res :=
  .next (s.onChan ch fun _ c => c.mbxInDone r)

/-- A pause of the self-test, with what its reads returned (R349). -/
def execSelftestPause (ch : ChanId) (lines : List TestLine) (s : State) : Res :=
  .next (s.onChan ch (Chan.testPause lines))

/-- The self-test ends with SELFTEST_DONE (R350). -/
def execSelftestDone (ch : ChanId) (s : State) : Res :=
  .next (s.onChan ch fun _ c => c.testDone)

/-- The memory clear ends with CLEAR_DONE (R263, R347). -/
def execClearDone (ch : ChanId) (s : State) : Res :=
  .next (s.onChan ch fun _ c => c.clearDone)

/-- The sequencer delivers the oldest queued message (R345). -/
def execOutboundDeliver (ch : ChanId) (s : State) : Res :=
  .next (s.onChan ch fun _ c => c.deliver)

/-- ACK in CH_MBX_OUT_CTL (R345). -/
def execMbxOutAck (ch : ChanId) (s : State) : Res :=
  mgtWrite (.chan ch) 0x1C0 1 (fun s => s.onChan ch fun _ c => c.outCtl 1) s

/-- A write of CH_MBX_LPTR with GO (R351). -/
def execLegacyGo (ch : ChanId) (w : Word) (s : State) : Res :=
  mgtWrite (.chan ch) 0x1D0 (w ||| 0x80000000) (fun s => s.onChan ch fun _ c => c.lptrWrite (w ||| 0x80000000)) s

/-- A write of CH_MBX_LPTR with ACK (R351). -/
def execLegacyAck (ch : ChanId) (w : Word) (s : State) : Res :=
  mgtWrite (.chan ch) 0x1D0 (w ||| 0x40000000) (fun s => s.onChan ch fun _ c => c.lptrWrite (w ||| 0x40000000)) s

/-- A write or a read of CH_MBX_LDATA (R351). -/
def execLegacyDataAccess (ch : ChanId) (we : Bool) (w : Word) (s : State) : Res :=
  if we then mgtWrite (.chan ch) 0x1D4 w (fun s => s.onChan ch fun _ c => c.ldataWrite w) s
  else mgtRead (.chan ch) 0x1D4 (State.chanRc ch Chan.ldataRead) s

/-- A write of CH_FENCE (R348). -/
def execFenceWrite (ch : ChanId) (w : Word) (s : State) : Res :=
  mgtWrite (.chan ch) 0x18 w (fun s => s.onChan ch fun _ c => c.setFence w) s

/-- DONE of a fenced rank sets once its queues are empty (R348). -/
def execFenceDone (ch : ChanId) (rank : Fin 8) (s : State) : Res :=
  .next (s.onChan ch fun _ c => c.fenceSettle rank.val)

/-- A write of CH_CV_CFG with START (R352, R355). -/
def execCvStart (ch : ChanId) (w : Word) (s : State) : Res :=
  mgtWrite (.chan ch) 0x808 (w ||| 0x80) (fun s => s.onChan ch fun _ c => c.cvWrite (CvUnit.cfg (w ||| 0x80))) s

/-- A write of CH_CV_IN (R352). -/
def execCvIn (ch : ChanId) (w : Word) (s : State) : Res :=
  mgtWrite (.chan ch) 0x824 w (fun s => s.onChan ch fun _ c => c.cvWrite (CvUnit.input w)) s

end Sys2Proof.Machine
end

