-- ==== Sys2Proof/Machine/TrussCmds.lean ====
section
/-! DEFINITION. The commands of the Truss loader and of the register space (02, 17). -/
namespace Sys2Proof.Machine

/-- START in BLK_TRUSS_CTL (R50, R54, R429). -/
def execTrussStart (s : State) : Res :=
  mgtWrite .blk 0x100 1 (State.trussCtl 1) s

/-- A write of the last word of the load window submits the frame (R32, R44). -/
def execTrussFrameSubmit (w : Word) (s : State) : Res :=
  mgtTxn { we := true, addr := 0xF0003C, data := w } s

/-- COMMIT in BLK_TRUSS_CTL (R50, R51). -/
def execTrussCommit (s : State) : Res :=
  mgtWrite .blk 0x100 2 (State.trussCtl 2) s

/-- The clock measurement of a commit ends, with the HCLK cycles counted and the first and the other samples of the phase in
steps of 5 ps (R20, R21); the commit passes or is refused (R51, R52), and the lane goes on (R400). -/
def execCommitComplete (hclkCount first : Nat) (rest : List Nat) (s : State) : Res :=
  .next (s.commitEnd hclkCount (first :: rest)).mgtRetry

/-- ABORT in BLK_TRUSS_CTL (R45, R50). -/
def execTrussAbort (s : State) : Res :=
  mgtWrite .blk 0x100 4 (State.trussCtl 4) s

/-- A write on the management lane (R7, R395, R399, R400). -/
def execRegisterWrite (addr : BitVec 24) (w : Word) (s : State) : Res :=
  mgtTxn { we := true, addr := addr, data := w } s

/-- A read on the management lane (R395, R399 to R401). -/
def execRegisterRead (addr : BitVec 24) (s : State) : Res :=
  mgtTxn { we := false, addr := addr, data := 0 } s

end Sys2Proof.Machine
end

