-- ==== Sys2Proof/Machine/UpkeepCmds.lean ====
section
/-! DEFINITION. The commands of refresh and upkeep (07). -/
namespace Sys2Proof.Machine

/-- A refresh tick of a logical rank (R172, R173). -/
def execRefreshTick (ch : ChanId) (sub : Sub) (rank lrank : Nat) (s : State) : Res :=
  .next (s.onChan ch (Chan.refreshTick sub rank lrank))

/-- A write of CH_UPK_CTL.POSTPONE (R189, R430). -/
def execPostponeWrite (ch : ChanId) (w : Word) (s : State) : Res :=
  mgtWrite (.chan ch) 0xE0 w (fun s => s.onChan ch fun _ c => c.setPostpone w) s

/-- A temperature poll of a logical rank falls due (R176). -/
def execTempPoll (ch : ChanId) (sub : Sub) (rank lrank : Nat) (s : State) : Res :=
  .next (s.onChan ch (Chan.tempPoll sub rank lrank))

/-- The mode register that a temperature poll read (R176). -/
def execTempPollResult (ch : ChanId) (sub : Sub) (rank lrank : Nat) (r : TempReading) (s : State) : Res :=
  .next (s.onChan ch (Chan.tempResult sub rank lrank r))

/-- ALERT_n of a subchannel falls (R180, R244, R246). -/
def execAlertAssert (ch : ChanId) (sub : Sub) (s : State) : Res :=
  .next (s.onChan ch (Chan.alert sub))

/-- The RFMab commands that a back-off owed a logical rank are done (R180). -/
def execBackoffRelease (ch : ChanId) (sub : Sub) (rank lrank : Nat) (s : State) : Res :=
  .next (s.onChan ch (Chan.backoffRelease sub rank lrank))

/-- The delay after a back-off has passed (R180). -/
def execBackoffDelayExpire (ch : ChanId) (sub : Sub) (s : State) : Res :=
  .next (s.onChan ch (Chan.backoffDelayEnd sub))

/-- A ZQ calibration of a rank falls due (R181). -/
def execZqIntervalExpire (ch : ChanId) (sub : Sub) (rank : Nat) (s : State) : Res :=
  .next (s.onChan ch (Chan.zqDue sub rank))

/-- tZQCAL of a rank has passed: its latch pause is asked for (R181). -/
def execZqcalDone (ch : ChanId) (sub : Sub) (rank : Nat) (s : State) : Res :=
  .next (s.onChan ch (Chan.zqcalDone sub rank))

/-- A rank has been idle for the Glide time: PDE (R184). -/
def execGlideIdleExpire (ch : ChanId) (sub : Sub) (rank : Nat) (s : State) : Res :=
  .next (s.onChan ch (Chan.glideDue sub rank))

end Sys2Proof.Machine
end

