-- ==== Sys2Proof/Machine/Dispatch.lean ====
section
/-! DEFINITION. The dispatch: one arm for each command, each a direct call of its meaning. -/
namespace Sys2Proof.Machine

/-- The effect of a command on everything but the queue of waiting commands. -/
def exec (i : Instr) (s : State) : Host.Outcome State Fault Refusal :=
  match i with
  | .rd ch f => Sys2Proof.Machine.execRd ch f s
  | .rds ch f => Sys2Proof.Machine.execRds ch f s
  | .sconf ch f => Sys2Proof.Machine.execSconf ch f s
  | .scan ch f => Sys2Proof.Machine.execScan ch f s
  | .rdm ch f => Sys2Proof.Machine.execRdm ch f s
  | .rdmu ch f => Sys2Proof.Machine.execRdmu ch f s
  | .wr ch f => Sys2Proof.Machine.execWr ch f s
  | .wrp ch f => Sys2Proof.Machine.execWrp ch f s
  | .wrm ch f => Sys2Proof.Machine.execWrm ch f s
  | .wrx ch f => Sys2Proof.Machine.execWrx ch f s
  | .mdr ch f => Sys2Proof.Machine.execMdr ch f s
  | .mdw ch f => Sys2Proof.Machine.execMdw ch f s
  | .mdcas ch f => Sys2Proof.Machine.execMdcas ch f s
  | .flush ch f => Sys2Proof.Machine.execFlush ch f s
  | .badOpcodeRequest ch opcode f => Sys2Proof.Machine.execBadOpcodeRequest ch opcode f s
  | .wdatBeat ch b => Sys2Proof.Machine.execWdatBeat ch b s
  | .wakeStoreCapture ch c => Sys2Proof.Machine.execWakeStoreCapture ch c s
  | .responseSend ch => Sys2Proof.Machine.execResponseSend ch s
  | .cmpSend ch => Sys2Proof.Machine.execCmpSend ch s
  | .flushComplete ch => Sys2Proof.Machine.execFlushComplete ch s
  | .schedulerPlan ch => Sys2Proof.Machine.execSchedulerPlan ch s
  | .tailShift ch => Sys2Proof.Machine.execTailShift ch s
  | .bankTimingExpire ch b => Sys2Proof.Machine.execBankTimingExpire ch b s
  | .urgencyEscalate ch seq => Sys2Proof.Machine.execUrgencyEscalate ch seq s
  | .lineCaptured ch sub w crcOk => Sys2Proof.Machine.execLineCaptured ch sub w crcOk s
  | .decodeClassify ch sub => Sys2Proof.Machine.execDecodeClassify ch sub s
  | .mergeComplete ch seq => Sys2Proof.Machine.execMergeComplete ch seq s
  | .writeRelease ch seq => Sys2Proof.Machine.execWriteRelease ch seq s
  | .patchWriteEnqueue ch => Sys2Proof.Machine.execPatchWriteEnqueue ch s
  | .pholdExpire ch idx => Sys2Proof.Machine.execPholdExpire ch idx s
  | .auditViolation ch batten cls sub rank lrank short => Sys2Proof.Machine.execAuditViolation ch batten cls sub rank lrank short s
  | .auditEnable ch => Sys2Proof.Machine.execAuditEnable ch s
  | .auditHistoryFull ch => Sys2Proof.Machine.execAuditHistoryFull ch s
  | .schedCtlWrite ch reg w => Sys2Proof.Machine.execSchedCtlWrite ch reg w s
  | .refreshTick ch sub rank lrank => Sys2Proof.Machine.execRefreshTick ch sub rank lrank s
  | .postponeWrite ch w => Sys2Proof.Machine.execPostponeWrite ch w s
  | .tempPoll ch sub rank lrank => Sys2Proof.Machine.execTempPoll ch sub rank lrank s
  | .tempPollResult ch sub rank lrank r => Sys2Proof.Machine.execTempPollResult ch sub rank lrank r s
  | .alertAssert ch sub => Sys2Proof.Machine.execAlertAssert ch sub s
  | .backoffRelease ch sub rank lrank => Sys2Proof.Machine.execBackoffRelease ch sub rank lrank s
  | .backoffDelayExpire ch sub => Sys2Proof.Machine.execBackoffDelayExpire ch sub s
  | .zqIntervalExpire ch sub rank => Sys2Proof.Machine.execZqIntervalExpire ch sub rank s
  | .zqcalDone ch sub rank => Sys2Proof.Machine.execZqcalDone ch sub rank s
  | .glideIdleExpire ch sub rank => Sys2Proof.Machine.execGlideIdleExpire ch sub rank s
  | .ballastWindow => Sys2Proof.Machine.execBallastWindow s
  | .ripcordReqRise => Sys2Proof.Machine.execRipcordReqRise s
  | .channelCapped ch => Sys2Proof.Machine.execChannelCapped ch s
  | .ripcordReqFall => Sys2Proof.Machine.execRipcordReqFall s
  | .rampStep => Sys2Proof.Machine.execRampStep s
  | .flipArm ch w => Sys2Proof.Machine.execFlipArm ch w s
  | .flipDisarm ch w => Sys2Proof.Machine.execFlipDisarm ch w s
  | .chipmarkWrite ch w => Sys2Proof.Machine.execChipmarkWrite ch w s
  | .thatcherInterval ch => Sys2Proof.Machine.execThatcherInterval ch s
  | .thatcherReadPlace ch => Sys2Proof.Machine.execThatcherReadPlace ch s
  | .thatcherRestart ch w => Sys2Proof.Machine.execThatcherRestart ch w s
  | .slateInval ch idx => Sys2Proof.Machine.execSlateInval ch idx s
  | .slateInvalAll ch w => Sys2Proof.Machine.execSlateInvalAll ch w s
  | .ueRecordRead ch => Sys2Proof.Machine.execUeRecordRead ch s
  | .chipcntRead ch sub rank q => Sys2Proof.Machine.execChipcntRead ch sub rank q s
  | .upkHwmRead ch => Sys2Proof.Machine.execUpkHwmRead ch s
  | .xlateFwd ch => Sys2Proof.Machine.execXlateFwd ch s
  | .xlateRev ch => Sys2Proof.Machine.execXlateRev ch s
  | .loftOpStart ch => Sys2Proof.Machine.execLoftOpStart ch s
  | .loftFillReturn ch => Sys2Proof.Machine.execLoftFillReturn ch s
  | .loftEvictEnqueue ch => Sys2Proof.Machine.execLoftEvictEnqueue ch s
  | .loftClean ch => Sys2Proof.Machine.execLoftClean ch s
  | .loftOpComplete ch => Sys2Proof.Machine.execLoftOpComplete ch s
  | .loftOn ch w => Sys2Proof.Machine.execLoftOn ch w s
  | .loftOff ch w => Sys2Proof.Machine.execLoftOff ch w s
  | .wball ch w => Sys2Proof.Machine.execWball ch w s
  | .repair ch w => Sys2Proof.Machine.execRepair ch w s
  | .loftRecRead ch => Sys2Proof.Machine.execLoftRecRead ch s
  | .retrimIntervalExpire ch sub rank => Sys2Proof.Machine.execRetrimIntervalExpire ch sub rank s
  | .retrimPauseEnd ch sub rank probes => Sys2Proof.Machine.execRetrimPauseEnd ch sub rank probes s
  | .rateRequestWrite ch w => Sys2Proof.Machine.execRateRequestWrite ch w s
  | .quietAssert ch => Sys2Proof.Machine.execQuietAssert ch s
  | .pllLock ch => Sys2Proof.Machine.execPllLock ch s
  | .shiftPauseEnd ch lat => Sys2Proof.Machine.execShiftPauseEnd ch lat s
  | .sensorPoll ch dimm sensor temp => Sys2Proof.Machine.execSensorPoll ch dimm sensor temp s
  | .sensorIbi ch dimm sensor temp => Sys2Proof.Machine.execSensorIbi ch dimm sensor temp s
  | .stateGo ch w => Sys2Proof.Machine.execStateGo ch w s
  | .drainComplete ch => Sys2Proof.Machine.execDrainComplete ch s
  | .staggerStepStart ch => Sys2Proof.Machine.execStaggerStepStart ch s
  | .transitionComplete ch => Sys2Proof.Machine.execTransitionComplete ch s
  | .tetherSample ch readings => Sys2Proof.Machine.execTetherSample ch readings s
  | .plevelGo w => Sys2Proof.Machine.execPlevelGo w s
  | .clampReached => Sys2Proof.Machine.execClampReached s
  | .avsAck => Sys2Proof.Machine.execAvsAck s
  | .avsTimeout regulatorError => Sys2Proof.Machine.execAvsTimeout regulatorError s
  | .voltageSettled => Sys2Proof.Machine.execVoltageSettled s
  | .isoRhpAssert ch => Sys2Proof.Machine.execIsoRhpAssert ch s
  | .isoRhpRelease ch => Sys2Proof.Machine.execIsoRhpRelease ch s
  | .isoBlkChange level => Sys2Proof.Machine.execIsoBlkChange level s
  | .mbxInGo ch => Sys2Proof.Machine.execMbxInGo ch s
  | .mbxRequestServe ch => Sys2Proof.Machine.execMbxRequestServe ch s
  | .status ch => Sys2Proof.Machine.execStatus ch s
  | .sbRead ch => Sys2Proof.Machine.execSbRead ch s
  | .sbWrite ch => Sys2Proof.Machine.execSbWrite ch s
  | .selftest ch => Sys2Proof.Machine.execSelftest ch s
  | .selftestAbort ch => Sys2Proof.Machine.execSelftestAbort ch s
  | .zqNow ch => Sys2Proof.Machine.execZqNow ch s
  | .retrim ch => Sys2Proof.Machine.execRetrim ch s
  | .memClear ch => Sys2Proof.Machine.execMemClear ch s
  | .selftestPause ch lines => Sys2Proof.Machine.execSelftestPause ch lines s
  | .selftestDone ch => Sys2Proof.Machine.execSelftestDone ch s
  | .clearDone ch => Sys2Proof.Machine.execClearDone ch s
  | .outboundDeliver ch => Sys2Proof.Machine.execOutboundDeliver ch s
  | .mbxOutAck ch => Sys2Proof.Machine.execMbxOutAck ch s
  | .legacyGo ch w => Sys2Proof.Machine.execLegacyGo ch w s
  | .legacyAck ch w => Sys2Proof.Machine.execLegacyAck ch w s
  | .legacyDataAccess ch we w => Sys2Proof.Machine.execLegacyDataAccess ch we w s
  | .fenceWrite ch w => Sys2Proof.Machine.execFenceWrite ch w s
  | .fenceDone ch rank => Sys2Proof.Machine.execFenceDone ch rank s
  | .cvStart ch w => Sys2Proof.Machine.execCvStart ch w s
  | .cvIn ch w => Sys2Proof.Machine.execCvIn ch w s
  | .evqSwap => Sys2Proof.Machine.execEvqSwap s
  | .evqLoRead => Sys2Proof.Machine.execEvqLoRead s
  | .evqHiRead => Sys2Proof.Machine.execEvqHiRead s
  | .evqFlush => Sys2Proof.Machine.execEvqFlush s
  | .clrFatal => Sys2Proof.Machine.execClrFatal s
  | .stickyRead ch => Sys2Proof.Machine.execStickyRead ch s
  | .counterAdd => Sys2Proof.Machine.execCounterAdd s
  | .cntWhiWrite p w => Sys2Proof.Machine.execCntWhiWrite p w s
  | .ovfClr p w => Sys2Proof.Machine.execOvfClr p w s
  | .freeze p w => Sys2Proof.Machine.execFreeze p w s
  | .uCntLoRead n k => Sys2Proof.Machine.execUCntLoRead n k s
  | .wideAddrWrite p w => Sys2Proof.Machine.execWideAddrWrite p w s
  | .pwrRstAssert => Sys2Proof.Machine.execPwrRstAssert s
  | .pwrRstRelease => Sys2Proof.Machine.execPwrRstRelease s
  | .blockReady => Sys2Proof.Machine.execBlockReady s
  | .warmRst => Sys2Proof.Machine.execWarmRst s
  | .chrst ch => Sys2Proof.Machine.execChrst ch s
  | .resetSequenceEnd ch => Sys2Proof.Machine.execResetSequenceEnd ch s
  | .spdReadDone ch spd => Sys2Proof.Machine.execSpdReadDone ch spd s
  | .trainingStepDone ch r => Sys2Proof.Machine.execTrainingStepDone ch r s
  | .bringUpComplete ch lat rfm => Sys2Proof.Machine.execBringUpComplete ch lat rfm s
  | .trussStart => Sys2Proof.Machine.execTrussStart s
  | .trussFrameSubmit w => Sys2Proof.Machine.execTrussFrameSubmit w s
  | .trussCommit => Sys2Proof.Machine.execTrussCommit s
  | .commitComplete hclkCount first rest => Sys2Proof.Machine.execCommitComplete hclkCount first rest s
  | .trussAbort => Sys2Proof.Machine.execTrussAbort s
  | .registerWrite addr w => Sys2Proof.Machine.execRegisterWrite addr w s
  | .registerRead addr => Sys2Proof.Machine.execRegisterRead addr s
  | .mbxInDone ch r => Sys2Proof.Machine.execMbxInDone ch r s
  | .vretIoLost ch => Sys2Proof.Machine.execVretIoLost ch s

end Sys2Proof.Machine
end

