-- ==== Sys2Proof/Machine/Step.lean ====
section
/-! DEFINITION. One step: the command at the front of the queue runs; on an empty queue a REFCLK cycle passes. -/
namespace Sys2Proof.Machine

/-- One step of the block. The command at the front of the queue is taken and executed; with no command waiting, one
cycle of REFCLK passes, which the block's counters may count (R377, log entry 2). -/
def step (s : State) : Host.Outcome State Fault Refusal :=
  match s.pending with
  | [] => .next (({ s with now := s.now + 1 }).blkCount 0xC1 1)
  | c :: cs => exec c { s with pending := cs }

/-- The state with the command that `w` spells at the front of its queue; unchanged where the word spells none. -/
def State.withFetchWord (s : State) (nbits w : Nat) : State :=
  match Sys2Proof.decodeTableWord nbits w with
  | none => s
  | some c => { s with pending := c :: s.pending }

end Sys2Proof.Machine
end

