-- ==== Sys2Proof/Safety.lean ====
section
/-! DEFINITION. What counts as a safe step and a safe run, and the terms in which the statements say what a command leaves
alone, when the management lane takes a transaction, and what every step keeps. -/
namespace Sys2Proof.Machine

/-- A step that answers a next state: neither a fault nor a refusal. -/
def Safe (s : State) : Prop := ∃ t, step s = .next t

/-- Every one of `n` steps answers a next state. -/
def SafeRun : Nat → State → Prop
  | 0, _ => True
  | n + 1, s => ∃ t, step s = .next t ∧ SafeRun n t

/-- The channel is between commands: no event and no occurrence of a command under way is left over, and the management
lane waits for no REPAIR of it. -/
def State.Rest (s : State) (ch : ChanId) : Prop :=
  (s.chan ch).evOut = [] ∧ (s.chan ch).occ = [] ∧ s.mgt.repair ≠ some ch

/-- No event and no occurrence of a command under way is left over, of a channel and of every channel. -/
def Chan.Quiet (c : Chan) : Prop := c.evOut = [] ∧ c.occ = []
def State.Quiet (s : State) : Prop := ∀ ch, (s.chan ch).Quiet

/-- No channel waits for the end of a change or of a shift with a request behind it, and each is between commands. -/
def State.NoneWaits (s : State) : Prop := ∀ ch, s.Rest ch ∧ (s.chan ch).power.pend = none

/-- Two states agree on everything of the block that lies outside channel `ch`, the event queue and the performance
counters of the block page, which a channel's command may reach (R22, R23). -/
def SameOutside (ch : ChanId) (s t : State) : Prop :=
  (∀ k, k ≠ ch → t.chan k = s.chan k) ∧ t.pending = s.pending ∧ t.img = s.img ∧ t.loader = s.loader ∧ t.lvl = s.lvl ∧
    t.wide = s.wide ∧ t.mgt = s.mgt ∧ t.rst = s.rst ∧ t.tsBase = s.tsBase ∧ t.now = s.now ∧ t.rclk = s.rclk ∧
    t.winNext = s.winNext

/-- A command of channel `ch` left that channel as `c`, but for its performance counters, which gather the command's
occurrences (R372), and changed nothing outside it. -/
def Became (ch : ChanId) (s t : State) (c : Chan) : Prop :=
  SameOutside ch s t ∧ ∃ k, t.chan ch = { c with cnt := k, evOut := [], occ := [] }

/-- The management lane takes a transaction: none is outstanding, and nothing of R400 holds it. -/
def State.Takes (s : State) (t : MgtTxn) : Prop := s.mgt.held = none ∧ mgtHeld s t = false

/-- A write, and a read, of an offset of a page. -/
def wrTxn (p : Page) (off : Nat) (w : Word) : MgtTxn := { we := true, addr := regAddr p off, data := w }
def rdTxn (p : Page) (off : Nat) : MgtTxn := { we := false, addr := regAddr p off, data := 0 }

/-- The management lane answers OK with read data `w` (R112, R114). -/
def State.Answers (t : State) (w : Word) : Prop :=
  t.mgt.held = none ∧ t.mgt.rspV = true ∧ t.mgt.rspErr = false ∧ t.mgt.rdata = w

/-! ### The lane -/

/-- The request command of a read, a write and a metadata opcode. -/
def RdOp.cmd (ch : ChanId) (f : ReqFlit) : RdOp → Instr
  | .rd => .rd ch f
  | .rds => .rds ch f
  | .rdm => .rdm ch f
  | .rdmu => .rdmu ch f
def WrOp.cmd (ch : ChanId) (f : ReqFlit) : WrOp → Instr
  | .wr => .wr ch f
  | .wrp => .wrp ch f
  | .wrm => .wrm ch f
  | .wrx => .wrx ch f
def MdOp.cmd (ch : ChanId) (f : ReqFlit) : MdOp → Instr
  | .mdr => .mdr ch f
  | .mdw => .mdw ch f
  | .mdcas => .mdcas ch f

/-- The command that a request flit with OPCODE `op` makes. -/
def laneCmd (ch : ChanId) (op : BitVec 5) (f : ReqFlit) : Instr :=
  match reqOpOf op.toNat with
  | .read o => o.cmd ch f
  | .write o => o.cmd ch f
  | .md o => o.cmd ch f
  | .sconf => .sconf ch f
  | .scan => .scan ch f
  | .flush => .flush ch f
  | .bad => .badOpcodeRequest ch op f

/-- An ERR response (R80, R99). -/
def errRsp (f : ReqFlit) (op : ReqOp) (code due : Nat) : Rsp :=
  { plainRsp .err f.tag code due (hostClass f.cls.toNat) with priv := f.priv.toNat, req := op.ty, laddr := f.laddr }

/-- The beat that is still expected of a write that was answered with ERR (R100). -/
def deadBeat (op : ReqOp) (f : ReqFlit) : List BeatExp := if op.hasBeat then [{ tag := f.tag, wr := none }] else []

/-- The wake request of a host access (R319). -/
def hostWake : PReq := { tgt := .flight, keep := false, wake := { source := 2, dimm := 0, sensor := 0, temp := 0 } }

/-- The wake store is full for a flit, or for a beat, which may come with every request stored (R319). -/
def Chan.wakeFull (c : Chan) (x : Captured) : Bool :=
  if capIsReq x then decide (176 ≤ countWhere capIsReq c.lane.wake)
  else decide (120 + countWhere capIsReq c.lane.wake ≤ c.lane.wake.length)

/-- The flit that carries a response, a grant and write-data credits, without CRST (R80, R83, R199). -/
def flitOf (r : Rsp) (g : Option (Nat × Nat)) (w : Nat) : RspFlit :=
  { rsp := r, crst := false, rclass := (g.getD (0, 0)).1, rcount := (g.getD (0, 0)).2, wcount := w }

/-- The lane takes what arrives: it is not isolated (R334), and its channel is awake (R319) and up (R103). -/
def Chan.Open (c : Chan) : Prop := c.lane.iso = false ∧ c.asleep = false ∧ c.down = false

/-- Ingress admits a request: the credits it needs are held (R76, R85), its tag is free (R84), and no cause of an ERR applies
(R99, R100). -/
def Chan.Admits (c : Chan) (op : ReqOp) (f : ReqFlit) : Prop :=
  c.Open ∧ 0 < nth0 c.lane.held (hostClass f.cls.toNat) ∧ (op.isWrite = true → 0 < c.lane.wheld) ∧
    f.tag ∉ c.lane.inUse ∧ c.reqError op f.laddr = none

/-- What admitting a request changes: its credits are consumed, its class has made use of the window, its tag is in use, and
the request is counted (R76, R84, R194, R376). -/
def Chan.admitted (c : Chan) (op : ReqOp) (f : ReqFlit) : Chan :=
  { c with
    lane := { c.lane with
      held := updateAt (hostClass f.cls.toNat) (· - 1) c.lane.held,
      wheld := if op.isWrite then c.lane.wheld - 1 else c.lane.wheld, inUse := c.lane.inUse ++ [f.tag] },
    bal := c.bal.use (hostClass f.cls.toNat),
    occ := c.occ ++ [occR 0x02 (c.devOf (op.strip f).laddr).bank.sub.num (hostClass f.cls.toNat) f.priv.toNat op.ty
      (op.strip f).laddr] }

/-- The metadata part of a request, as it enters the Loft's input (R268). -/
def mdOp (op : ReqOp) (f : ReqFlit) (seq : Nat) : LoftOp :=
  { kind := op.mdKind, seq := seq, tag := f.tag, cls := hostClass f.cls.toNat, priv := f.priv.toNat, age := 0,
    laddr := f.laddr, mdnew := f.mdnew, mdexp := f.mdexp, stage := .input, lineDone := false, sent := false }

/-- The Loft with the metadata part of a request, if it has one. -/
def Loft.withOp (l : Loft) (op : ReqOp) (f : ReqFlit) (seq : Nat) : Loft :=
  if op.hasMd then { l with ops := l.ops ++ [mdOp op f seq] } else l

/-- The read entry of an accepted line read. -/
def Chan.newRead (c : Chan) (o : RdOp) (f : ReqFlit) : RdEntry :=
  mkRd c.nextSeq (.host o) f.tag (hostClass f.cls.toNat) f.priv.toNat f.early (f.spec || o == .rds) f.laddr (c.devOf f.laddr)
    0 (if o = .rds then .unresolved else .na)

/-- Every occurrence of a list is an entry into DRAIN, which what a command changes in the queues may bring about (R126,
R376). -/
def Drains (q : List Occ) : Prop := ∀ x ∈ q, x.code = 0x12

/-- The write entry of an accepted write, before it is placed. -/
def Chan.newWrite (c : Chan) (w : WaitWr) (data : Line) (be : BitVec 64) (psn : Bool) : WrEntry :=
  mkWr w.seq .host
    [{ tag := w.f.tag, op := w.op, cls := hostClass w.f.cls.toNat, priv := w.f.priv.toNat, seq := w.seq, cmpSent := false }]
    (hostClass w.f.cls.toNat) w.f.laddr (c.devOf w.f.laddr) data be psn

/-! ### Upkeep and bring-up -/

/-- A ZQ pause that has been asked for (R183). -/
def zqPause (k : PauseKind) (sb : Sub) (r n : Nat) : Pause :=
  { kind := k, sub := sb, rank := r, len := n, wide := false, running := false, endAt := 0, cmds := [] }

/-- A bring-up that ended without bringing the channel up: RESULT, the state it came from, its ranks as they were held, and
the event (R391 to R393). -/
def Chan.BroughtDown (c d : Chan) (result : Nat) : Prop :=
  d.bring.done = true ∧ d.bring.result = result ∧ d.bring.ready = false ∧ d.power.trans = none ∧ d.power.cur = c.power.cur ∧
    d.power.initDone = c.power.held ∧ d.pins.hold = (if c.power.held then .selfRef else .floating) ∧
    ∃ e ∈ d.evOut, e.loc = evStateDone

/-! ### What every step keeps -/

/-- The event queue keeps to its bounds: two banks of 64 records, a latched record counted with the bank it was taken from
(R362, R365); DROPPED saturates (R364, R370); eight sticky registers; no record carries a severity above S4, so none reads as
the empty read (R6, R366); and a channel is named among the fatal ones only while IRQ_FATAL is latched (R368, R370). -/
structure Events.Sound (e : Events) : Prop where
  filling : e.filling.length ≤ 64
  draining : e.draining.length + e.latched.toList.length ≤ 64
  dropped : e.dropped ≤ 0xFFFF
  sticky : e.sticky.length = 8
  severity : ∀ r ∈ e.filling ++ e.draining ++ e.latched.toList, r.sev ≤ 4
  fatal : e.fatalCh ≠ 0 → e.fatal = true

/-- A page of `n` counters keeps to their width: 48 bits, also in a load that waits for the RCLK edge (R372, R375). -/
structure Counters.Sound (n : Nat) (k : Counters) : Prop where
  count : k.cs.length = n
  width : ∀ c ∈ k.cs, c.value < 2 ^ 48
  low : k.wlo < 2 ^ 32
  load : ∀ l ∈ k.load, l.2 < 2 ^ 48

/-- The invariant of the common: its event queue and its eight counters. -/
def State.Sound (s : State) : Prop := s.ev.Sound ∧ s.cnt.Sound 8

/-! ### The commands of one channel -/

/-- The channel whose own command `i` is: one that no register access of the management lane makes, and that acts on one
channel alone (R22). -/
def channelOf (i : Instr) : Option ChanId :=
  match i with
  | .rd ch _ | .rds ch _ | .sconf ch _ | .scan ch _ | .rdm ch _ | .rdmu ch _ | .wr ch _ | .wrp ch _ | .wrm ch _
  | .wrx ch _ | .mdr ch _ | .mdw ch _ | .mdcas ch _ | .flush ch _ | .badOpcodeRequest ch _ _ | .wdatBeat ch _
  | .wakeStoreCapture ch _ | .responseSend ch | .cmpSend ch | .flushComplete ch | .schedulerPlan ch | .tailShift ch
  | .bankTimingExpire ch _ | .urgencyEscalate ch _ | .lineCaptured ch _ _ _ | .decodeClassify ch _
  | .mergeComplete ch _ | .writeRelease ch _ | .patchWriteEnqueue ch | .pholdExpire ch _
  | .auditViolation ch _ _ _ _ _ _ | .auditHistoryFull ch | .refreshTick ch _ _ _ | .tempPoll ch _ _ _
  | .tempPollResult ch _ _ _ _ | .alertAssert ch _ | .backoffRelease ch _ _ _ | .backoffDelayExpire ch _
  | .zqIntervalExpire ch _ _ | .zqcalDone ch _ _ | .glideIdleExpire ch _ _ | .thatcherInterval ch
  | .thatcherReadPlace ch | .loftOpStart ch | .loftFillReturn ch | .loftEvictEnqueue ch | .loftClean ch
  | .loftOpComplete ch | .retrimIntervalExpire ch _ _ | .retrimPauseEnd ch _ _ _ | .quietAssert ch | .pllLock ch
  | .shiftPauseEnd ch _ | .sensorPoll ch _ _ _ | .sensorIbi ch _ _ _ | .drainComplete ch | .transitionComplete ch
  | .tetherSample ch _ | .isoRhpAssert ch | .isoRhpRelease ch | .mbxRequestServe ch | .status ch | .sbRead ch
  | .sbWrite ch | .selftest ch | .selftestAbort ch | .zqNow ch | .retrim ch | .memClear ch | .selftestPause ch _
  | .selftestDone ch | .clearDone ch | .outboundDeliver ch | .fenceDone ch _ | .spdReadDone ch _
  | .trainingStepDone ch _ | .bringUpComplete ch _ _ | .mbxInDone ch _ | .vretIoLost ch => some ch
  | _ => none

end Sys2Proof.Machine
end

