-- ==== Sys2Proof/Certificates/Slice0/Obligations.lean ====
section
/-! DEFINITION. The statements for the provers, by the spec's chapters. Where a statement speaks of `s.commitChan ch d`, it says
that the channel is left as `d` and what `d` raised is reported; StoredChannelsReport says what that changes. -/
open Sys2Proof Sys2Proof.Machine

/-- A step runs the command at the front of the queue on the state with the queue's rest; with no command waiting, one
REFCLK cycle passes. For every state whose queue is c followed by cs, the step is exec of c on the state with queue
cs. With an empty queue the step answers the state with one REFCLK cycle more, which the block counters may count as
event 0xC1. The queue and the idle tick are the model's choice (log entries 1 and 2). (R22, R377) -/
def Obligations.StepRunsTheFrontCommand : Prop :=
  (∀ (s : State) (c : Instr) (cs : List Instr), s.pending = c :: cs → step s = exec c { s with pending := cs }) ∧
  ∀ s : State, s.pending = [] → step s = .next (({ s with now := s.now + 1 } : State).blkCount 0xC1 1)

/-- A step that answers a next state takes exactly the front command and no command touches the queue or the REFCLK
count. If a step answers a next state, then either the queue was and stays empty and one REFCLK cycle passed, or the
queue lost exactly its front command and the REFCLK count is unchanged. The queue is the model's choice (log entries 1
and 2). (R22) -/
def Obligations.StepTakesOneCommand : Prop :=
  ∀ s t : State, step s = .next t →
    (s.pending = [] ∧ t.pending = [] ∧ t.now = s.now + 1) ∨ (∃ c, s.pending = c :: t.pending) ∧ t.now = s.now

/-- Every command runs while no management transaction is outstanding; the one fault is a transaction presented while
another is outstanding. For every command and state: with no management transaction outstanding, exec answers a next
state; exec never refuses; and the only fault is mgtOverlap, which no command of a channel raises. (R11, R113) -/
def Obligations.OnlyAnOverlapStops : Prop :=
  ∀ (i : Instr) (s : State),
    (s.mgt.held = none → ∃ t, exec i s = .next t) ∧ (∀ r, exec i s ≠ .refused r) ∧
    ∀ f, exec i s = .fault f → f = .mgtOverlap ∧ channelOf i = none

/-- Every step keeps the bounds of the event queue and of the counters, and leaves no event of a command under way.
For every state that meets State.Sound (both banks within 64 records with the latched one, DROPPED within 16 bits,
eight sticky registers, no severity above S4, fatal channels only under the FATAL latch, eight block counters of 48
bits, loads of 48 bits), a step that answers a next state answers one that meets it. The same holds for State.Quiet:
no channel holds an event or an occurrence of a command under way. (R6, R362, R364, R365, R372, R375) -/
def Obligations.EveryStepKeepsTheInvariants : Prop :=
  (∀ s t : State, s.Sound → step s = .next t → t.Sound) ∧
  (∀ s t : State, s.Quiet → step s = .next t → t.Quiet)

/-- The state after reset meets the invariants that every step keeps. State.Sound and State.Quiet hold of the state
after reset. (R370, R378, R380) -/
def Obligations.ResetMeetsTheInvariants : Prop :=
 State.reset.Sound ∧ State.reset.Quiet

/-- After reset the registers hold the reset values that the register tables state. The state after reset: PWR_RST_n
low, no image, loader EMPTY, level P3, event queue empty with both enables set, every channel Grounded and down with
empty queues, and the live registers of the scheduler, upkeep, Ballast, protection, error control, Thatcher, Loft,
trim, sideband, mailboxes, check values and counters at the reset values of their tables. (R45, R149, R189, R209,
R231, R259, R287, R309, R325, R337, R355, R370) -/
def Obligations.ResetLeavesTheStatedValues : Prop :=
  ∀ (s : State) (ch : ChanId) (c : Chan), s = State.reset → c = s.chan ch →
    (s.pending = [] ∧ s.img = none ∧ s.rst.pwrLow = true ∧ s.rst.ready = false ∧ s.rst.resetRec = 0 ∧ s.rst.wakeV = false) ∧
    (s.loader.st = .empty ∧ s.loader.accepted = 0 ∧ s.loader.nextAlive = 0 ∧ s.loader.fault = 0) ∧
    (s.lvl.cur = 3 ∧ s.lvl.target = 3 ∧ s.lvl.change = none ∧ s.lvl.slew = 10 ∧ s.lvl.div = 5 ∧ s.lvl.timeout = 100 ∧
      s.lvl.ripCap = 25 ∧ s.lvl.ripStep = 10 ∧ s.lvl.ripAck = false) ∧
    (s.ev.filling = [] ∧ s.ev.draining = [] ∧ s.ev.latched = none ∧ s.ev.dropped = 0 ∧ s.ev.evtEn = true ∧ s.ev.urgEn = true ∧
      s.ev.fatal = false ∧ s.ev.fatalCh = 0 ∧ s.ev.sticky = List.replicate 8 0) ∧
    (c.power.cur = .grounded ∧ c.power.kept = false ∧ c.power.target = .grounded ∧ c.power.keep = true ∧
      c.power.trans = none ∧ c.power.pend = none ∧ c.power.wakeRec.valid = false ∧ c.power.period = 10 ∧
      c.power.wakeTemp = 85 ∧ c.power.glideIdle = 100 ∧ c.down = true) ∧
    (c.rq = [] ∧ c.wq = [] ∧ c.tail = [] ∧ c.lane.inUse = [] ∧ c.lane.ready = [] ∧ c.fab.auditEn = true ∧ c.fab.auditRec = none) ∧
    (c.sched.specOpen = true ∧ c.sched.bypass = true ∧ c.sched.wmHigh = 96 ∧ c.sched.wmLow = 48 ∧ c.sched.thr1 = 50 ∧
      c.sched.thr2 = 90 ∧ c.upk.postpone = 4 ∧ c.upk.zqMs = 128 ∧ c.bal.rankCap = 50 ∧ c.bal.mode = 1 ∧ c.bal.eff = 850 ∧
      c.bal.pct = 100 ∧ c.bal.forceShare = false) ∧
    (c.prot.markAEn = false ∧ c.prot.markBEn = false ∧ c.prot.flipCount = 1 ∧ c.err.csus = 8 ∧ c.err.pthr = 4 ∧
      c.err.retry = 4 ∧ c.err.patch = true ∧ c.err.ue.valid = false ∧ c.th.enable = false ∧ c.th.int = 0xFFFF) ∧
    (c.loft.on = false ∧ c.loft.dirtyMax = 16384 ∧ c.loft.entries = [] ∧ c.trim.reqN = 24 ∧ c.trim.interval = 64 ∧
      c.sb.poll = true ∧ c.sb.thermHi = 85 ∧ c.cv.inbytes = 4 ∧ c.cv.width = 1 ∧ c.seqr.fence = 0) ∧
    (c.mbxIn.words = List.replicate 16 0 ∧ c.mbxIn.busy = false ∧ c.mbxOut.valid = false ∧ c.mbxOut.queue = []) ∧
    (c.cnt.cs.length = 16 ∧ s.cnt.cs.length = 8 ∧ ∀ k ∈ c.cnt.cs ++ s.cnt.cs, k.value = 0 ∧ k.en = false ∧ k.user = false ∧
      k.submask = 3 ∧ k.privmask = 15 ∧ k.classmask = 0xFFFF ∧ k.typemask = 0x3FF)

/-- The image in force changes only at a successful commit, at a cold reset and at the end of a warm reset. If a
command answers a next state with another image in force, then it is PWR_RST_ASSERT and the image is gone, or the end
of a reset sequence in a warm reset and the image is gone, or COMMIT_COMPLETE while the loader is COMMITTING and its
samples raise no commit fault, and the image is the loaded one with the phase that the samples give. (R52, R53, R55)
-/
def Obligations.ImageChangesAtCommitOrReset : Prop :=
  ∀ (i : Instr) (s t : State), exec i s = .next t → t.img ≠ s.img →
    (i = .pwrRstAssert ∧ t.img = none) ∨
    (∃ ch, i = .resetSequenceEnd ch ∧ s.rst.warm = true ∧ (s.chan ch).resetOver = true ∧ t.img = none) ∨
    (∃ n x xs p, i = .commitComplete n x xs ∧ p = x :: xs ∧ s.loader.st = .committing ∧ s.loader.commitFault n p = none ∧
      t.img = some (s.loader.blkImg (s.loader.phase p)))

/-- A command of one channel runs, and leaves every other channel and the shared state untouched. For every command of
a channel (every one that is neither a register access nor an event of the common), while the management lane waits
for no REPAIR of that channel: exec answers a next state that agrees with the old one on every other channel, the
queue, the image, the loader, the levels, the management lane, the resets and the clocks; RESPONSE_SEND of channel 0,
which is the HCLK edge of the block, also ends the response of the management lane. The event queue and the block
counters may change. (R22, R23) -/
def Obligations.ChannelCommandsStayInside : Prop :=
  ∀ (i : Instr) (ch : ChanId) (s : State), channelOf i = some ch → s.mgt.repair ≠ some ch →
    ∃ t, exec i s = .next t ∧
      SameOutside ch (if i = .responseSend 0 then { s with mgt := { s.mgt with rspV := false } } else s) t

/-- What a command does to its channel depends on nothing in any other channel. For every command of a channel and any
two states that agree on that channel and on what all channels share (the time, the window, whether an image is in
force or a load open, the clamps and the ripcord), exec answers a next state in both, and the channel is the same in
both. (R22, R23) -/
def Obligations.ChannelsDoNotSeeEachOther : Prop :=
  ∀ (i : Instr) (ch : ChanId) (s u : State), channelOf i = some ch → s.chan ch = u.chan ch → s.env = u.env →
    ∃ t v, exec i s = .next t ∧ exec i u = .next v ∧ t.chan ch = v.chan ch

/-- What storing a channel after its command changes: the channel, and the events and counts that the command raised.
While no REPAIR of the channel is awaited, storing a channel leaves everything outside it alone but the event queue
and block counters, and stores the channel with only its counters changed; with no event and no occurrence it only
stores the channel; with one event and no occurrence it also raises that event. (R22, R359, R372) -/
def Obligations.StoredChannelsReport : Prop :=
  ∀ (s : State) (ch : ChanId) (c : Chan), s.mgt.repair ≠ some ch →
    Became ch s (s.commitChan ch c) c ∧
    (c.Quiet → s.commitChan ch c = s.setChan ch c) ∧
    (c.occ = [] → ∀ e, c.evOut = [e] →
      s.commitChan ch c = (s.setChan ch { c with evOut := [] }).raiseChan ch e.loc e.info)

/-- A write of BLK_TRUSS_CTL that sets more than one of START, COMMIT and ABORT changes nothing. A register write to
BLK_TRUSS_CTL that sets more than one of the three bits is answered OK and leaves every part of the state but the
lane's response as it was, while no channel waits with a request for the end of a load. (R428) -/
def Obligations.OneLoaderCommandAtATime : Prop :=
  ∀ (s : State) (w : Word), s.Takes (wrTxn .blk 0x100 w) → s.NoneWaits →
    (bitAt w.toNat 0 = true ∧ bitAt w.toNat 1 = true) ∨ (bitAt w.toNat 0 = true ∧ bitAt w.toNat 2 = true) ∨
      (bitAt w.toNat 1 = true ∧ bitAt w.toNat 2 = true) →
    exec (.registerWrite (regAddr .blk 0x100) w) s = .next (s.respond false 0)

/-- START, COMMIT, ABORT and frames move the loader between its states and count what they accept or refuse. START is
ignored while COMMITTING, opens a load while every channel is Grounded and otherwise is refused with NOT_GROUNDED, the
accepted frames as FRAME and no section or channel; COMMIT starts the commit of a READY load and refuses a LOADING one
as incomplete; ABORT ends an open load; a frame outside a load is ignored with a mark, one with a wrong CRC is
counted, a repeated one is counted as a duplicate, one out of order refuses the load, and the expected one is
accepted. Stated where no channel waits with a request. (R32, R33, R44, R48, R50, R54) -/
def Obligations.LoadsOpenAndEnd : Prop :=
  ∀ (s : State) (l : Loader), s.loader = l → s.NoneWaits →
    (s.Takes (wrTxn .blk 0x100 1) →
      (l.st = .committing → exec .trussStart s = .next (s.respond false 0)) ∧
      (l.st ≠ .committing → (∀ ch, (s.chan ch).power.cur = .grounded ∧ (s.chan ch).power.trans = none) →
        exec .trussStart s = .next (({ s with loader := { Reset.loader with
          st := .loading, ign := l.ign, window := l.window } } : State).respond false 0)) ∧
      (l.st ≠ .committing → (∃ ch, (s.chan ch).power.cur ≠ .grounded) →
        exec .trussStart s = .next (({ s with loader := { l with
          fault := 15, faultFrame := l.accepted, faultSection := 0, faultChannels := 0 } } : State).respond false 0))) ∧
    (s.Takes (wrTxn .blk 0x100 2) →
      (l.st = .ready → exec .trussCommit s = .next (({ s with loader := { l with st := .committing } } : State).respond false 0)) ∧
      (l.st = .loading → exec .trussCommit s = .next ((({ s with loader := l.refuse (7, 0, 0) } : State).raiseBlk
        0x07B 0 7).respond false 0)) ∧
      (l.st ≠ .ready → l.st ≠ .loading → exec .trussCommit s = .next (s.respond false 0))) ∧
    (s.Takes (wrTxn .blk 0x100 4) →
      (l.st = .loading ∨ l.st = .ready → exec .trussAbort s = .next (({ s with loader := { l with
        st := if s.img = none then .empty else .committed, cur := none, sects := [] } } : State).respond false 0)) ∧
      (l.st ≠ .loading → l.st ≠ .ready → exec .trussAbort s = .next (s.respond false 0))) ∧
    (∀ (w : Word) (m : Loader), s.Takes { we := true, addr := 0xF0003C, data := w } → m = { l with window := l.window.set 15 w } →
      (l.st = .empty ∨ l.st = .committed ∨ l.st = .refused →
        exec (.trussFrameSubmit w) s = .next (({ s with loader := { m with ign := true } } : State).respond false 0)) ∧
      (l.st = .loading ∨ l.st = .ready → crc32c (m.frame.take 60) ≠ leAt m.frame 60 4 →
        exec (.trussFrameSubmit w) s = .next (({ s with loader := { m with crcRej := satAdd 0xFFFF m.crcRej 1 } } : State).respond
          false 0)) ∧
      (l.st = .loading ∨ l.st = .ready → crc32c (m.frame.take 60) = leAt m.frame 60 4 → l.based = true →
        (nth0 m.frame 0 ≠ l.nextAlive ∨ l.st = .ready) →
        (nth0 m.frame 0 = (l.nextAlive + 255) % 256 → exec (.trussFrameSubmit w) s = .next (({ s with loader := { m with
          dup := satAdd 0xFFFF m.dup 1 } } : State).respond false 0)) ∧
        (nth0 m.frame 0 ≠ (l.nextAlive + 255) % 256 → ∃ sec, exec (.trussFrameSubmit w) s = .next ((({ s with
          loader := m.refuse (if l.st = .ready then 6 else 5, sec, 0) } : State).raiseBlk 0x07B 0
            (if l.st = .ready then 6 else 5)).respond false 0))) ∧
      (l.st = .loading → crc32c (m.frame.take 60) = leAt m.frame 60 4 → (l.based = true → nth0 m.frame 0 = l.nextAlive) →
        ∃ (t : State) (n : Loader), exec (.trussFrameSubmit w) s = .next (t.respond false 0) ∧ t.img = s.img ∧ t.chans = s.chans ∧ t.loader = n ∧
          n.accepted = l.accepted + 1 ∧ n.nextAlive = (nth0 m.frame 0 + 1) % 256 ∧ n.based = true))

/-- A commit puts the loaded image in force in the common and every channel, or is refused with its fault. While
COMMITTING with no transaction held, for any phase samples: a commit fault refuses the load, keeps the image and
raises TRUSS_DONE; otherwise the loaded image with its measured phase is in force, every channel has its part or none,
the Loft and the Thatcher are off, the state and lane of every channel and the level stay, the requested rate of every
channel is clamped to the new limits, and the timeout is the image's. The arithmetic of the mean phase is the model's
(log entry 87). (R17, R21, R51, R52, R53, R357) -/
def Obligations.CommitPassesOrIsRefused : Prop :=
  ∀ (s : State) (l : Loader) (n x : Nat) (xs p : List Nat), p = x :: xs → s.loader = l → l.st = .committing → s.NoneWaits → s.mgt.held = none →
    (∀ f, l.commitFault n p = some f → exec (.commitComplete n x xs) s = .next (({ s with loader := l.refuse f } : State).raiseBlk
      0x07B 0 f.1)) ∧
    (l.commitFault n p = none → ∃ t, exec (.commitComplete n x xs) s = .next t ∧
      t.img = some (l.blkImg (l.phase p)) ∧ t.loader = { l with st := .committed, sects := [], cur := none } ∧
      (∀ ch, (t.chan ch).img = (if l.enabled ch.val then some (l.chanImg ch.val) else none) ∧
        (t.chan ch).power.cur = (s.chan ch).power.cur ∧ (t.chan ch).loft.on = false ∧
        (t.chan ch).th.enable = false ∧ (t.chan ch).lane = (s.chan ch).lane ∧
        (t.chan ch).trim.reqN = clampTo 24 ((t.chan ch).maxRate t.env) (s.chan ch).trim.reqN) ∧
      t.lvl.cur = s.lvl.cur ∧ t.lvl.timeout = leAt (l.blkImg (l.phase p)).levels 32 2)

/-- Records enter the event queue, replace a lower one or are dropped; severity, sticky bits, FATAL and the interrupt
lines follow. A record enters the filling bank; the banks swap when it fills while the draining bank is empty. With
the bank full and the reader busy, a record of a higher severity than the lowest replaces the newest record of that
lowest severity, and another is dropped; both increment DROPPED (saturating) and set LOST of the lost record's
channel, of none for a block record. Raising an event sets the severity bit of its channel and, for S4, the FATAL
latch, whether or not the record enters; a disabled source below S4 raises nothing. IRQ_EVT, IRQ_URG and IRQ_FATAL
follow enables, routes, the latch and ISO_BLK. (R364) -/
def Obligations.EventsAreQueuedAndSignalled : Prop :=
  (∀ (e : Events) (r : Record), r.sev ≤ 4 →
      (e.filling.length < 63 ∨ (e.filling.length = 63 ∧ e.drained = false) →
        e.enqueue r = ({ e with filling := e.filling ++ [r] }, 0)) ∧
      (e.filling.length = 63 → e.drained = true →
        e.enqueue r = ({ e with filling := [], draining := e.filling ++ [r] }, 0)) ∧
      (e.filling.length = 64 → e.drained = true →
        e.enqueue r = ({ e with filling := [r], draining := e.filling }, 0)) ∧
      (e.filling.length = 64 → e.drained = false →
        ((∀ x ∈ e.filling, r.sev ≤ x.sev) → e.enqueue r = (e.loseRec r, 1)) ∧
        (∀ x ∈ e.filling, x.sev < r.sev → ∃ a v b, e.filling = a ++ v :: b ∧ (∀ y ∈ e.filling, v.sev ≤ y.sev) ∧
          (∀ y ∈ b, v.sev < y.sev) ∧ e.enqueue r = (({ e with filling := a ++ b ++ [r] } : Events).loseRec v, 1))) ∧
      (e.loseRec r).dropped = min 0xFFFF (e.dropped + 1) ∧
      (∀ n, r.ident / 128 = n → r.ident % 128 < 120 → n < e.sticky.length →
        nth0 (e.loseRec r).sticky n = nth0 e.sticky n ||| 0x100) ∧
      (120 ≤ r.ident % 128 → (e.loseRec r).sticky = e.sticky)) ∧
  ((∀ s : State,
      (s.irqEvt = true ↔ s.rst.isoBlk = false ∧ s.ev.evtEn = true ∧
        ∃ r ∈ s.ev.filling ++ s.ev.draining ++ s.ev.latched.toList, r.route = 1) ∧
      (s.irqUrg = true ↔ s.rst.isoBlk = false ∧ s.ev.urgEn = true ∧
        ∃ r ∈ s.ev.filling ++ s.ev.draining ++ s.ev.latched.toList, r.route = 2) ∧
      (s.irqFatal = true ↔ s.rst.isoBlk = false ∧ s.ev.fatal = true)) ∧
    ∀ (s : State) (ident word dflt info : Nat) (chan : Option Nat) (fatal : Bool), dflt ≤ 4 →
      ∀ t : State, t = s.raise ident word dflt info chan fatal →
      (dflt ≠ 4 → bitAt word 10 = false → t = s) ∧
      ∀ sev, (sev = if dflt = 4 ∨ bitAt word 11 = false then dflt else min 4 (bitsAt word 12 3)) →
        dflt = 4 ∨ bitAt word 10 = true → (∀ n, chan = some n → n < s.ev.sticky.length →
          (nth0 t.ev.sticky n).testBit sev = true) ∧ (sev = 4 → t.ev.fatal = true) ∧
          ∃ q r, t.ev = q.1 ∧ q = (s.ev.mark sev chan fatal).enqueue r ∧ r.ident = ident ∧ r.sev = sev ∧ r.time = s.us ∧
            r.info = info % 2 ^ 19 ∧ r.route = match bitsAt word 15 2 with
              | 0 => if sev ≤ 2 then 1 else 2
              | 3 => 0
              | n => n)

/-- BLK_EVQ_LO latches and shows the head record, BLK_EVQ_HI shows and removes it; FLUSH, CLR_FATAL, CH_STICKY and the
bank swap. A read of BLK_EVQ_LO latches the head record, or finds the latched one, and answers its low word;
BLK_EVQ_HI answers the high word and removes the record; with nothing there both answer 0xFFFFFFFF. The head has the
highest severity of the draining bank. FLUSH empties both banks and the latch and nothing else; CLR_FATAL clears the
latch and FATALCH; a read of CH_STICKY answers and clears its bits; the banks swap at an edge only while the draining
bank is empty, nothing is latched and the filling bank holds a record. (R365) -/
def Obligations.EventQueueIsRead : Prop :=
  ∀ (s : State) (e : Events), s.ev = e →
    (∀ r, (e.latched = some r ∨ (e.latched = none ∧ e.head = some r)) →
      (s.Takes (rdTxn .blk 0x300) → exec .evqLoRead s = .next (({ s with ev := { e with
        latched := some r, draining := if e.latched = none then e.draining.erase r else e.draining } } : State).respond false
          (mkWord [(19, r.time % 2 ^ 13), (0, r.info % 2 ^ 19)]))) ∧
      (s.Takes (rdTxn .blk 0x304) → exec .evqHiRead s = .next (({ s with ev := { e with
        latched := none, draining := if e.latched = none then e.draining.erase r else e.draining } } : State).respond false
          (mkWord [(22, r.ident % 1024), (19, r.sev % 8), (0, r.time / 2 ^ 13 % 2 ^ 19)])))) ∧
    (e.latched = none → e.draining = [] →
      (s.Takes (rdTxn .blk 0x300) → exec .evqLoRead s = .next (s.respond false 0xFFFFFFFF)) ∧
      (s.Takes (rdTxn .blk 0x304) → exec .evqHiRead s = .next (s.respond false 0xFFFFFFFF))) ∧
    (∀ r, e.head = some r → r ∈ e.draining ∧ ∀ x ∈ e.draining, 7 - r.sev ≤ 7 - x.sev) ∧
    (s.Takes (wrTxn .blk 0x308 1) → exec .evqFlush s = .next (({ s with ev := { e with
      filling := [], draining := [], latched := none } } : State).respond false 0)) ∧
    (s.Takes (wrTxn .blk 0x314 0x80000000) → exec .clrFatal s = .next (({ s with ev := { e with
      fatal := false, fatalCh := 0 } } : State).respond false 0)) ∧
    (∀ ch : ChanId, s.Takes (rdTxn (.chan ch) 0xC) → exec (.stickyRead ch) s = .next (({ s with ev := { e with
      sticky := updateAt ch.val (fun _ => 0) e.sticky } } : State).respond false (BitVec.ofNat 32 (nth0 e.sticky ch.val)))) ∧
    exec .evqSwap s = .next { s with ev :=
      if e.draining = [] ∧ e.latched = none ∧ e.filling ≠ [] then { e with filling := [], draining := e.filling } else e }

/-- An admitted line read is queued, or forwarded from the newest older write of its line. RD, RDS, RDM and RDMU that
ingress admits (credits held, tag free, no error cause) take the next sequence number, their metadata part enters the
Loft, and: with no buffered write of the line the read joins the read queue; with a complete buffered write, a sound
readout and a free response-buffer line it takes that line and is answered from the write four HCLK later, or, for an
RDS, keeps the line until it is resolved, and it is counted as forwarded. Nothing else of the channel changes but the
bank that a row match notes and the drain modes, whose entry is counted. The four HCLK are those of R108; that they
hold for every forwarded read is the model's reading (log entry 26). (R84, R85, R88, R118, R138, R268) -/
def Obligations.HostReadsAreAccepted : Prop :=
  (∀ (s : State) (ch : ChanId) (c : Chan) (o : RdOp) (f : ReqFlit), s.chan ch = c →
      c.Admits (.read o) f → c.beatWaits f.laddr c.nextSeq = false → c.newestWr f.laddr c.nextSeq = none →
        ∃ b h q, exec (o.cmd ch f) s = .next (s.commitChan ch { c.admitted (.read o) f with
            nextSeq := c.nextSeq + 1, loft := c.loft.withOp (.read o) f c.nextSeq,
            rq := updateWhere (fun r => r.seq == c.nextSeq) (fun r => { r with stage := .queued }) (c.rq ++ [c.newRead o f]),
            banks := b, sched := h, occ := (c.admitted (.read o) f).occ ++ q }) ∧
          (c.rowMatch (c.newRead o f) = none → b = c.banks) ∧ Drains q) ∧
  (∀ (s : State) (ch : ChanId) (c : Chan) (o : RdOp) (f : ReqFlit) (w : WrEntry), s.chan ch = c →
      c.Admits (.read o) f → c.beatWaits f.laddr c.nextSeq = false → c.newestWr f.laddr c.nextSeq = some w →
        w.merge = .no → c.rspUsed < 96 → c.flaws 0 w.seq = [] →
        ∃ h q, exec (o.cmd ch f) s = .next (s.commitChan ch { c.admitted (.read o) f with
            nextSeq := c.nextSeq + 1, loft := c.loft.withOp (.read o) f c.nextSeq,
            rq := updateWhere (fun r => r.seq == c.nextSeq)
              (fun r => { r with
                stage := if o = .rds then .inHold else .answered, reserved := true, fwd := true,
                idx := freeIdx ((c.rq.filter RdEntry.usesRsp).map RdEntry.idx), result := some w.forwarded })
              (c.rq ++ [c.newRead o f]),
            lane := { (c.admitted (.read o) f).lane with
              ready := c.lane.ready ++ (if o = .rds then [] else [dataRsp (c.newRead o f) w.forwarded (c.lane.hclk + 4)]) },
            sched := h,
            occ := (c.admitted (.read o) f).occ ++ (occR 0x0C (c.devOf f.laddr).bank.sub.num (hostClass f.cls.toNat)
              f.priv.toNat o.ty f.laddr :: q) }) ∧ Drains q)

/-- An admitted WR, WRP or WRM waits for its beat; an admitted WRX is accepted at once as poison. WR, WRP and WRM that
ingress admits take the next sequence number and join the beats that are expected, and their metadata part enters the
Loft. WRX, where no read waits for a beat, is accepted with its request: it enters the write buffer as a whole
poisoned line, and its CMP falls due 3 HCLK later. (R77, R78, R79, R91, R118, R220) -/
def Obligations.WritesAreAccepted : Prop :=
  (∀ (s : State) (ch : ChanId) (c : Chan) (o : WrOp) (f : ReqFlit), s.chan ch = c →
      o ≠ .wrx → c.Admits (.write o) f →
        exec (o.cmd ch f) s = .next (s.commitChan ch { c.admitted (.write o) f with
          nextSeq := c.nextSeq + 1, loft := c.loft.withOp (.write o) f c.nextSeq,
          lane := { (c.admitted (.write o) f).lane with
            beats := c.lane.beats ++ [{ tag := f.tag, wr := some { op := o, f := f, seq := c.nextSeq } }] } })) ∧
  (∀ (s : State) (ch : ChanId) (c : Chan) (f : ReqFlit) (w : WaitWr), s.chan ch = c →
      w = { op := .wrx, f := f, seq := c.nextSeq } → c.Admits (.write .wrx) f → (∀ r ∈ c.rq, r.stage ≠ .waitBeat) →
        ∃ h q, exec (.wrx ch f) s = .next (s.commitChan ch { c.admitted (.write .wrx) f with
            nextSeq := c.nextSeq + 1,
            lane := { (c.admitted (.write .wrx) f).lane with cmps := c.lane.cmps ++ [(f.tag, c.lane.hclk + 3)] },
            wq := (c.placeWr (c.newWrite w 0 allBytes true)).wq, upsets := (c.placeWr (c.newWrite w 0 allBytes true)).upsets,
            sched := h,
            occ := (c.admitted (.write .wrx) f).occ ++ (occR 0x04 (c.devOf f.laddr).bank.sub.num
              (hostClass f.cls.toNat) f.priv.toNat WrOp.wrx.ty f.laddr :: q) }) ∧ Drains q)

/-- The expected beat completes its write, which takes its own entry, merges or coalesces. Where no read waits for a
beat: the beat whose tag is that of the oldest expected one is taken; for a write that was answered with ERR it is
discarded, and otherwise the write enters the buffer, its CMP falls due 3 HCLK later and it is counted. A write
without an older one of its line takes an entry with the lowest free number (log entry 95), whole or poisoned, or in
MERGE; it takes an entry behind the older write, against which it merges, where that is committed, read-bound or has
an earlier write of the line waiting for its beat (log entry 97); otherwise it coalesces into the older write, and a
full line ends the upsets of its words. (R78, R79, R91, R140, R141, R144) -/
def Obligations.WriteDataIsPlaced : Prop :=
  (∀ (s : State) (ch : ChanId) (c : Chan) (b : Beat) (x : BeatExp) (xs : List BeatExp), s.chan ch = c →
      c.Open → c.lane.beats = x :: xs → x.tag = b.tag → (∀ r ∈ c.rq, r.stage ≠ .waitBeat) →
        match x.wr with
        | none => exec (.wdatBeat ch b) s = .next (s.commitChan ch { c with lane := { c.lane with beats := xs } })
        | some w => ∃ h q, exec (.wdatBeat ch b) s = .next (s.commitChan ch { c with
            lane := { c.lane with beats := xs, cmps := c.lane.cmps ++ [(w.f.tag, c.lane.hclk + 3)] },
            wq := (({ c with lane := { c.lane with beats := xs } } : Chan).placeWr (c.newWrite w b.data b.be b.psn)).wq,
            upsets := (({ c with lane := { c.lane with beats := xs } } : Chan).placeWr (c.newWrite w b.data b.be b.psn)).upsets,
            sched := h,
            occ := c.occ ++ (occR 0x04 (c.devOf w.f.laddr).bank.sub.num (hostClass w.f.cls.toNat) w.f.priv.toNat
              w.op.ty w.f.laddr :: q) }) ∧ Drains q) ∧
  (∀ (c : Chan) (e n : WrEntry), e.merge = .no → n = { e with idx := freeIdx (c.wq.map WrEntry.idx) } →
      (c.olderWr e = none →
        c.placeWr e = { c with wq := c.wq ++ [if e.psn then { n with line := 0, be := allBytes }
          else if e.be = allBytes then n else { n with merge := .need }] }) ∧
      (∀ o, c.olderWr e = some o →
        (o.committed = true ∨ c.readWaitsOn o e = true ∨ (e.hosts ≠ [] ∧ c.beatWaits e.laddr e.ord = true)) →
        c.placeWr e = { c with wq := c.wq ++ [if e.psn then { n with line := 0, be := allBytes }
          else if e.be = allBytes then n else { n with merge := .older o.seq }] }) ∧
      (∀ o, c.olderWr e = some o → o.committed = false → c.readWaitsOn o e = false →
        (e.hosts = [] ∨ c.beatWaits e.laddr e.ord = false) →
        c.placeWr e = { c with
          wq := updateWhere (fun w => w.seq == o.seq) (fun w => coalesce w e) c.wq,
          upsets := if e.psn = true ∨ e.be = allBytes then c.upsets.filter fun u => !(u.store == 0 && u.key == o.seq)
            else c.upsets }))

/-- An admitted MDR, MDW or MDCAS enters the Loft; an admitted FLUSH fixes the writes it covers. MDR, MDW and MDCAS
that ingress admits take the next sequence number and join the Loft's input. FLUSH takes a sequence number and covers
the open writes; with none open its CMP is ready within four HCLK (the delay is open, log entry 6); with some open
each covered subchannel may enter DRAIN. (R76, R92, R118, R268) -/
def Obligations.MetadataAndFlushEnter : Prop :=
  (∀ (s : State) (ch : ChanId) (c : Chan) (o : MdOp) (f : ReqFlit), s.chan ch = c → c.Admits (.md o) f →
      exec (o.cmd ch f) s = .next (s.commitChan ch { c.admitted (.md o) f with
        nextSeq := c.nextSeq + 1, loft := { c.loft with ops := c.loft.ops ++ [mdOp (.md o) f c.nextSeq] } })) ∧
  (∀ (s : State) (ch : ChanId) (c : Chan) (f : ReqFlit), s.chan ch = c → c.Admits .flush f →
      (c.openWrites = [] → ∃ d, d ≤ 4 ∧ exec (.flush ch f) s = .next (s.commitChan ch { c.admitted .flush f with
        nextSeq := c.nextSeq + 1, free := c.free + 1,
        lane := { (c.admitted .flush f).lane with
          flushes := c.lane.flushes ++ [{ tag := f.tag, cls := hostClass f.cls.toNat, seq := c.nextSeq, covers := [] }],
          ready := c.lane.ready ++ [plainRsp .cmp f.tag 0 (c.lane.hclk + d) (hostClass f.cls.toNat)] } })) ∧
      (c.openWrites ≠ [] → ∃ h q, exec (.flush ch f) s = .next (s.commitChan ch { c.admitted .flush f with
        nextSeq := c.nextSeq + 1,
        lane := { (c.admitted .flush f).lane with
          flushes := c.lane.flushes ++
            [{ tag := f.tag, cls := hostClass f.cls.toNat, seq := c.nextSeq, covers := c.openWrites }] },
        sched := h, occ := (c.admitted .flush f).occ ++ q }) ∧ Drains q))

/-- A request to a channel that is down, or with an error cause, is answered with ERR and placed nowhere. On a lane
that is not isolated and a channel that does not sleep: a request to a channel that is down is answered CHAN_DOWN, and
its tag is in use until the answer leaves. On a channel that is up, with its credits held and its tag free, the first
of BAD_OPCODE, ADDR_RANGE, NO_METADATA and RANK_FENCED that applies is answered; the credits are consumed, the tag is
in use, and the beat of a write is still expected. A request whose operation has no address answers with address 0.
The delay, at most four HCLK, is open (log entry 6). (R66, R99, R100, R103) -/
def Obligations.RequestIsTurnedAway : Prop :=
  ∀ (s : State) (ch : ChanId) (c : Chan) (op : BitVec 5) (o : ReqOp) (f : ReqFlit), s.chan ch = c →
    reqOpOf op.toNat = o → o ≠ .sconf → o ≠ .scan → c.lane.iso = false → c.asleep = false →
      (c.down = true → ∃ n, n ≤ 4 ∧ exec (laneCmd ch op f) s = .next (s.commitChan ch { c with
        free := c.free + 1, lane := { c.lane with
          inUse := c.lane.inUse ++ [f.tag], ready := c.lane.ready ++ [errRsp (o.strip f) o errDown (c.lane.hclk + n)] } })) ∧
      (c.down = false → 0 < nth0 c.lane.held (hostClass f.cls.toNat) → (o.isWrite = true → 0 < c.lane.wheld) →
        f.tag ∉ c.lane.inUse → ∀ code,
          (if o = .bad then some errOpcode
            else if o.hasAddr = true ∧ c.usable ≤ f.laddr.toNat then some errRange
            else if o.hasMd = true ∧ c.mdServes = false then some errNoMd
            else if o.hasAddr = true ∧ c.reqFenced o f.laddr = true then some errFenced else none) = some code →
          ∃ n, n ≤ 4 ∧ exec (laneCmd ch op f) s = .next (s.commitChan ch { c with
            free := c.free + 1, bal := c.bal.use (hostClass f.cls.toNat),
            lane := { c.lane with
              held := updateAt (hostClass f.cls.toNat) (· - 1) c.lane.held,
              wheld := if o.isWrite then c.lane.wheld - 1 else c.lane.wheld, inUse := c.lane.inUse ++ [f.tag],
              ready := c.lane.ready ++ [errRsp (o.strip f) o code (c.lane.hclk + n)],
              beats := c.lane.beats ++ deadBeat o f } }))

/-- A request without its credit or with a tag in use, and a beat out of place, are discarded with RHP_PROTOCOL. On an
open lane: a request without the credit it needs, outside the grace after a CRST flit, raises RHP_PROTOCOL of kind 0
and changes nothing else; one whose tag is in use consumes its credits and raises kind 1; a beat whose tag is not that
of the oldest expected one raises kind 2, and a beat that none expects kind 3, and the beat is discarded. (R84, R85,
R102) -/
def Obligations.ViolationIsDiscarded : Prop :=
  ∀ (s : State) (ch : ChanId) (c : Chan), s.chan ch = c → c.Open →
    (∀ (op : BitVec 5) (o : ReqOp) (f : ReqFlit), reqOpOf op.toNat = o → o ≠ .sconf → o ≠ .scan →
      ((nth0 c.lane.held (hostClass f.cls.toNat) = 0 ∨ (o.isWrite = true ∧ c.lane.wheld = 0)) → c.crstGrace = false →
        exec (laneCmd ch op f) s = .next (s.commitChan ch { c with
          evOut := c.evOut ++ [{ loc := evProtocol, info := 0 * 2 ^ 16 + f.tag.toNat }] })) ∧
      (0 < nth0 c.lane.held (hostClass f.cls.toNat) → (o.isWrite = true → 0 < c.lane.wheld) → f.tag ∈ c.lane.inUse →
        exec (laneCmd ch op f) s = .next (s.commitChan ch { c with
          bal := c.bal.use (hostClass f.cls.toNat),
          lane := { c.lane with
            held := updateAt (hostClass f.cls.toNat) (· - 1) c.lane.held,
            wheld := if o.isWrite then c.lane.wheld - 1 else c.lane.wheld },
          evOut := c.evOut ++ [{ loc := evProtocol, info := 1 * 2 ^ 16 + f.tag.toNat }] }))) ∧
    (∀ (b : Beat) (x : BeatExp) (xs : List BeatExp), c.lane.beats = x :: xs → x.tag ≠ b.tag →
      exec (.wdatBeat ch b) s = .next (s.commitChan ch { c with
        evOut := c.evOut ++ [{ loc := evProtocol, info := 2 * 2 ^ 16 + b.tag.toNat }] })) ∧
    (∀ b : Beat, c.lane.beats = [] → exec (.wdatBeat ch b) s = .next (s.commitChan ch { c with
        evOut := c.evOut ++ [{ loc := evProtocol, info := 3 * 2 ^ 16 + b.tag.toNat }] }))

/-- SCONF confirms an RDS and sends a line that is ready; SCAN discards it, or removes it while it is still queued.
SCONF marks the RDS confirmed, and if its line is ready without a column command, from the write buffer, the line
leaves as DATA. SCAN of an RDS whose column command is issued marks it cancelled, and frees its entry at once where
the line is captured; of one that was forwarded, or is still queued with no planned command, it removes the entry;
each frees the tag and counts the saved or wasted line. (R84, R93, R94, R95, R104) -/
def Obligations.SpeculativeReadIsResolved : Prop :=
  ∀ (s : State) (ch : ChanId) (c : Chan) (f : ReqFlit) (r : RdEntry) (o : Occ), s.chan ch = c → c.Open →
    c.findRds f.tag = some r → o = occR 0x02 0 (hostClass f.cls.toNat) f.priv.toNat 8 0 →
      (r.stage ≠ .inHold → exec (.sconf ch f) s = .next (s.commitChan ch { c with
        occ := c.occ ++ [o], rq := updateWhere (fun x => x.seq == r.seq) (fun x => { x with rds := .confirmed }) c.rq })) ∧
      (∀ d, r.stage = .inHold → r.result = some d → r.colOrd = 0 →
        exec (.sconf ch f) s = .next (s.commitChan ch { c with
          occ := c.occ ++ [o],
          rq := updateWhere (fun x => x.seq == r.seq) (fun x => { x with rds := .confirmed, stage := .answered }) c.rq,
          lane := { c.lane with ready := c.lane.ready ++ [dataRsp r d c.lane.hclk] } })) ∧
      (r.stage = .issued ∨ r.stage = .captured → exec (.scan ch f) s = .next (s.commitChan ch { c with
        occ := c.occ ++ [o, occR (if r.colOrd = 0 then 0x0F else 0x10) r.dev.bank.sub.num r.cls r.priv r.req r.laddr],
        lane := { c.lane with inUse := c.lane.inUse.erase f.tag },
        rq := updateWhere (fun x => x.seq == r.seq)
          (fun x => { x with rds := .cancelled, reserved := x.reserved && r.stage == .issued }) c.rq })) ∧
      (r.stage = .inHold → r.colOrd = 0 → ∃ h q, exec (.scan ch f) s = .next (s.commitChan ch { c with
          occ := c.occ ++ (o :: occR 0x0F r.dev.bank.sub.num r.cls r.priv r.req r.laddr :: q),
          lane := { c.lane with inUse := c.lane.inUse.erase f.tag },
          rq := c.rq.filter fun x => x.seq != r.seq, sched := h }) ∧ Drains q) ∧
      (r.stage = .queued ∨ r.stage = .waitBeat → c.planned.filter (fun k => k.src == .read r.seq) = [] →
        ∃ h q, exec (.scan ch f) s = .next (s.commitChan ch { c with
          occ := c.occ ++ (o :: occR (if r.colOrd = 0 then 0x0F else 0x10) r.dev.bank.sub.num r.cls r.priv r.req
            r.laddr :: q),
          lane := { c.lane with inUse := c.lane.inUse.erase f.tag },
          rq := c.rq.filter fun x => x.seq != r.seq, sched := h }) ∧ Drains q)

/-- While a channel is Moored or Tethered its lane's traffic enters the wake store, and the first request wakes it. On
a sleeping channel whose wake store has room: a flit that does not wake, or that follows one that does, is stored; the
first request or beat that wakes starts the wake to Flight with source HOST while no change is in progress, and
otherwise takes the pending slot unless the change leads to Grounded. (R319, R320) -/
def Obligations.SleepingLaneIsCaptured : Prop :=
  ∀ (s : State) (ch : ChanId) (c : Chan) (x : Captured), s.chan ch = c →
    (c.power.cur = .moored ∨ c.power.cur = .tethered) → c.down = false → c.lane.iso = false → c.wakeFull x = false →
      ((capWakes x = false ∨ c.lane.wake.any capWakes = true) →
        exec (.wakeStoreCapture ch x) s = .next (s.commitChan ch { c with
          lane := { c.lane with wake := c.lane.wake ++ [x] } })) ∧
      (capWakes x = true → c.lane.wake.any capWakes = false → c.power.trans = none →
        exec (.wakeStoreCapture ch x) s = .next (s.commitChan ch { c with
          lane := { c.lane with wake := c.lane.wake ++ [x] },
          power := { c.power with
            trans := some { frm := c.power.cur, req := hostWake, ph := .stagger }, pend := none, readyAt := s.now } })) ∧
      (∀ t, capWakes x = true → c.lane.wake.any capWakes = false → c.power.trans = some t → t.req.tgt ≠ .grounded →
        exec (.wakeStoreCapture ch x) s = .next (s.commitChan ch { c with
          lane := { c.lane with wake := c.lane.wake ++ [x] }, power := { c.power with pend := some hostWake } }))

/-- At an HCLK edge the lane sends the response that is ready, with credits; completions and flushes fall due. An HCLK
edge of a lane first readies the completions that have fallen due. Then a closed link sends nothing; an open one
without a CRST to send sends nothing with nothing ready and no grant; a plain ERR frees its tag; DATA of an RD whose
line is sound in its buffer frees its tag and its read entry and is counted; both flits carry the grant and the write-
data credits. The edge of lane 0 also ends the response of the management lane and may be counted by the block (log
entry 35). CMP_SEND readies every completion whose HCLK has come, and FLUSH_COMPLETE the first flush whose covered
writes are done, or nothing. (R80, R83, R84, R91, R92, R199) -/
def Obligations.LaneSendsWhatIsDue : Prop :=
  (∀ (s : State) (ch : ChanId) (c x : Chan) (l : Lane), s.chan ch = c → c.atEdge = x → x.lane = l →
      let done := fun d : Chan => Host.Outcome.next (if ch = 0 then
          ({ s.commitChan ch d with mgt := { (s.commitChan ch d).mgt with rspV := false } } : State).blkCount 0xC0 1
          else s.commitChan ch d)
      ((∀ r ∈ c.lane.ready, r.ty = .edata → (c.bal.cls r.cls).early = true) →
        x = { c with lane := { c.lane with
          hclk := c.lane.hclk + 1, cmps := c.lane.cmps.filter fun p => decide (c.lane.hclk + 1 < p.2),
          ready := c.lane.ready ++ (c.lane.cmps.filter fun p => decide (p.2 ≤ c.lane.hclk + 1)).map fun p =>
            plainRsp .cmp p.1 0 p.2 0 } }) ∧
      (x.linkOpen = false → exec (.responseSend ch) s = done { x with lane := { l with out := none } }) ∧
      (∀ (g : Option (Nat × Nat)) (w : Nat), x.linkOpen = true →
        l.crstDue = false → x.grant s.env.win = g → x.wgrant = w →
        (l.pick = none → g = none → w = 0 → exec (.responseSend ch) s = done { x with lane := { l with out := none } }) ∧
        (∀ r, l.pick = some r → r.ty = .err → r.status ≠ errCmdFail → x.answeredRd r.tag = none →
          (x.loft.ops.any fun o => o.tag == r.tag && o.sent) = false →
          exec (.responseSend ch) s = done { x with
            lane := { (x.giveCredits g w).lane with
              ready := l.ready.erase r, inUse := l.inUse.erase r.tag,
              out := some (flitOf r g w) },
            occ := x.occ ++ [occR 0x19 0 r.cls r.priv r.req r.laddr] }) ∧
        (∀ r, l.pick = some r → r.ty = .data → (∀ e, x.answeredRd r.tag = some e → e.kind = .host .rd →
          x.flaws 1 e.seq = [] →
          exec (.responseSend ch) s = done { x with
            lane := { (x.giveCredits g w).lane with
              ready := l.ready.erase r, inUse := l.inUse.erase e.tag,
              out := some (flitOf r g w) },
            rq := x.rq.filter fun y => y.seq != e.seq,
            occ := x.occ ++ [occR 0x03 e.dev.bank.sub.num e.cls e.priv e.req e.laddr] })))) ∧
  (∀ (s : State) (ch : ChanId) (c : Chan), s.chan ch = c →
      exec (.cmpSend ch) s = .next (s.commitChan ch { c with lane := { c.lane with
        cmps := c.lane.cmps.filter fun p => decide (c.lane.hclk < p.2),
        ready := c.lane.ready ++ (c.lane.cmps.filter fun p => decide (p.2 ≤ c.lane.hclk)).map fun p =>
          plainRsp .cmp p.1 0 p.2 0 } }) ∧
      (∀ f, c.lane.flushes.find? c.flushReady = some f →
        exec (.flushComplete ch) s = .next (s.commitChan ch { c with lane := { c.lane with
          ready := c.lane.ready ++ [plainRsp .cmp f.tag 0 c.lane.hclk f.cls] } })) ∧
      (c.lane.flushes.find? c.flushReady = none → exec (.flushComplete ch) s = .next (s.commitChan ch c)))

/-- A bank leaves OPENING, CLOSING, REFRESHING and PAUSED when its time has run out; a waiting read rises in urgency
with its age. A bank that is opening becomes open, and one that is closing or refreshing becomes idle, or paused while
a pause claims it, with its row and hits cleared, when the battens no longer bind; a refreshing bank loses its claim
then; a paused one becomes idle when no pause claims it any more and the battens allow an ACT; no other bank changes.
A queued read of age at or past THR1, THR2 per cent of its class target, and the target itself, has urgency 1, 2, 3 at
least; a host read that reaches 2 is counted. When a bank's time has run out is DEDUCED (log entry 30). (R119, R120,
R123) -/
def Obligations.QueueTimersRun : Prop :=
  (∀ (s : State) (ch : ChanId) (c : Chan) (b : Bank), s.chan ch = c →
      ((c.bank b).st = .opening → c.timeOut b [.act] [.rd, .wr] = true →
        exec (.bankTimingExpire ch b) s = .next (s.commitChan ch (c.setBank b { c.bank b with st := .opened }))) ∧
      ((c.bank b).st = .closing → c.timeOut b [.prepb, .presb, .preab, .rda, .wra] [.act] = true →
        exec (.bankTimingExpire ch b) s = .next (s.commitChan ch (c.setBank b { c.bank b with
          st := if c.pausedBank b then .paused else .idle, row := 0, hits := 0 }))) ∧
      ((c.bank b).st = .refreshing → c.timeOut b [.refab, .refsb, .rfmab, .rfmsb] [.act] = true →
        exec (.bankTimingExpire ch b) s = .next (s.commitChan ch (c.setBank b { c.bank b with
          st := if c.pausedBank b then .paused else .idle, row := 0, hits := 0, claim := false }))) ∧
      ((c.bank b).st = .paused → c.pausedBank b = false → c.timeOut b [.prepb, .presb, .preab, .rda, .wra, .mpc] [.act] = true →
        exec (.bankTimingExpire ch b) s = .next (s.commitChan ch (c.setBank b { c.bank b with
          st := .idle, row := 0, hits := 0, claim := false }))) ∧
      (∀ x e, x.key ≠ b.key → (∀ p ∈ c.banks, p.1.key = b.key → p.1 = b) → (c.setBank b e).bank x = c.bank x)) ∧
  (∀ (s : State) (ch : ChanId) (c : Chan) (n : Nat) (r : RdEntry) (t u : Nat), s.chan ch = c →
      c.findRd n = some r → r.kind ≠ .thatcher → r.stage = .queued ∨ r.stage = .waitBeat → c.target r.cls = t →
        u = (if t ≤ r.age then 3 else if t * c.sched.thr2 / 100 ≤ r.age then 2
          else if t * c.sched.thr1 / 100 ≤ r.age then 1 else 0) →
        exec (.urgencyEscalate ch n) s = .next (s.commitChan ch (if u ≤ r.urg then c else { c with
          rq := updateWhere (fun x => x.seq == n) (fun x => { x with urg := u }) c.rq,
          occ := c.occ ++ if 2 ≤ u ∧ r.urg < 2 ∧ r.isHost = true
            then [occR 0x11 r.dev.bank.sub.num r.cls r.priv r.req r.laddr] else [] })))

/-- A merge completes a write, from its merge read or from the older write; a write leaves when its line is free. With
no read waiting for a beat: a write whose merge read has been decoded becomes complete; one that merges with an older
complete write, soundly read out, takes the missing bytes from it; a committed write whose burst has ended, or whose
CRC window has closed where write CRC is on, and that has no merge read on its way, leaves the queue, and the writes
that waited on it take its bytes. Before that WRITE_RELEASE changes nothing. (R117, R139, R144, R228) -/
def Obligations.WritesLeaveTheQueue : Prop :=
  ∀ (s : State) (ch : ChanId) (c : Chan) (n : Nat) (w : WrEntry), s.chan ch = c →
    c.findWr n = some w → (∀ r ∈ c.rq, r.stage ≠ .waitBeat) →
      (w.merge = .merged → ∃ h q, exec (.mergeComplete ch n) s = .next (s.commitChan ch { c with
        wq := updateWhere (fun x => x.seq == n) (fun x => { x with merge := .no }) c.wq, sched := h,
        occ := c.occ ++ q }) ∧ Drains q) ∧
      (∀ m o, w.merge = .older m → c.findWr m = some o → o.merge = .no → c.flaws 0 o.seq = [] →
        ∃ h q, exec (.mergeComplete ch n) s = .next (s.commitChan ch { c with
          wq := updateWhere (fun x => x.seq == n) (fun x => { copyOld o false x with merge := .no }) c.wq, sched := h,
          occ := c.occ ++ q }) ∧ Drains q) ∧
      (∀ ends gone, w.pinTime + c.fab.wl + c.fab.bld = ends →
        (if c.imgBit ChanImg.wcrc then decide (ends + c.err.crcWin < c.dclk) else decide (ends ≤ c.dclk)) = gone →
        (w.committed = true → w.onPins = true → w.resend = false → w.mread = .none → gone = true →
          (c.wq.any (fun x => x.merge == .older n) = true → c.flaws 0 n = []) →
          ∃ h q, exec (.writeRelease ch n) s = .next (s.commitChan ch { c with
            wq := (c.wq.map fun x => if x.merge = .older n then { copyOld w false x with merge := .merged } else x).filter
              fun x => x.seq != n,
            sched := h, occ := c.occ ++ q }) ∧ Drains q) ∧
        (gone = false → exec (.writeRelease ch n) s = .next (s.commitChan ch c)))

/-- A captured read burst keeps its word and may leave early; a decoded line is held or answered. With a sound read
CRC and no armed flip: the oldest issued read of the subchannel whose burst is over is captured with the word that the
burst spells through the module's swizzle and symbol layout, frees its entry if it was cancelled, and leaves as EDATA
where it may. A decoded host read that is an unresolved RDS enters the hold; a clean line becomes ready, as SETTLE
after an EDATA and as DATA otherwise. (R94, R97, R98, R104, R214, R215, R225, R235, R290) -/
def Obligations.BurstsAreDecoded : Prop :=
  (∀ (s : State) (ch : ChanId) (c : Chan) (b : Sub) (x : PinBurst) (w : CodeWord) (ok : Bool) (r : RdEntry), s.chan ch = c →
      c.nextBurst b = some (.read r) → r.pinTime + c.fab.rl + c.fab.bld ≤ c.dclk → (c.rcrc = true → ok = true) →
      (c.prot.flipRemain = 0 ∨ c.prot.flipMode ≠ 2) → (∀ i, c.img = some i → i.ofPins b x = w) → (c.img = none → w = 0) →
        exec (.lineCaptured ch b x ok) s = .next (s.commitChan ch { c with
          rq := updateWhere (fun x => x.seq == r.seq)
            (fun x => { x with
              stage := .captured, word := w, edata := c.mayEdata r, reserved := x.reserved && x.rds != .cancelled }) c.rq,
          lane := { c.lane with
            ready := c.lane.ready ++ if c.mayEdata r then
              [{ ty := .edata, tag := r.tag, status := 0, poison := false, mdval := 0,
                 line := some (BitVec.ofNat 512 w.toNat), due := c.lane.hclk, cls := r.cls, priv := r.priv, req := r.req,
                 laddr := r.laddr }] else [] } })) ∧
  (∀ (s : State) (ch : ChanId) (c : Chan) (b : Sub) (w : CodeWord) (r : RdEntry) (o : RdOp) (d : Decoded), s.chan ch = c →
      c.nextWord b = some (.read r, w) → decode c.x8 (c.mark b) w = d → r.kind = .host o →
        (r.rds = .unresolved → exec (.decodeClassify ch b) s = .next (s.commitChan ch { c.countOutcome b d.outcome with
          rq := updateWhere (fun x => x.seq == r.seq) (fun x => { x with stage := .inHold, result := some d }) c.rq })) ∧
        (d.outcome = .clean → (r.rds = .na ∨ r.rds = .confirmed) →
          exec (.decodeClassify ch b) s = .next (s.commitChan ch { c with
            rq := updateWhere (fun x => x.seq == r.seq) (fun x => { x with stage := .answered, result := some d }) c.rq,
            lane := { c.lane with ready := c.lane.ready ++
              [if r.edata then { dataRsp r d c.lane.hclk with ty := .settle, line := none, status := 0 }
               else dataRsp r d c.lane.hclk] } })))

/-- A batten violation that the shadow audit sees is recorded, is fatal to the channel and empties its queues. With
the audit enabled, on a channel that is up, a violation that the audit has found at the pins is taken from the found
ones, recorded if it is the first, is fatal to the channel, empties its queues and raises BATTEN_VIOLATION. An
AUDIT_VIOLATION that names no found violation changes nothing. AUDIT_HISTORY_FULL makes an enabled audit ready when
the longest batten has passed since it was enabled. Which of several found violations comes first is the sender's (log
entry 21). (R169, R170, R171) -/
def Obligations.AuditCatchesAViolation : Prop :=
  ∀ (s : State) (ch : ChanId) (c : Chan) (n : Fin 128) (k : CmdClass) (b : Sub) (r l m : Nat) (x : AuditRec), s.chan ch = c →
    x = { batten := n.val, cls := k, sub := b, rank := r, lrank := l, short := m } →
    (c.down = false → c.fab.auditEn = true → x ∈ c.fab.audFound →
      ∃ d, exec (.auditViolation ch n k b r l m) s = .next (s.commitChan ch d) ∧
        d.power = { c.power with fatal := true, trans := none } ∧ d.rq = [] ∧ d.lane.flushes = [] ∧
        d.fab = { c.fab with auditRec := some (c.fab.auditRec.getD x), audFound := c.fab.audFound.erase x } ∧
        { loc := evBatten, info := n.val * 2 ^ 12 + k.num * 2 ^ 7 + b.num * 2 ^ 6 + r * 2 ^ 3 + l } ∈ d.evOut) ∧
    ((c.down = true ∨ c.fab.auditEn = false ∨ x ∉ c.fab.audFound) →
      exec (.auditViolation ch n k b r l m) s = .next (s.commitChan ch c)) ∧
    exec (.auditHistoryFull ch) s = .next (s.commitChan ch { c with fab := { c.fab with
      auditReady := (c.fab.auditEn && decide (c.fab.audSince + maxAge ≤ c.dclk)) || c.fab.auditReady } })

/-- A KCLK of planning moves no committed command and places new ones only in plannable slots. While the channel logic
does not run, planning changes nothing. While it runs, SCHEDULER_PLAN advances KCLK by one, leaves the pins, the
fabric, the image and DCLK alone, keeps every committed command in the tail, and every command it adds lies in slots 4
to 15 ahead of the pins. (R24, R129, R130) -/
def Obligations.SchedulerPlansTheTail : Prop :=
  ∀ (s : State) (ch : ChanId) (c : Chan), s.chan ch = c →
    (c.logicRuns = false → exec (.schedulerPlan ch) s = .next (s.commitChan ch c)) ∧
    (c.logicRuns = true → ∃ d, exec (.schedulerPlan ch) s = .next (s.commitChan ch d) ∧ d.kclk = c.kclk + 1 ∧
      d.dclk = c.dclk ∧ d.img = c.img ∧ d.pins = c.pins ∧ d.fab = c.fab ∧
      (∀ k ∈ c.tail, k.time ≤ c.dclk + 3 → k ∈ d.tail) ∧
      (∀ k ∈ d.tail, k ∈ c.tail ∨ (c.dclk + 4 ≤ k.time ∧ k.time ≤ c.dclk + 15)))

/-- A DCLK edge commits the command at position 3, drives the one at the pins and shifts the tail. While the channel
logic does not run and the tail is empty nothing changes. Otherwise the edge advances DCLK by one, removes exactly the
commands whose slot has come, records exactly the command that reaches the committed position in the timestamp file,
and leaves the pins of a subchannel with no command due. The one command that is due is driven; with the audit enabled
it enters the audit file, and, once the audit is ready, it is counted and the battens it breaks in the audit file's
view are found. With the audit off nothing is counted or found. (R24, R130, R164, R169, R170, R171) -/
def Obligations.TailShiftsAndCommits : Prop :=
  ∀ (s : State) (ch : ChanId) (c : Chan), s.chan ch = c →
    (c.logicRuns = false → c.tail = [] → exec (.tailShift ch) s = .next (s.commitChan ch c)) ∧
    (c.logicRuns = true ∨ c.tail ≠ [] → ∃ d, exec (.tailShift ch) s = .next (s.commitChan ch d) ∧ d.dclk = c.dclk + 1 ∧
      d.kclk = c.kclk ∧ d.img = c.img ∧ d.bal.dclkCnt = c.bal.dclkCnt + 1 ∧
      d.tail = c.tail.filter (fun k => decide (c.dclk + 1 < k.time)) ∧
      (∀ k ∈ c.tail, k.time = c.dclk + 4 → k ∈ d.fab.hist) ∧
      (∀ k ∈ d.fab.hist, k ∈ c.fab.hist ∨ (k ∈ c.tail ∧ k.time = c.dclk + 4)) ∧
      ((∀ k ∈ c.tail, k.bank.sub = .a → c.dclk + 1 < k.time) →
        d.pins.caA = c.pins.caA ∧ d.pins.dqA = c.pins.dqA ∧ d.pins.crcA = c.pins.crcA) ∧
      ((∀ k ∈ c.tail, k.bank.sub = .b → c.dclk + 1 < k.time) →
        d.pins.caB = c.pins.caB ∧ d.pins.dqB = c.pins.dqB ∧ d.pins.crcB = c.pins.crcB) ∧
      (∀ k, c.tail.filter (fun x => decide (x.time ≤ c.dclk + 1)) = [k] →
        (if k.bank.sub = .a then d.pins.caA else d.pins.caB) = some k ∧
        ∀ u : Chan, u = ({ c with dclk := c.dclk + 1, fab := c.fab.audHotNow (c.dclk + 1) } : Chan).auditView → c.fab.auditEn = true →
          d.fab.audHist = (c.fab.audHist.filter fun (x : Cmd) => decide (c.dclk + 1 ≤ x.time + maxAge)) ++ [k] ∧
          d.fab.auditCnt = (if c.fab.auditReady then c.fab.auditCnt + 1 else c.fab.auditCnt) ∧
          d.fab.audFound = (if c.fab.auditReady then c.fab.audFound ++ u.violations k else c.fab.audFound)) ∧
      (c.fab.auditEn = false → d.fab.audFound = c.fab.audFound ∧ d.fab.auditCnt = c.fab.auditCnt))

/-- A refresh tick adds one to every debt of its account, or is fatal past LP + 1; temperature polls set and clear
HOT. A tick that is due moves the next one to its phase in the interval of the mode and HOT; before self-refresh it
adds 1 to each debt of the account, and in self-refresh it does not; a debt that would reach LP + 2 raises
REFRESH_MISSED and is fatal. A due poll is queued every 8 ms; a doubled reading sets HOT with an event, moves the
ticks of the rank that are not due to the new interval and is noted for the audit 16 DCLK later, and two successive
normal readings of every logical rank clear it likewise. The origin of the intervals is the model's choice (log entry
94). (R161, R172, R173, R174, R175, R176, R177) -/
def Obligations.RefreshAndPollsRun : Prop :=
  (∀ (s : State) (ch : ChanId) (c : Chan) (sb : Sub) (r l : Nat) (a : Account) (t nx : Nat), s.chan ch = c →
      c.upk.accounts.find? (fun x => x.sub == sb && x.rank == r && x.lrank == l) = some a → c.power.fatal = false →
      a.next ≤ s.now →
      t = (if c.sameBank then (if bitAt c.fab.hot.toNat r then 97 else 195)
        else if bitAt c.fab.hot.toNat r then 195 else 390) →
      nx = nextAt a.next t ((2 * c.lranksOf.idxOf (r, l) + sb.num) * t / (2 * max 1 c.lranksOf.length)) →
        (c.inSelfRef sb r = true → exec (.refreshTick ch sb r l) s = .next (s.commitChan ch
          (c.modAcct sb r l fun x => { x with next := nx }))) ∧
        (c.inSelfRef sb r = false → a.newLp = none → (({ a with debts := a.debts.map (· + 1) }).top < (a.lp : Int) + 2) →
          exec (.refreshTick ch sb r l) s = .next (s.commitChan ch
            (c.modAcct sb r l fun _ => { a with debts := a.debts.map (· + 1), next := nx }).noteDebt)) ∧
        (c.inSelfRef sb r = false → a.newLp = none → ((a.lp : Int) + 2 ≤ ({ a with debts := a.debts.map (· + 1) }).top) →
          c.down = false →
          ∃ d, exec (.refreshTick ch sb r l) s = .next (s.commitChan ch d) ∧
            d.power = { c.power with fatal := true, trans := none } ∧ d.rq = [] ∧
            { loc := evRefreshMissed, info := sb.num * 2 ^ 6 + r * 2 ^ 3 + l } ∈ d.evOut)) ∧
  (∀ (s : State) (ch : ChanId) (c : Chan) (sb : Sub) (r l : Nat), s.chan ch = c → c.running = true →
      (∀ t, c.upk.pollNext.find? (fun p => p.1 == sb && p.2.1 == r && p.2.2.1 == l) = some (sb, r, l, t) → t ≤ s.now →
        exec (.tempPoll ch sb r l) s = .next (s.commitChan ch { c with
          upk := { c.upk with
          polls := c.upk.polls ++ [(sb, r, l)],
          pollNext := updateWhere (fun q => q == (sb, r, l, t)) (fun q => (q.1, q.2.1, q.2.2.1, q.2.2.2 + 8 * refMs))
            c.upk.pollNext } })) ∧
      (c.hasRank r = true → ∀ hot : Chan → Bool → Chan,
        (∀ (d : Chan) (h : Bool) (x : Chan) (l : List Account), x = { d with fab := { d.fab with
            hot := BitVec.ofNat 8 (setBits d.fab.hot.toNat r 1 (if h then 1 else 0)),
            hotPend := d.fab.hotPend ++ [(d.dclk + 16, r, h)] } } →
          l = updateWhere (fun a => a.rank == r && decide (s.now < a.next))
            (fun a => { a with next := x.tickAfter a.sub a.rank a.lrank s.now }) x.upk.accounts →
          hot d h = { x with
            upk := { x.upk with accounts := l },
            evOut := x.evOut ++ [{ loc := evThermalHot, info := (if h then 1 else 0) * 2 ^ 8 + r * 2 ^ 3 }] }) →
        (∀ d, d = c.modRank sb r (fun x => { x with poll1x := updateAt l (fun _ => 0) x.poll1x }) →
          exec (.tempPollResult ch sb r l .x2) s = .next (s.commitChan ch
            (if bitAt c.fab.hot.toNat r then d else hot d true))) ∧
        (∀ d, d = c.modRank sb r (fun x => { x with poll1x := updateAt l (fun n => min 2 (n + 1)) x.poll1x }) →
          exec (.tempPollResult ch sb r l .x1) s = .next (s.commitChan ch
            (if d.coolTwice r = true ∧ bitAt c.fab.hot.toNat r = true then hot d false else d)))))

/-- At a window boundary every channel re-estimates its efficiency and deliverable bandwidth and clears its counts.
Before the boundary BALLAST_WINDOW changes nothing. At it, the boundary moves by 400 REFCLK, and on every channel with
an image EFF is averaged with the measured efficiency when enough DCLK were loaded, the counts clear, DB follows EFF
and the rate, bounded by PCT during a cap or ramp, and queues, lane and tail are unchanged. (R191, R192, R193, R205,
R206) -/
def Obligations.BallastWindowEnds : Prop :=
  ∀ s : State,
    (s.now < s.winNext → exec .ballastWindow s = .next s) ∧
    (s.winNext ≤ s.now → ∃ t, exec .ballastWindow s = .next t ∧ t.winNext = s.winNext + 400 ∧ t.now = s.now ∧
      t.img = s.img ∧ t.pending = s.pending ∧
      ∀ (ch : ChanId) (b : Ballast) (x : Chan), (s.chan ch).bal = b → (s.chan ch).img ≠ none → t.chan ch = x →
        x.bal.eff = (if 2 * b.dclkCnt ≤ 8 * (b.dataCnt + b.waitCnt) ∧ 0 < b.dataCnt + b.waitCnt
          then (b.eff + b.dataCnt * 1000 / (b.dataCnt + b.waitCnt)) / 2 else b.eff) ∧
        x.bal.dataCnt = 0 ∧ x.bal.waitCnt = 0 ∧ x.bal.dclkCnt = 0 ∧
        x.bal.db = (if b.capped = true ∨ b.ramp = true
          then min (x.bal.eff * (100 * (s.chan ch).trim.nCur) / 1000) (b.pct * (100 * (s.chan ch).trim.nCur) / 100)
          else x.bal.eff * (100 * (s.chan ch).trim.nCur) / 1000) ∧
        x.rq = (s.chan ch).rq ∧ x.wq = (s.chan ch).wq ∧ x.lane = (s.chan ch).lane ∧ x.tail = (s.chan ch).tail)

/-- RIPCORD_REQ caps every channel at once; its fall starts the ramp; RIPCORD_ACK follows the last capped channel. A
rise takes the cap on every channel in the same command, counts it and notes the time; with nothing planned both
budgets become 0 and the tail stays. A fall drops ACK, keeps the latency and starts the ramp, which raises PCT by its
step each 100 REFCLK up to 100. A channel whose cap is done sets ACK if it is the last. (R204, R205, R206, R207, R332)
-/
def Obligations.RipcordCapsAndReleases : Prop :=
  ∀ s : State, (∀ ch, s.Rest ch) →
    (s.lvl.ripReq = false → s.rst.pwrLow = false → ∃ t, exec .ripcordReqRise s = .next t ∧
      t.lvl = { s.lvl with
        ripReq := true, ripAck := false, ripCount := satAdd 0xFFFF s.lvl.ripCount 1, ripRise := s.now,
        capNow := s.lvl.ripCap } ∧
      t = { s with lvl := t.lvl, chans := t.chans } ∧
      ∀ ch, (t.chan ch).bal.pct = s.lvl.ripCap ∧ (t.chan ch).bal.capped = true ∧ (t.chan ch).bal.ramp = false ∧
        (t.chan ch).bal.eff = (s.chan ch).bal.eff ∧ (t.chan ch).wq = (s.chan ch).wq ∧ (t.chan ch).lane = (s.chan ch).lane ∧
        ((s.chan ch).planned = [] → (t.chan ch).bal.tokA = 0 ∧ (t.chan ch).bal.tokB = 0 ∧
          (t.chan ch).tail = (s.chan ch).tail)) ∧
    (s.lvl.ripReq = true → exec .ripcordReqFall s = .next { s with
      lvl := { s.lvl with
        ripReq := false, ripAck := false,
        ripLat := if s.lvl.ripAck then s.lvl.ripLat else min 4095 (s.now - s.lvl.ripRise), ripNext := s.now + 100 },
      chans := s.chans.map fun c => { c with bal := { c.bal with capped := false, ramp := decide (c.bal.pct < 100) } } }) ∧
    (s.lvl.ripReq = false → s.lvl.ripNext ≤ s.now → (∃ ch, (s.chan ch).bal.ramp = true) →
      exec .rampStep s = .next { s with
        lvl := { s.lvl with ripNext := s.lvl.ripNext + 100 },
        chans := s.chans.map fun c => if c.bal.ramp then { c with bal := { c.bal with
          pct := min 100 (c.bal.pct + s.lvl.ripStep), ramp := decide (min 100 (c.bal.pct + s.lvl.ripStep) < 100) } } else c }) ∧
    (∀ (ch : ChanId) (t : State), (s.chan ch).capDone = true →
      t = s.setChan ch { s.chan ch with bal := { (s.chan ch).bal with capPend := none } } →
      exec (.channelCapped ch) s = .next (if s.lvl.ripReq = true ∧ s.lvl.ripAck = false ∧ ∀ k, (t.chan k).capDone = true
        then { t with lvl := { s.lvl with ripAck := true, ripLat := min 4095 (s.now - s.lvl.ripRise) } } else t))

/-- A level change sends the voltage over AVSBus once the clamps are reached, repeats once on an error, and ends with
the level. With every channel within the clamps the write of the new voltage goes out; its acknowledgement starts the
settling time; an error or a timeout repeats it once and a second fails the change with AVS_FAIL; when the voltage has
settled the level and its clamps are in force; PLEVEL_DONE is raised and the change counted in both endings. Stated
where no request is pending. (R325, R326, R329, R330) -/
def Obligations.LevelChangeProceeds : Prop :=
  ∀ (s : State) (i : BlkImg) (b : Nat), s.img = some i →
    (s.lvl.change = some (b, .shifting) → (∀ ch, (s.chan ch).withinClamp s.env = true) →
      (i.levMv b ≠ i.levMv s.lvl.cur ∨ s.lvl.volt = 0) → exec .clampReached s = .next { s with lvl := { s.lvl with
        change := some (b, .avs false), avsAt := s.now, avsMv := i.levMv b } }) ∧
    (∀ r, s.lvl.change = some (b, .avs r) → exec .avsAck s = .next { s with lvl := { s.lvl with
        volt := s.lvl.avsMv, lastOk := true, change := some (b, .settle),
        settleAt := s.now + settleRef (i.levMv s.lvl.cur) (i.levMv b) s.lvl.slew } }) ∧
    (∀ e : Bool, s.lvl.change = some (b, .avs false) → (e = true ∨ s.lvl.avsAt + 100 * s.lvl.timeout ≤ s.now) →
      exec (.avsTimeout e) s = .next { s with lvl := { s.lvl with
        avsErrors := satAdd 255 s.lvl.avsErrors 1, lastOk := false, change := some (b, .avs true), avsAt := s.now } }) ∧
    (∀ (e : Bool) (t : State), s.lvl.change = some (b, .avs true) → (e = true ∨ s.lvl.avsAt + 100 * s.lvl.timeout ≤ s.now) →
      s.lvl.pend = none →
      t = ({ s with lvl := { s.lvl with avsErrors := satAdd 255 s.lvl.avsErrors 1, lastOk := false } } : State).raiseBlk
        0x079 2 (b2n e * 2 ^ 18 + s.lvl.avsMv) →
      exec (.avsTimeout e) s = .next ((({ t with lvl := { t.lvl with fail := true, change := none } } : State).plevelDone
        s.lvl.cur).blkCount 0xC6 1)) ∧
    (s.lvl.change = some (b, .settle) → s.lvl.settleAt ≤ s.now → s.lvl.pend = none →
      exec .voltageSettled s = .next ((({ s with lvl := { s.lvl with
        clampMr := i.levMr b, clampRd := i.levRd b, cur := b, change := none } } : State).plevelDone s.lvl.cur).blkCount
          0xC6 1)) ∧
    (s.lvl.change = some (b, .settle) → s.now < s.lvl.settleAt → exec .voltageSettled s = .next s)

/-- Lane isolation silences a lane, block isolation sets its level, and a loss of the retention supply floats the pins
of a kept channel. ISO_RHP_ASSERT sets the lane's isolation and stops its response, ISO_RHP_RELEASE ends it,
ISO_BLK_CHANGE sets the level of ISO_BLK, and VRET_IO_LOST releases the pins of a channel Grounded with its contents
kept and no change in progress, its CK included, and otherwise changes nothing. Stated where the channel holds no
event or occurrence of a command under way. (R333, R334, R384) -/
def Obligations.PinsActOnTheirOwn : Prop :=
  ∀ (s : State) (ch : ChanId) (c : Chan), s.chan ch = c → s.Rest ch →
    exec (.isoRhpAssert ch) s = .next (s.setChan ch { c with lane := { c.lane with iso := true, out := none } }) ∧
    exec (.isoRhpRelease ch) s = .next (s.setChan ch { c with lane := { c.lane with iso := false } }) ∧
    (∀ l, exec (.isoBlkChange l) s = .next { s with rst := { s.rst with isoBlk := l } }) ∧
    exec (.vretIoLost ch) s = .next (
      if c.power.cur = .grounded ∧ c.power.kept = true ∧ c.power.trans = none
      then s.setChan ch { c with pins := { c.pins with hold := .floating, ck := false } } else s)

/-- Writes of the scheduler, audit and upkeep registers clamp and take effect; the high-water marks read and clear.
AUDIT_ENABLE turns the audit on with an empty audit file and makes it wait for history, and leaves an enabled one
alone; CH_SCHED_URG clamps THR1 before THR2; CH_SCHED_CTL clamps WM_HIGH before WM_LOW and may change the drain modes;
POSTPONE is clamped to 4 and applies to each account at its next tick, or at once where that raises no deadline; a
read of CH_UPK_HWM answers both marks and restarts them. A SCHED_CTL write that clears SPEC_OPEN is stated where no
speculative ACT is planned. (R150, R169, R189, R430) -/
def Obligations.SchedulerRegistersAreWritten : Prop :=
  ∀ (s : State) (ch : ChanId) (c : Chan) (w : Word), s.chan ch = c →
    (s.Takes (wrTxn (.chan ch) 0xC8 1) → exec (.auditEnable ch) s = .next ((s.commitChan ch
      (if c.fab.auditEn then c else { c with fab := { c.fab with
        auditEn := true, auditReady := false, audSince := c.dclk, audHist := [], audHolds := [], audRows := [],
        audFound := [] } })).respond false 0)) ∧
    (s.Takes (wrTxn (.chan ch) 0x84 w) → exec (.schedCtlWrite ch .urg w) s = .next ((s.commitChan ch
      { c with sched := { c.sched with
        thr1 := clampTo 10 100 (bitsAt w.toNat 0 8),
        thr2 := clampTo (clampTo 10 100 (bitsAt w.toNat 0 8)) 100 (bitsAt w.toNat 8 8) } }).respond false 0)) ∧
    (s.Takes (wrTxn (.chan ch) 0x80 w) → (bitAt w.toNat 17 = true ∨ ∀ k ∈ c.planned, k.specAct = false) →
      ∃ d1 m1 g1 d2 m2 g2 q, exec (.schedCtlWrite ch .ctl w) s = .next ((s.commitChan ch
        { c with
          sched := (({ c.sched with
            specOpen := bitAt w.toNat 17, bypass := bitAt w.toNat 16, wmHigh := clampTo 2 127 (bitsAt w.toNat 8 8),
            wmLow := clampTo 1 (clampTo 2 127 (bitsAt w.toNat 8 8) - 1) (bitsAt w.toNat 0 8) } : Sched).setDrain .a d1 m1
              g1).setDrain .b d2 m2 g2,
          occ := c.occ ++ q }).respond false 0) ∧ Drains q) ∧
    (∀ p n, p = min 4 (bitsAt w.toNat 0 3) → n = (if c.sameBank then 2 * p else p) → s.Takes (wrTxn (.chan ch) 0xE0 w) →
      exec (.postponeWrite ch w) s = .next ((s.commitChan ch { c with upk := { c.upk with
        postpone := p,
        accounts := c.upk.accounts.map fun a =>
          if a.lp < n ∨ ((n : Int) + 1 ≤ a.top ∧ n < a.lp) then { a with newLp := some n }
          else { a with lp := n, newLp := none } } }).respond false 0)) ∧
    (s.Takes (rdTxn (.chan ch) 0xF0) → exec (.upkHwmRead ch) s = .next ((s.commitChan ch { c with upk := { c.upk with
        aboCnt := 0, maxDebt := min 15 c.upk.maxNow } }).respond false
      (BitVec.ofNat 32 (c.upk.aboCnt * 2 ^ 16 + (max c.upk.maxDebt (min 15 c.upk.maxNow) * 2 ^ 4)))))

/-- ARM, DISARM, chip marks, Slate invalidation and the Thatcher restart take effect as written. ARM copies the mask
and loads REMAIN; DISARM clears REMAIN; a chip mark is clamped to the module's last chip; a Slate entry, or every one,
is invalidated; RESTART of an enabled Thatcher begins a pass at line 0. Counts and indexes are clamped as their fields
say. (R223, R231, R233, R237, R259) -/
def Obligations.ProtectionRegistersAreWritten : Prop :=
  ∀ (s : State) (ch : ChanId) (c : Chan) (w v : Word), s.chan ch = c →
    (v = w ||| 1 → s.Takes (wrTxn (.chan ch) 0x204 v) → exec (.flipArm ch w) s = .next ((s.commitChan ch { c with
      prot := { c.prot with
        flipCount := clampTo 1 255 (bitsAt v.toNat 24 8), flipSrc := bitAt v.toNat 5, flipSub := bitAt v.toNat 4,
        flipMode := min 2 (bitsAt v.toNat 2 2), armed := c.prot.mask,
        flipRemain := clampTo 1 255 (bitsAt v.toNat 24 8) } }).respond false 0)) ∧
    (v = (w &&& 0xFFFFFFFC) ||| 2 → s.Takes (wrTxn (.chan ch) 0x204 v) → exec (.flipDisarm ch w) s = .next ((s.commitChan ch
      { c with prot := { c.prot with
        flipCount := clampTo 1 255 (bitsAt v.toNat 24 8), flipSrc := bitAt v.toNat 5, flipSub := bitAt v.toNat 4,
        flipMode := min 2 (bitsAt v.toNat 2 2), flipRemain := 0 } }).respond false 0)) ∧
    (s.Takes (wrTxn (.chan ch) 0x200 w) → exec (.chipmarkWrite ch w) s = .next ((s.commitChan ch
      { c with prot := { c.prot with
        markAEn := bitAt w.toNat 7, markA := min (if c.x8 then 4 else 9) (bitsAt w.toNat 0 4),
        markBEn := bitAt w.toNat 15, markB := min (if c.x8 then 4 else 9) (bitsAt w.toNat 8 4) } }).respond false 0)) ∧
    (∀ i : Fin 32, s.Takes (wrTxn (.chan ch) 0x320 (0x80000000 ||| BitVec.ofNat 32 i.val)) →
      exec (.slateInval ch i) s = .next ((s.commitChan ch { c with err := { c.err with
        slateIdx := i.val, slate := updateAt i.val (fun x => { x with valid := false }) c.err.slate } }).respond false 0)) ∧
    (v = w ||| 0x40000000 → bitAt w.toNat 31 = false → s.Takes (wrTxn (.chan ch) 0x320 v) →
      exec (.slateInvalAll ch w) s = .next ((s.commitChan ch { c with err := { c.err with
        slateIdx := bitsAt v.toNat 0 5, slate := c.err.slate.map fun x => { x with valid := false } } }).respond false 0)) ∧
    (v = w ||| 0x20000 → s.Takes (wrTxn (.chan ch) 0x300 v) → c.th.enable = true → bitAt w.toNat 16 = true →
      exec (.thatcherRestart ch w) s = .next ((s.commitChan ch { c with th := { c.th with
        enable := true, int := clampTo 1 65535 (bitsAt v.toNat 0 16), pos := 0, activeAcc := 0,
        passStart := s.now } }).respond false 0))

/-- CH_STATE_STAT, CH_FENCE and CH_SCHED_OCC read as the channel stands, and the read changes nothing. A register read
of CH_STATE_STAT answers Glide, DOWN, KEPT, DRAIN, BUSY, the pending and current requests and the state; CH_FENCE
answers DONE and RANK; CH_SCHED_OCC the occupancies; the channel stays as it was. (R116, R337, R348, R355) -/
def Obligations.StatusRegistersShowTheChannel : Prop :=
  ∀ (s : State) (ch : ChanId) (c : Chan), s.chan ch = c → s.Rest ch →
    ∀ p ∈ [
      ((0x4 : Nat), mkWord [
        (24, maskBits ((List.range 8).map fun r => c.inGlide .a r || c.inGlide .b r)), (23, b2n c.down), (22, b2n c.keptNow),
        (21, b2n c.draining), (20, b2n c.power.trans.isSome), (19, b2n c.power.pend.isSome),
        (18, match c.power.pend with | some q => b2n q.keep | none => 0),
        (16, match c.power.pend with | some q => q.tgt.num | none => 0),
        (12, match c.power.trans with | some t => t.req.tgt.num | none => 0), (8, c.power.cur.num)]),
      (0x18, mkWord [(8, c.seqr.fenceDone.toNat), (0, c.seqr.fence.toNat)]),
      (0x88, mkWord [(24, c.rspUsed), (16, c.holdUsed), (8, c.wq.length), (0, c.rqUsed)])],
    s.Takes (rdTxn (.chan ch) p.1) → exec (.registerRead (regAddr (.chan ch) p.1)) s = .next (s.respond false p.2)

/-- The register space: overlaps fault, a channel in reset holds its transactions, holes answer a bus error, registers
answer. With the block ready: a transaction presented while another is outstanding is a fault; one to a channel in
reset is held; reads and writes outside the implemented space, and writes of user pages, answer a bus error and
nothing else changes; BLK_ID and BLK_VERSION read their fixed words; BLK_IRQ_EN and CH_TETHER_CTL are written with
their clamps; a read that the register space answers is answered with its word. (R11, R113, R114, R337, R370, R395,
R399, R400) -/
def Obligations.RegisterSpaceAnswers : Prop :=
  ∀ (s : State) (a : BitVec 24) (w : Word), s.rst.ready = true →
    (s.mgt.held ≠ none → exec (.registerWrite a w) s = .fault .mgtOverlap ∧ exec (.registerRead a) s = .fault .mgtOverlap) ∧
    (s.mgt.held = none →
      (∀ ch : ChanId, addrChan a.toNat = some ch → (s.chan ch).power.rst = true →
        exec (.registerWrite a w) s = .next { s with mgt := { s.mgt with
          held := some { we := true, addr := a, data := w }, rspV := false } } ∧
        exec (.registerRead a) s = .next { s with mgt := { s.mgt with
          held := some { we := false, addr := a, data := 0 }, rspV := false } }) ∧
      ((∀ ch : ChanId, (s.chan ch).power.rst = false ∧ (s.chan ch).cv.owner = false) →
        (s.readAddr a.toNat = none → exec (.registerRead a) s = .next (s.respond true 0)) ∧
        (∀ t x, s.readAddr a.toNat = some (t, x) → exec (.registerRead a) s = .next (t.respond false x)) ∧
        (0x900000 ≤ a.toNat → a.toNat < 0xF00000 → (a.toNat < 0xA00000 ∨ 0xA09000 ≤ a.toNat) →
          exec (.registerRead a) s = .next (s.respond true 0) ∧ exec (.registerWrite a w) s = .next (s.respond true 0)) ∧
        (0xA00000 ≤ a.toNat → a.toNat < 0xA09000 → exec (.registerWrite a w) s = .next (s.respond true 0)) ∧
        (a = 0 → exec (.registerRead a) s = .next (s.respond false 0xB1700880)) ∧
        (a = 4 → exec (.registerRead a) s = .next (s.respond false 0x03010300) ∧
          exec (.registerWrite a w) s = .next (s.respond false 0)) ∧
        (a = 0x310 → exec (.registerWrite a w) s = .next (({ s with ev := { s.ev with
          urgEn := bitAt w.toNat 1, evtEn := bitAt w.toNat 0 } } : State).respond false 0)) ∧
        (∀ (ch : ChanId), a = regAddr (.chan ch) 0x20 → exec (.registerWrite a w) s = .next ((s.commitChan ch { s.chan ch with
          power := { (s.chan ch).power with
            period := clampTo 1 255 (bitsAt w.toNat 8 8), wakeTemp := clampTo 40 125 (bitsAt w.toNat 0 8) } }).respond
              false 0))))

/-- Counters add what was gathered at the RCLK edge, modulo 2^48 with OVF; WHI, OVF_CLR, FREEZE, WIDE_ADDR and the
user pages act. A write of WHI notes a load of the counter it names; a write of the control register clears overflow
bits and sets FREEZE; WIDE_ADDR starts a snapshot; a user page answers the low word of a counter that is enabled for
users, latches the rest, and answers a bus error otherwise. At the edge each counter without a load adds its gathered
count unless frozen, modulo 2^48, with OVF on a carry, and the loads are done. (R372, R373, R374, R375, R378, R379,
R404) -/
def Obligations.CountersCount : Prop :=
  ((∀ (s : State) (p : Page) (w : Word) (x : Instr) (off : Nat) (k : Counters → Counters),
      (x = .cntWhiWrite p w ∧ off = (match p with | .blk => 0x844 | .chan _ => 0x584) ∧ k = fun u => { u with
          load := u.load ++ [(min (u.cs.length - 1) (bitsAt w.toNat 16 4), bitsAt w.toNat 0 16 * 2 ^ 32 + u.wlo)] }) ∨
      ((x = .ovfClr p w ∨ x = .freeze p w) ∧ off = (match p with | .blk => 0x848 | .chan _ => 0x588) ∧ k = fun u => { u with
          freezeNext := bitAt w.toNat 0,
          cs := ((List.range u.cs.length).zip u.cs).map fun c => if bitAt w.toNat (16 + c.1) then { c.2 with ovf := false } else c.2 }) →
      s.Takes (wrTxn p off w) → exec x s = .next ((match p with
        | .blk => { s with cnt := k s.cnt }
        | .chan ch => s.commitChan ch { s.chan ch with cnt := k (s.chan ch).cnt }).respond false 0)) ∧
    (∀ (s : State) (p : Page) (w : Word), s.Takes (wrTxn p (match p with | .blk => 0x400 | .chan _ => 0x900) w) →
      ∀ x : Wide, x = { sel := bitsAt w.toNat 0 16, pending := true, valid := false, badsel := false, d := [0, 0, 0, 0] } →
      exec (.wideAddrWrite p w) s = .next ((match p with
        | .blk => { s with wide := x }
        | .chan ch => s.commitChan ch { s.chan ch with wide := x }).respond false 0)) ∧
    (∀ (s : State) (n : Fin 9) (i : Fin 16) (k : Counters), k = s.userCnt n.val → s.mgt.held = none → s.rst.ready = true →
      (∀ c, k.cs[i.val]? = some c → c.user = true → exec (.uCntLoRead n i) s = .next ((s.setUserCnt n.val { k with
        latchLo := c.value % 2 ^ 32, latchHi := b2n c.ovf * 2 ^ 31 + c.value / 2 ^ 32 % 2 ^ 16 }).respond false
          (BitVec.ofNat 32 c.value))) ∧
      ((∀ c, k.cs[i.val]? = some c → c.user = false) → exec (.uCntLoRead n i) s = .next (s.respond true 0)))) ∧
  ((∀ s : State, ∃ t, exec .counterAdd s = .next t ∧ t.now = s.now ∧ t.img = s.img ∧ t.pending = s.pending ∧
      (s.mgt.held = none → s.mgt.repair = none → t.rclk = s.rclk + 1 ∧ t.mgt = s.mgt ∧ t.wide = s.wide.take (fun n => t.wideBlk n))) ∧
    ∀ (k : Counters) (i : Nat) (c : Counter), k.cs[i]? = some c → (∀ l ∈ k.load, l.1 ≠ i) → ∃ sum,
      sum = c.value + (if k.freeze then 0 else c.acc) ∧
      k.edge.1.cs[i]? = some { c with value := sum % 2 ^ 48, ovf := c.ovf || decide (2 ^ 48 ≤ sum), acc := 0 } ∧
      (i ∈ k.edge.2 ↔ 2 ^ 48 ≤ sum) ∧ k.edge.1.freeze = k.freezeNext ∧ k.edge.1.load = [])

/-- Loft operations start on a hit, stall on a set full of pins, fill on a miss and complete; evictions and cleaning
write lines. With no upset in a store: an operation on a present granule starts, or waits for its fill; on a set with
12 pinned ways it stalls; on a miss with a clean way and a free fill the way is reserved and the metadata line is
read, but on a fenced rank the operation waits (log entry 98). A clean fill fills the reserved entries and starts
their operations. The first eviction enters a reserved write entry with its value or its poison, or waits for one; a
fence or a cap on class 15 is stated to be off. Cleaning waits during a cap, and otherwise takes the next dirty entry
in set order, which it leaves clean. MDCAS and MDW complete on the entry's value. (R267, R269, R271, R272, R273, R274,
R275, R276, R278) -/
def Obligations.LoftOperationsRun : Prop :=
  ∀ (s : State) (ch : ChanId) (c : Chan) (o : LoftOp), s.chan ch = c →
    (∀ x : LoftEntry, c.loft.ops.find? (fun p => p.stage == .input) = some o → o.kind ≠ .repair → c.upsets = [] →
      c.loft.find o.granule = some x →
      ((c.loft.pinned o.granule = true ∨ c.loft.pinsIn x.set < 12) → ∃ q, exec (.loftOpStart ch) s = .next (s.commitChan ch
        { c with
          occ := c.occ ++ [o.occ (if x.valid then 0x15 else 0x16)],
          loft := { c.loft with
            stalled := false, plru := q,
            ops := updateWhere (fun p => p.seq == o.seq) (fun p => { p with stage := if x.valid then .started else .waitFill })
              c.loft.ops } })) ∧
      (c.loft.pinned o.granule = false → 12 ≤ c.loft.pinsIn x.set → ∃ d, exec (.loftOpStart ch) s = .next (s.commitChan ch d) ∧
        d.loft.ops = c.loft.ops ∧ d.loft.entries = c.loft.entries ∧ d.loft.stalled = true ∧
        d.loft.stalls = (if c.loft.stalled then c.loft.stalls else satAdd 0xFFFF c.loft.stalls 1))) ∧
    (∀ w : Nat, c.loft.ops.find? (fun p => p.stage == .input) = some o → o.kind ≠ .repair → c.upsets = [] →
      c.loft.find o.granule = none → c.loft.pinsIn (setOf o.granule) < 12 → c.pickWay (setOf o.granule) = some w →
      (∀ v, c.loft.at (setOf o.granule) w = some v → v.dirty = false) → c.inEvicts o.granule = none →
      (∀ f ∈ c.loft.fills, f.mdline ≠ c.mdLineOf o.granule) →
      (c.fenced (c.devOf (c.mdLineOf o.granule)).bank.rank = true → exec (.loftOpStart ch) s = .next (s.commitChan ch c)) ∧
      (c.fenced (c.devOf (c.mdLineOf o.granule)).bank.rank = false → c.loft.fills.length < 12 →
      (∀ v ∈ c.loft.evicts, v.mdline = c.mdLineOf o.granule → v.psn = false) →
      c.beatWaits (c.mdLineOf o.granule) c.nextSeq = false → c.newestWr (c.mdLineOf o.granule) c.nextSeq = none →
      ∃ d, exec (.loftOpStart ch) s = .next (s.commitChan ch d) ∧
        d.loft.fills = c.loft.fills ++ [{ mdline := c.mdLineOf o.granule, seq := c.nextSeq, result := none, failed := false }] ∧
        d.loft.evicts = c.loft.evicts ∧ d.wq = c.wq ∧
        { set := setOf o.granule, way := w, granule := o.granule, value := 0, valid := false, dirty := false, doomed := false } ∈
          d.loft.entries ∧
        d.loft.ops = updateWhere (fun p => p.seq == o.seq) (fun p => { p with stage := .waitFill }) c.loft.ops)) ∧
    (∀ (f : LoftFill) (r : Decoded), c.loft.fills.find? (fun f => f.result.isSome || f.failed) = some f → f.result = some r →
      r.outcome.isBad = false →
      exec (.loftFillReturn ch) s = .next (s.commitChan ch { c with
        loft := { c.loft with
          fills := c.loft.fills.filter fun x => x.seq != f.seq,
          entries := updateWhere (fun x => decide (c.granule0 f.mdline ≤ x.granule) && decide (x.granule < c.granule0 f.mdline + 8) &&
              !x.valid)
            (fun x => { x with valid := true, dirty := false, value := slotOf r.line (x.granule % 8) }) c.loft.entries,
          ops := updateWhere (fun p => p.stage == .waitFill &&
              (decide (c.granule0 f.mdline ≤ p.granule) && decide (p.granule < c.granule0 f.mdline + 8)))
            (fun p => { p with stage := .started }) c.loft.ops } })) ∧
    (∀ (x : Evict) (l : List Evict), c.loft.evicts = x :: l → x.cleaning = false →
      c.fenced (c.devOf x.mdline).bank.rank = false → (c.sourcesHold = true → x.cls ≠ 15) →
      (8 ≤ c.resWq → exec (.loftEvictEnqueue ch) s = .next (s.commitChan ch c)) ∧
      (c.resWq < 8 → (∀ w ∈ c.wq, w.laddr ≠ x.mdline) → ∃ m w, exec (.loftEvictEnqueue ch) s = .next (s.commitChan ch { c with
        nextSeq := c.nextSeq + 1, loft := m, wq := c.wq ++ [w] }) ∧ m.evicts = l ∧
        (c.loft.closing = false → m = { c.loft with
          evicts := l, wbBusy := c.loft.wbBusy && !(c.loft.wball.isEmpty && !l.any fun y => y.cleaning) }) ∧
        w.src = .evict ∧ w.laddr = x.mdline ∧ w.line = (if x.psn then 0 else x.line) ∧ w.be = (if x.psn then allBytes else x.be) ∧ w.psn = x.psn ∧ w.cls = x.cls ∧
        w.committed = false)) ∧
    (c.sourcesHold = true → exec (.loftClean ch) s = .next (s.commitChan ch c)) ∧
    (∀ x ∈ c.loft.entries, c.upsets = [] → c.sourcesHold = false → c.loft.wball = [] → c.loft.evicts.length < 8 → c.loft.dirtyMax < c.loft.dirty →
      c.loft.entries.find? (fun y => (y.valid && y.dirty) && decide (c.loft.cleanPtr ≤ y.set)) = some x →
      ∃ d e, exec (.loftClean ch) s = .next (s.commitChan ch d) ∧ d.loft.evicts = c.loft.evicts ++ [e] ∧
        e.mdline = c.mdLineOf x.granule ∧ e.cls = 15 ∧ d.loft.cleanPtr = (x.set + 1) % 16384 ∧
        d.loft.entries.length = c.loft.entries.length ∧ (∀ y ∈ d.loft.entries, y.granule = x.granule → y.dirty = false) ∧
        (∀ y ∈ d.loft.entries, y ∈ c.loft.entries ∨ ∃ z ∈ c.loft.entries, y = { z with dirty := false })) ∧
    (∀ x : LoftEntry, c.loft.ops.find? (fun p => p.stage == .started) = some o → c.loft.find o.granule = some x →
      o.sent = false → c.upsets = [] →
      (o.kind = .mdcas → ∀ ok : Bool, ok = decide (valueAt x.value o.slot = o.mdexp) →
        exec (.loftOpComplete ch) s = .next (s.commitChan ch { c with
          loft := { c.loft with
            entries := updateWhere (fun y => y.granule == o.granule)
              (fun y => { y with value := if ok then storeAt x.value o.slot o.mdnew else x.value, dirty := y.dirty || ok })
              c.loft.entries,
            ops := updateWhere (fun p => p.seq == o.seq) (fun p => { p with stage := .done ok (valueAt x.value o.slot) false, sent := true })
              c.loft.ops },
          lane := { c.lane with ready := c.lane.ready ++ [mdataRsp o ok (valueAt x.value o.slot) false c.lane.hclk] } })) ∧
      (o.kind = .mdw → exec (.loftOpComplete ch) s = .next (s.commitChan ch { c with
          loft := { c.loft with
            entries := updateWhere (fun y => y.granule == o.granule)
              (fun y => { y with value := storeAt x.value o.slot o.mdnew, dirty := true }) c.loft.entries,
            ops := updateWhere (fun p => p.seq == o.seq) (fun p => { p with stage := .done true 0 false, sent := true })
              c.loft.ops },
          lane := { c.lane with ready := c.lane.ready ++ [plainRsp .cmp o.tag 0 c.lane.hclk o.cls] } })))

/-- CH_LOFT_CTL turns the Loft on and off, writes back its dirty entries and starts a REPAIR that holds the write. A
write clamps DIRTYMAX and sets ON where the image enables metadata; turning it off waits for its operations, writes
back its dirty entries or empties it; WBALL writes back the dirty entries; REPAIR on a running channel with metadata
enters the Loft as an operation and the management lane holds the write until it is done. (R264, R282, R283, R284,
R287) -/
def Obligations.LoftControlIsWritten : Prop :=
  ∀ (s : State) (ch : ChanId) (c : Chan) (w v : Word) (x : Instr) (i : ChanImg) (l : Loft), s.chan ch = c → c.img = some i →
    (x = .loftOn ch w ∧ v = w ||| 0x100000) ∨ (x = .loftOff ch w ∧ v = w &&& 0xFFEFFFFF) ∨
      (x = .wball ch w ∧ v = w ||| 0x80000000) ∨ (x = .repair ch w ∧ v = w ||| 0x40000000) →
    s.Takes (wrTxn (.chan ch) 0xA00 v) →
    l = { c.loft with
      dirtyMax := clampTo 256 262144 (bitsAt v.toNat 0 19), on := bitAt v.toNat 20 && i.mdEn,
      closing := c.loft.closing && !(bitAt v.toNat 20 && i.mdEn && !c.loft.on) } →
      (bitAt v.toNat 31 = false ∨ c.running = false → bitAt v.toNat 30 = false → c.loft.on = false ∨ l.on = true →
        exec x s = .next ((s.commitChan ch { c with loft := l }).respond false 0)) ∧
      (bitAt v.toNat 31 = false ∨ c.running = false → bitAt v.toNat 30 = false → c.loft.on = true → l.on = false →
        c.loft.wbBusy = false →
        exec x s = .next ((s.commitChan ch { c with loft :=
          if c.loft.ops ≠ [] then { l with closing := true }
          else if l.dirtyList = [] ∧ c.loft.evicts = [] then { l with entries := [], plru := [], closing := false }
          else { l with closing := true, wball := l.dirtyList, wbBusy := true } }).respond false 0)) ∧
      (bitAt v.toNat 31 = true → c.running = true → bitAt v.toNat 30 = false → c.loft.on = false ∨ l.on = true →
        l.closing = false → l.dirtyList ≠ [] →
        exec x s = .next ((s.commitChan ch { c with loft := { l with wball := l.dirtyList, wbBusy := true } }).respond false 0)) ∧
      (bitAt v.toNat 30 = true → bitAt v.toNat 31 = false → c.running = true → i.mdEn = true → c.loft.on = false ∨ l.on = true →
        exec x s = .next (({ s with mgt := { s.mgt with
            held := some (wrTxn (.chan ch) 0xA00 v), repair := some ch, rspV := false } } : State).commitChan ch
          { c with
            nextSeq := c.nextSeq + 1,
            loft := { l with ops := l.ops ++ [{
              kind := .repair, seq := c.nextSeq, tag := 0, cls := 15, priv := 0, age := 0, laddr := c.fixLine, mdnew := 0,
              mdexp := 0, stage := .input, lineDone := false, sent := false }] } }))

/-- A shift pause: QUIET with every rank in self-refresh, the new clock with empty files and aged requests rescaled,
and the end with its retrims. QUIET_ASSERT stops CK exactly when every rank is in self-refresh and the fabric is
quiet, and otherwise does nothing; PLL_LOCK takes the new trim set and rate, empties the timestamp file, the last rows
and the audit file, counts standing holds as satisfied, computes the bridge schedules and rescales ages;
SHIFT_PAUSE_END waits for the ranks, the tail and the bursts, and then takes the new latencies, keeps BANDWIDTH mode
suspended for two windows at least and asks for a normal retrim of every rank. (R19, R124, R168, R303, R304) -/
def Obligations.ShiftPauseRuns : Prop :=
  ∀ (s : State) (ch : ChanId) (c : Chan), s.chan ch = c →
    ((∀ x ∈ c.upk.ranks, x.selfRef = true) → c.trim.shift = some .prepare → c.quiet = true →
      exec (.quietAssert ch) s = .next (s.commitChan ch { c with
        trim := { c.trim with shift := some .clocks, mrw := [] }, upk := { c.upk with park := false },
        pins := { c.pins with ck := false } })) ∧
    (c.trim.shift ≠ some .prepare ∨ c.quiet = false ∨ (∃ x ∈ c.upk.ranks, x.selfRef = false) →
      exec (.quietAssert ch) s = .next (s.commitChan ch c)) ∧
    (∀ n, c.trim.shift = some .clocks → n = (c.trim.set c.trim.shiftTo).n →
      exec (.pllLock ch) s = .next (s.commitChan ch { c with
        trim := { c.trim with shift := some .locked, tsel := c.trim.shiftTo, nCur := n },
        power := { c.power with readyAt := s.now },
        fab := { c.fab with
          tset := c.trim.shiftTo, hist := [], holds := c.fab.holds.map fun h => { h with start := none },
          audHist := [], audHolds := c.fab.audHolds.map fun h => { h with start := none }, audRows := [] },
        banks := (c.banks.map fun p => (p.1, { p.2 with rowLast := none })).filter fun p => p.2 != BankEntry.idle,
        bridges := match c.img with
          | some i => bridgesAt s.env.hclkM s.env.phase i.mr n
          | none => Reset.bridges,
        rq := c.rq.map fun r => { r with age := r.age * n * kDiv c.trim.nCur / max 1 (c.trim.nCur * kDiv n) },
        loft := { c.loft with ops := c.loft.ops.map fun o => { o with
          age := o.age * n * kDiv c.trim.nCur / max 1 (c.trim.nCur * kDiv n) } } })) ∧
    (∀ lat : Latencies, c.trim.shift = some .restart → (∀ x ∈ c.upk.ranks, x.selfRef = false) → c.tail = [] →
      c.burstsOver = true → c.power.trans = none → c.trim.bestSet c.trim.reqN = some c.trim.tsel →
      ∃ d, exec (.shiftPauseEnd ch lat) s = .next (s.commitChan ch d) ∧ d.trim = { c.trim with shift := none } ∧
        d.fab = { c.fab with rl := lat.rl % 256, wl := lat.wl % 256, bld := if c.mr then 4 else 8 } ∧
        d.err.crcWin = lat.crcWin % 4096 ∧ d.err.parWin = lat.parWin % 4096 ∧ d.bal.modeReq = max c.bal.modeReq 2 ∧
        d.upk.wake = false ∧ (∀ p ∈ d.upk.pauses, p ∈ c.upk.pauses ∨ p.kind = .retrim) ∧
        ∀ q ∈ c.rankPairs, ∃ p ∈ d.upk.pauses, p.kind = .retrim ∧ p.sub = q.1 ∧ p.rank = q.2 ∧ p.wide = false ∧
          p.running = false) ∧
    (∀ lat : Latencies, c.trim.shift = some .restart → (∃ x ∈ c.upk.ranks, x.selfRef = true) ∨ c.tail ≠ [] ∨ c.burstsOver = false →
      exec (.shiftPauseEnd ch lat) s = .next (s.commitChan ch c))

/-- A due retrim asks for its pause; its end moves the centres of the rank's lanes, and a lane without a passing probe
is marginal. Before its time nothing happens; at it one pause of the rank is asked for, as long as its commands take
under the batten program (log entry 106). At the end of a retrim pause exactly the entries of that rank in the set in
force change, each by the moves of its probes, which clear its mark and its fails; the two lanes of an x8 device move
alike (log entry 15); a lane whose read or write probe does not pass keeps its centres, is marginal and counts a fail
up to 3. A centre that leaves its field is a free value (log entry 14). (R289, R297, R298, R299, R300, R301) -/
def Obligations.RetrimMovesTheCentres : Prop :=
  ∀ (s : State) (ch : ChanId) (c : Chan) (sb : Sub) (r : Nat), s.chan ch = c →
    (∀ x : RankSt, c.upk.rank sb r = some x → c.running = true → c.trim.shift = none →
      (s.now < x.retrimNext → exec (.retrimIntervalExpire ch sb r) s = .next (s.commitChan ch c)) ∧
      (x.retrimNext ≤ s.now → (∀ p ∈ c.upk.pauses, p.kind = .retrim → p.sub = sb → p.rank ≠ r) →
        ∃ p : Pause, exec (.retrimIntervalExpire ch sb r) s = .next (s.commitChan ch { c with
          free := c.free + 1,
          upk := { c.upk with
            pauses := c.upk.pauses ++ [p],
            ranks := updateWhere (fun x => x.sub == sb && x.rank == r) (fun x => { x with retrimNext := x.retrimNext + c.retrimInterval })
              c.upk.ranks } }) ∧
          p.kind = .retrim ∧ p.sub = sb ∧ p.rank = r ∧ p.wide = x.retrimWide ∧ p.running = false ∧
          p.len = c.refOfDclk (c.seqLength (c.retrimCmds sb r x.retrimWide)))) ∧
    (∀ (p : Pause) (probes : List LaneProbe) (i : ChanImg), c.retrimOver s.env sb r = some p → c.img = some i →
      c.trim.shift = none →
      ∃ d, exec (.retrimPauseEnd ch sb r probes) s = .next (s.commitChan ch d) ∧ d.upk.pauses = c.upk.pauses.erase p ∧
        d.trim.pauses = satAdd 0xFFFF c.trim.pauses 1 ∧ d.trim.nCur = c.trim.nCur ∧
        (∀ t u q l, (t ≠ c.trim.tsel ∨ u ≠ sb ∨ q ≠ r) → (d.trim.set t).entry u q l = (c.trim.set t).entry u q l) ∧
        ∀ (l : Nat) (v : BitVec 128) (rd wr : Option Int), l < 10 →
          (∃ x ∈ (c.trim.set c.trim.tsel).entries, x.1 = sb ∧ x.2.1 = r ∧ x.2.2.1 = l) →
          v = (c.trim.set c.trim.tsel).entry sb r l →
          rd = retrimMove (probeOf p.wide (laneProbes i.x8 probes l).readPass) (if p.wide then 24 else 2) →
          wr = retrimMove (probeOf p.wide (laneProbes i.x8 probes l).writePass) (if p.wide then 24 else 2) →
          (d.trim.set c.trim.tsel).entry sb r l = entryAfter v rd wr (c.free + 2 * if i.x8 then l / 2 * 2 else l)) ∧
    (∀ (v : BitVec 128) (a b : Int) (n : Nat), 0 ≤ (bitsAt v.toNat 116 8 : Int) + a → (bitsAt v.toNat 116 8 : Int) + a ≤ 255 →
      0 ≤ (bitsAt v.toNat 108 8 : Int) + b → (bitsAt v.toNat 108 8 : Int) + b ≤ 255 →
      (bitsAt (entryAfter v (some a) (some b) n).toNat 116 8 : Int) = bitsAt v.toNat 116 8 + a ∧
      (bitsAt (entryAfter v (some a) (some b) n).toNat 108 8 : Int) = bitsAt v.toNat 108 8 + b ∧
      entMarg (entryAfter v (some a) (some b) n) = false ∧ entFails (entryAfter v (some a) (some b) n) = 0) ∧
    (∀ (v : BitVec 128) (rd wr : Option Int) (n : Nat), rd = none ∨ wr = none →
      bitsAt (entryAfter v rd wr n).toNat 108 16 = bitsAt v.toNat 108 16 ∧ entMarg (entryAfter v rd wr n) = true ∧
      entFails (entryAfter v rd wr n) = min 3 (entFails v + 1))

/-- A sensor reading is stored, raises MODULE_HOT once above the limit, and re-arms five degrees below it. On a
running channel that polls: a present sensor's reading is stored; at or above THERM_HI it raises MODULE_HOT once, and
again only after a reading more than 5 degrees below; an in-band interrupt does so at once except on an I2C bus or
while a transaction holds the bus (log entry 107); a poll waits for the bus, does so when due and moves the next one
by 32 ms. (R306, R307, R308) -/
def Obligations.SensorsAreRead : Prop :=
  ∀ (s : State) (ch : ChanId) (c d : Chan) (dimm sensor : Fin 2) (t : BitVec 12) (k : Nat) (hot : Bool), s.chan ch = c →
    c.running = true → c.sb.poll = true → c.sb.hasSensor dimm.val sensor.val = true → k = 2 * dimm.val + sensor.val →
    hot = decide (4 * (c.sb.thermHi : Int) ≤ quarterDeg t) →
    d = { c with
      sb := { c.sb with
        i2c := c.sb.noI3c || c.sb.rate == 3, therm := updateAt k (fun _ => (true, t)) c.sb.therm,
        hotOff := updateAt k (fun _ => if hot then true else if decide (quarterDeg t < 4 * (c.sb.thermHi : Int) - 20) then false
          else c.sb.hotOff.getD k false) c.sb.hotOff },
      evOut := if hot = true ∧ c.sb.hotOff.getD k false = false
        then c.evOut ++ [{ loc := evModuleHot, info := packFields [(9, dimm.val), (8, sensor.val), (0, wholeDeg t)] }]
        else c.evOut } →
    (c.sb.busy = false → c.sb.i2c = false → exec (.sensorIbi ch dimm sensor t) s = .next (s.commitChan ch d)) ∧
    (c.sb.busy = true ∨ c.sb.i2c = true → exec (.sensorIbi ch dimm sensor t) s = .next (s.commitChan ch c)) ∧
    (c.sb.busy = true ∨ s.now < nth0 c.sb.nextPoll k → exec (.sensorPoll ch dimm sensor t) s = .next (s.commitChan ch c)) ∧
    (c.sb.busy = false → nth0 c.sb.nextPoll k ≤ s.now → exec (.sensorPoll ch dimm sensor t) s = .next (s.commitChan ch { d with
      sb := { d.sb with nextPoll := updateAt k (fun n => n + 32 * refMs) c.sb.nextPoll } }))

/-- Requests of a rate, a state and a level are clamped and start, wait in the pending slot or are refused. A rate is
clamped by the clamps, the DIMM count and the module; without a valid set it sets NOSET and a shift that is due is
dropped; a shift that is due takes the new set, or is dropped where that is the set in force; it starts no shift on
the same set, off Flight or in a change other than a drain, and otherwise becomes due behind a running pause. A state
request takes the pending slot during a reset or change; from Flight it starts the drain, to Flight the stagger; to
the present state it does nothing. A level request only sets TARGET without an image, takes the pending slot during a
change, and otherwise starts. (R17, R302, R303, R305, R313, R314, R320, R325, R331, R337) -/
def Obligations.RatesAndStatesAreRequested : Prop :=
  ∀ (s : State) (ch : ChanId) (c : Chan), s.chan ch = c →
    (∀ (w : Word) (n : Nat), s.Takes (wrTxn (.chan ch) 0x10 w) →
      n = clampTo 24 (clampTo 24 64 (min (if c.mr then s.lvl.clampMr else s.lvl.clampRd)
        (min (match c.img with | some i => if i.dimms = 2 then 32 else 64 | none => 64) c.trim.modMax))) (bitsAt w.toNat 0 8) →
      (c.trim.bestSet n = none → exec (.rateRequestWrite ch w) s = .next ((s.commitChan ch
        { c with trim := { c.trim with
          reqN := n, noset := true, shift := if c.trim.shift = some .due then none else c.trim.shift } }).respond false 0)) ∧
      (∀ t, c.trim.bestSet n = some t → c.trim.shift = some .due → exec (.rateRequestWrite ch w) s = .next ((s.commitChan ch
        { c with trim := if t = c.trim.tsel then { c.trim with reqN := n, noset := false, shift := none }
          else { c.trim with reqN := n, noset := false, shiftTo := t } }).respond false 0)) ∧
      (∀ t, c.trim.bestSet n = some t → c.trim.shift = none →
        t = c.trim.tsel ∨ c.running = false ∨ (c.power.trans ≠ none ∧ c.draining = false) →
        exec (.rateRequestWrite ch w) s = .next ((s.commitChan ch
          { c with trim := { c.trim with reqN := n, noset := false } }).respond false 0)) ∧
      (∀ t p, c.trim.bestSet n = some t → c.trim.shift = none → t ≠ c.trim.tsel → c.running = true →
        c.power.trans = none ∨ c.draining = true → p ∈ c.upk.pauses → p.running = true →
        exec (.rateRequestWrite ch w) s = .next ((s.commitChan ch
          { c with trim := { c.trim with reqN := n, noset := false, shift := some .due, shiftTo := t } }).respond false 0))) ∧
    (∀ (w v : Word) (q : PReq) (d : Chan), v = w ||| 4 → s.Takes (wrTxn (.chan ch) 0x0 v) →
      q = { tgt := PState.ofNum (bitsAt v.toNat 0 2), keep := bitAt v.toNat 8 && Config.padRetention, wake := { source := 1, dimm := 0, sensor := 0, temp := 0 } } →
      d = { c with power := { c.power with target := q.tgt, keep := q.keep } } → q.tgt = .grounded ∨ c.img ≠ none →
      (c.power.rst = true ∨ c.power.fatal = true ∨ c.power.trans ≠ none →
        exec (.stateGo ch w) s = .next ((s.commitChan ch { d with power := { d.power with pend := some q } }).respond false 0)) ∧
      (c.power.rst = false → c.power.fatal = false → c.power.trans = none →
        (c.power.cur = q.tgt → c.power.cur ≠ .grounded →
          exec (.stateGo ch w) s = .next ((s.commitChan ch d).respond false 0)) ∧
        (c.power.cur = .flight → q.tgt ≠ .flight → ∃ h o, Drains o ∧
          exec (.stateGo ch w) s = .next ((s.commitChan ch { d with
            power := { d.power with trans := some { frm := .flight, req := q, ph := .drain }, pend := none, readyAt := s.now },
            sched := h, occ := c.occ ++ o }).respond false 0)) ∧
        (c.power.cur ≠ .flight → q.tgt = .flight → (c.power.cur = .grounded → s.img ≠ none ∧ s.loader.isOpen = false) →
          exec (.stateGo ch w) s = .next ((s.commitChan ch { d with
            power := { d.power with
              trans := some { frm := c.power.cur, req := q, ph := .stagger }, pend := none, readyAt := s.now } }).respond false 0)))) ∧
    (∀ (w v : Word) (b : Nat), v = w ||| 4 → s.Takes (wrTxn .blk 0x200 v) → b = bitsAt v.toNat 0 2 →
      (s.img = none → exec (.plevelGo w) s = .next (({ s with lvl := { s.lvl with target := b } } : State).respond false 0)) ∧
      (s.img ≠ none → s.lvl.change ≠ none → exec (.plevelGo w) s = .next (({ s with lvl := { s.lvl with
        target := b, pend := some b } } : State).respond false 0)) ∧
      (∀ i, s.img = some i → s.lvl.change = none → s.lvl.clampMr ≤ i.levMr b → s.lvl.clampRd ≤ i.levRd b →
        i.levMv b ≠ i.levMv s.lvl.cur ∨ s.lvl.volt = 0 →
        exec (.plevelGo w) s = .next (({ s with lvl := { s.lvl with
          target := b, fail := false, noset := false, started := s.now, change := some (b, .avs false), avsAt := s.now,
          avsMv := i.levMv b } } : State).respond false 0)))

/-- A power-down drains its queues, writes the Loft back, parks its ranks and ends in its state with CH_STATE_DONE.
Until the queues are drained nothing changes. Then Moored parks the ranks; Grounded without KEEP drives RESET_n low,
stops CK and drops the Loft; Tethered and Grounded with KEEP first write dirty entries back. A transition with
commands in the tail or a rank not in self-refresh waits; with none, Moored and Tethered are entered, with the
accounts kept, the Thatcher's active time closed and the pins and CK as their state says. (R255, R284, R313, R317,
R381) -/
def Obligations.PowerDownDrains : Prop :=
  ∀ (s : State) (ch : ChanId) (c : Chan) (t : Trans), s.chan ch = c → c.power.trans = some t →
    (t.ph = .drain → c.drainedNow = false → exec (.drainComplete ch) s = .next (s.commitChan ch c)) ∧
    (t.ph = .drain → c.drainedNow = true → c.planned = [] → c.seqr.test = none → c.seqr.clear = none →
      (t.req.tgt = .moored → ∃ h q, Drains q ∧ exec (.drainComplete ch) s = .next (s.commitChan ch { c with
        power := { c.power with trans := some { t with ph := .enter } }, upk := { c.upk with park := true }, sched := h,
        occ := c.occ ++ q })) ∧
      (t.req.tgt = .grounded → t.req.keep = false → ∃ h q, Drains q ∧
        exec (.drainComplete ch) s = .next (s.commitChan ch { c with
          power := { c.power with trans := some { t with ph := .enter }, initDone := false }, sched := h, occ := c.occ ++ q,
          pins := { c.pins with hold := .resetLow, ck := false }, loft := c.loft.invalidate })) ∧
      (t.req.tgt = .tethered ∨ (t.req.tgt = .grounded ∧ t.req.keep = true) → c.loft.dirty = 0 → ∃ h q, Drains q ∧
        exec (.drainComplete ch) s = .next (s.commitChan ch { c with
          power := { c.power with trans := some { t with ph := .enter } }, upk := { c.upk with park := true }, sched := h,
          occ := c.occ ++ q, loft := c.loft.invalidate })) ∧
      (t.req.tgt = .tethered ∨ (t.req.tgt = .grounded ∧ t.req.keep = true) → c.loft.dirty ≠ 0 → c.loft.wbBusy = false →
        ∃ h q, Drains q ∧ exec (.drainComplete ch) s = .next (s.commitChan ch { c with
          power := { c.power with trans := some { t with ph := .writeBack } }, sched := h, occ := c.occ ++ q,
          loft := { c.loft with closing := true, wball := c.loft.dirtyList, wbBusy := true } }))) ∧
    (t.ph = .enter → (c.tail ≠ [] ∨ (∃ x ∈ c.upk.ranks, x.selfRef = false)) → (t.req.tgt ≠ .grounded ∨ t.req.keep = true) →
      exec (.transitionComplete ch) s = .next (s.commitChan ch c)) ∧
    (t.ph = .enter → c.tail = [] → (∀ x ∈ c.upk.ranks, x.selfRef = true) → c.power.pend = none →
      (t.req.tgt = .tethered ∨ (t.req.tgt = .moored ∧ c.trim.nCur ≤ c.maxRate s.env)) →
      ∃ d, exec (.transitionComplete ch) s = .next (s.commitChan ch d) ∧ d.power.cur = t.req.tgt ∧ d.power.trans = none ∧
        d.power.kept = false ∧ d.power.initDone = c.power.initDone ∧ d.seqr.run = false ∧ d.upk.ranks = c.upk.ranks ∧
        d.loft = c.loft ∧ d.pins.hold = (if t.req.tgt = .moored then .driven else .selfRef) ∧
        d.pins.ck = (t.req.tgt == .moored) ∧ d.th = (c.thMark s.env).th ∧
        d.upk.accounts = c.upk.accounts ∧ d.power.tetherNext = s.now + c.power.period * 10 * refMs ∧
        ∃ x ∈ d.evOut, x.loc = evStateDone)

/-- Step starts keep the stagger interval and record the wake; a Tethered channel samples its sensors and wakes on
heat. No step starts within the stagger interval of the last, nor on a channel that awaits none. The next channel in
order starts: a Moored one wakes with its set, a Grounded one begins its bring-up, one Grounded with its contents kept
wakes with them, and both wake records are written; a shift pause that waits for its step restarts. In Tethered,
sampling moves on by its period; a reading at or above the wake temperature of a single sensor requests Moored with
source THERMAL and raises TETHER_ALARM. The clauses of a bring-up and of a wake from kept contents are stated for a
firmware code that passes its check, which is open (log entry 9). (R321, R322, R323, R324, R388) -/
def Obligations.WakesAndSamplesRun : Prop :=
  (∀ (s : State) (ch : ChanId) (c : Chan) (i : BlkImg), s.img = some i → s.chan ch = c →
      (∀ t, s.rst.lastStep = some t → s.now < t + i.stagger → exec (.staggerStepStart ch) s = .next s) ∧
      (c.stepReady = false → exec (.staggerStepStart ch) s = .next s) ∧
      (∀ (t : Trans) (u : State), c.power.trans = some t → t.ph = .stagger → c.trim.shift ≠ some .locked →
        s.stepOpen i = true → s.nextStep i = some ch →
        u = { s with rst := { s.rst with wakeV := true, wakeCh := ch.val, wakeSrc := t.req.wake.source, lastStep := some s.now } } →
        (t.frm = .moored → t.req.tgt = .flight → c.trim.bestSet c.trim.reqN = some c.trim.tsel →
          exec (.staggerStepStart ch) s = .next (u.commitChan ch { c with
            power := { c.power with
              trans := some { t with ph := .waking }, wakeRec := { valid := true, frm := t.frm.num, info := t.req.wake } },
            seqr := { c.seqr with run := true }, upk := { c.upk with wake := true },
            pins := { c.pins with hold := .driven, ck := true } })) ∧
        (∀ x : ChanImg, c.img = some x → t.frm = .grounded → c.power.kept = false → c.power.fatal = false → Config.codeCheckOk x.code = true →
          exec (.staggerStepStart ch) s = .next (u.commitChan ch { c with
            power := { c.power with
              trans := some { t with ph := .bringUp }, wakeRec := { valid := true, frm := t.frm.num, info := t.req.wake } },
            seqr := { c.seqr with run := true, fault := false, test := none, clear := none },
            mbxOut := { c.mbxOut with alive := 0 }, mbxIn := { c.mbxIn with kept := none },
            sb := { c.sb with i2c := true, noI3c := false, busy := true, started := false },
            bring := { Reset.bringUp with form := if c.power.held then 2 else 0, started := s.now } })) ∧
        (t.frm = .grounded → c.power.kept = true → c.pins.hold ≠ .floating → c.power.fatal = false →
          (∀ x : ChanImg, c.img = some x → Config.codeCheckOk x.code = true) → c.img ≠ none →
          c.trim.bestSet c.trim.reqN = some c.trim.tsel →
          ∃ d, exec (.staggerStepStart ch) s = .next (u.commitChan ch d) ∧ d.power.trans = some { t with ph := .waking } ∧
            d.power.wakeRec = { valid := true, frm := t.frm.num, info := t.req.wake } ∧ d.seqr.run = true ∧ d.upk.wake = true ∧
            d.pins.hold = .driven ∧ d.pins.ck = true ∧ d.bring = c.bring)) ∧
      (∀ u : State, c.trim.shift = some .locked → s.stepOpen i = true → s.nextStep i = some ch →
        (∀ t, c.power.trans = some t → t.ph ≠ .stagger) → u = { s with rst := { s.rst with lastStep := some s.now } } →
        exec (.staggerStepStart ch) s = .next (u.commitChan ch { c with
          trim := { c.trim with shift := some .restart }, upk := { c.upk with wake := true }, pins := { c.pins with ck := true } }))) ∧
  (∀ (s : State) (ch : ChanId) (c : Chan) (rs : List (Option (BitVec 12))), s.chan ch = c →
      (s.now < c.power.tetherNext → exec (.tetherSample ch rs) s = .next (s.commitChan ch c)) ∧
      (c.down = false → c.power.cur = .tethered → c.power.trans = none → c.power.tetherNext ≤ s.now →
        (c.sb.present = 0 → exec (.tetherSample ch rs) s = .next (s.commitChan ch { c with
          power := { c.power with tetherNext := c.power.tetherNext + c.power.period * 10 * refMs } })) ∧
        (∀ (k : Fin 4) (t : BitVec 12), (∀ j : Fin 4, c.sb.hasSensor (j.val / 2) (j.val % 2) = true ↔ j = k) → rs.getD k.val none = some t →
          (4 * (c.power.wakeTemp : Int) ≤ quarterDeg t) →
          ∃ d, exec (.tetherSample ch rs) s = .next (s.commitChan ch d) ∧
            d.power.trans = some { frm := .tethered, ph := .stagger, req := { tgt := .moored, keep := false, wake := {
              source := 3, dimm := k.val / 2, sensor := k.val % 2, temp := wholeDeg t } } } ∧ d.power.readyAt = s.now ∧
            d.evOut = c.evOut ++ [{ loc := evTether, info := packFields [(9, k.val / 2), (8, k.val % 2), (0, wholeDeg t)] }] ∧
            d.power.tetherNext = c.power.tetherNext + c.power.period * 10 * refMs)))

/-- Bring-up reads the modules, chooses its form, trains step by step and ends in Flight or Grounded. No SPD answer,
an unsupported module, a mismatch and a set above the clamp end the bring-up Grounded with their RESULT. Otherwise
matching stored sets select STORED form, and other sets FULL form with the bring-up set's training order. A step whose
commands are not done waits. Each step that passes leads to the next with its own effects: the rate of the set,
RESET_n and the PMICs, the RCD words, the pattern writes; the last one stores the trained set. A failure in FULL or
PRESERVE form ends the set with TRAIN_FAIL, and a failure or a failed retrim in STORED form starts FULL form. A bring-
up that succeeded enters Flight with its set, the clamped request, latencies, a CRST and CH_STATE_DONE. What the
sequencer sends within steps 3 to 11 is opaque (log entry 48). (R4, R17, R167, R295, R296, R388, R389, R391, R392,
R393) -/
def Obligations.BringUpRuns : Prop :=
  (∀ (s : State) (ch : ChanId) (c : Chan) (i : ChanImg) (t : Trans), s.chan ch = c → c.img = some i →
      c.power.trans = some t → t.ph = .bringUp → c.power.pend = none → c.bring.step = 0 → c.bring.ready = false →
        (∃ d, exec (.spdReadDone ch none) s = .next (s.commitChan ch d) ∧ c.BroughtDown d 2) ∧
        ∀ (x : SpdInfo) (lim : Nat), lim = ({ c with trim := { c.trim with modMax := x.maxN } } : Chan).maxRate s.env →
          (spdUnsupported x = true → ∃ d, exec (.spdReadDone ch (some x)) s = .next (s.commitChan ch d) ∧ c.BroughtDown d 3) ∧
          (spdUnsupported x = false → spdMismatch x i = true →
            ∃ d, exec (.spdReadDone ch (some x)) s = .next (s.commitChan ch d) ∧ c.BroughtDown d 4) ∧
          (spdUnsupported x = false → spdMismatch x i = false → c.power.held = false → lim < i.setN i.bringSet →
            ∃ d, exec (.spdReadDone ch (some x)) s = .next (s.commitChan ch d) ∧ c.BroughtDown d 6) ∧
          (spdUnsupported x = false → spdMismatch x i = false → c.power.held = false → i.setN i.bringSet ≤ lim →
            ∃ d, exec (.spdReadDone ch (some x)) s = .next (s.commitChan ch d) ∧ d.trim.modMax = x.maxN ∧
              d.sb.present = x.present ∧ d.sb.noI3c = x.i2c ∧ d.sb.i2c = (x.i2c || c.sb.rate == 3) ∧ d.sb.started = true ∧ d.bring.tagv = i.tagOf x.serial ∧ d.power = c.power ∧
              ((c.trim.set i.bringSet).valid = true ∧ (c.trim.set i.bringSet).tagv = i.tagOf x.serial →
                d.bring.form = 1 ∧ d.bring.step = 1 ∧ d.bring.setNow = i.bringSet ∧
                ∀ y ∈ d.trim.sets, y.valid = true → y.tagv = i.tagOf x.serial) ∧
              (∀ a l, ((c.trim.set i.bringSet).valid = false ∨ (c.trim.set i.bringSet).tagv ≠ i.tagOf x.serial) →
                i.trainOrder lim none = a :: l → d.bring.form = 0 ∧ d.bring.step = 1 ∧ d.bring.setNow = a ∧ d.bring.todo = l ∧
                d.trim.sets = List.replicate 4 Reset.trimSet))) ∧
  (∀ (s : State) (ch : ChanId) (c b : Chan) (i : ChanImg) (t : Trans) (lat : Option Latencies), s.chan ch = c → c.img = some i →
      c.power.trans = some t → t.ph = .bringUp → c.bring.step ≠ 0 → c.bring.ready = false →
      b = (match lat with
        | some l => c.setLat l
        | none => c) →
        (∀ r, c.bringBusy = true → exec (.trainingStepDone ch r) s = .next (s.commitChan ch c)) ∧
        (c.bringBusy = false →
          (∀ n, c.bring.form ≠ 1 → c.bring.verify = false →
            stepAfter c.bring.step (trainSteps c.bring.form i.mr (c.bring.first || c.bring.step = 2) (c.lastStep12 i)) = some n →
            ∃ d, exec (.trainingStepDone ch (.ok lat)) s = .next (s.commitChan ch d) ∧ d.bring.step = n ∧
              d.bring.setNow = c.bring.setNow ∧ d.bring.ready = false ∧ d.lane = c.lane ∧ d.rq = c.rq ∧ d.wq = c.wq ∧
              d.fab.rl = b.fab.rl ∧ d.fab.wl = b.fab.wl ∧ d.err = b.err ∧
              (c.bring.step = 1 → d.trim.tsel = c.bring.setNow ∧ d.trim.nCur = i.setN c.bring.setNow ∧ d.fab.tset = c.bring.setNow) ∧
              (c.bring.step = 2 → d.power.initDone = true ∧ d.pins.hold = .driven ∧ d.sb.rcdN = i.setN c.bring.setNow) ∧
              (n = 2 → d.pins.hold = .resetLow ∧ d.sb.pmicOn = true) ∧
              (n = 12 → d.upk.pauses = c.upk.pauses ++ c.rankPairs.flatMap (c.patternPauses i))) ∧
          (c.bring.form ≠ 1 → c.bring.step ≠ 1 → c.bring.step ≠ 2 →
            stepAfter c.bring.step (trainSteps c.bring.form i.mr c.bring.first (c.lastStep12 i)) = none →
            ∃ d, exec (.trainingStepDone ch (.ok lat)) s = .next (s.commitChan ch d) ∧
              d.trim.sets = updateAt c.bring.setNow (fun _ => trainedSet i c.bring.setNow c.bring.tagv c.free) c.trim.sets ∧
              d.free = c.free + 164 ∧
              (c.bring.todo = [] → d.bring.ready = true) ∧
              ∀ x l, c.bring.todo = x :: l → d.bring.setNow = x ∧ d.bring.step = 1 ∧ d.bring.todo = l) ∧
          (∀ (sb : Sub) (r l : Nat), c.bring.form ≠ 1 → (c.bring.form = 2 ∨ c.bring.setNow = i.bringSet) →
            exec (.trainingStepDone ch (.failed sb r l)) s = .next (s.commitChan ch { c with
              evOut := c.evOut ++ [{
                loc := evTrainFail,
                info := packFields [(15, c.bring.step), (14, sb.num), (11, r % 8), (7, l % 16), (5, c.bring.setNow)] }],
              trim := { c.trim with
                sets := updateAt c.bring.setNow (fun x => { x with valid := false, failed := true, entries := [] }) c.trim.sets },
              upk := if c.bring.form = 2 ∧ c.someAwake = true then { c.upk with park := true } else c.upk,
              bring := { c.bring with ready := true, outcome := 5, todo := [] } })) ∧
          (∀ (r : StepResult) (k : Chan) (a : Nat) (q : List Nat), c.bring.form = 1 →
            (r = .ok lat ∧ k = b ∧ c.retrimFailed = true) ∨ (∃ sb x l, r = .failed sb x l ∧ k = c) →
            i.trainOrder (c.maxRate s.env) none = a :: q →
            ∃ x y, exec (.trainingStepDone ch r) s = .next (s.commitChan ch { k with
              trim := { c.trim with sets := List.replicate 4 Reset.trimSet }, upk := { c.upk with park := x },
              bring := { c.bring with form := 0, setNow := a, todo := q, step := 1, verify := false, asleep := y } })) ∧
          (c.bring.form = 1 → c.bring.step = 2 → c.bring.verify = true →
            exec (.trainingStepDone ch (.ok lat)) s = .next (s.commitChan ch { b with
              upk := { c.upk with wake := false, pauses := c.upk.pauses ++ c.rankPairs.flatMap (c.patternPauses i) },
              bring := { c.bring with step := 12, verify := false } })) ∧
          (c.bring.form = 1 → c.bring.step = 12 → c.bring.verify = true → c.retrimFailed = false →
            exec (.trainingStepDone ch (.ok lat)) s = .next (s.commitChan ch { b with
              upk := { c.upk with wake := false }, bring := { c.bring with ready := true, outcome := 1, todo := [] } })))) ∧
  (∀ (s : State) (ch : ChanId) (c : Chan) (i : ChanImg) (t : Trans) (lat : Latencies) (rfm : RfmInfo), s.chan ch = c →
      c.img = some i → c.power.trans = some t → t.ph = .bringUp → c.power.pend = none → c.bring.ready = true →
        (c.bringBusy = true → exec (.bringUpComplete ch lat rfm) s = .next (s.commitChan ch c)) ∧
        (c.bringBusy = false → c.bring.outcome ≠ 1 → ∃ d, exec (.bringUpComplete ch lat rfm) s = .next (s.commitChan ch d) ∧
          c.BroughtDown d c.bring.outcome) ∧
        (∀ n r, c.bringBusy = false → c.bring.outcome = 1 → c.endSet s.env i = some n →
          r = clampTo 24 (c.maxRate s.env) (i.setN n) → c.trim.bestSet r = some n → c.trim.shift = none →
          c.lane.wake = [] → t.frm = .grounded → t.req.tgt = .flight →
          ∃ d, exec (.bringUpComplete ch lat rfm) s = .next (s.commitChan ch d) ∧ d.power.cur = .flight ∧ d.power.trans = none ∧
            d.power.held = false ∧ d.power.kept = false ∧ d.pins.hold = .driven ∧ d.bring.done = true ∧ d.bring.result = 1 ∧
            d.bring.tset = n ∧ d.trim.tsel = n ∧ d.trim.reqN = r ∧
            (n ≠ c.trim.tsel → d.trim.nCur = i.setN n ∧ d.fab.tset = n ∧ d.fab.hist = [] ∧ d.fab.audHist = []) ∧
            (n = c.trim.tsel → d.trim.nCur = c.trim.nCur ∧ d.fab.tset = c.fab.tset) ∧ d.fab.rl = lat.rl % 256 ∧
            d.fab.wl = lat.wl % 256 ∧ d.lane.crstDue = true ∧ d.bal.eff = 850 ∧ d.upk.flightAt = s.now ∧
            { loc := evStateDone, info := packFields [(16, t.src % 8), (14, 3), (12, PState.flight.num), (11, 0)] } ∈ d.evOut))

/-- A request with a wrong check, a duplicate and a reserved opcode are answered as such; the short opcodes are
executed. While the sequencer runs outside bring-up and shift pauses: a native request with a wrong check is answered
BAD_CHECK without being kept; one whose ALIVE equals the last is answered with the kept reply; another is taken up if
its opcode is served and answered BAD_OPCODE if not. STATUS answers the code version and phase; SB_READ and SB_WRITE
wait for the bus, refuse an absent or forbidden device and otherwise use the bus, whose result answers them;
SELFTEST_ABORT marks the test or answers NOT_RUNNING. (R307, R341, R343, R344, R347, R351) -/
def Obligations.MailboxIsServed : Prop :=
  (∀ (s : State) (ch : ChanId) (c : Chan) (m : MbxIn), s.chan ch = c → c.mbxIn = m → m.busy = true →
      m.op = none → c.seqr.run = true → c.bringing = false → c.shifting = false →
        (m.legacy = false → m.words.getD 15 0 ≠ ~~~((m.words.take 15).foldl (· + ·) 0) →
          exec (.mbxRequestServe ch) s = .next (s.commitChan ch
            (c.finishMbx (mkMsg m.aliveOf m.opcode 0 2 [])))) ∧
        ((m.legacy = true ∨ m.words.getD 15 0 = ~~~((m.words.take 15).foldl (· + ·) 0)) →
          (∀ ws, m.legacy = false → m.kept = some (m.aliveOf, ws) →
            exec (.mbxRequestServe ch) s = .next (s.commitChan ch (c.finishMbx ws))) ∧
          ((m.legacy = true ∨ ∀ ws, m.kept ≠ some (m.aliveOf, ws)) →
            (m.opcode ∈ (if m.legacy then [1, 2, 3] else [1, 2, 3, 0x10, 0x11, 0x12, 0x20, 0x30]) →
              exec (.mbxRequestServe ch) s = .next (s.commitChan ch { c with mbxIn := { m with op := some m.opcode } })) ∧
            (m.opcode ∉ (if m.legacy then [1, 2, 3] else [1, 2, 3, 0x10, 0x11, 0x12, 0x20, 0x30]) →
              exec (.mbxRequestServe ch) s = .next (s.commitChan ch (c.reply 3 0 [])))))) ∧
  (∀ (s : State) (ch : ChanId) (c : Chan), s.chan ch = c → c.seqr.run = true →
      (c.mbxIn.op = some 1 → c.mbxIn.working = false → exec (.status ch) s = .next (s.commitChan ch (c.reply 0 2
        [BitVec.ofNat 32 (match c.img with | some i => leAt i.code 0 4 | none => 0),
         mkWord [(16, c.mbxOut.queue.length), (8, b2n (c.seqr.test.isSome || c.seqr.clear.isSome)), (0, c.phase.num)]]))) ∧
      (c.mbxIn.op = some 2 → c.mbxIn.working = false → exec (.sbRead ch) s = .next (s.commitChan ch
        (if c.sb.busy then c
          else if c.sbPresent (c.mbxIn.word 1) then { c with
            mbxIn := { c.mbxIn with working := true }, sb := { c.sb with busy := true, i2c := c.sb.noI3c || c.sb.rate == 3 } }
          else c.reply 4 0 []))) ∧
      (∀ d, c.mbxIn.op = some 3 → c.mbxIn.working = false → d = bitsAt (c.mbxIn.word 1) 12 4 →
        exec (.sbWrite ch) s = .next (s.commitChan ch
          (if c.sb.busy then c
            else if c.sbPresent (c.mbxIn.word 1) = false then c.reply 4 0 []
            else if d = 9 ∨ d = 11 then c.reply 7 0 []
            else { c with
              mbxIn := { c.mbxIn with working := true },
              sb := { c.sb with busy := true, i2c := c.sb.noI3c || c.sb.rate == 3 } }))) ∧
      (c.mbxIn.op = some 0x11 → c.mbxIn.working = false → exec (.selftestAbort ch) s = .next (s.commitChan ch
        (match c.seqr.test with
          | some t => ({ c with seqr := { c.seqr with test := some { t with abort := true } } }).reply 0 0 []
          | none => c.reply 8 0 []))) ∧
      (∀ (r : SbResult) (n : Nat) (d : Chan), c.mbxIn.working = true → n = clampTo 1 32 (bitsAt (c.mbxIn.word 2) 16 8) →
        d = { c with sb := { c.sb with
          busy := false, nacks := if r.ack then c.sb.nacks else satAdd 0xFFFF c.sb.nacks 1 } } →
        (c.mbxIn.op = some 2 → exec (.mbxInDone ch r) s = .next (s.commitChan ch
          (if r.ack then d.reply 0 ((n + 3) / 4) (sbWords n r.bytes) else d.reply 6 0 []))) ∧
        (c.mbxIn.op = some 3 → exec (.mbxInDone ch r) s = .next (s.commitChan ch
          (d.reply (if r.ack then 0 else 6) 0 [])))))

/-- SELFTEST, ZQ_NOW, RETRIM and MEM_CLEAR refuse an absent rank or a busy sequencer and otherwise begin. An absent
rank is answered BAD_TARGET; a test or a clear while another runs is answered IN_USE; a self-test begins with its
range clamped to the rows and destructive only on a fenced rank; a clear begins on the fenced ranks that exist; ZQ_NOW
and RETRIM on one subchannel ask for their pause, restart the rank's interval and leave the request at work. The order
BAD_TARGET before IN_USE is the model's choice (log entry 44). (R347, R348, R349, R263) -/
def Obligations.LongRequestsBegin : Prop :=
  ∀ (s : State) (ch : ChanId) (c : Chan) (i : ChanImg) (w r m : Nat), s.chan ch = c → c.img = some i →
    c.seqr.run = true → c.mbxIn.working = false → w = c.mbxIn.word 1 → r = bitsAt w 8 3 →
    m = (if bitsAt w 0 2 = 0 then 3 else bitsAt w 0 2) →
      (∀ op x, (op = 0x10 ∧ x = .selftest ch) ∨ (op = 0x12 ∧ x = .zqNow ch) ∨ (op = 0x20 ∧ x = .retrim ch) →
        c.mbxIn.op = some op → c.hasRank r = false → exec x s = .next (s.commitChan ch (c.reply 4 0 []))) ∧
      (∀ op x, (op = 0x10 ∧ x = .selftest ch ∧ c.hasRank r = true) ∨ (op = 0x30 ∧ x = .memClear ch) →
        c.mbxIn.op = some op → c.seqr.test ≠ none ∨ c.seqr.clear ≠ none →
          exec x s = .next (s.commitChan ch (c.reply 5 0 []))) ∧
      (∀ run, c.mbxIn.op = some 0x10 → c.hasRank r = true → c.seqr.test = none → c.seqr.clear = none →
        run = packFields [(31, b2n (bitAt w 31 && bitAt c.seqr.fenceDone.toNat r)), (24, min 2 (bitsAt w 24 2)), (8, r), (0, m)] →
        ∃ t, exec (.selftest ch) s = .next (s.commitChan ch (({ c with seqr := { c.seqr with test := some t } } : Chan).reply 1 1
            [BitVec.ofNat 32 run])) ∧
          t.word1 = run ∧ t.first = min (i.rows - 1) (bitsAt (c.mbxIn.word 2) 0 18) ∧
          t.last = min (i.rows - 1) (bitsAt (c.mbxIn.word 3) 0 18) ∧ t.pace = min 1000 (bitsAt (c.mbxIn.word 4) 0 10) ∧
          t.posA = 0 ∧ t.posB = 0 ∧ t.fails = 0 ∧ t.corrected = 0 ∧ t.firstFail = none ∧ t.abort = false) ∧
      (∀ k, c.mbxIn.op = some 0x30 → c.seqr.test = none → c.seqr.clear = none →
        k = bitsAt w 0 8 &&& c.seqr.fence.toNat &&& (2 ^ i.ranks - 1) →
        exec (.memClear ch) s = .next (s.commitChan ch (({ c with seqr := { c.seqr with
          clear := some { mask := k, on := c.loft.on, posA := 0, posB := 0, gran := 0 } } } : Chan).reply 1 1
            [BitVec.ofNat 32 k]))) ∧
      (∀ sb : Sub, c.hasRank r = true → m = 2 ^ sb.num →
        (∀ d, c.mbxIn.op = some 0x12 → (∃ x, c.upk.rank sb r = some x ∧ x.zqPhase = 0) → d = c.startZq sb r →
          exec (.zqNow ch) s = .next (s.commitChan ch
            { d.modRank sb r (fun x => { x with zqNext := s.now + d.zqInterval }) with
              mbxIn := { d.mbxIn with working := true } })) ∧
        (∀ d, c.mbxIn.op = some 0x20 → d = c.askPause .retrim sb r (bitAt w 16) →
          exec (.retrim ch) s = .next (s.commitChan ch
            { d.modRank sb r (fun x => { x with retrimNext := s.now + d.retrimInterval }) with
              mbxIn := { d.mbxIn with working := true } })))

/-- A self-test pause tests the next lines; finished work posts its result, which is delivered with the count of lost
ones. A self-test pause that the scheduler admits, for a length up to 1 us that is open (log entry 8), tests up to 64
lines, or 32 of a destructive test, of the next subchannel, and sets the pace of the next; with no line to test,
before its time or during another pause nothing happens. A finished or aborted test posts SELFTEST_DONE and a finished
clear CLEAR_DONE; a full queue of eight counts the message as lost; the oldest message is delivered when the mailbox
is free, with LOST where messages were lost, and raises MBX_OUT_VALID. (R345, R346, R349, R350) -/
def Obligations.LongWorkRuns : Prop :=
  (∀ (s : State) (ch : ChanId) (c : Chan) (lines : List TestLine),
      s.chan ch = c →
        (c.seqr.test = none → exec (.selftestPause ch lines) s = .next (s.commitChan ch c)) ∧
        (∀ (t : SelfTest) (i : ChanImg) (sb : Sub) (n : Nat), c.seqr.test = some t → c.img = some i → t.nextSub i = some sb →
          n = min lines.length (min (if bitAt t.word1 31 then 32 else 64) (t.left i sb)) →
          (n = 0 ∨ t.abort = true ∨ s.now < t.next ∨ c.pauseOn sb ≠ none →
            exec (.selftestPause ch lines) s = .next (s.commitChan ch c)) ∧
          (∀ (len : Nat) (p : Pause) (d : Chan), 0 < n → c.testMay s.env t sb = true → len = Config.pauseLength c.free % 101 →
            p = { kind := .selftest, sub := sb, rank := bitsAt t.word1 8 3, len := len, wide := false, running := false,
                  endAt := s.now + len, cmds := lineCmds i (bitAt t.word1 31) sb (bitsAt t.word1 8 3)
                    ((List.range n).map fun j => t.dev i sb (t.pos sb + j)) } →
            ({ c with free := c.free + 1 } : Chan).admits s.env p = (true, d) →
            ∃ u x, exec (.selftestPause ch lines) s = .next (s.commitChan ch (x.beginPause p)) ∧
              x = { d with seqr := { d.seqr with test := some u }, upk := { d.upk with pauses := d.upk.pauses ++ [p] } } ∧
              len ≤ 100 ∧
              u.next = s.now + len + 100 * t.pace ∧ u.pos sb = t.pos sb + n ∧ u.word1 = t.word1))) ∧
  (∀ (s : State) (ch : ChanId) (c : Chan) (i : ChanImg), s.chan ch = c → c.img = some i → c.seqr.run = true →
      (∀ t : SelfTest, c.seqr.test = some t → (∀ p ∈ c.upk.pauses, p.kind ≠ .selftest) →
        t.abort = true ∨ t.nextSub i = none →
        exec (.selftestDone ch) s = .next (s.commitChan ch (({ c with seqr := { c.seqr with test := none } } : Chan).post 0x90
          (if t.abort then 9 else 0) t.report))) ∧
      (∀ k : Clear, c.seqr.clear = some k → c.clearOver i k = true →
        exec (.clearDone ch) s = .next (s.commitChan ch (({ c with seqr := { c.seqr with clear := none } } : Chan).post 0x91 0
          [BitVec.ofNat 32 k.mask, 0]))) ∧
      (∀ op st pay, c.post op st pay = { c with mbxOut :=
        if c.mbxOut.queue.length < 8 then { c.mbxOut with queue := c.mbxOut.queue ++ [(op, st, pay)] }
        else { c.mbxOut with dropped := satAdd 255 c.mbxOut.dropped 1 } }) ∧
      (∀ op st pay q, c.mbxOut.queue = (op, st, pay) :: q → c.mbxOut.valid = false →
        ∃ ws, exec (.outboundDeliver ch) s = .next (s.commitChan ch { c with
            mbxOut := { c.mbxOut with
              words := ws, valid := true, queue := q, alive := (c.mbxOut.alive + 1) % 256, dropped := 0 },
            evOut := c.evOut ++ [{ loc := evMbxOut, info := c.mbxOut.alive % 256 * 2 ^ 8 + op }] }) ∧
          (c.mbxOut.dropped = 0 → op ≠ 0x90 → ws = mkMsg c.mbxOut.alive op pay.length st pay) ∧
          (c.mbxOut.dropped ≠ 0 → op = 0x90 → pay.length = 8 →
            ws = mkMsg c.mbxOut.alive op 9 c.mbxOut.dropped (pay ++ [BitVec.ofNat 32 st]))))

/-- A fence write sets the fenced ranks and SHARE mode; a rank is done when no queue entry of it is left. A write of
CH_FENCE sets RANK, keeps DONE only of ranks still fenced, and sets the mode of Ballast to 4 under FORCE_SHARE, to 3
with a rank fenced, and leaves it otherwise. FENCE_DONE sets DONE of a fenced rank with no queued read but the
Thatcher's and no queued write but the clear's, and otherwise changes nothing. Stated where no self-test runs. (R194,
R201, R348) -/
def Obligations.RanksAreFenced : Prop :=
  ∀ (s : State) (ch : ChanId) (c : Chan), s.chan ch = c →
    (∀ (w : Word) (f : BitVec 8) (m : Nat), s.Takes (wrTxn (.chan ch) 0x18 w) → f = BitVec.ofNat 8 w.toNat →
      c.seqr.test = none → m = (if c.bal.forceShare then 4 else if f ≠ 0 then 3 else c.bal.mode) →
      exec (.fenceWrite ch w) s = .next ((s.commitChan ch { c with
          seqr := { c.seqr with fence := f, fenceDone := c.seqr.fenceDone &&& f },
          bal := { c.bal with mode := m, validRun := if m = c.bal.mode then c.bal.validRun else 0 } }).respond false 0)) ∧
    (∀ r : Fin 8, exec (.fenceDone ch r) s = .next (s.commitChan ch
      (if bitAt c.seqr.fence.toNat r.val = true ∧ (∀ x ∈ c.rq, x.dev.bank.rank = r.val → x.kind = .thatcher) ∧
          (∀ x ∈ c.wq, x.dev.bank.rank = r.val → x.src = .clear)
        then { c with seqr := { c.seqr with fenceDone := c.seqr.fenceDone ||| BitVec.ofNat 8 (2 ^ r.val) } } else c)))

/-- START loads REG with INIT, each byte of an input is fed as the parameters say, and CRC-32C of 123456789 is
0xE3069283. START sets width, reflections and bytes per input and loads REG with INIT; a write of CH_CV_IN feeds the
low INBYTES bytes of the word in order and changes nothing but REG; the parameters of CRC-32C give 0xE3069283 over the
nine ASCII digits. (R352, R355) -/
def Obligations.CheckValueUnitRuns : Prop :=
  ∀ (s : State) (ch : ChanId) (c : Chan) (u : CvUnit), s.chan ch = c → c.cv = u →
    (∀ w v : Word, v = w ||| 0x80 → s.Takes (wrTxn (.chan ch) 0x808 v) →
      ∃ x, exec (.cvStart ch w) s = .next ((s.commitChan ch { c with cv := x }).respond false 0) ∧
        x.width = min 2 (bitsAt w.toNat 0 2) ∧ x.refin = bitAt w.toNat 2 ∧ x.refout = bitAt w.toNat 3 ∧
        x.inbytes = clampTo 1 4 (bitsAt w.toNat 4 3) ∧ x.reg = u.init % 2 ^ x.w ∧ x.poly = u.poly ∧ x.init = u.init ∧
        x.xor = u.xor ∧ x.owner = u.owner) ∧
    (∀ w : Word, s.Takes (wrTxn (.chan ch) 0x824 w) →
      ∃ x, exec (.cvIn ch w) s = .next ((s.commitChan ch { c with cv := x }).respond false 0) ∧
        x = { u with reg := x.reg } ∧
        x.reg = crcFeeds u.w (u.poly % 2 ^ u.w) u.refin (u.reg % 2 ^ u.w) ((List.range u.inbytes).map fun k => w.toNat / 2 ^ (8 * k) % 256)) ∧
    crcResult 32 0xFFFFFFFF true (crcFeeds 32 0x1EDC6F41 true 0xFFFFFFFF [0x31, 0x32, 0x33, 0x34, 0x35, 0x36, 0x37, 0x38, 0x39])
      = 0xE3069283

/-- PWR_RST_n resets everything at once, WARM_RST_n and CHRST start the sequence on their channels, and its end resets
them. A cold reset leaves the state of reset but for the queue, the clocks and lane and block isolation; a held
transaction is dropped. BLOCK_READY makes the block ready outside resets. WARM_RST_n and CHRST stop their channels,
which decide whether they keep their contents. The end of a sequence waits for the tail and self-refresh, records what
was lost, and leaves the channel Grounded and held where it keeps; a channel reset keeps the image and every other
channel, the last of a warm reset discards the image and resets the block. (R12, R55, R380, R381, R382, R383, R385,
R387, R400) -/
def Obligations.ResetsTakeEffect : Prop :=
  (∀ s : State,
      exec .pwrRstAssert s = .next { State.reset with
        pending := s.pending, now := s.now, rclk := s.rclk, tsBase := s.now, winNext := s.now + 400,
        chans := s.chans.map (fun c => { Reset.chan with
          lane := { Reset.lane with hclk := c.lane.hclk, iso := c.lane.iso }, free := c.free }),
        rst := { Reset.resetCtl with isoBlk := s.rst.isoBlk }, mgt := Reset.mgt } ∧
      exec .pwrRstRelease s = .next { s with rst := { s.rst with pwrLow := false } } ∧
      (s.rst.pwrLow = true ∨ s.rst.warm = true → exec .blockReady s = .next s) ∧
      (s.rst.pwrLow = false → s.rst.warm = false → s.mgt.held = none →
        exec .blockReady s = .next { s with rst := { s.rst with ready := true } }) ∧
      (s.rst.pwrLow = true ∨ s.rst.warm = true → exec .warmRst s = .next s) ∧
      (s.rst.pwrLow = false → s.rst.warm = false → ∃ t, exec .warmRst s = .next t ∧
        t = { s with chans := t.chans, rst := { s.rst with ready := false, warm := true, warmLeft := allChans } } ∧
        ∀ (ch : ChanId) (c : Chan), s.chan ch = c → c.power.rst = false → ∃ d, t.chan ch = d ∧ d.power.rst = true ∧
          d.power.trans = none ∧ d.rq = [] ∧ d.lane.out = none ∧
          (d.power.rstKeep = true ↔ c.bringing = false ∧ (c.power.held = true ∨ (c.power.initDone = true ∧ c.power.fatal = false ∧
            (c.power.cur ≠ .grounded ∨ c.power.kept = true ∨ c.power.trans ≠ none))))) ∧
      (∀ (ch : ChanId) (c : Chan), s.chan ch = c → s.Takes (wrTxn .blk 0x8 (BitVec.ofNat 32 (2 ^ ch.val))) →
        (c.power.rst = true → exec (.chrst ch) s = .next ((s.commitChan ch c).respond false 0)) ∧
        (c.power.rst = false → ∃ d, exec (.chrst ch) s = .next ((s.commitChan ch d).respond false 0) ∧ d.power.rst = true ∧
          d.power.trans = none ∧ d.rq = [] ∧ d.lane.out = none ∧
          (d.power.rstWlost = true ↔ ∃ w ∈ c.wq, w.committed = false ∧ ∃ h ∈ w.hosts, h.cmpSent = true)))) ∧
  (∀ (s : State) (ch : ChanId) (c : Chan), s.chan ch = c → s.mgt.held = none → s.NoneWaits →
      (c.power.rst = false ∨ c.tail ≠ [] ∨ (c.power.rstKeep = true ∧ ∃ x ∈ c.upk.ranks, x.selfRef = false) →
        exec (.resetSequenceEnd ch) s = .next s) ∧
      (c.power.rst = true → c.power.rstAct < 8 → c.tail = [] → (c.power.rstKeep = true → ∀ x ∈ c.upk.ranks, x.selfRef = true) →
        ∃ t, exec (.resetSequenceEnd ch) s = .next t ∧
          (∀ k : ChanId, k ≠ ch → bitsAt t.rst.resetRec.toNat (4 * k.val) 4 = bitsAt s.rst.resetRec.toNat (4 * k.val) 4) ∧
          bitsAt t.rst.resetRec.toNat (4 * ch.val) 4 = (if c.power.held = true ∧ c.power.rstKeep = true
            then bitsAt s.rst.resetRec.toNat (4 * ch.val) 4 / 8 * 8 + 2 else b2n c.power.rstWlost * 8 + c.power.rstAct) ∧
          (t.chan ch).power.cur = .grounded ∧ (t.chan ch).power.rst = false ∧ (t.chan ch).power.held = c.power.rstKeep ∧
          (t.chan ch).pins.hold = (if c.power.rstKeep then .selfRef else .resetLow) ∧
          (s.rst.warm = false → (t.chan ch).img = c.img ∧ t.img = s.img ∧ ∀ k, k ≠ ch → t.chan k = s.chan k) ∧
          (s.rst.warm = true → (t.chan ch).img = none ∧
            ((∃ k ∈ s.rst.warmLeft, k ≠ ch) → t.img = s.img ∧ t.rst.warm = true ∧ t.rst.warmLeft = s.rst.warmLeft.filter (· != ch)) ∧
            ((∀ k ∈ s.rst.warmLeft, k = ch) → t.img = none ∧ t.rst.warm = false ∧ t.lvl = State.reset.lvl ∧ t.tsBase = s.now))))

/-- Reads of the UE, Loft and chip records answer and clear them; FWD and REV map a line to its device address and
back. A read of CH_UE_HI or CH_LOFT_REC_HI answers its word and clears the record but for the low address that the
other half holds; a read of a chip-counter register answers the counters it names, as many as the module has chips,
and clears exactly those. While the channel has no image FWD and REV change nothing; with one, FWD writes the device
address of the translation address, and REV the line of the clamped device address and the clamped fields. (R57, R68,
R69, R70, R240, R243, R288, R401) -/
def Obligations.RecordsAreReadAndLinesTranslated : Prop :=
  (∀ (s : State) (ch : ChanId) (c : Chan), s.chan ch = c →
      (∀ u, c.err.ue = u → s.Takes (rdTxn (.chan ch) 0x328) → exec (.ueRecordRead ch) s = .next ((s.commitChan ch
        { c with err := { c.err with ue := { Reset.ueRec with laddrLo := u.laddrLo } } }).respond false
        (mkWord [(31, b2n u.valid), (28, u.source % 8), (27, b2n u.sub), (26, b2n u.write), (16, u.missed % 1024),
          (0, u.laddrHi % 256)]))) ∧
      (∀ r, c.loft.mdRec = r → s.Takes (rdTxn (.chan ch) 0xA18) → exec (.loftRecRead ch) s = .next ((s.commitChan ch
        { c with loft := { c.loft with mdRec := { Reset.loftRec with lo := r.lo } } }).respond false
        (mkWord [(31, b2n r.valid), (28, r.cause % 8), (18, r.missed % 1024), (0, r.hi % 256)]))) ∧
      (∀ (sb : Sub) (r : Fin 8) (q : Fin 3) (l : List Nat),
        s.Takes (rdTxn (.chan ch) (0x340 + 0x60 * sb.num + 0xC * r.val + 4 * q.val)) →
        l = ([0, 1, 2, 3].map (4 * q.val + ·)).filter (fun n => decide (n < if c.x8 then 5 else 10)) →
        exec (.chipcntRead ch sb r q) s = .next ((s.commitChan ch
          (l.foldl (fun (d : Chan) n => { d with err := d.err.setChip sb r.val n 0 false }) c)).respond false
          (mkWord (l.map fun n => (8 * (n - 4 * q.val), b2n (c.err.chip sb r.val n).2 * 128 + (c.err.chip sb r.val n).1 % 128)))))) ∧
  (∀ (s : State) (ch : ChanId) (c : Chan), s.chan ch = c →
      (c.img = none →
        (s.Takes (wrTxn (.chan ch) 0x68 1) → exec (.xlateFwd ch) s = .next ((s.commitChan ch c).respond false 0)) ∧
        (s.Takes (wrTxn (.chan ch) 0x68 2) → exec (.xlateRev ch) s = .next ((s.commitChan ch c).respond false 0))) ∧
      (∀ i, c.img = some i →
        (s.Takes (wrTxn (.chan ch) 0x68 1) → ∃ x, exec (.xlateFwd ch) s = .next ((s.commitChan ch
            { c with xl := x }).respond false 0) ∧ x.cpaLo = c.xl.cpaLo ∧ x.cpaHi = c.xl.cpaHi ∧
          ({ bank := { sub := if x.sub = 0 then .a else .b, rank := x.rank, lrank := x.lrank, bg := x.bg, ba := x.ba },
             row := x.row, col := x.col } : Dev) = i.devOf c.xl.line) ∧
        (s.Takes (wrTxn (.chan ch) 0x68 2) → ∃ x, exec (.xlateRev ch) s = .next ((s.commitChan ch
            { c with xl := x }).respond false 0) ∧ x.line = i.lineOf (c.xl.clamped i) ∧
          [x.sub, x.rank, x.lrank, x.bg, x.ba, x.row, x.col] = (List.range 7).map (nth0 (c.xl.clamped i)))))

/-- The Thatcher reads ascending lines but for fenced and rewritten ones; patch writes enter or are skipped; a patch
hold ends. When its interval has passed an enabled Thatcher on a channel in Flight owes one read more, up to 64. In
Flight with no change in progress, with a read owed, fewer than four of its reads queued, a reserved entry free and no
cap, it skips a line of a fenced rank or with a queued write, and otherwise reads the next line in class C15. The
oldest patch is dropped and counted if the queue holds a write of the line or one was written since the read;
otherwise it enters the write queue in class C15, as poison where it writes back poison. PHOLD of a Slate entry clears
when its time has come and not before. The number that an entry takes is the lowest free one (log entry 95). (R203,
R241, R242, R252, R253, R256) -/
def Obligations.ThatcherAndPatchesRun : Prop :=
  (∀ (s : State) (ch : ChanId) (c : Chan) (a : LAddr), s.chan ch = c → a = BitVec.ofNat 34 c.th.pos →
      exec (.thatcherInterval ch) s = .next (s.commitChan ch
        (if c.th.enable = true ∧ c.down = false ∧ c.power.cur = .flight ∧ c.th.next ≤ s.now then { c with
          th := { c.th with owed := satAdd 64 c.th.owed 1, next := c.th.next + c.th.int } } else c)) ∧
      (c.th.enable = true → c.down = false → c.power.cur = .flight → c.power.trans = none → 0 < c.th.owed → 100 ≤ c.bal.pct →
        countWhere (fun r : RdEntry => r.kind == .thatcher) c.rq < 4 → c.resRq < 16 → c.th.pos + 1 < c.patrolLines →
        ((c.fenced (c.devOf a).bank.rank = true ∨ ∃ w ∈ c.wq, w.laddr = a) →
          exec (.thatcherReadPlace ch) s = .next (s.commitChan ch { c with
            th := { c.th with owed := c.th.owed - 1, pos := c.th.pos + 1 } })) ∧
        (c.fenced (c.devOf a).bank.rank = false → (∀ w ∈ c.wq, w.laddr ≠ a) → c.beatWaits a c.nextSeq = false →
          ∃ b h q, exec (.thatcherReadPlace ch) s = .next (s.commitChan ch { c with
            nextSeq := c.nextSeq + 1, th := { c.th with owed := c.th.owed - 1, pos := c.th.pos + 1 },
            rq := updateWhere (fun r => r.seq == c.nextSeq) (fun r => { r with stage := .queued })
              (c.rq ++ [mkRd c.nextSeq .thatcher 0 15 0 false false a (c.devOf a) 0 .na]),
            banks := b, sched := h, occ := c.occ ++ q }) ∧ Drains q))) ∧
  (∀ (s : State) (ch : ChanId) (c : Chan) (p : PatchReq) (ps : List PatchReq), s.chan ch = c →
      c.err.patches = p :: ps → c.running = true → 100 ≤ c.bal.pct → c.resWq < 8 →
        ((∃ w ∈ c.wq, w.laddr = p.laddr) ∨ c.err.wroteSince p.laddr p.colOrd = true →
          exec (.patchWriteEnqueue ch) s = .next (s.commitChan ch { c with
            err := { c.err with patches := ps, skip := satAdd 0xFFFF c.err.skip 1 } })) ∧
        ((∀ w ∈ c.wq, w.laddr ≠ p.laddr) → c.err.wroteSince p.laddr p.colOrd = false →
          ∃ h q, exec (.patchWriteEnqueue ch) s = .next (s.commitChan ch { c with
            err := { c.err with patches := ps }, nextSeq := c.nextSeq + 1,
            wq := c.wq ++ [{ mkWr c.nextSeq (if p.psn then .poisonWb else .patch) [] 15 p.laddr (c.devOf p.laddr)
              (if p.psn then 0 else p.line) allBytes p.psn with idx := freeIdx (c.wq.map WrEntry.idx) }],
            sched := h, occ := c.occ ++ q }) ∧ Drains q)) ∧
  (∀ (s : State) (ch : ChanId) (c : Chan) (i : Fin 32), s.chan ch = c → s.Rest ch →
      exec (.pholdExpire ch i) s = .next (
        if (c.err.entry i.val).phold = true ∧ (c.err.entry i.val).pholdUntil ≤ s.now then
          s.setChan ch { c with err := { c.err with
            slate := updateAt i.val (fun _ => { c.err.entry i.val with phold := false }) c.err.slate } }
        else s))

/-- Stray alerts are counted, PRAC alerts start back-offs that end when every logical rank is paid; due calibrations
and Glide are planned. With no write-CRC or parity window that it meets and PRAC off, an alert is counted as stray.
With PRAC on, no back-off in progress and no ACT planned beyond the limit, it starts a back-off that owes RFM commands
on every logical rank, limits ACTs, counts and raises PRAC_BACKOFF. A logical rank that owes none and has no bank
refreshing is released; with the last one the back-off ends and its delay starts, and the delay ends at its time. A
rank due for calibration asks for the pause of ZQCAL_START, and one whose calibration is over for that of ZQCAL_LATCH,
each of an open length (log entry 8). A rank idle for its live time, with nothing planned, no pause, no stop and a
slot that every batten clears, has PDE planned in the earliest such slot. (R180, R181, R183, R184, R244) -/
def Obligations.AlertsAndRankTimersRun : Prop :=
  (∀ (s : State) (ch : ChanId) (c : Chan) (sb : Sub), s.chan ch = c →
      (c.down = false → c.logicRuns = true → c.crcHits sb = [] → c.crcPause sb = [] → c.parHit sb = none →
        c.imgBit ChanImg.pracEn = false → exec (.alertAssert ch sb) s = .next (s.commitChan ch { c with
          err := { c.err with stray := satAdd 0xFFFF c.err.stray 1 } })) ∧
      (c.down = false → c.logicRuns = true → c.crcHits sb = [] → c.crcPause sb = [] → c.parHit sb = none →
        c.imgBit ChanImg.pracEn = true → (∀ r ∈ c.rq, r.stage ≠ .waitBeat) → (c.upk.backoff sb).active = false →
        (c.upk.backoff sb).delay = false → (c.upk.backoff sb).lastEv = none →
        (∀ k ∈ c.planned, k.cls = .act → k.bank.sub = sb → k.time ≤ c.dclk + c.dclkOf 18) →
        ∀ d, d = ({ c with upk := { c.upk with aboCnt := satAdd 0xFFFF c.upk.aboCnt 1 } } : Chan).setBackoff sb (fun b =>
          { b with
            active := true, owed := c.lranksOf.map fun p => (p.1, p.2, c.upk.aboRfm), actLimit := c.dclk + c.dclkOf 18,
            count := 0, lastEv := some s.now }) →
        ∃ h q, Drains q ∧ exec (.alertAssert ch sb) s = .next (s.commitChan ch
          { d with
            sched := h, occ := c.occ ++ q,
            evOut := c.evOut ++
              [{ loc := evBackoff, info := sb.num * 2 ^ 6 + satAdd 255 (c.upk.backoff sb).count 1 * 2 ^ 8 }] })) ∧
      (∀ (r l : Nat) (b : Backoff) (rest : List (Nat × Nat × Nat)), c.upk.backoff sb = b → b.active = true →
        rest = b.owed.filter (fun o => !(o.1 == r && o.2.1 == l)) → (∃ o ∈ b.owed, o = (r, l, 0)) →
        (∀ p ∈ c.banks, p.1.sub = sb → p.1.rank = r → p.1.lrank = l → p.2.st ≠ .refreshing) →
          exec (.backoffRelease ch sb r l) s = .next (s.commitChan ch (c.setBackoff sb fun x => { x with
            owed := rest, active := !rest.isEmpty, delay := rest.isEmpty || x.delay,
            delayEnd := if rest.isEmpty then s.now + c.upk.aboDly else x.delayEnd }))) ∧
      exec (.backoffDelayExpire ch sb) s = .next (s.commitChan ch
        (if s.now < (c.upk.backoff sb).delayEnd then c else c.setBackoff sb fun x => { x with delay := false }))) ∧
  (∀ (s : State) (ch : ChanId) (c : Chan) (sb : Sub) (r : Nat) (x : RankSt), s.chan ch = c →
      c.upk.rank sb r = some x → c.running = true →
        (x.zqPhase = 0 → x.zqNext ≤ s.now → ∃ n, n ≤ 100 ∧ exec (.zqIntervalExpire ch sb r) s = .next (s.commitChan ch
          (({ c with
              free := c.free + 1,
              upk := { c.upk with pauses := c.upk.pauses ++ [zqPause .zqStart sb r n] } } : Chan).modRank sb r fun y => { y with
            zqPhase := 1, zqNext := y.zqNext + c.upk.zqMs * refMs }))) ∧
        (x.zqPhase = 2 → x.zqAt ≤ s.now → ∃ n, n ≤ 100 ∧ exec (.zqcalDone ch sb r) s = .next (s.commitChan ch
          (({ c with
              free := c.free + 1,
              upk := { c.upk with pauses := c.upk.pauses ++ [zqPause .zqLatch sb r n] } } : Chan).modRank sb r fun y => { y with zqPhase := 3 }))) ∧
        (∀ k, x.glide = false → x.selfRef = false → c.stopped sb = false → c.recovering sb = false → c.rankBusy sb r = false → c.upk.park = false → c.upk.wake = false →
          x.idleSince + c.power.glideIdle ≤ s.now → c.planned = [] → c.pauseOn sb = none →
          c.earliest (fun _ => true) (rankCmd .pde sb r .internal) = some k →
          exec (.glideIdleExpire ch sb r) s = .next (s.commitChan ch { c with tail := insertBy Cmd.time k c.tail }) ∧
            k.cls = .pde ∧ k.bank.sub = sb ∧ k.bank.rank = r))

/-- Messages have 16 words whose sum is all ones; replies end their request; GO, ACK, the legacy pointer and window
act. For any payload of at most 14 words, the message has 16 words that add up to 0xFFFFFFFF, word 0 packs ALIVE,
opcode, length and status, and the payload follows. A reply writes the message with the request's ALIVE and opcode,
clears BUSY, sets DONE, keeps the reply of a native request for a duplicate and raises MBX_IN_DONE. GO sets BUSY and
clears DONE, or sets OVR while busy; ACK clears VALID; the legacy pointer does both as its bits say and sets the
index; the data window writes an inbound word unless the pointer names the outbound side or a request is in progress,
reads the side it names, and steps the index. (R341, R342, R343, R345, R351, R355) -/
def Obligations.MailboxMessagesMove : Prop :=
  ((∀ (alive op len st : Nat) (pay : List Word), pay.length ≤ 14 →
      (mkMsg alive op len st pay).length = 16 ∧ (mkMsg alive op len st pay).foldl (· + ·) 0 = 0xFFFFFFFF ∧
        ((mkMsg alive op len st pay).getD 0 0).toNat =
          alive % 256 * 2 ^ 24 + op % 256 * 2 ^ 16 + len % 16 * 2 ^ 12 + st % 256 ∧
        ∀ i, i < pay.length → (mkMsg alive op len st pay).getD (i + 1) 0 = pay.getD i 0) ∧
    (∀ (c : Chan) (st len : Nat) (pay ws : List Word), ws = mkMsg c.mbxIn.aliveOf c.mbxIn.opcode len st pay → st < 256 →
      c.reply st len pay = { c with
        mbxIn := { c.mbxIn with
          words := ws, busy := false, done := true, op := none, working := false, res := [],
          kept := if c.mbxIn.legacy then c.mbxIn.kept else some (c.mbxIn.aliveOf, ws) },
        evOut := c.evOut ++ [{ loc := evMbxIn, info := c.mbxIn.aliveOf * 2 ^ 8 + st }] })) ∧
  (∀ (s : State) (ch : ChanId) (c : Chan), s.chan ch = c →
      (s.Takes (wrTxn (.chan ch) 0x140 1) → exec (.mbxInGo ch) s = .next ((s.commitChan ch { c with
        mbxIn := if c.mbxIn.busy then { c.mbxIn with ovr := true }
          else { c.mbxIn with
            busy := true, done := false, legacy := false, op := none, working := false, res := [] } }).respond false 0)) ∧
      (s.Takes (wrTxn (.chan ch) 0x1C0 1) → exec (.mbxOutAck ch) s = .next ((s.commitChan ch { c with
        mbxOut := { c.mbxOut with valid := false } }).respond false 0)) ∧
      (∀ w v : Word, v = w ||| 0x80000000 → s.Takes (wrTxn (.chan ch) 0x1D0 v) →
        exec (.legacyGo ch w) s = .next ((s.commitChan ch { c with
          mbxIn := (if c.mbxIn.busy then { c.mbxIn with ovr := true }
            else { c.mbxIn with
              busy := true, done := false, legacy := true, op := none, working := false, res := [] }),
          mbxOut := { c.mbxOut with
            indexDir := bitAt v.toNat 4, index := bitsAt v.toNat 0 4,
            valid := c.mbxOut.valid && !bitAt v.toNat 30 } }).respond false 0)) ∧
      (∀ w v : Word, v = w ||| 0x40000000 → bitAt w.toNat 31 = false → s.Takes (wrTxn (.chan ch) 0x1D0 v) →
        exec (.legacyAck ch w) s = .next ((s.commitChan ch { c with
          mbxOut := { c.mbxOut with
            indexDir := bitAt v.toNat 4, index := bitsAt v.toNat 0 4, valid := false } }).respond false 0)) ∧
      (∀ w : Word, s.Takes (wrTxn (.chan ch) 0x1D4 w) → exec (.legacyDataAccess ch true w) s = .next ((s.commitChan ch
        { c with
          mbxIn := (if c.mbxOut.indexDir || c.mbxIn.busy then c.mbxIn
            else { c.mbxIn with words := c.mbxIn.words.set (c.mbxOut.index % 16) w }),
          mbxOut := { c.mbxOut with index := (c.mbxOut.index + 1) % 16 } }).respond false 0)) ∧
      (∀ w : Word, s.Takes (rdTxn (.chan ch) 0x1D4) → exec (.legacyDataAccess ch false w) s = .next ((s.commitChan ch
        { c with mbxOut := { c.mbxOut with index := (c.mbxOut.index + 1) % 16 } }).respond false
          ((if c.mbxOut.indexDir then c.mbxOut.words else c.mbxIn.words).getD c.mbxOut.index 0))))
end

