-- ==== Sys2Proof/Laws/State.lean ====
section
/-! SUPPORT. What the named updates of the state and of a channel leave in each field, so that no proof unfolds a record
update. -/
namespace Sys2Proof.Machine

@[simp] theorem State.setChan_pending (s : State) (ch : ChanId) (c : Chan) : (s.setChan ch c).pending = s.pending := rfl
@[simp] theorem State.setChan_chans (s : State) (ch : ChanId) (c : Chan) : (s.setChan ch c).chans = s.chans.set ch c := rfl
@[simp] theorem State.setChan_img (s : State) (ch : ChanId) (c : Chan) : (s.setChan ch c).img = s.img := rfl
@[simp] theorem State.setChan_loader (s : State) (ch : ChanId) (c : Chan) : (s.setChan ch c).loader = s.loader := rfl
@[simp] theorem State.setChan_lvl (s : State) (ch : ChanId) (c : Chan) : (s.setChan ch c).lvl = s.lvl := rfl
@[simp] theorem State.setChan_ev (s : State) (ch : ChanId) (c : Chan) : (s.setChan ch c).ev = s.ev := rfl
@[simp] theorem State.setChan_cnt (s : State) (ch : ChanId) (c : Chan) : (s.setChan ch c).cnt = s.cnt := rfl
@[simp] theorem State.setChan_wide (s : State) (ch : ChanId) (c : Chan) : (s.setChan ch c).wide = s.wide := rfl
@[simp] theorem State.setChan_mgt (s : State) (ch : ChanId) (c : Chan) : (s.setChan ch c).mgt = s.mgt := rfl
@[simp] theorem State.setChan_rst (s : State) (ch : ChanId) (c : Chan) : (s.setChan ch c).rst = s.rst := rfl
@[simp] theorem State.setChan_tsBase (s : State) (ch : ChanId) (c : Chan) : (s.setChan ch c).tsBase = s.tsBase := rfl
@[simp] theorem State.setChan_now (s : State) (ch : ChanId) (c : Chan) : (s.setChan ch c).now = s.now := rfl
@[simp] theorem State.setChan_rclk (s : State) (ch : ChanId) (c : Chan) : (s.setChan ch c).rclk = s.rclk := rfl
@[simp] theorem State.setChan_winNext (s : State) (ch : ChanId) (c : Chan) : (s.setChan ch c).winNext = s.winNext := rfl

@[simp] theorem State.blkCount_pending (s : State) (code n : Nat) : (s.blkCount code n).pending = s.pending := rfl
@[simp] theorem State.blkCount_chans (s : State) (code n : Nat) : (s.blkCount code n).chans = s.chans := rfl
@[simp] theorem State.blkCount_img (s : State) (code n : Nat) : (s.blkCount code n).img = s.img := rfl
@[simp] theorem State.blkCount_loader (s : State) (code n : Nat) : (s.blkCount code n).loader = s.loader := rfl
@[simp] theorem State.blkCount_lvl (s : State) (code n : Nat) : (s.blkCount code n).lvl = s.lvl := rfl
@[simp] theorem State.blkCount_ev (s : State) (code n : Nat) : (s.blkCount code n).ev = s.ev := rfl
@[simp] theorem State.blkCount_wide (s : State) (code n : Nat) : (s.blkCount code n).wide = s.wide := rfl
@[simp] theorem State.blkCount_mgt (s : State) (code n : Nat) : (s.blkCount code n).mgt = s.mgt := rfl
@[simp] theorem State.blkCount_rst (s : State) (code n : Nat) : (s.blkCount code n).rst = s.rst := rfl
@[simp] theorem State.blkCount_tsBase (s : State) (code n : Nat) : (s.blkCount code n).tsBase = s.tsBase := rfl
@[simp] theorem State.blkCount_now (s : State) (code n : Nat) : (s.blkCount code n).now = s.now := rfl
@[simp] theorem State.blkCount_rclk (s : State) (code n : Nat) : (s.blkCount code n).rclk = s.rclk := rfl
@[simp] theorem State.blkCount_winNext (s : State) (code n : Nat) : (s.blkCount code n).winNext = s.winNext := rfl

@[simp] theorem State.respond_pending (s : State) (err : Bool) (w : Word) : (s.respond err w).pending = s.pending := rfl
@[simp] theorem State.respond_chans (s : State) (err : Bool) (w : Word) : (s.respond err w).chans = s.chans := rfl
@[simp] theorem State.respond_img (s : State) (err : Bool) (w : Word) : (s.respond err w).img = s.img := rfl
@[simp] theorem State.respond_loader (s : State) (err : Bool) (w : Word) : (s.respond err w).loader = s.loader := rfl
@[simp] theorem State.respond_lvl (s : State) (err : Bool) (w : Word) : (s.respond err w).lvl = s.lvl := rfl
@[simp] theorem State.respond_ev (s : State) (err : Bool) (w : Word) : (s.respond err w).ev = s.ev := rfl
@[simp] theorem State.respond_wide (s : State) (err : Bool) (w : Word) : (s.respond err w).wide = s.wide := rfl
@[simp] theorem State.respond_mgt (s : State) (err : Bool) (w : Word) : (s.respond err w).mgt = { s.mgt with rspV := true, rspErr := err, rdata := if err then 0 else w } := rfl
@[simp] theorem State.respond_rst (s : State) (err : Bool) (w : Word) : (s.respond err w).rst = s.rst := rfl
@[simp] theorem State.respond_tsBase (s : State) (err : Bool) (w : Word) : (s.respond err w).tsBase = s.tsBase := rfl
@[simp] theorem State.respond_now (s : State) (err : Bool) (w : Word) : (s.respond err w).now = s.now := rfl
@[simp] theorem State.respond_rclk (s : State) (err : Bool) (w : Word) : (s.respond err w).rclk = s.rclk := rfl
@[simp] theorem State.respond_winNext (s : State) (err : Bool) (w : Word) : (s.respond err w).winNext = s.winNext := rfl

@[simp] theorem Chan.raise_img (c : Chan) (loc info : Nat) : (c.raise loc info).img = c.img := rfl
@[simp] theorem Chan.raise_power (c : Chan) (loc info : Nat) : (c.raise loc info).power = c.power := rfl
@[simp] theorem Chan.raise_pins (c : Chan) (loc info : Nat) : (c.raise loc info).pins = c.pins := rfl
@[simp] theorem Chan.raise_lane (c : Chan) (loc info : Nat) : (c.raise loc info).lane = c.lane := rfl
@[simp] theorem Chan.raise_rq (c : Chan) (loc info : Nat) : (c.raise loc info).rq = c.rq := rfl
@[simp] theorem Chan.raise_wq (c : Chan) (loc info : Nat) : (c.raise loc info).wq = c.wq := rfl
@[simp] theorem Chan.raise_nextSeq (c : Chan) (loc info : Nat) : (c.raise loc info).nextSeq = c.nextSeq := rfl
@[simp] theorem Chan.raise_commitOrd (c : Chan) (loc info : Nat) : (c.raise loc info).commitOrd = c.commitOrd := rfl
@[simp] theorem Chan.raise_banks (c : Chan) (loc info : Nat) : (c.raise loc info).banks = c.banks := rfl
@[simp] theorem Chan.raise_tail (c : Chan) (loc info : Nat) : (c.raise loc info).tail = c.tail := rfl
@[simp] theorem Chan.raise_dclk (c : Chan) (loc info : Nat) : (c.raise loc info).dclk = c.dclk := rfl
@[simp] theorem Chan.raise_kclk (c : Chan) (loc info : Nat) : (c.raise loc info).kclk = c.kclk := rfl
@[simp] theorem Chan.raise_fab (c : Chan) (loc info : Nat) : (c.raise loc info).fab = c.fab := rfl
@[simp] theorem Chan.raise_sched (c : Chan) (loc info : Nat) : (c.raise loc info).sched = c.sched := rfl
@[simp] theorem Chan.raise_upk (c : Chan) (loc info : Nat) : (c.raise loc info).upk = c.upk := rfl
@[simp] theorem Chan.raise_bal (c : Chan) (loc info : Nat) : (c.raise loc info).bal = c.bal := rfl
@[simp] theorem Chan.raise_prot (c : Chan) (loc info : Nat) : (c.raise loc info).prot = c.prot := rfl
@[simp] theorem Chan.raise_err (c : Chan) (loc info : Nat) : (c.raise loc info).err = c.err := rfl
@[simp] theorem Chan.raise_th (c : Chan) (loc info : Nat) : (c.raise loc info).th = c.th := rfl
@[simp] theorem Chan.raise_loft (c : Chan) (loc info : Nat) : (c.raise loc info).loft = c.loft := rfl
@[simp] theorem Chan.raise_trim (c : Chan) (loc info : Nat) : (c.raise loc info).trim = c.trim := rfl
@[simp] theorem Chan.raise_sb (c : Chan) (loc info : Nat) : (c.raise loc info).sb = c.sb := rfl
@[simp] theorem Chan.raise_mbxIn (c : Chan) (loc info : Nat) : (c.raise loc info).mbxIn = c.mbxIn := rfl
@[simp] theorem Chan.raise_mbxOut (c : Chan) (loc info : Nat) : (c.raise loc info).mbxOut = c.mbxOut := rfl
@[simp] theorem Chan.raise_seqr (c : Chan) (loc info : Nat) : (c.raise loc info).seqr = c.seqr := rfl
@[simp] theorem Chan.raise_cv (c : Chan) (loc info : Nat) : (c.raise loc info).cv = c.cv := rfl
@[simp] theorem Chan.raise_cnt (c : Chan) (loc info : Nat) : (c.raise loc info).cnt = c.cnt := rfl
@[simp] theorem Chan.raise_wide (c : Chan) (loc info : Nat) : (c.raise loc info).wide = c.wide := rfl
@[simp] theorem Chan.raise_xl (c : Chan) (loc info : Nat) : (c.raise loc info).xl = c.xl := rfl
@[simp] theorem Chan.raise_bring (c : Chan) (loc info : Nat) : (c.raise loc info).bring = c.bring := rfl
@[simp] theorem Chan.raise_bridges (c : Chan) (loc info : Nat) : (c.raise loc info).bridges = c.bridges := rfl
@[simp] theorem Chan.raise_upsets (c : Chan) (loc info : Nat) : (c.raise loc info).upsets = c.upsets := rfl
@[simp] theorem Chan.raise_evOut (c : Chan) (loc info : Nat) : (c.raise loc info).evOut = c.evOut ++ [{ loc := loc, info := info }] := rfl
@[simp] theorem Chan.raise_occ (c : Chan) (loc info : Nat) : (c.raise loc info).occ = c.occ := rfl
@[simp] theorem Chan.raise_free (c : Chan) (loc info : Nat) : (c.raise loc info).free = c.free := rfl

@[simp] theorem Chan.log_img (c : Chan) (o : Occ) : (c.log o).img = c.img := rfl
@[simp] theorem Chan.log_power (c : Chan) (o : Occ) : (c.log o).power = c.power := rfl
@[simp] theorem Chan.log_pins (c : Chan) (o : Occ) : (c.log o).pins = c.pins := rfl
@[simp] theorem Chan.log_lane (c : Chan) (o : Occ) : (c.log o).lane = c.lane := rfl
@[simp] theorem Chan.log_rq (c : Chan) (o : Occ) : (c.log o).rq = c.rq := rfl
@[simp] theorem Chan.log_wq (c : Chan) (o : Occ) : (c.log o).wq = c.wq := rfl
@[simp] theorem Chan.log_nextSeq (c : Chan) (o : Occ) : (c.log o).nextSeq = c.nextSeq := rfl
@[simp] theorem Chan.log_commitOrd (c : Chan) (o : Occ) : (c.log o).commitOrd = c.commitOrd := rfl
@[simp] theorem Chan.log_banks (c : Chan) (o : Occ) : (c.log o).banks = c.banks := rfl
@[simp] theorem Chan.log_tail (c : Chan) (o : Occ) : (c.log o).tail = c.tail := rfl
@[simp] theorem Chan.log_dclk (c : Chan) (o : Occ) : (c.log o).dclk = c.dclk := rfl
@[simp] theorem Chan.log_kclk (c : Chan) (o : Occ) : (c.log o).kclk = c.kclk := rfl
@[simp] theorem Chan.log_fab (c : Chan) (o : Occ) : (c.log o).fab = c.fab := rfl
@[simp] theorem Chan.log_sched (c : Chan) (o : Occ) : (c.log o).sched = c.sched := rfl
@[simp] theorem Chan.log_upk (c : Chan) (o : Occ) : (c.log o).upk = c.upk := rfl
@[simp] theorem Chan.log_bal (c : Chan) (o : Occ) : (c.log o).bal = c.bal := rfl
@[simp] theorem Chan.log_prot (c : Chan) (o : Occ) : (c.log o).prot = c.prot := rfl
@[simp] theorem Chan.log_err (c : Chan) (o : Occ) : (c.log o).err = c.err := rfl
@[simp] theorem Chan.log_th (c : Chan) (o : Occ) : (c.log o).th = c.th := rfl
@[simp] theorem Chan.log_loft (c : Chan) (o : Occ) : (c.log o).loft = c.loft := rfl
@[simp] theorem Chan.log_trim (c : Chan) (o : Occ) : (c.log o).trim = c.trim := rfl
@[simp] theorem Chan.log_sb (c : Chan) (o : Occ) : (c.log o).sb = c.sb := rfl
@[simp] theorem Chan.log_mbxIn (c : Chan) (o : Occ) : (c.log o).mbxIn = c.mbxIn := rfl
@[simp] theorem Chan.log_mbxOut (c : Chan) (o : Occ) : (c.log o).mbxOut = c.mbxOut := rfl
@[simp] theorem Chan.log_seqr (c : Chan) (o : Occ) : (c.log o).seqr = c.seqr := rfl
@[simp] theorem Chan.log_cv (c : Chan) (o : Occ) : (c.log o).cv = c.cv := rfl
@[simp] theorem Chan.log_cnt (c : Chan) (o : Occ) : (c.log o).cnt = c.cnt := rfl
@[simp] theorem Chan.log_wide (c : Chan) (o : Occ) : (c.log o).wide = c.wide := rfl
@[simp] theorem Chan.log_xl (c : Chan) (o : Occ) : (c.log o).xl = c.xl := rfl
@[simp] theorem Chan.log_bring (c : Chan) (o : Occ) : (c.log o).bring = c.bring := rfl
@[simp] theorem Chan.log_bridges (c : Chan) (o : Occ) : (c.log o).bridges = c.bridges := rfl
@[simp] theorem Chan.log_upsets (c : Chan) (o : Occ) : (c.log o).upsets = c.upsets := rfl
@[simp] theorem Chan.log_evOut (c : Chan) (o : Occ) : (c.log o).evOut = c.evOut := rfl
@[simp] theorem Chan.log_occ (c : Chan) (o : Occ) : (c.log o).occ = c.occ ++ [o] := rfl
@[simp] theorem Chan.log_free (c : Chan) (o : Occ) : (c.log o).free = c.free := rfl

@[simp] theorem Chan.setBank_img (c : Chan) (b : Bank) (e : BankEntry) : (c.setBank b e).img = c.img := rfl
@[simp] theorem Chan.setBank_power (c : Chan) (b : Bank) (e : BankEntry) : (c.setBank b e).power = c.power := rfl
@[simp] theorem Chan.setBank_pins (c : Chan) (b : Bank) (e : BankEntry) : (c.setBank b e).pins = c.pins := rfl
@[simp] theorem Chan.setBank_lane (c : Chan) (b : Bank) (e : BankEntry) : (c.setBank b e).lane = c.lane := rfl
@[simp] theorem Chan.setBank_rq (c : Chan) (b : Bank) (e : BankEntry) : (c.setBank b e).rq = c.rq := rfl
@[simp] theorem Chan.setBank_wq (c : Chan) (b : Bank) (e : BankEntry) : (c.setBank b e).wq = c.wq := rfl
@[simp] theorem Chan.setBank_nextSeq (c : Chan) (b : Bank) (e : BankEntry) : (c.setBank b e).nextSeq = c.nextSeq := rfl
@[simp] theorem Chan.setBank_commitOrd (c : Chan) (b : Bank) (e : BankEntry) : (c.setBank b e).commitOrd = c.commitOrd := rfl
@[simp] theorem Chan.setBank_tail (c : Chan) (b : Bank) (e : BankEntry) : (c.setBank b e).tail = c.tail := rfl
@[simp] theorem Chan.setBank_dclk (c : Chan) (b : Bank) (e : BankEntry) : (c.setBank b e).dclk = c.dclk := rfl
@[simp] theorem Chan.setBank_kclk (c : Chan) (b : Bank) (e : BankEntry) : (c.setBank b e).kclk = c.kclk := rfl
@[simp] theorem Chan.setBank_fab (c : Chan) (b : Bank) (e : BankEntry) : (c.setBank b e).fab = c.fab := rfl
@[simp] theorem Chan.setBank_sched (c : Chan) (b : Bank) (e : BankEntry) : (c.setBank b e).sched = c.sched := rfl
@[simp] theorem Chan.setBank_upk (c : Chan) (b : Bank) (e : BankEntry) : (c.setBank b e).upk = c.upk := rfl
@[simp] theorem Chan.setBank_bal (c : Chan) (b : Bank) (e : BankEntry) : (c.setBank b e).bal = c.bal := rfl
@[simp] theorem Chan.setBank_prot (c : Chan) (b : Bank) (e : BankEntry) : (c.setBank b e).prot = c.prot := rfl
@[simp] theorem Chan.setBank_err (c : Chan) (b : Bank) (e : BankEntry) : (c.setBank b e).err = c.err := rfl
@[simp] theorem Chan.setBank_th (c : Chan) (b : Bank) (e : BankEntry) : (c.setBank b e).th = c.th := rfl
@[simp] theorem Chan.setBank_loft (c : Chan) (b : Bank) (e : BankEntry) : (c.setBank b e).loft = c.loft := rfl
@[simp] theorem Chan.setBank_trim (c : Chan) (b : Bank) (e : BankEntry) : (c.setBank b e).trim = c.trim := rfl
@[simp] theorem Chan.setBank_sb (c : Chan) (b : Bank) (e : BankEntry) : (c.setBank b e).sb = c.sb := rfl
@[simp] theorem Chan.setBank_mbxIn (c : Chan) (b : Bank) (e : BankEntry) : (c.setBank b e).mbxIn = c.mbxIn := rfl
@[simp] theorem Chan.setBank_mbxOut (c : Chan) (b : Bank) (e : BankEntry) : (c.setBank b e).mbxOut = c.mbxOut := rfl
@[simp] theorem Chan.setBank_seqr (c : Chan) (b : Bank) (e : BankEntry) : (c.setBank b e).seqr = c.seqr := rfl
@[simp] theorem Chan.setBank_cv (c : Chan) (b : Bank) (e : BankEntry) : (c.setBank b e).cv = c.cv := rfl
@[simp] theorem Chan.setBank_cnt (c : Chan) (b : Bank) (e : BankEntry) : (c.setBank b e).cnt = c.cnt := rfl
@[simp] theorem Chan.setBank_wide (c : Chan) (b : Bank) (e : BankEntry) : (c.setBank b e).wide = c.wide := rfl
@[simp] theorem Chan.setBank_xl (c : Chan) (b : Bank) (e : BankEntry) : (c.setBank b e).xl = c.xl := rfl
@[simp] theorem Chan.setBank_bring (c : Chan) (b : Bank) (e : BankEntry) : (c.setBank b e).bring = c.bring := rfl
@[simp] theorem Chan.setBank_bridges (c : Chan) (b : Bank) (e : BankEntry) : (c.setBank b e).bridges = c.bridges := rfl
@[simp] theorem Chan.setBank_upsets (c : Chan) (b : Bank) (e : BankEntry) : (c.setBank b e).upsets = c.upsets := rfl
@[simp] theorem Chan.setBank_evOut (c : Chan) (b : Bank) (e : BankEntry) : (c.setBank b e).evOut = c.evOut := rfl
@[simp] theorem Chan.setBank_occ (c : Chan) (b : Bank) (e : BankEntry) : (c.setBank b e).occ = c.occ := rfl
@[simp] theorem Chan.setBank_free (c : Chan) (b : Bank) (e : BankEntry) : (c.setBank b e).free = c.free := rfl

@[simp] theorem Chan.modBank_img (c : Chan) (b : Bank) (f : BankEntry → BankEntry) : (c.modBank b f).img = c.img := rfl
@[simp] theorem Chan.modBank_power (c : Chan) (b : Bank) (f : BankEntry → BankEntry) : (c.modBank b f).power = c.power := rfl
@[simp] theorem Chan.modBank_pins (c : Chan) (b : Bank) (f : BankEntry → BankEntry) : (c.modBank b f).pins = c.pins := rfl
@[simp] theorem Chan.modBank_lane (c : Chan) (b : Bank) (f : BankEntry → BankEntry) : (c.modBank b f).lane = c.lane := rfl
@[simp] theorem Chan.modBank_rq (c : Chan) (b : Bank) (f : BankEntry → BankEntry) : (c.modBank b f).rq = c.rq := rfl
@[simp] theorem Chan.modBank_wq (c : Chan) (b : Bank) (f : BankEntry → BankEntry) : (c.modBank b f).wq = c.wq := rfl
@[simp] theorem Chan.modBank_nextSeq (c : Chan) (b : Bank) (f : BankEntry → BankEntry) : (c.modBank b f).nextSeq = c.nextSeq := rfl
@[simp] theorem Chan.modBank_commitOrd (c : Chan) (b : Bank) (f : BankEntry → BankEntry) : (c.modBank b f).commitOrd = c.commitOrd := rfl
@[simp] theorem Chan.modBank_tail (c : Chan) (b : Bank) (f : BankEntry → BankEntry) : (c.modBank b f).tail = c.tail := rfl
@[simp] theorem Chan.modBank_dclk (c : Chan) (b : Bank) (f : BankEntry → BankEntry) : (c.modBank b f).dclk = c.dclk := rfl
@[simp] theorem Chan.modBank_kclk (c : Chan) (b : Bank) (f : BankEntry → BankEntry) : (c.modBank b f).kclk = c.kclk := rfl
@[simp] theorem Chan.modBank_fab (c : Chan) (b : Bank) (f : BankEntry → BankEntry) : (c.modBank b f).fab = c.fab := rfl
@[simp] theorem Chan.modBank_sched (c : Chan) (b : Bank) (f : BankEntry → BankEntry) : (c.modBank b f).sched = c.sched := rfl
@[simp] theorem Chan.modBank_upk (c : Chan) (b : Bank) (f : BankEntry → BankEntry) : (c.modBank b f).upk = c.upk := rfl
@[simp] theorem Chan.modBank_bal (c : Chan) (b : Bank) (f : BankEntry → BankEntry) : (c.modBank b f).bal = c.bal := rfl
@[simp] theorem Chan.modBank_prot (c : Chan) (b : Bank) (f : BankEntry → BankEntry) : (c.modBank b f).prot = c.prot := rfl
@[simp] theorem Chan.modBank_err (c : Chan) (b : Bank) (f : BankEntry → BankEntry) : (c.modBank b f).err = c.err := rfl
@[simp] theorem Chan.modBank_th (c : Chan) (b : Bank) (f : BankEntry → BankEntry) : (c.modBank b f).th = c.th := rfl
@[simp] theorem Chan.modBank_loft (c : Chan) (b : Bank) (f : BankEntry → BankEntry) : (c.modBank b f).loft = c.loft := rfl
@[simp] theorem Chan.modBank_trim (c : Chan) (b : Bank) (f : BankEntry → BankEntry) : (c.modBank b f).trim = c.trim := rfl
@[simp] theorem Chan.modBank_sb (c : Chan) (b : Bank) (f : BankEntry → BankEntry) : (c.modBank b f).sb = c.sb := rfl
@[simp] theorem Chan.modBank_mbxIn (c : Chan) (b : Bank) (f : BankEntry → BankEntry) : (c.modBank b f).mbxIn = c.mbxIn := rfl
@[simp] theorem Chan.modBank_mbxOut (c : Chan) (b : Bank) (f : BankEntry → BankEntry) : (c.modBank b f).mbxOut = c.mbxOut := rfl
@[simp] theorem Chan.modBank_seqr (c : Chan) (b : Bank) (f : BankEntry → BankEntry) : (c.modBank b f).seqr = c.seqr := rfl
@[simp] theorem Chan.modBank_cv (c : Chan) (b : Bank) (f : BankEntry → BankEntry) : (c.modBank b f).cv = c.cv := rfl
@[simp] theorem Chan.modBank_cnt (c : Chan) (b : Bank) (f : BankEntry → BankEntry) : (c.modBank b f).cnt = c.cnt := rfl
@[simp] theorem Chan.modBank_wide (c : Chan) (b : Bank) (f : BankEntry → BankEntry) : (c.modBank b f).wide = c.wide := rfl
@[simp] theorem Chan.modBank_xl (c : Chan) (b : Bank) (f : BankEntry → BankEntry) : (c.modBank b f).xl = c.xl := rfl
@[simp] theorem Chan.modBank_bring (c : Chan) (b : Bank) (f : BankEntry → BankEntry) : (c.modBank b f).bring = c.bring := rfl
@[simp] theorem Chan.modBank_bridges (c : Chan) (b : Bank) (f : BankEntry → BankEntry) : (c.modBank b f).bridges = c.bridges := rfl
@[simp] theorem Chan.modBank_upsets (c : Chan) (b : Bank) (f : BankEntry → BankEntry) : (c.modBank b f).upsets = c.upsets := rfl
@[simp] theorem Chan.modBank_evOut (c : Chan) (b : Bank) (f : BankEntry → BankEntry) : (c.modBank b f).evOut = c.evOut := rfl
@[simp] theorem Chan.modBank_occ (c : Chan) (b : Bank) (f : BankEntry → BankEntry) : (c.modBank b f).occ = c.occ := rfl
@[simp] theorem Chan.modBank_free (c : Chan) (b : Bank) (f : BankEntry → BankEntry) : (c.modBank b f).free = c.free := rfl

@[simp] theorem Chan.modRd_img (c : Chan) (n : Nat) (f : RdEntry → RdEntry) : (c.modRd n f).img = c.img := rfl
@[simp] theorem Chan.modRd_power (c : Chan) (n : Nat) (f : RdEntry → RdEntry) : (c.modRd n f).power = c.power := rfl
@[simp] theorem Chan.modRd_pins (c : Chan) (n : Nat) (f : RdEntry → RdEntry) : (c.modRd n f).pins = c.pins := rfl
@[simp] theorem Chan.modRd_lane (c : Chan) (n : Nat) (f : RdEntry → RdEntry) : (c.modRd n f).lane = c.lane := rfl
@[simp] theorem Chan.modRd_rq (c : Chan) (n : Nat) (f : RdEntry → RdEntry) : (c.modRd n f).rq = updateWhere (fun r => r.seq == n) f c.rq := rfl
@[simp] theorem Chan.modRd_wq (c : Chan) (n : Nat) (f : RdEntry → RdEntry) : (c.modRd n f).wq = c.wq := rfl
@[simp] theorem Chan.modRd_nextSeq (c : Chan) (n : Nat) (f : RdEntry → RdEntry) : (c.modRd n f).nextSeq = c.nextSeq := rfl
@[simp] theorem Chan.modRd_commitOrd (c : Chan) (n : Nat) (f : RdEntry → RdEntry) : (c.modRd n f).commitOrd = c.commitOrd := rfl
@[simp] theorem Chan.modRd_banks (c : Chan) (n : Nat) (f : RdEntry → RdEntry) : (c.modRd n f).banks = c.banks := rfl
@[simp] theorem Chan.modRd_tail (c : Chan) (n : Nat) (f : RdEntry → RdEntry) : (c.modRd n f).tail = c.tail := rfl
@[simp] theorem Chan.modRd_dclk (c : Chan) (n : Nat) (f : RdEntry → RdEntry) : (c.modRd n f).dclk = c.dclk := rfl
@[simp] theorem Chan.modRd_kclk (c : Chan) (n : Nat) (f : RdEntry → RdEntry) : (c.modRd n f).kclk = c.kclk := rfl
@[simp] theorem Chan.modRd_fab (c : Chan) (n : Nat) (f : RdEntry → RdEntry) : (c.modRd n f).fab = c.fab := rfl
@[simp] theorem Chan.modRd_sched (c : Chan) (n : Nat) (f : RdEntry → RdEntry) : (c.modRd n f).sched = c.sched := rfl
@[simp] theorem Chan.modRd_upk (c : Chan) (n : Nat) (f : RdEntry → RdEntry) : (c.modRd n f).upk = c.upk := rfl
@[simp] theorem Chan.modRd_bal (c : Chan) (n : Nat) (f : RdEntry → RdEntry) : (c.modRd n f).bal = c.bal := rfl
@[simp] theorem Chan.modRd_prot (c : Chan) (n : Nat) (f : RdEntry → RdEntry) : (c.modRd n f).prot = c.prot := rfl
@[simp] theorem Chan.modRd_err (c : Chan) (n : Nat) (f : RdEntry → RdEntry) : (c.modRd n f).err = c.err := rfl
@[simp] theorem Chan.modRd_th (c : Chan) (n : Nat) (f : RdEntry → RdEntry) : (c.modRd n f).th = c.th := rfl
@[simp] theorem Chan.modRd_loft (c : Chan) (n : Nat) (f : RdEntry → RdEntry) : (c.modRd n f).loft = c.loft := rfl
@[simp] theorem Chan.modRd_trim (c : Chan) (n : Nat) (f : RdEntry → RdEntry) : (c.modRd n f).trim = c.trim := rfl
@[simp] theorem Chan.modRd_sb (c : Chan) (n : Nat) (f : RdEntry → RdEntry) : (c.modRd n f).sb = c.sb := rfl
@[simp] theorem Chan.modRd_mbxIn (c : Chan) (n : Nat) (f : RdEntry → RdEntry) : (c.modRd n f).mbxIn = c.mbxIn := rfl
@[simp] theorem Chan.modRd_mbxOut (c : Chan) (n : Nat) (f : RdEntry → RdEntry) : (c.modRd n f).mbxOut = c.mbxOut := rfl
@[simp] theorem Chan.modRd_seqr (c : Chan) (n : Nat) (f : RdEntry → RdEntry) : (c.modRd n f).seqr = c.seqr := rfl
@[simp] theorem Chan.modRd_cv (c : Chan) (n : Nat) (f : RdEntry → RdEntry) : (c.modRd n f).cv = c.cv := rfl
@[simp] theorem Chan.modRd_cnt (c : Chan) (n : Nat) (f : RdEntry → RdEntry) : (c.modRd n f).cnt = c.cnt := rfl
@[simp] theorem Chan.modRd_wide (c : Chan) (n : Nat) (f : RdEntry → RdEntry) : (c.modRd n f).wide = c.wide := rfl
@[simp] theorem Chan.modRd_xl (c : Chan) (n : Nat) (f : RdEntry → RdEntry) : (c.modRd n f).xl = c.xl := rfl
@[simp] theorem Chan.modRd_bring (c : Chan) (n : Nat) (f : RdEntry → RdEntry) : (c.modRd n f).bring = c.bring := rfl
@[simp] theorem Chan.modRd_bridges (c : Chan) (n : Nat) (f : RdEntry → RdEntry) : (c.modRd n f).bridges = c.bridges := rfl
@[simp] theorem Chan.modRd_upsets (c : Chan) (n : Nat) (f : RdEntry → RdEntry) : (c.modRd n f).upsets = c.upsets := rfl
@[simp] theorem Chan.modRd_evOut (c : Chan) (n : Nat) (f : RdEntry → RdEntry) : (c.modRd n f).evOut = c.evOut := rfl
@[simp] theorem Chan.modRd_occ (c : Chan) (n : Nat) (f : RdEntry → RdEntry) : (c.modRd n f).occ = c.occ := rfl
@[simp] theorem Chan.modRd_free (c : Chan) (n : Nat) (f : RdEntry → RdEntry) : (c.modRd n f).free = c.free := rfl

@[simp] theorem Chan.modWr_img (c : Chan) (n : Nat) (f : WrEntry → WrEntry) : (c.modWr n f).img = c.img := rfl
@[simp] theorem Chan.modWr_power (c : Chan) (n : Nat) (f : WrEntry → WrEntry) : (c.modWr n f).power = c.power := rfl
@[simp] theorem Chan.modWr_pins (c : Chan) (n : Nat) (f : WrEntry → WrEntry) : (c.modWr n f).pins = c.pins := rfl
@[simp] theorem Chan.modWr_lane (c : Chan) (n : Nat) (f : WrEntry → WrEntry) : (c.modWr n f).lane = c.lane := rfl
@[simp] theorem Chan.modWr_rq (c : Chan) (n : Nat) (f : WrEntry → WrEntry) : (c.modWr n f).rq = c.rq := rfl
@[simp] theorem Chan.modWr_wq (c : Chan) (n : Nat) (f : WrEntry → WrEntry) : (c.modWr n f).wq = updateWhere (fun w => w.seq == n) f c.wq := rfl
@[simp] theorem Chan.modWr_nextSeq (c : Chan) (n : Nat) (f : WrEntry → WrEntry) : (c.modWr n f).nextSeq = c.nextSeq := rfl
@[simp] theorem Chan.modWr_commitOrd (c : Chan) (n : Nat) (f : WrEntry → WrEntry) : (c.modWr n f).commitOrd = c.commitOrd := rfl
@[simp] theorem Chan.modWr_banks (c : Chan) (n : Nat) (f : WrEntry → WrEntry) : (c.modWr n f).banks = c.banks := rfl
@[simp] theorem Chan.modWr_tail (c : Chan) (n : Nat) (f : WrEntry → WrEntry) : (c.modWr n f).tail = c.tail := rfl
@[simp] theorem Chan.modWr_dclk (c : Chan) (n : Nat) (f : WrEntry → WrEntry) : (c.modWr n f).dclk = c.dclk := rfl
@[simp] theorem Chan.modWr_kclk (c : Chan) (n : Nat) (f : WrEntry → WrEntry) : (c.modWr n f).kclk = c.kclk := rfl
@[simp] theorem Chan.modWr_fab (c : Chan) (n : Nat) (f : WrEntry → WrEntry) : (c.modWr n f).fab = c.fab := rfl
@[simp] theorem Chan.modWr_sched (c : Chan) (n : Nat) (f : WrEntry → WrEntry) : (c.modWr n f).sched = c.sched := rfl
@[simp] theorem Chan.modWr_upk (c : Chan) (n : Nat) (f : WrEntry → WrEntry) : (c.modWr n f).upk = c.upk := rfl
@[simp] theorem Chan.modWr_bal (c : Chan) (n : Nat) (f : WrEntry → WrEntry) : (c.modWr n f).bal = c.bal := rfl
@[simp] theorem Chan.modWr_prot (c : Chan) (n : Nat) (f : WrEntry → WrEntry) : (c.modWr n f).prot = c.prot := rfl
@[simp] theorem Chan.modWr_err (c : Chan) (n : Nat) (f : WrEntry → WrEntry) : (c.modWr n f).err = c.err := rfl
@[simp] theorem Chan.modWr_th (c : Chan) (n : Nat) (f : WrEntry → WrEntry) : (c.modWr n f).th = c.th := rfl
@[simp] theorem Chan.modWr_loft (c : Chan) (n : Nat) (f : WrEntry → WrEntry) : (c.modWr n f).loft = c.loft := rfl
@[simp] theorem Chan.modWr_trim (c : Chan) (n : Nat) (f : WrEntry → WrEntry) : (c.modWr n f).trim = c.trim := rfl
@[simp] theorem Chan.modWr_sb (c : Chan) (n : Nat) (f : WrEntry → WrEntry) : (c.modWr n f).sb = c.sb := rfl
@[simp] theorem Chan.modWr_mbxIn (c : Chan) (n : Nat) (f : WrEntry → WrEntry) : (c.modWr n f).mbxIn = c.mbxIn := rfl
@[simp] theorem Chan.modWr_mbxOut (c : Chan) (n : Nat) (f : WrEntry → WrEntry) : (c.modWr n f).mbxOut = c.mbxOut := rfl
@[simp] theorem Chan.modWr_seqr (c : Chan) (n : Nat) (f : WrEntry → WrEntry) : (c.modWr n f).seqr = c.seqr := rfl
@[simp] theorem Chan.modWr_cv (c : Chan) (n : Nat) (f : WrEntry → WrEntry) : (c.modWr n f).cv = c.cv := rfl
@[simp] theorem Chan.modWr_cnt (c : Chan) (n : Nat) (f : WrEntry → WrEntry) : (c.modWr n f).cnt = c.cnt := rfl
@[simp] theorem Chan.modWr_wide (c : Chan) (n : Nat) (f : WrEntry → WrEntry) : (c.modWr n f).wide = c.wide := rfl
@[simp] theorem Chan.modWr_xl (c : Chan) (n : Nat) (f : WrEntry → WrEntry) : (c.modWr n f).xl = c.xl := rfl
@[simp] theorem Chan.modWr_bring (c : Chan) (n : Nat) (f : WrEntry → WrEntry) : (c.modWr n f).bring = c.bring := rfl
@[simp] theorem Chan.modWr_bridges (c : Chan) (n : Nat) (f : WrEntry → WrEntry) : (c.modWr n f).bridges = c.bridges := rfl
@[simp] theorem Chan.modWr_upsets (c : Chan) (n : Nat) (f : WrEntry → WrEntry) : (c.modWr n f).upsets = c.upsets := rfl
@[simp] theorem Chan.modWr_evOut (c : Chan) (n : Nat) (f : WrEntry → WrEntry) : (c.modWr n f).evOut = c.evOut := rfl
@[simp] theorem Chan.modWr_occ (c : Chan) (n : Nat) (f : WrEntry → WrEntry) : (c.modWr n f).occ = c.occ := rfl
@[simp] theorem Chan.modWr_free (c : Chan) (n : Nat) (f : WrEntry → WrEntry) : (c.modWr n f).free = c.free := rfl

@[simp] theorem Chan.dropRd_img (c : Chan) (n : Nat) : (c.dropRd n).img = c.img := rfl
@[simp] theorem Chan.dropRd_power (c : Chan) (n : Nat) : (c.dropRd n).power = c.power := rfl
@[simp] theorem Chan.dropRd_pins (c : Chan) (n : Nat) : (c.dropRd n).pins = c.pins := rfl
@[simp] theorem Chan.dropRd_lane (c : Chan) (n : Nat) : (c.dropRd n).lane = c.lane := rfl
@[simp] theorem Chan.dropRd_rq (c : Chan) (n : Nat) : (c.dropRd n).rq = c.rq.filter fun r => r.seq != n := rfl
@[simp] theorem Chan.dropRd_wq (c : Chan) (n : Nat) : (c.dropRd n).wq = c.wq := rfl
@[simp] theorem Chan.dropRd_nextSeq (c : Chan) (n : Nat) : (c.dropRd n).nextSeq = c.nextSeq := rfl
@[simp] theorem Chan.dropRd_commitOrd (c : Chan) (n : Nat) : (c.dropRd n).commitOrd = c.commitOrd := rfl
@[simp] theorem Chan.dropRd_banks (c : Chan) (n : Nat) : (c.dropRd n).banks = c.banks := rfl
@[simp] theorem Chan.dropRd_tail (c : Chan) (n : Nat) : (c.dropRd n).tail = c.tail := rfl
@[simp] theorem Chan.dropRd_dclk (c : Chan) (n : Nat) : (c.dropRd n).dclk = c.dclk := rfl
@[simp] theorem Chan.dropRd_kclk (c : Chan) (n : Nat) : (c.dropRd n).kclk = c.kclk := rfl
@[simp] theorem Chan.dropRd_fab (c : Chan) (n : Nat) : (c.dropRd n).fab = c.fab := rfl
@[simp] theorem Chan.dropRd_sched (c : Chan) (n : Nat) : (c.dropRd n).sched = c.sched := rfl
@[simp] theorem Chan.dropRd_upk (c : Chan) (n : Nat) : (c.dropRd n).upk = c.upk := rfl
@[simp] theorem Chan.dropRd_bal (c : Chan) (n : Nat) : (c.dropRd n).bal = c.bal := rfl
@[simp] theorem Chan.dropRd_prot (c : Chan) (n : Nat) : (c.dropRd n).prot = c.prot := rfl
@[simp] theorem Chan.dropRd_err (c : Chan) (n : Nat) : (c.dropRd n).err = c.err := rfl
@[simp] theorem Chan.dropRd_th (c : Chan) (n : Nat) : (c.dropRd n).th = c.th := rfl
@[simp] theorem Chan.dropRd_loft (c : Chan) (n : Nat) : (c.dropRd n).loft = c.loft := rfl
@[simp] theorem Chan.dropRd_trim (c : Chan) (n : Nat) : (c.dropRd n).trim = c.trim := rfl
@[simp] theorem Chan.dropRd_sb (c : Chan) (n : Nat) : (c.dropRd n).sb = c.sb := rfl
@[simp] theorem Chan.dropRd_mbxIn (c : Chan) (n : Nat) : (c.dropRd n).mbxIn = c.mbxIn := rfl
@[simp] theorem Chan.dropRd_mbxOut (c : Chan) (n : Nat) : (c.dropRd n).mbxOut = c.mbxOut := rfl
@[simp] theorem Chan.dropRd_seqr (c : Chan) (n : Nat) : (c.dropRd n).seqr = c.seqr := rfl
@[simp] theorem Chan.dropRd_cv (c : Chan) (n : Nat) : (c.dropRd n).cv = c.cv := rfl
@[simp] theorem Chan.dropRd_cnt (c : Chan) (n : Nat) : (c.dropRd n).cnt = c.cnt := rfl
@[simp] theorem Chan.dropRd_wide (c : Chan) (n : Nat) : (c.dropRd n).wide = c.wide := rfl
@[simp] theorem Chan.dropRd_xl (c : Chan) (n : Nat) : (c.dropRd n).xl = c.xl := rfl
@[simp] theorem Chan.dropRd_bring (c : Chan) (n : Nat) : (c.dropRd n).bring = c.bring := rfl
@[simp] theorem Chan.dropRd_bridges (c : Chan) (n : Nat) : (c.dropRd n).bridges = c.bridges := rfl
@[simp] theorem Chan.dropRd_upsets (c : Chan) (n : Nat) : (c.dropRd n).upsets = c.upsets := rfl
@[simp] theorem Chan.dropRd_evOut (c : Chan) (n : Nat) : (c.dropRd n).evOut = c.evOut := rfl
@[simp] theorem Chan.dropRd_occ (c : Chan) (n : Nat) : (c.dropRd n).occ = c.occ := rfl
@[simp] theorem Chan.dropRd_free (c : Chan) (n : Nat) : (c.dropRd n).free = c.free := rfl

@[simp] theorem Chan.push_img (c : Chan) (r : Rsp) : (c.push r).img = c.img := rfl
@[simp] theorem Chan.push_power (c : Chan) (r : Rsp) : (c.push r).power = c.power := rfl
@[simp] theorem Chan.push_pins (c : Chan) (r : Rsp) : (c.push r).pins = c.pins := rfl
@[simp] theorem Chan.push_lane (c : Chan) (r : Rsp) : (c.push r).lane = { c.lane with ready := c.lane.ready ++ [r] } := rfl
@[simp] theorem Chan.push_rq (c : Chan) (r : Rsp) : (c.push r).rq = c.rq := rfl
@[simp] theorem Chan.push_wq (c : Chan) (r : Rsp) : (c.push r).wq = c.wq := rfl
@[simp] theorem Chan.push_nextSeq (c : Chan) (r : Rsp) : (c.push r).nextSeq = c.nextSeq := rfl
@[simp] theorem Chan.push_commitOrd (c : Chan) (r : Rsp) : (c.push r).commitOrd = c.commitOrd := rfl
@[simp] theorem Chan.push_banks (c : Chan) (r : Rsp) : (c.push r).banks = c.banks := rfl
@[simp] theorem Chan.push_tail (c : Chan) (r : Rsp) : (c.push r).tail = c.tail := rfl
@[simp] theorem Chan.push_dclk (c : Chan) (r : Rsp) : (c.push r).dclk = c.dclk := rfl
@[simp] theorem Chan.push_kclk (c : Chan) (r : Rsp) : (c.push r).kclk = c.kclk := rfl
@[simp] theorem Chan.push_fab (c : Chan) (r : Rsp) : (c.push r).fab = c.fab := rfl
@[simp] theorem Chan.push_sched (c : Chan) (r : Rsp) : (c.push r).sched = c.sched := rfl
@[simp] theorem Chan.push_upk (c : Chan) (r : Rsp) : (c.push r).upk = c.upk := rfl
@[simp] theorem Chan.push_bal (c : Chan) (r : Rsp) : (c.push r).bal = c.bal := rfl
@[simp] theorem Chan.push_prot (c : Chan) (r : Rsp) : (c.push r).prot = c.prot := rfl
@[simp] theorem Chan.push_err (c : Chan) (r : Rsp) : (c.push r).err = c.err := rfl
@[simp] theorem Chan.push_th (c : Chan) (r : Rsp) : (c.push r).th = c.th := rfl
@[simp] theorem Chan.push_loft (c : Chan) (r : Rsp) : (c.push r).loft = c.loft := rfl
@[simp] theorem Chan.push_trim (c : Chan) (r : Rsp) : (c.push r).trim = c.trim := rfl
@[simp] theorem Chan.push_sb (c : Chan) (r : Rsp) : (c.push r).sb = c.sb := rfl
@[simp] theorem Chan.push_mbxIn (c : Chan) (r : Rsp) : (c.push r).mbxIn = c.mbxIn := rfl
@[simp] theorem Chan.push_mbxOut (c : Chan) (r : Rsp) : (c.push r).mbxOut = c.mbxOut := rfl
@[simp] theorem Chan.push_seqr (c : Chan) (r : Rsp) : (c.push r).seqr = c.seqr := rfl
@[simp] theorem Chan.push_cv (c : Chan) (r : Rsp) : (c.push r).cv = c.cv := rfl
@[simp] theorem Chan.push_cnt (c : Chan) (r : Rsp) : (c.push r).cnt = c.cnt := rfl
@[simp] theorem Chan.push_wide (c : Chan) (r : Rsp) : (c.push r).wide = c.wide := rfl
@[simp] theorem Chan.push_xl (c : Chan) (r : Rsp) : (c.push r).xl = c.xl := rfl
@[simp] theorem Chan.push_bring (c : Chan) (r : Rsp) : (c.push r).bring = c.bring := rfl
@[simp] theorem Chan.push_bridges (c : Chan) (r : Rsp) : (c.push r).bridges = c.bridges := rfl
@[simp] theorem Chan.push_upsets (c : Chan) (r : Rsp) : (c.push r).upsets = c.upsets := rfl
@[simp] theorem Chan.push_evOut (c : Chan) (r : Rsp) : (c.push r).evOut = c.evOut := rfl
@[simp] theorem Chan.push_occ (c : Chan) (r : Rsp) : (c.push r).occ = c.occ := rfl
@[simp] theorem Chan.push_free (c : Chan) (r : Rsp) : (c.push r).free = c.free := rfl

@[simp] theorem Chan.useTag_img (c : Chan) (t : Tag) : (c.useTag t).img = c.img := rfl
@[simp] theorem Chan.useTag_power (c : Chan) (t : Tag) : (c.useTag t).power = c.power := rfl
@[simp] theorem Chan.useTag_pins (c : Chan) (t : Tag) : (c.useTag t).pins = c.pins := rfl
@[simp] theorem Chan.useTag_lane (c : Chan) (t : Tag) : (c.useTag t).lane = { c.lane with inUse := c.lane.inUse ++ [t] } := rfl
@[simp] theorem Chan.useTag_rq (c : Chan) (t : Tag) : (c.useTag t).rq = c.rq := rfl
@[simp] theorem Chan.useTag_wq (c : Chan) (t : Tag) : (c.useTag t).wq = c.wq := rfl
@[simp] theorem Chan.useTag_nextSeq (c : Chan) (t : Tag) : (c.useTag t).nextSeq = c.nextSeq := rfl
@[simp] theorem Chan.useTag_commitOrd (c : Chan) (t : Tag) : (c.useTag t).commitOrd = c.commitOrd := rfl
@[simp] theorem Chan.useTag_banks (c : Chan) (t : Tag) : (c.useTag t).banks = c.banks := rfl
@[simp] theorem Chan.useTag_tail (c : Chan) (t : Tag) : (c.useTag t).tail = c.tail := rfl
@[simp] theorem Chan.useTag_dclk (c : Chan) (t : Tag) : (c.useTag t).dclk = c.dclk := rfl
@[simp] theorem Chan.useTag_kclk (c : Chan) (t : Tag) : (c.useTag t).kclk = c.kclk := rfl
@[simp] theorem Chan.useTag_fab (c : Chan) (t : Tag) : (c.useTag t).fab = c.fab := rfl
@[simp] theorem Chan.useTag_sched (c : Chan) (t : Tag) : (c.useTag t).sched = c.sched := rfl
@[simp] theorem Chan.useTag_upk (c : Chan) (t : Tag) : (c.useTag t).upk = c.upk := rfl
@[simp] theorem Chan.useTag_bal (c : Chan) (t : Tag) : (c.useTag t).bal = c.bal := rfl
@[simp] theorem Chan.useTag_prot (c : Chan) (t : Tag) : (c.useTag t).prot = c.prot := rfl
@[simp] theorem Chan.useTag_err (c : Chan) (t : Tag) : (c.useTag t).err = c.err := rfl
@[simp] theorem Chan.useTag_th (c : Chan) (t : Tag) : (c.useTag t).th = c.th := rfl
@[simp] theorem Chan.useTag_loft (c : Chan) (t : Tag) : (c.useTag t).loft = c.loft := rfl
@[simp] theorem Chan.useTag_trim (c : Chan) (t : Tag) : (c.useTag t).trim = c.trim := rfl
@[simp] theorem Chan.useTag_sb (c : Chan) (t : Tag) : (c.useTag t).sb = c.sb := rfl
@[simp] theorem Chan.useTag_mbxIn (c : Chan) (t : Tag) : (c.useTag t).mbxIn = c.mbxIn := rfl
@[simp] theorem Chan.useTag_mbxOut (c : Chan) (t : Tag) : (c.useTag t).mbxOut = c.mbxOut := rfl
@[simp] theorem Chan.useTag_seqr (c : Chan) (t : Tag) : (c.useTag t).seqr = c.seqr := rfl
@[simp] theorem Chan.useTag_cv (c : Chan) (t : Tag) : (c.useTag t).cv = c.cv := rfl
@[simp] theorem Chan.useTag_cnt (c : Chan) (t : Tag) : (c.useTag t).cnt = c.cnt := rfl
@[simp] theorem Chan.useTag_wide (c : Chan) (t : Tag) : (c.useTag t).wide = c.wide := rfl
@[simp] theorem Chan.useTag_xl (c : Chan) (t : Tag) : (c.useTag t).xl = c.xl := rfl
@[simp] theorem Chan.useTag_bring (c : Chan) (t : Tag) : (c.useTag t).bring = c.bring := rfl
@[simp] theorem Chan.useTag_bridges (c : Chan) (t : Tag) : (c.useTag t).bridges = c.bridges := rfl
@[simp] theorem Chan.useTag_upsets (c : Chan) (t : Tag) : (c.useTag t).upsets = c.upsets := rfl
@[simp] theorem Chan.useTag_evOut (c : Chan) (t : Tag) : (c.useTag t).evOut = c.evOut := rfl
@[simp] theorem Chan.useTag_occ (c : Chan) (t : Tag) : (c.useTag t).occ = c.occ := rfl
@[simp] theorem Chan.useTag_free (c : Chan) (t : Tag) : (c.useTag t).free = c.free := rfl

end Sys2Proof.Machine
end

