-- ==== Sys2Proof/Laws/Ops.lean ====
section
/-! SUPPORT. What each shared operation over the state can do: channels, events, one channel's command, and a transaction
of the management lane. -/
namespace Sys2Proof.Machine

/-! ### Channels -/

@[simp] theorem State.chan_setChan_self (s : State) (ch : ChanId) (c : Chan) : (s.setChan ch c).chan ch = c := by
  simp [State.chan, State.setChan, Vector.get_eq_getElem]

theorem State.chan_setChan_ne (s : State) {ch k : ChanId} (c : Chan) (h : k ≠ ch) :
    (s.setChan ch c).chan k = s.chan k := by
  have hv : ch.val ≠ k.val := fun e => h (Fin.ext e.symm)
  simp only [State.chan, State.setChan, Vector.get_eq_getElem]
  exact Vector.getElem_set_ne _ _ hv

@[simp] theorem State.chan_respond (s : State) (e : Bool) (w : Word) (ch : ChanId) :
    (s.respond e w).chan ch = s.chan ch := rfl

@[simp] theorem State.chan_blkCount (s : State) (a n : Nat) (ch : ChanId) : (s.blkCount a n).chan ch = s.chan ch := rfl

theorem State.setChan_self (s : State) (ch : ChanId) : s.setChan ch (s.chan ch) = s := by
  cases s
  simp [State.setChan, State.chan, Vector.get_eq_getElem]

/-! ### Events -/

/-- The fields that an event, or anything that only raises events, leaves alone: all but the event queue and the block's
counters. -/
def SameButEv (s t : State) : Prop :=
  t.pending = s.pending ∧ t.chans = s.chans ∧ t.img = s.img ∧ t.loader = s.loader ∧ t.lvl = s.lvl ∧ t.wide = s.wide ∧
    t.mgt = s.mgt ∧ t.rst = s.rst ∧ t.tsBase = s.tsBase ∧ t.now = s.now ∧ t.rclk = s.rclk ∧ t.winNext = s.winNext

theorem SameButEv.refl (s : State) : SameButEv s s := by simp [SameButEv]

theorem SameButEv.trans {s t u : State} (h : SameButEv s t) (g : SameButEv t u) : SameButEv s u := by
  simp_all [SameButEv]

theorem State.raise_same (s : State) (ident word dflt info : Nat) (chan : Option Nat) (fatal : Bool) :
    SameButEv s (s.raise ident word dflt info chan fatal) := by
  unfold State.raise
  split
  · exact .refl s
  · dsimp only [State.countRaised]
    split <;> exact ⟨rfl, rfl, rfl, rfl, rfl, rfl, rfl, rfl, rfl, rfl, rfl, rfl⟩

theorem State.raiseChan_same (s : State) (ch : ChanId) (loc info : Nat) : SameButEv s (s.raiseChan ch loc info) := by
  unfold State.raiseChan
  split
  · exact .refl s
  · exact State.raise_same ..

theorem State.raiseBlk_same (s : State) (ident dflt info : Nat) : SameButEv s (s.raiseBlk ident dflt info) := by
  unfold State.raiseBlk
  split
  · exact .refl s
  · exact State.raise_same ..

theorem raiseAll_same (ch : ChanId) (l : List EvReq) (s : State) :
    SameButEv s (l.foldl (fun t e => t.raiseChan ch e.loc e.info) s) := by
  induction l generalizing s with
  | nil => exact .refl s
  | cons a l ih => exact (State.raiseChan_same s ch a.loc a.info).trans (ih _)

theorem SameButEv.chan {s t : State} (h : SameButEv s t) (ch : ChanId) : t.chan ch = s.chan ch := by
  simp [State.chan, h.2.1]

/-! ### One channel's command -/

@[simp] theorem Chan.events_nil {c : Chan} (h : c.evOut = []) : c.events = [] := by simp [Chan.events, h, sortBy]

theorem Chan.gatherOcc_nil {c : Chan} (h : c.occ = []) : c.gatherOcc = c := by
  cases c
  simp_all [Chan.gatherOcc]

theorem gatherBlk_nil {ch : ChanId} {c : Chan} {k : Counters} (h : c.occ = []) : gatherBlk ch c k = k := by
  unfold gatherBlk
  split <;> simp [h]

/-- `gatherOcc` changes the performance counters only. -/
theorem Chan.gatherOcc_eq (c : Chan) : ∃ k, c.gatherOcc = { c with cnt := k } := by
  unfold Chan.gatherOcc
  split
  · exact ⟨_, rfl⟩
  · exact ⟨c.cnt, rfl⟩

theorem State.repairDone_of_ne {s : State} {ch : ChanId} {c : Chan} (h : s.mgt.repair ≠ some ch) : s.repairDone ch c = s := by
  simp [State.repairDone, h]

/-- What storing a channel changes of the rest of the block, while no REPAIR of it is waited for. -/
theorem State.commitChan_became {s : State} {ch : ChanId} {c : Chan} (h : s.mgt.repair ≠ some ch) :
    Became ch s (s.commitChan ch c) c := by
  obtain ⟨k, hk⟩ := c.gatherOcc_eq
  have hs := raiseAll_same ch c.events
    (({ s with cnt := gatherBlk ch c s.cnt } : State).setChan ch { c.gatherOcc with evOut := [], occ := [] })
  have hm := hs.2.2.2.2.2.2.1
  have hr : s.commitChan ch c = c.events.foldl (fun t e => t.raiseChan ch e.loc e.info)
      (({ s with cnt := gatherBlk ch c s.cnt } : State).setChan ch { c.gatherOcc with evOut := [], occ := [] }) := by
    unfold State.commitChan
    exact State.repairDone_of_ne (by rw [hm]; simpa using h)
  rw [hr]
  refine ⟨⟨fun j hj => ?_, ?_⟩, k, ?_⟩
  · rw [hs.chan, State.chan_setChan_ne _ _ hj]; rfl
  · have := hs
    simp only [SameButEv, State.setChan_pending, State.setChan_img, State.setChan_loader, State.setChan_lvl,
      State.setChan_wide, State.setChan_mgt, State.setChan_rst, State.setChan_tsBase, State.setChan_now,
      State.setChan_rclk, State.setChan_winNext] at this
    simp_all
  · rw [hs.chan, State.chan_setChan_self, hk]

/-- One command of a channel at rest. -/
theorem State.onChan_became {s : State} {ch : ChanId} (h : s.Rest ch) (f : Env → Chan → Chan) :
    Became ch s (s.onChan ch f) (f s.env (s.chan ch)) :=
  State.commitChan_became h.2.2

/-- A command that raises no event and logs no occurrence stores its channel, and nothing else changes. -/
theorem State.onChan_silent {s : State} {ch : ChanId} {f : Env → Chan → Chan} (h : s.Rest ch)
    (he : (f s.env (s.chan ch)).evOut = []) (ho : (f s.env (s.chan ch)).occ = []) :
    s.onChan ch f = s.setChan ch (f s.env (s.chan ch)) := by
  unfold State.onChan State.commitChan
  rw [gatherBlk_nil ho, Chan.gatherOcc_nil ho, Chan.events_nil he]
  dsimp only [List.foldl_nil]
  rw [State.repairDone_of_ne (by simpa using h.2.2)]
  cases hc : f s.env (s.chan ch)
  simp_all

/-- A command that changes nothing of its channel changes nothing. -/
theorem State.onChan_id {s : State} {ch : ChanId} {f : Env → Chan → Chan} (h : s.Rest ch)
    (hf : f s.env (s.chan ch) = s.chan ch) : s.onChan ch f = s := by
  rw [State.onChan_silent h (by rw [hf]; exact h.1) (by rw [hf]; exact h.2.1), hf, State.setChan_self]

/-! ### The management lane -/

theorem mgtDo_takes {s : State} {t : MgtTxn} {eff : State → State × Word} (h : s.Takes t) :
    mgtDo t eff s = .next ((eff s).1.respond false (eff s).2) := by
  simp [mgtDo, h.1, h.2]

theorem mgtWrite_takes {s : State} {p : Page} {off : Nat} {w : Word} {eff : State → State} (h : s.Takes (wrTxn p off w)) :
    mgtWrite p off w eff s = .next ((eff s).respond false 0) :=
  mgtDo_takes h

theorem mgtRead_takes {s : State} {p : Page} {off : Nat} {eff : State → State × Word} (h : s.Takes (rdTxn p off)) :
    mgtRead p off eff s = .next ((eff s).1.respond false (eff s).2) :=
  mgtDo_takes h

theorem mgtTxn_takes {s : State} {t : MgtTxn} (h : s.Takes t) : mgtTxn t s = .next (s.regTxn t) := by
  simp [mgtTxn, h.1, h.2]

/-- A management transaction is answered with a next state unless another is outstanding (R113). -/
theorem mgtDo_next {s : State} {t : MgtTxn} {eff : State → State × Word} {r : State} (h : mgtDo t eff s = .next r) :
    (mgtHeld s t = true ∧ r = { s with mgt := { s.mgt with held := some t, rspV := false } }) ∨
      (mgtHeld s t = false ∧ r = (eff s).1.respond false (eff s).2) := by
  unfold mgtDo at h
  split at h
  · cases h
  · cases hh : mgtHeld s t <;> simp_all

/-! ### A step -/

/-- A step on a waiting command is that command's meaning on the state with the queue's rest. -/
theorem step_front (s : State) (c : Instr) (cs : List Instr) :
    step { s with pending := c :: cs } = exec c { s with pending := cs } := rfl

/-! ### Lists -/

theorem updateWhere_twice {α : Type} (p : α → Bool) (f g : α → α) (l : List α) (h : ∀ y, p (f y) = p y) :
    updateWhere p g (updateWhere p f l) = updateWhere p (fun y => g (f y)) l := by
  unfold updateWhere
  rw [List.map_map]
  apply List.map_congr_left
  intro a _
  dsimp only [Function.comp]
  by_cases hp : p a = true
  · simp [hp, h]
  · simp [hp]

end Sys2Proof.Machine
end

