-- ==== Sys2Proof/Laws/Frame.lean ====
section
/-! SUPPORT. What every operation of the common keeps: the queue of commands, the REFCLK count, the image in force, and the
invariant of the event queue and the block's counters. -/
namespace Sys2Proof.Machine

/-! ### The event queue -/

theorem satAdd_le (m a b : Nat) : satAdd m a b ≤ m := by unfold satAdd; split <;> omega

theorem Events.Sound.stick {e : Events} (h : e.Sound) (n b : Nat) : (e.stick n b).Sound :=
  { h with sticky := by simp [Events.stick, updateAt, h.sticky] }

theorem Events.Sound.mark {e : Events} (h : e.Sound) (sev : Nat) (chan : Option Nat) (fatal : Bool)
    (hf : fatal = true → sev = 4) : (e.mark sev chan fatal).Sound := by
  have h1 : (if sev = 4 then { e with fatal := true } else e : Events).Sound := by
    split
    · exact { h with fatal := fun _ => rfl }
    · exact h
  have h2 : sev = 4 → (if sev = 4 then { e with fatal := true } else e : Events).fatal = true := by
    intro hs; simp [hs]
  unfold Events.mark
  cases chan with
  | none => exact h1
  | some n =>
    dsimp only
    split
    · next hfat => exact { h1.stick n _ with fatal := fun _ => h2 (hf hfat) }
    · exact h1.stick n _

theorem Events.Sound.loseRec {e : Events} (h : e.Sound) (r : Record) : (e.loseRec r).Sound := by
  have h1 : ({ e with dropped := satAdd 0xFFFF e.dropped 1 } : Events).Sound := { h with dropped := satAdd_le .. }
  unfold Events.loseRec
  dsimp only
  split
  · exact h1.stick _ _
  · exact h1

theorem Events.Sound.swap {e : Events} (h : e.Sound) (hd : e.drained = true) : e.swap.Sound := by
  have hl : e.latched = none := by
    simp [Events.drained] at hd; exact hd.2
  have hn : e.draining = [] := by
    simp [Events.drained] at hd; exact hd.1
  exact { h with
    filling := by simp [Events.swap]
    draining := by simpa [Events.swap, hl] using h.filling
    severity := by
      intro r hr
      refine h.severity r ?_
      simp [Events.swap, hl, hn] at hr ⊢
      exact hr }

theorem mem_dropNewest {sev : Nat} {l : List Record} {r : Record} (h : r ∈ dropNewest sev l) : r ∈ l := by
  simp only [dropNewest, List.mem_reverse, List.mem_append] at h
  rcases h with h | h
  · exact List.mem_reverse.1 ((List.takeWhile_sublist _).mem h)
  · exact List.mem_reverse.1 ((List.dropWhile_sublist _).mem (List.mem_of_mem_drop h))

theorem length_dropNewest_lt {sev : Nat} {l : List Record} {v : Record}
    (h : l.reverse.find? (fun x => x.sev == sev) = some v) : (dropNewest sev l).length < l.length := by
  have h1 := congrArg List.length (List.takeWhile_append_dropWhile (p := fun x : Record => x.sev ≠ sev) (l := l.reverse))
  have h2 : 0 < (l.reverse.dropWhile fun x => x.sev ≠ sev).length := by
    refine List.length_pos_iff.2 fun hn => ?_
    have hall := List.dropWhile_eq_nil_iff.1 hn
    have hv := List.find?_some h
    have hm := List.mem_of_find?_eq_some h
    have := hall v hm
    simp at hv this
    exact this hv
  simp only [List.length_append, List.length_reverse] at h1
  simp only [dropNewest, List.length_reverse, List.length_append, List.length_drop]
  omega

theorem Events.Sound.enqueue {e : Events} (h : e.Sound) {r : Record} (hr : r.sev ≤ 4) : (e.enqueue r).1.Sound := by
  have hsw : (if 64 ≤ e.filling.length && e.drained then e.swap else e).Sound := by
    split
    · next hc => exact h.swap (by simp_all)
    · exact h
  unfold Events.enqueue
  dsimp only
  revert hsw
  generalize (if 64 ≤ e.filling.length && e.drained then e.swap else e) = e1
  intro h1
  split
  · next hlt =>
    have h2 : ({ e1 with filling := e1.filling ++ [r] } : Events).Sound :=
      { h1 with
        filling := by simp; omega
        severity := by
          intro x hx
          have := h1.severity x
          simp at hx this
          rcases hx with hx | hx | hx | hx
          · exact this (.inl hx)
          · rw [hx]; exact hr
          · exact this (.inr (.inl hx))
          · exact this (.inr (.inr hx)) }
    dsimp only
    split
    · next hc => exact h2.swap (by simp_all)
    · exact h2
  · split
    · split
      · next victim hv =>
        refine Events.Sound.loseRec ?_ _
        have hl := length_dropNewest_lt hv
        exact { h1 with
          filling := by have := h1.filling; simp; omega
          severity := by
            intro x hx
            have := h1.severity x
            simp at hx this
            rcases hx with hx | hx | hx | hx
            · exact this (.inl (mem_dropNewest hx))
            · rw [hx]; exact hr
            · exact this (.inr (.inl hx))
            · exact this (.inr (.inr hx)) }
      · exact h1.loseRec r
    · exact h1.loseRec r

theorem leastBy_mem {α : Type} {key : α → Nat} {l : List α} {x : α} (h : leastBy key l = some x) : x ∈ l := by
  induction l generalizing x with
  | nil => simp [leastBy] at h
  | cons a l ih =>
    simp only [leastBy] at h
    split at h
    · simp_all
    · next y hy =>
      split at h
      · simp_all
      · simp_all

theorem Events.Sound.readLo {e : Events} (h : e.Sound) : e.readLo.1.Sound := by
  unfold Events.readLo
  split
  · exact h
  · next hl =>
    split
    · next r hr =>
      have hm : r ∈ e.draining := leastBy_mem hr
      have hd := h.draining
      have hlen := List.length_erase_of_mem hm
      have hpos := List.length_pos_of_mem hm
      exact { h with
        draining := by simp [hl] at hd ⊢; omega
        severity := by
          intro x hx
          refine h.severity x ?_
          simp [hl] at hx ⊢
          rcases hx with hx | hx | hx
          · exact .inl hx
          · exact .inr (List.mem_of_mem_erase hx)
          · exact .inr (hx ▸ hm) }
    · exact h

theorem Events.Sound.readHi {e : Events} (h : e.Sound) : e.readHi.1.Sound := by
  unfold Events.readHi
  split
  · next r hl =>
    exact { h with
      draining := by have := h.draining; simp [hl] at this ⊢; omega
      severity := by
        intro x hx
        refine h.severity x ?_
        simp at hx ⊢
        rcases hx with hx | hx
        · exact .inl hx
        · exact .inr (.inl hx) }
  · next hl =>
    split
    · next r hr =>
      have hlen := List.length_erase_le (a := r) (l := e.draining)
      exact { h with
        draining := by have := h.draining; simp [hl] at this ⊢; omega
        severity := by
          intro x hx
          refine h.severity x ?_
          simp [hl] at hx ⊢
          rcases hx with hx | hx
          · exact .inl hx
          · exact .inr (List.mem_of_mem_erase hx) }
    · exact h

theorem Events.Sound.readSticky {e : Events} (h : e.Sound) (n : Nat) : (e.readSticky n).1.Sound :=
  { h with sticky := by simp [Events.readSticky, updateAt, h.sticky] }

theorem Events.Sound.flush {e : Events} (h : e.Sound) : e.flush.Sound :=
  { h with filling := by simp [Events.flush], draining := by simp [Events.flush], severity := by simp [Events.flush] }

theorem Events.Sound.clrFatal {e : Events} (h : e.Sound) : e.clrFatal.Sound :=
  { h with fatal := by simp [Events.clrFatal] }

theorem Events.Sound.swapEdge {e : Events} (h : e.Sound) : e.swapEdge.Sound := by
  unfold Events.swapEdge
  split
  · next hc => exact h.swap (by simp_all)
  · exact h

/-- A record that a source raises carries a severity of at most S4; that of a fatal event is S4. -/
theorem routeOf_sev {word dflt sev route : Nat} (h : routeOf word dflt = some (sev, route)) (hd : dflt ≤ 4) :
    sev ≤ 4 ∧ (dflt = 4 → sev = 4) := by
  unfold routeOf at h
  split at h
  · cases h
  · simp only [Option.some.injEq, Prod.mk.injEq] at h
    obtain ⟨h, -⟩ := h
    subst h
    constructor
    · split <;> omega
    · intro hd4
      simp [hd4]

theorem chanSeverity_le (loc : Nat) : chanSeverity loc ≤ 4 := by
  unfold chanSeverity
  repeat' split
  all_goals omega

theorem chanSeverity_fatal {loc : Nat} (h : isFatal loc = true) : chanSeverity loc = 4 := by
  simp [isFatal] at h
  unfold chanSeverity
  repeat' split
  all_goals omega

/-! ### The block's counters -/

theorem Counters.Sound.update {n : Nat} {k : Counters} (h : k.Sound n) (p : Counter → Bool) {f : Counter → Counter}
    (hf : ∀ c, (f c).value = c.value) : ({ k with cs := updateWhere p f k.cs } : Counters).Sound n :=
  { h with
    count := by simp [updateWhere, h.count]
    width := by
      intro c hc
      simp only [updateWhere, List.mem_map] at hc
      obtain ⟨d, hd, rfl⟩ := hc
      have := h.width d hd
      split
      · rw [hf]; exact this
      · exact this }

theorem Counters.Sound.gather {n : Nat} {k : Counters} (h : k.Sound n) (r : Counters) (p : Counter → Bool) (o : Occ) :
    (k.gather r p o).Sound n := h.update _ fun _ => rfl

theorem Counters.Sound.gatherBlk {n : Nat} {k : Counters} (h : k.Sound n) (ch : ChanId) (c : Chan) :
    (gatherBlk ch c k).Sound n := by
  unfold Machine.gatherBlk
  split
  · generalize c.occ = l
    induction l generalizing k with
    | nil => exact h
    | cons o l ih => exact ih (h.gather _ _ o)
  · exact h

theorem State.Sound.blkCount {s : State} (h : s.Sound) (a n : Nat) : (s.blkCount a n).Sound :=
  ⟨h.1, h.2.update _ fun _ => rfl⟩

theorem Counters.Sound.edge {n : Nat} {k : Counters} (h : k.Sound n) : k.edge.1.Sound n :=
  { h with
    count := by simp [Counters.edge, h.count]
    load := by simp [Counters.edge]
    width := by
      intro c hc
      simp only [Counters.edge, List.map_map, List.mem_map] at hc
      obtain ⟨p, -, rfl⟩ := hc
      simp only [Function.comp, Counter.edge]
      cases hf : (k.load.reverse.find? fun l => l.1 == p.1) with
      | none => simpa using Nat.mod_lt _ (by decide)
      | some l => simpa using h.load l (by simpa using List.mem_of_find?_eq_some hf) }

theorem Counters.Sound.whi {n : Nat} {k : Counters} (h : k.Sound n) (w : Word) : (k.whi w).Sound n :=
  { h with
    load := by
      intro l hl
      simp only [Counters.whi, List.mem_append, List.mem_singleton] at hl
      rcases hl with hl | rfl
      · exact h.load l hl
      · have h1 := h.low
        have h2 : bitsAt w.toNat 0 16 < 2 ^ 16 := by simpa [bitsAt] using Nat.mod_lt _ (by decide)
        show bitsAt w.toNat 0 16 * 2 ^ 32 + k.wlo < 2 ^ 48
        omega }

theorem Counters.Sound.ctl {n : Nat} {k : Counters} (h : k.Sound n) (w : Word) : (k.ctl w).Sound n :=
  { h with
    count := by simp [Counters.ctl, h.count]
    width := by
      intro c hc
      simp only [Counters.ctl, List.mem_map] at hc
      obtain ⟨p, hp, rfl⟩ := hc
      have := h.width p.2 (List.of_mem_zip hp).2
      split <;> exact this }

theorem Counters.Sound.modAt {n : Nat} {k : Counters} (h : k.Sound n) (i : Nat) {f : Counter → Counter}
    (hf : ∀ c, (f c).value = c.value) : (k.modAt i f).Sound n :=
  { h with
    count := by simp [Counters.modAt, updateAt, h.count]
    width := by
      intro c hc
      simp only [Counters.modAt, updateAt] at hc
      obtain ⟨j, hj, rfl⟩ := List.getElem_of_mem hc
      rw [List.getElem_modify]
      split
      · rw [hf]; exact h.width _ (List.getElem_mem _)
      · exact h.width _ (List.getElem_mem _) }

end Sys2Proof.Machine
end

