-- ==== Sys2Proof/Laws/Common.lean ====
section
/-! SUPPORT. The operations of the common, each with what it keeps: the queue of commands, the REFCLK count, the image in
force, and the invariant. -/
namespace Sys2Proof.Machine

/-- An operation went from `s` to `t`, kept the queue, the REFCLK count and the image in force, and kept the invariant. -/
structure Kept (s t : State) : Prop where
  pending : t.pending = s.pending
  now : t.now = s.now
  img : t.img = s.img
  sound : s.Sound → t.Sound
  quiet : s.Quiet → t.Quiet

theorem Kept.refl (s : State) : Kept s s := ⟨rfl, rfl, rfl, id, id⟩

theorem Kept.trans {s t u : State} (h : Kept s t) (g : Kept t u) : Kept s u :=
  ⟨g.pending.trans h.pending, g.now.trans h.now, g.img.trans h.img, g.sound ∘ h.sound, g.quiet ∘ h.quiet⟩

/-- A change of anything but the queue, the REFCLK count, the image, the event queue and the counters. -/
theorem Kept.of_eq {s t : State} (h1 : t.pending = s.pending) (h2 : t.now = s.now) (h3 : t.img = s.img)
    (h4 : t.ev = s.ev) (h5 : t.cnt = s.cnt) (h6 : t.chans = s.chans) : Kept s t :=
  ⟨h1, h2, h3, fun h => by unfold State.Sound at *; rw [h4, h5]; exact h,
    fun h ch => by have := h ch; unfold State.chan at *; rw [h6]; exact this⟩

theorem Kept.ev {s : State} {e : Events} (h : s.ev.Sound → e.Sound) : Kept s { s with ev := e } :=
  ⟨rfl, rfl, rfl, fun g => ⟨h g.1, g.2⟩, id⟩

theorem Kept.cnt {s : State} {k : Counters} (h : s.cnt.Sound 8 → k.Sound 8) : Kept s { s with cnt := k } :=
  ⟨rfl, rfl, rfl, fun g => ⟨g.1, h g.2⟩, id⟩

theorem State.setChan_kept (s : State) (ch : ChanId) {c : Chan} (h : (s.chan ch).Quiet → c.Quiet) : Kept s (s.setChan ch c) :=
  ⟨rfl, rfl, rfl, id, fun hq k => by
    by_cases hk : k = ch
    · subst hk
      rw [State.chan_setChan_self]
      exact h (hq k)
    · rw [State.chan_setChan_ne _ _ hk]
      exact hq k⟩

theorem State.blkCount_kept (s : State) (a n : Nat) : Kept s (s.blkCount a n) := ⟨rfl, rfl, rfl, fun h => h.blkCount a n, id⟩

theorem State.mgtSet_kept (s : State) (m : Mgt) : Kept s { s with mgt := m } := .of_eq rfl rfl rfl rfl rfl rfl

theorem State.rstSet_kept (s : State) (r : ResetCtl) : Kept s { s with rst := r } := .of_eq rfl rfl rfl rfl rfl rfl

theorem State.respond_kept (s : State) (e : Bool) (w : Word) : Kept s (s.respond e w) :=
  (State.mgtSet_kept _ _).trans (State.blkCount_kept _ _ _)

theorem Kept.fold {α : Type} (f : State → α → State) (h : ∀ s a, Kept s (f s a)) (l : List α) (s : State) :
    Kept s (l.foldl f s) := by
  induction l generalizing s with
  | nil => exact .refl s
  | cons a l ih => exact (h s a).trans (ih _)

theorem State.raise_kept (s : State) (ident : Nat) {word dflt : Nat} (info : Nat) (chan : Option Nat) {fatal : Bool}
    (hd : dflt ≤ 4) (hf : fatal = true → dflt = 4) : Kept s (s.raise ident word dflt info chan fatal) := by
  unfold State.raise
  split
  · exact .refl s
  · next sev route hr =>
    have hs := routeOf_sev hr hd
    dsimp only
    refine Kept.trans (t := { s with ev := ((s.ev.mark sev chan fatal).enqueue
      { ident := ident, sev := sev, time := s.us, info := info % 2 ^ 19, route := route }).1 })
      (Kept.ev fun he => (he.mark sev chan fatal fun h => hs.2 (hf h)).enqueue hs.1) ?_
    unfold State.countRaised
    split
    · exact State.blkCount_kept _ _ _
    · exact (State.blkCount_kept _ _ _).trans (State.blkCount_kept _ _ _)

theorem State.raiseChan_kept (s : State) (ch : ChanId) (loc info : Nat) : Kept s (s.raiseChan ch loc info) := by
  unfold State.raiseChan
  split
  · exact .refl s
  · exact State.raise_kept _ _ _ _ (chanSeverity_le loc) chanSeverity_fatal

theorem State.raiseBlk_kept (s : State) (ident : Nat) {dflt : Nat} (info : Nat) (h : dflt ≤ 4) :
    Kept s (s.raiseBlk ident dflt info) := by
  unfold State.raiseBlk
  split
  · exact .refl s
  · exact State.raise_kept _ _ _ _ h (by simp)

theorem State.repairDone_kept (s : State) (ch : ChanId) (c : Chan) : Kept s (s.repairDone ch c) := by
  unfold State.repairDone
  split
  · exact (State.mgtSet_kept _ _).trans (State.respond_kept _ _ _)
  · exact .refl s

theorem State.commitChan_kept (s : State) (ch : ChanId) (c : Chan) : Kept s (s.commitChan ch c) := by
  unfold State.commitChan
  exact (((Kept.cnt fun h => h.gatherBlk ch c).trans (State.setChan_kept _ _ fun _ => ⟨rfl, rfl⟩)).trans
    (Kept.fold _ (fun s (e : EvReq) => State.raiseChan_kept s ch e.loc e.info) _ _)).trans (State.repairDone_kept _ _ _)

theorem State.onChan_kept (s : State) (ch : ChanId) (f : Env → Chan → Chan) : Kept s (s.onChan ch f) :=
  State.commitChan_kept _ _ _

theorem State.onChans_kept (s : State) (chs : List ChanId) (f : Env → Chan → Chan) : Kept s (s.onChans chs f) :=
  Kept.fold _ (fun s ch => State.onChan_kept s ch f) _ _

/-! ### The loader -/

theorem State.loadEnds_kept (s : State) (chs : List ChanId) : Kept s (s.loadEnds chs) := by
  unfold State.loadEnds
  split
  · exact .refl s
  · exact State.onChans_kept _ _ _

theorem State.trussDone_kept (was : LoadState) (s : State) : Kept s (s.trussDone was) := by
  unfold State.trussDone
  split
  · exact State.raiseBlk_kept _ _ _ (by decide)
  · split
    · exact State.raiseBlk_kept _ _ _ (by decide)
    · exact .refl s

theorem State.withLoader_kept (l : Loader) (s : State) : Kept s (s.withLoader l) :=
  (((Kept.of_eq rfl rfl rfl rfl rfl rfl : Kept s { s with loader := l }).trans (State.loadEnds_kept _ _)).trans
    (State.trussDone_kept _ _)).trans (State.loadEnds_kept _ _)

theorem State.trussCtl_kept (w : Word) (s : State) : Kept s (s.trussCtl w) := State.withLoader_kept _ _

theorem State.loadWindow_kept (i : Nat) (w : Word) (s : State) : Kept s (s.loadWindow i w) := by
  unfold State.loadWindow
  split
  · exact State.withLoader_kept _ _
  · exact .of_eq rfl rfl rfl rfl rfl rfl

/-! ### An RCLK edge -/

theorem State.takeWide_kept (s : State) : Kept s s.takeWide :=
  ⟨rfl, rfl, rfl, id, fun h ch => by simpa [State.takeWide, State.chan, Vector.get_eq_getElem, Chan.Quiet] using h ch⟩

theorem State.blkCounterEdge_kept (s : State) : Kept s s.blkCounterEdge :=
  (Kept.cnt fun h => h.edge).trans (Kept.fold _ (fun s i => State.raiseBlk_kept s _ i (by decide)) _ _)

theorem State.rclkEdge_kept (s : State) : Kept s s.rclkEdge := by
  unfold State.rclkEdge
  refine Kept.trans (.of_eq rfl rfl rfl rfl rfl rfl : Kept s { s with rclk := s.rclk + 1 }) ?_
  refine Kept.trans (t := if s.lvl.ripReq then ({ s with rclk := s.rclk + 1 } : State).blkCount 0xC5 1 else { s with rclk := s.rclk + 1 }) ?_ ?_
  · split
    · exact State.blkCount_kept _ _ _
    · exact .refl _
  · exact (((State.onChan_kept _ _ _).trans (State.blkCounterEdge_kept _)).trans (State.onChans_kept _ _ _)).trans
      (State.takeWide_kept _)

/-! ### Levels and the ripcord -/

/-- A change of the level record alone. -/
theorem Kept.lvl (s : State) (l : Levels) : Kept s { s with lvl := l } := .of_eq rfl rfl rfl rfl rfl rfl

theorem State.plevelDone_kept (s : State) (old : Nat) : Kept s (s.plevelDone old) := State.raiseBlk_kept _ _ _ (by decide)

theorem State.levelDone_kept (i : BlkImg) (b : Nat) (s : State) : Kept s (s.levelDone i b) := by
  unfold State.levelDone
  exact ((Kept.lvl _ _).trans (State.plevelDone_kept _ _)).trans (State.blkCount_kept _ _ _)

theorem State.avsStage_kept (i : BlkImg) (b : Nat) (s : State) : Kept s (s.avsStage i b) := by
  unfold State.avsStage
  split
  · exact .lvl _ _
  · exact State.levelDone_kept _ _ _

theorem State.startLevel_kept (i : BlkImg) (b : Nat) (s : State) : Kept s (s.startLevel i b) := by
  unfold State.startLevel
  refine Kept.trans (Kept.lvl s { s.lvl with fail := false, noset := false, started := s.now }) ?_
  dsimp only
  split
  · exact State.avsStage_kept _ _ _
  · split
    · exact (Kept.lvl _ _).trans (State.onChans_kept _ _ _)
    · exact ((Kept.fold _ (fun (s : State) (ch : ChanId) =>
        State.setChan_kept s ch (c := { s.chan ch with trim := { (s.chan ch).trim with noset := true } }) id) _ _).trans (Kept.lvl _ _)).trans
        (State.plevelDone_kept _ _)

theorem State.levelGo_kept (b : Nat) (s : State) : Kept s (s.levelGo b) := by
  unfold State.levelGo
  split
  · exact .refl s
  · split
    · exact .lvl _ _
    · exact State.startLevel_kept _ _ _

theorem State.plevelCtl_kept (w : Word) (s : State) : Kept s (s.plevelCtl w) := by
  unfold State.plevelCtl
  refine Kept.trans (Kept.lvl s { s.lvl with target := bitsAt w.toNat 0 2 }) ?_
  dsimp only
  split
  · exact State.levelGo_kept _ _
  · exact .refl _

theorem State.pendLevel_kept (i : BlkImg) (s : State) : Kept s (s.pendLevel i) := by
  unfold State.pendLevel
  split
  · exact .refl s
  · dsimp only
    split
    · exact .lvl _ _
    · exact (Kept.lvl _ _).trans (State.startLevel_kept _ _ _)

theorem State.clampReached_kept (s : State) : Kept s s.clampReached := by
  unfold State.clampReached
  split
  · split
    · dsimp only
      split
      · exact (State.avsStage_kept _ _ _).trans (State.pendLevel_kept _ _)
      · exact State.avsStage_kept _ _ _
    · exact .refl s
  · exact .refl s

theorem State.avsAck_kept (s : State) : Kept s s.avsAck := by
  unfold State.avsAck
  split
  · exact .lvl _ _
  · exact .refl s

theorem State.avsTimeout_kept (e : Bool) (s : State) : Kept s (s.avsTimeout e) := by
  unfold State.avsTimeout
  split
  · split
    · exact .refl s
    · dsimp only
      split
      · exact (((((Kept.lvl _ _).trans (State.raiseBlk_kept _ _ _ (by decide))).trans (Kept.lvl _ _)).trans
          (State.plevelDone_kept _ _)).trans (State.blkCount_kept _ _ _)).trans (State.pendLevel_kept _ _)
      · exact (Kept.lvl _ _).trans (Kept.lvl _ _)
  · exact .refl s

theorem State.settled_kept (s : State) : Kept s s.settled := by
  unfold State.settled
  split
  · split
    · exact .refl s
    · exact (State.levelDone_kept _ _ _).trans (State.pendLevel_kept _ _)
  · exact .refl s

theorem State.ripRise_kept (s : State) : Kept s s.ripRise := by
  unfold State.ripRise
  split
  · exact .refl s
  · exact (Kept.lvl _ _).trans (State.onChans_kept _ _ _)

theorem State.ripAckNow_kept (s : State) : Kept s s.ripAckNow := by
  unfold State.ripAckNow
  split
  · exact .lvl _ _
  · exact .refl s

theorem State.capped_kept (ch : ChanId) (s : State) : Kept s (s.capped ch) :=
  (State.onChan_kept _ _ _).trans (State.ripAckNow_kept _)

theorem State.ripFall_kept (s : State) : Kept s s.ripFall := by
  unfold State.ripFall
  split
  · exact .refl s
  · exact (Kept.lvl _ _).trans (State.onChans_kept _ _ _)

theorem State.rampStep_kept (s : State) : Kept s s.rampStep := by
  unfold State.rampStep
  split
  · exact .refl s
  · exact (Kept.lvl _ _).trans (State.onChans_kept _ _ _)

/-! ### Step starts and resets -/

theorem State.noteWake_kept (s : State) (ch : ChanId) : Kept s (s.noteWake ch) := by
  unfold State.noteWake
  split
  · split
    · exact .of_eq rfl rfl rfl rfl rfl rfl
    · exact .refl s
  · exact .refl s

theorem State.step1_kept (s : State) (ch : ChanId) : Kept s (s.step1 ch) := by
  unfold State.step1
  split
  · exact .refl s
  · split
    · exact ((State.noteWake_kept _ _).trans (State.rstSet_kept _ _)).trans
        (State.onChan_kept _ _ _)
    · exact .refl s

theorem State.chrstMask_kept (w : Word) (s : State) : Kept s (s.chrstMask w) := by
  unfold State.chrstMask
  exact State.onChans_kept _ _ _

/-- Two channels hold the same events and occurrences of the command under way. -/
def Chan.SameOut (c d : Chan) : Prop := d.evOut = c.evOut ∧ d.occ = c.occ

/-- What undoing a dropped command can change: tokens, a reservation in the read queue, and the replays. -/
theorem Chan.undo_eq (c : Chan) (k : Cmd) : ∃ ta tb r s, c.undo k = { c with
    bal := { c.bal with tokA := ta, tokB := tb }, rq := r, sched := { c.sched with replays := s } } := by
  have h : ∃ ta tb, (if c.isHostCol k then { c with bal := c.bal.refund k.bank.sub } else c) =
      { c with bal := { c.bal with tokA := ta, tokB := tb } } := by
    split
    · unfold Ballast.refund
      split
      · exact ⟨_, c.bal.tokB, rfl⟩
      · exact ⟨c.bal.tokA, _, rfl⟩
    · exact ⟨_, _, rfl⟩
  obtain ⟨ta, tb, h⟩ := h
  unfold Chan.undo
  rw [h]
  dsimp only
  repeat' split
  all_goals exact ⟨_, _, _, _, rfl⟩

theorem Chan.undos_eq (l : List Cmd) (c : Chan) : ∃ ta tb r s, l.foldl Chan.undo c = { c with
    bal := { c.bal with tokA := ta, tokB := tb }, rq := r, sched := { c.sched with replays := s } } := by
  induction l generalizing c with
  | nil => exact ⟨_, _, _, _, rfl⟩
  | cons k l ih =>
    obtain ⟨ta, tb, r, s, e⟩ := c.undo_eq k
    obtain ⟨ta', tb', r', s', e'⟩ := ih (c.undo k)
    exact ⟨ta', tb', r', s', by rw [List.foldl_cons, e', e]⟩

/-- What a drop can change: the same, and planned commands leave the tail. -/
theorem Chan.drop_eq (c : Chan) (p : Cmd → Bool) : ∃ ta tb r s q, c.drop p = { c with
    bal := { c.bal with tokA := ta, tokB := tb }, rq := r, sched := { c.sched with replays := s }, tail := c.tail.filter q } ∧
    ∀ k, c.isCommitted k = true → q k = true := by
  obtain ⟨ta, tb, r, s, e⟩ := Chan.undos_eq (c.cascade c.planned 16 (c.planned.filter p)) c
  unfold Chan.drop
  dsimp only
  rw [e]
  exact ⟨ta, tb, r, s, _, rfl, fun k h => Bool.or_eq_true_iff.mpr (.inl h)⟩

theorem Chan.drop_out (c : Chan) (p : Cmd → Bool) : c.SameOut (c.drop p) := by
  obtain ⟨ta, tb, r, s, q, e, -⟩ := c.drop_eq p
  rw [e]
  exact ⟨rfl, rfl⟩

/-- What refusing a request does: it changes the lane and takes a free value. -/
theorem Chan.refuseReq_eq (c : Chan) (op : ReqOp) (f : ReqFlit) : ∃ l n, c.refuseReq op f = { c with lane := l, free := n } := by
  unfold Chan.refuseReq
  split
  · exact ⟨_, _, rfl⟩
  · exact ⟨_, _, rfl⟩
  · exact ⟨_, _, rfl⟩

/-- What failing the wake store does: the same. -/
theorem Chan.failWake_eq (c : Chan) : ∃ l n, c.failWake = { c with lane := l, free := n } := by
  have h : ∀ (xs : List Captured) (c : Chan), ∃ l n, xs.foldl (fun c x => match x with
      | .req op f => c.refuseReq (reqOpOf op.toNat) f
      | .beat _ => c) c = { c with lane := l, free := n } := by
    intro xs
    induction xs with
    | nil => exact fun c => ⟨_, _, rfl⟩
    | cons x xs ih =>
      intro c
      rw [List.foldl_cons]
      cases x with
      | req op f =>
        obtain ⟨l, n, e⟩ := c.refuseReq_eq (reqOpOf op.toNat) f
        obtain ⟨l', n', e'⟩ := ih (c.refuseReq (reqOpOf op.toNat) f)
        exact ⟨l', n', e'.trans (by rw [e])⟩
      | beat b => exact ih c
  exact h _ c

/-- What emptying a channel leaves: no read, no open lane, and nothing changed of what the queues do not hold. -/
theorem Chan.empty_eq (c : Chan) : ∃ l w k o e s u n, c.empty = { c with
    lane := l, rq := [], wq := w, tail := k, loft := o, err := e, sched := s, upk := u, free := n } ∧
    l.beats = [] ∧ l.flushes = [] := by
  obtain ⟨l, n, h⟩ := c.failTags.failWake_eq
  unfold Chan.empty
  dsimp only
  rw [h]
  exact ⟨_, _, _, _, _, _, _, _, rfl, rfl, rfl⟩

theorem Chan.empty_out (c : Chan) : c.SameOut c.empty := by
  obtain ⟨l, w, k, o, e, s, u, n, h, -⟩ := c.empty_eq
  rw [h]
  exact ⟨rfl, rfl⟩

theorem Chan.startReset_out (c : Chan) : c.SameOut c.startReset := by
  have h1 := c.drop_out fun _ => true
  have h2 := (c.drop fun _ => true).empty_out
  unfold Chan.startReset
  split
  · exact ⟨rfl, rfl⟩
  · exact ⟨h2.1.trans h1.1, h2.2.trans h1.2⟩

theorem State.warmStart_kept (s : State) : Kept s s.warmStart := by
  unfold State.warmStart
  split
  · exact .refl s
  · exact ⟨rfl, rfl, rfl, id, fun h ch => by
      have h1 := Chan.startReset_out (s.chan ch)
      have h2 := h ch
      simp only [State.chan, Vector.get_eq_getElem] at h1 h2
      simpa [State.chan, Vector.get_eq_getElem, Chan.Quiet, h1.1, h1.2] using h2⟩

/-! ### The register space -/

theorem State.chanRc_kept (ch : ChanId) (f : Chan → Chan × Word) (s : State) : Kept s (s.chanRc ch f).1 := by
  unfold State.chanRc
  dsimp only
  exact State.onChan_kept _ _ _

theorem State.readSticky_kept (ch : ChanId) (s : State) : Kept s (s.readSticky ch).1 := .ev fun h => h.readSticky _

theorem State.readEvqLo_kept (s : State) : Kept s s.readEvqLo.1 := .ev fun h => h.readLo

theorem State.readEvqHi_kept (s : State) : Kept s s.readEvqHi.1 := .ev fun h => h.readHi

theorem State.setUserCnt_kept (s : State) (n : Nat) (a b : Nat) :
    Kept s (s.setUserCnt n { s.userCnt n with latchLo := a, latchHi := b }) := by
  by_cases h : n < 8
  · unfold State.setUserCnt
    rw [dif_pos h]
    exact State.setChan_kept _ _ id
  · unfold State.setUserCnt
    rw [dif_neg h]
    refine Kept.cnt fun hs => ?_
    simp only [State.userCnt, dif_neg h]
    exact { hs with }

theorem regAt_mem {α : Type} {off : Nat} {l : List (Nat × α)} {a : α} (h : regAt off l = some a) : (off, a) ∈ l := by
  unfold regAt at h
  cases hf : l.find? (fun p => p.1 == off) with
  | none => simp [hf] at h
  | some p =>
    simp [hf] at h
    have h1 := List.mem_of_find?_eq_some hf
    have h2 := List.find?_some hf
    simp at h2
    obtain ⟨x, y⟩ := p
    simp_all

theorem State.blkRead_kept {s : State} {off : Nat} {t : State} {w : Word} (h : s.blkRead off = some (t, w)) : Kept s t := by
  unfold State.blkRead at h
  split at h
  · simp only [Option.some.injEq, Prod.mk.injEq] at h
    exact h.1 ▸ .refl s
  · split at h
    · next f hf =>
      simp only [Option.some.injEq] at h
      have hm := regAt_mem hf
      have ht : t = (f s).1 := by rw [h]
      subst ht
      simp only [blkRcRegs, List.mem_cons, Prod.mk.injEq, List.not_mem_nil, or_false] at hm
      rcases hm with ⟨-, rfl⟩ | ⟨-, rfl⟩ | ⟨-, rfl⟩ | ⟨-, rfl⟩ | ⟨-, rfl⟩ | ⟨-, rfl⟩
      · exact .of_eq rfl rfl rfl rfl rfl rfl
      · exact .lvl _ _
      · exact .lvl _ _
      · exact State.readEvqLo_kept s
      · exact State.readEvqHi_kept s
      · exact .ev fun h => { h with dropped := by simp }
    · split at h
      · simp only [Option.map_eq_some_iff, Prod.mk.injEq] at h
        obtain ⟨_, -, rfl, -⟩ := h
        exact .refl s
      · cases h

theorem State.chanRead_kept {s : State} {ch : ChanId} {off : Nat} {t : State} {w : Word}
    (h : s.chanRead ch off = some (t, w)) : Kept s t := by
  unfold State.chanRead at h
  split at h
  · simp only [Option.some.injEq] at h
    have : t = (s.readSticky ch).1 := by rw [h]
    exact this ▸ State.readSticky_kept ch s
  · simp only [Option.map_eq_some_iff, Prod.mk.injEq] at h
    obtain ⟨p, -, rfl, -⟩ := h
    exact State.onChan_kept _ _ _

theorem State.readULo_kept {s : State} {n i : Nat} {t : State} {w : Word} (h : s.readULo n i = some (t, w)) : Kept s t := by
  unfold State.readULo at h
  simp only [Option.map_eq_some_iff, Prod.mk.injEq] at h
  obtain ⟨c, -, rfl, -⟩ := h
  exact State.setUserCnt_kept _ _ _ _

theorem State.userRead_kept {s : State} {n o : Nat} {t : State} {w : Word} (h : s.userRead n o = some (t, w)) : Kept s t := by
  unfold State.userRead at h
  dsimp only at h
  split at h
  · cases h
  · split at h
    · split at h
      · exact State.readULo_kept h
      · simp only [Option.map_eq_some_iff, Prod.mk.injEq] at h
        obtain ⟨_, -, rfl, -⟩ := h
        exact .refl s
    · split at h
      · simp only [Option.map_eq_some_iff, Prod.mk.injEq] at h
        obtain ⟨_, -, rfl, -⟩ := h
        exact .refl s
      · cases h

theorem State.readAddr_kept {s : State} {a : Nat} {t : State} {w : Word} (h : s.readAddr a = some (t, w)) : Kept s t := by
  unfold State.readAddr at h
  split at h
  · exact State.chanRead_kept h
  · split at h
    · exact State.blkRead_kept h
    · split at h
      · exact State.userRead_kept h
      · split at h
        · simp only [Option.some.injEq, Prod.mk.injEq] at h
          exact h.1 ▸ .refl s
        · cases h

theorem Counters.writers_sound {blk : Bool} {base n : Nat} {k : Counters} (h : k.Sound 8) {off : Nat}
    {f : Word → Counters → Counters} (hm : (off, f) ∈ Counters.writers blk base n) (w : Word) : (f w k).Sound 8 := by
  simp only [Counters.writers, regRow, List.mem_append, List.mem_map, Prod.mk.injEq, List.mem_cons, List.not_mem_nil,
    or_false] at hm
  rcases hm with (⟨i, -, -, rfl⟩ | ⟨i, -, -, rfl⟩) | ⟨-, rfl⟩ | ⟨-, rfl⟩ | ⟨-, rfl⟩
  · exact h.modAt i fun _ => rfl
  · exact h.modAt i fun _ => rfl
  · exact { h with low := by simpa using w.isLt }
  · exact h.whi w
  · exact h.ctl w

theorem blkWriters_kept (s : State) (w : Word) : ∀ p ∈ blkWriters, Kept s (p.2 w s) := by
  have hc : ∀ p ∈ (Counters.writers true 0x800 8).map fun p => (p.1, fun w (s : State) => { s with cnt := p.2 w s.cnt }),
      Kept s (p.2 w s) := by
    intro p hp
    obtain ⟨q, hq, rfl⟩ := List.mem_map.mp hp
    exact .cnt fun hk => Counters.writers_sound hk (off := q.1) (by simpa using hq) w
  have hq : s.ev.Sound → (s.ev.evqCtl w).Sound := fun he => by
    unfold Events.evqCtl
    split
    · exact he.flush
    · exact he
  have hi : s.ev.Sound → (s.ev.irqStat w).Sound := fun he => by
    unfold Events.irqStat
    split
    · exact he.clrFatal
    · exact he
  unfold blkWriters
  simp only [List.forall_mem_append, List.forall_mem_cons, and_assoc]
  refine ⟨State.chrstMask_kept _ _, State.trussCtl_kept _ _, State.plevelCtl_kept _ _, .lvl _ _, .lvl _ _, .lvl _ _, .ev hq,
    .ev fun he => { he with }, .ev hi, .of_eq rfl rfl rfl rfl rfl rfl, nofun, hc⟩

theorem State.blkWrite_kept {s t : State} {off : Nat} {w : Word} (h : s.blkWrite off w = some t) : Kept s t := by
  unfold State.blkWrite at h
  split at h
  · next f hf =>
    simp only [Option.some.injEq] at h
    exact h ▸ blkWriters_kept s w _ (regAt_mem hf)
  · split at h
    · simp only [Option.some.injEq] at h
      exact h ▸ .refl s
    · cases h

theorem State.chanWrite_kept {s t : State} {ch : ChanId} {off : Nat} {w : Word} (h : s.chanWrite ch off w = some t) :
    Kept s t := by
  unfold State.chanWrite at h
  split at h
  · simp only [Option.some.injEq] at h
    exact h ▸ State.onChan_kept _ _ _
  · split at h
    · simp only [Option.some.injEq] at h
      exact h ▸ .refl s
    · cases h

theorem State.writeAddr_kept {s t : State} {a : Nat} {w : Word} (h : s.writeAddr a w = some t) : Kept s t := by
  unfold State.writeAddr at h
  split at h
  · exact State.chanWrite_kept h
  · split at h
    · exact State.blkWrite_kept h
    · split at h
      · simp only [Option.some.injEq] at h
        exact h ▸ State.loadWindow_kept _ _ _
      · cases h

/-! ### Transactions -/

theorem State.regTxn_kept (t : MgtTxn) (s : State) : Kept s (s.regTxn t) := by
  unfold State.regTxn
  dsimp only
  split
  · split
    · exact (State.mgtSet_kept _ _).trans (State.onChan_kept _ _ _)
    · split
      · next h => exact (State.writeAddr_kept h).trans (State.respond_kept _ _ _)
      · exact State.respond_kept _ _ _
  · split
    · next h => exact (State.readAddr_kept h).trans (State.respond_kept _ _ _)
    · exact State.respond_kept _ _ _

theorem State.mgtRetry_kept (s : State) : Kept s s.mgtRetry := by
  unfold State.mgtRetry
  split
  · exact .refl s
  · split
    · exact .refl s
    · exact (State.mgtSet_kept _ _).trans (State.regTxn_kept _ _)

theorem mgtTxn_kept {t : MgtTxn} {s r : State} (h : mgtTxn t s = .next r) : Kept s r := by
  unfold mgtTxn at h
  split at h
  · cases h
  · split at h
    · cases h
      exact State.mgtSet_kept _ _
    · cases h
      exact State.regTxn_kept _ _

theorem mgtWrite_kept {p : Page} {off : Nat} {w : Word} {eff : State → State} {s r : State} (he : Kept s (eff s))
    (h : mgtWrite p off w eff s = .next r) : Kept s r := by
  rcases mgtDo_next h with ⟨-, rfl⟩ | ⟨-, rfl⟩
  · exact State.mgtSet_kept _ _
  · exact he.trans (State.respond_kept _ _ _)

theorem mgtRead_kept {p : Page} {off : Nat} {eff : State → State × Word} {s r : State} (he : Kept s (eff s).1)
    (h : mgtRead p off eff s = .next r) : Kept s r := by
  rcases mgtDo_next h with ⟨-, rfl⟩ | ⟨-, rfl⟩
  · exact State.mgtSet_kept _ _
  · exact he.trans (State.respond_kept _ _ _)

end Sys2Proof.Machine
end

