-- ==== Sys2Proof/Laws/Bits.lean ====
section
/-! SUPPORT. Bits of a number and of a word, and lists: the small facts that the statements about registers and queues rest on. -/
namespace Sys2Proof.Machine

theorem setBits_form (n lo w v : Nat) : setBits n lo w v = 2 ^ lo * (2 ^ w * (n / 2 ^ lo / 2 ^ w) + v % 2 ^ w) + n % 2 ^ lo := by
  unfold setBits bitsAt
  rw [Nat.shiftRight_eq_div_pow]
  have h1 := Nat.div_add_mod n (2 ^ lo)
  have h2 := Nat.div_add_mod (n / 2 ^ lo) (2 ^ w)
  generalize n / 2 ^ lo / 2 ^ w = B at *
  generalize n / 2 ^ lo % 2 ^ w = m at *
  generalize v % 2 ^ w = x
  generalize n % 2 ^ lo = l at *
  rw [← h2] at h1
  have h3 : n = 2 ^ lo * (2 ^ w * B) + m * 2 ^ lo + l := by rw [← h1]; ring
  have h4 : 2 ^ lo * (2 ^ w * B + x) = 2 ^ lo * (2 ^ w * B) + x * 2 ^ lo := by ring
  rw [h4]
  omega

theorem testBit_setBits (n lo w v i : Nat) : (setBits n lo w v).testBit i =
    if lo ≤ i ∧ i < lo + w then v.testBit (i - lo) else n.testBit i := by
  rw [setBits_form, Nat.testBit_two_pow_mul_add _ (Nat.mod_lt _ (Nat.two_pow_pos lo))]
  by_cases h : i < lo
  · rw [if_pos h, if_neg (by omega), Nat.testBit_mod_two_pow]
    simp [h]
  · rw [if_neg h, Nat.testBit_two_pow_mul_add _ (Nat.mod_lt _ (Nat.two_pow_pos w))]
    by_cases g : i < lo + w
    · rw [if_pos (by omega), if_pos (by omega), Nat.testBit_mod_two_pow]
      simp; omega
    · rw [if_neg (by omega), if_neg (by omega), Nat.testBit_div_two_pow, Nat.testBit_div_two_pow]
      congr 1; omega

theorem testBit_bitsAt (n lo w i : Nat) : (bitsAt n lo w).testBit i = (decide (i < w) && n.testBit (lo + i)) := by
  unfold bitsAt
  rw [Nat.testBit_mod_two_pow, Nat.testBit_shiftRight]

theorem bitsAt_setBits (n lo w v : Nat) (h : v < 2 ^ w) : bitsAt (setBits n lo w v) lo w = v := by
  refine Nat.eq_of_testBit_eq fun i => ?_
  rw [testBit_bitsAt, testBit_setBits]
  by_cases g : i < w
  · simp [g]
  · simp [g]
    exact (Nat.testBit_lt_two_pow (Nat.lt_of_lt_of_le h (Nat.pow_le_pow_right (by decide) (Nat.le_of_not_lt g))))

theorem bitsAt_setBits_ne (n lo w v lo' w' : Nat) (h : lo' + w' ≤ lo ∨ lo + w ≤ lo') : bitsAt (setBits n lo w v) lo' w' = bitsAt n lo' w' := by
  refine Nat.eq_of_testBit_eq fun i => ?_
  rw [testBit_bitsAt, testBit_bitsAt, testBit_setBits]
  by_cases g : i < w'
  · rw [if_neg (by omega)]
  · simp [g]

theorem bitsAt_ofNat (n k lo w : Nat) (h : lo + w ≤ k) : bitsAt (BitVec.ofNat k n).toNat lo w = bitsAt n lo w := by
  refine Nat.eq_of_testBit_eq fun i => ?_
  rw [testBit_bitsAt, testBit_bitsAt, BitVec.toNat_ofNat, Nat.testBit_mod_two_pow]
  by_cases g : i < w
  · have : lo + i < k := by omega
    simp [g, this]
  · simp [g]

theorem bitAt_bits (n i : Nat) : bitAt n i = decide (bitsAt n i 1 = 1) := by
  unfold bitAt bitsAt
  rw [beq_eq_decide, Nat.pow_one]

theorem bitsAt_lt (n lo w : Nat) : bitsAt n lo w < 2 ^ w := Nat.mod_lt _ (Nat.two_pow_pos w)

theorem clampTo_zero (m n : Nat) : clampTo 0 m n = min m n := by unfold clampTo; split <;> (try split) <;> omega

theorem bitAt_testBit (n i : Nat) : bitAt n i = n.testBit i := by
  simp [bitAt, Nat.testBit_eq_decide_div_mod_eq, Nat.shiftRight_eq_div_pow, beq_eq_decide]

theorem bitAt_and {a b : Word} (i : Nat) : bitAt (a &&& b).toNat i = (bitAt a.toNat i && bitAt b.toNat i) := by
  simp only [bitAt_testBit, BitVec.toNat_and, Nat.testBit_and]

theorem bitAt_or {a b : Word} (i : Nat) : bitAt (a ||| b).toNat i = (bitAt a.toNat i || bitAt b.toNat i) := by
  simp only [bitAt_testBit, BitVec.toNat_or, Nat.testBit_or]

theorem ite_of_iff {α : Type} {p q : Prop} [Decidable p] [Decidable q] {a b : α} (h : p ↔ q) :
    (if p then a else b) = if q then a else b := by
  by_cases hp : p
  · rw [if_pos hp, if_pos (h.1 hp)]
  · rw [if_neg hp, if_neg fun hq => hp (h.2 hq)]

theorem foldl_add (l : List Word) (a : Word) : l.foldl (· + ·) a = a + l.foldl (· + ·) 0 := by
  induction l generalizing a with
  | nil => simp
  | cons x l ih =>
    rw [List.foldl_cons, List.foldl_cons, ih, ih (0 + x)]
    simp [BitVec.add_assoc]

theorem mem_insertBy {α : Type} (key : α → Nat) (x : α) (l : List α) : x ∈ insertBy key x l := by
  induction l with
  | nil => simp [insertBy]
  | cons y ys ih => unfold insertBy; split <;> simp [ih]

theorem find?_filter' {α : Type} (p q : α → Bool) (l : List α) : (l.filter p).find? q = l.find? fun x => p x && q x := by
  induction l with
  | nil => rfl
  | cons a l ih =>
    by_cases hp : p a <;> by_cases hq : q a <;> simp [hp, hq, ih]

theorem mem_insertBy_iff {α : Type} (key : α → Nat) (x y : α) (l : List α) : y ∈ insertBy key x l ↔ y = x ∨ y ∈ l := by
  induction l with
  | nil => simp [insertBy]
  | cons a l ih =>
    unfold insertBy
    split
    · simp
    · simp only [List.mem_cons, ih]
      tauto

theorem leastBy_least {α : Type} {key : α → Nat} {l : List α} {x : α} (h : leastBy key l = some x) : ∀ y ∈ l, key x ≤ key y := by
  induction l generalizing x with
  | nil => simp [leastBy] at h
  | cons a l ih =>
    have hn : leastBy key l = none → l = [] := by
      intro hn
      cases l with
      | nil => rfl
      | cons b l =>
        simp only [leastBy] at hn
        split at hn
        · simp at hn
        · split at hn <;> simp at hn
    simp only [leastBy] at h
    split at h
    · next hh => 
      have := hn hh
      simp_all
    · next y hy =>
      have ih' := ih hy
      split at h
      · next hlt =>
        simp at h; subst h
        intro z hz
        simp at hz
        rcases hz with rfl | hz
        · omega
        · exact Nat.le_trans (by omega) (ih' z hz)
      · next hlt =>
        simp at h; subst h
        intro z hz
        simp at hz
        rcases hz with rfl | hz
        · omega
        · exact Nat.le_trans (by omega) (ih' z hz)

end Sys2Proof.Machine
end

