-- ==== Sys2Proof/Laws/Step.lean ====
section
/-! SUPPORT. What every command keeps, and what a command of one channel reaches: the lemmas behind the invariants of a
step. -/
namespace Sys2Proof.Machine

/-- A command of one channel is one operation on that channel, whatever the state. -/
theorem exec_channel {i : Instr} {ch : ChanId} (h : channelOf i = some ch) :
    (∃ f : Env → Chan → Chan, ∀ s, exec i s = .next (s.onChan ch f)) ∨ i = .responseSend ch := by
  cases i
  case responseSend => simp only [channelOf, Option.some.injEq] at h; subst h; exact .inr rfl
  all_goals first
    | (cases h; done)
    | (cases h; exact .inl ⟨_, fun _ => rfl⟩)

/-- The commands that may put another image in force, or none: the end of a commit and the resets of the block. -/
def Reloads (i : Instr) : Prop :=
  i = .pwrRstAssert ∨ (∃ n x p, i = .commitComplete n x p) ∨ ∃ ch, i = .resetSequenceEnd ch

theorem kept_of_next {s r t : State} (h : Kept s r) (e : (.next r : Host.Outcome State Fault Refusal) = .next t) : Kept s t :=
  Host.Outcome.next.inj e ▸ h

theorem exec_kept {i : Instr} {s t : State} (hi : ¬Reloads i) (h : exec i s = .next t) : Kept s t := by
  unfold Reloads at hi
  cases i <;> dsimp only [exec] at h
  case pwrRstAssert => exact absurd (.inl rfl) hi
  case commitComplete n x p => exact absurd (.inr (.inl ⟨n, x, p, rfl⟩)) hi
  case resetSequenceEnd ch => exact absurd (.inr (.inr ⟨ch, rfl⟩)) hi
  case responseSend ch =>
    refine kept_of_next ?_ h
    split
    · exact ((State.onChan_kept _ _ _).trans (State.mgtSet_kept _ _)).trans (State.blkCount_kept _ _ _)
    · exact State.onChan_kept _ _ _
  case ballastWindow =>
    refine kept_of_next ?_ h
    split
    · exact .refl s
    · refine Kept.trans ?_ (State.onChans_kept _ _ _)
      exact .of_eq rfl rfl rfl rfl rfl rfl
  case evqSwap => exact kept_of_next (.ev fun he => he.swapEdge) h
  case counterAdd => exact kept_of_next ((State.rclkEdge_kept _).trans (State.mgtRetry_kept _)) h
  case evqLoRead => unfold execEvqLoRead at h; exact mgtRead_kept (State.readEvqLo_kept _) h
  case evqHiRead => unfold execEvqHiRead at h; exact mgtRead_kept (State.readEvqHi_kept _) h
  case evqFlush => unfold execEvqFlush at h; exact mgtWrite_kept (.ev fun he => he.flush) h
  case clrFatal => unfold execClrFatal at h; exact mgtWrite_kept (.ev fun he => he.clrFatal) h
  case stickyRead => unfold execStickyRead at h; exact mgtRead_kept (State.readSticky_kept _ _) h
  case cntWhiWrite p w =>
    unfold execCntWhiWrite at h
    cases p
    · exact mgtWrite_kept (.cnt fun hk => hk.whi w) h
    · exact mgtWrite_kept (State.onChan_kept _ _ _) h
  case ovfClr p w =>
    unfold execOvfClr at h
    cases p
    · exact mgtWrite_kept (.cnt fun hk => hk.ctl w) h
    · exact mgtWrite_kept (State.onChan_kept _ _ _) h
  case freeze p w =>
    unfold execFreeze at h
    cases p
    · exact mgtWrite_kept (.cnt fun hk => hk.ctl w) h
    · exact mgtWrite_kept (State.onChan_kept _ _ _) h
  case wideAddrWrite p w =>
    unfold execWideAddrWrite at h
    cases p
    · exact mgtWrite_kept (.of_eq rfl rfl rfl rfl rfl rfl) h
    · exact mgtWrite_kept (State.onChan_kept _ _ _) h
  case schedCtlWrite ch reg w =>
    unfold execSchedCtlWrite at h
    cases reg <;> exact mgtWrite_kept (State.onChan_kept _ _ _) h
  case legacyDataAccess ch we w =>
    unfold execLegacyDataAccess at h
    cases we
    · exact mgtRead_kept (State.chanRc_kept _ _ _) h
    · exact mgtWrite_kept (State.onChan_kept _ _ _) h
  case plevelGo => unfold execPlevelGo at h; exact mgtWrite_kept (State.plevelCtl_kept _ _) h
  case chrst => unfold execChrst at h; exact mgtWrite_kept (State.chrstMask_kept _ _) h
  case trussStart => unfold execTrussStart at h; exact mgtWrite_kept (State.trussCtl_kept _ _) h
  case trussCommit => unfold execTrussCommit at h; exact mgtWrite_kept (State.trussCtl_kept _ _) h
  case trussAbort => unfold execTrussAbort at h; exact mgtWrite_kept (State.trussCtl_kept _ _) h
  case blockReady =>
    refine kept_of_next ?_ h
    split
    · exact .refl s
    · exact (State.rstSet_kept _ _).trans (State.mgtRetry_kept _)
  case warmRst => exact kept_of_next (State.warmStart_kept _) h
  case staggerStepStart => exact kept_of_next (State.step1_kept _ _) h
  case channelCapped => exact kept_of_next (State.capped_kept _ _) h
  case ripcordReqRise => exact kept_of_next (State.ripRise_kept _) h
  case ripcordReqFall => exact kept_of_next (State.ripFall_kept _) h
  case rampStep => exact kept_of_next (State.rampStep_kept _) h
  case clampReached => exact kept_of_next (State.clampReached_kept _) h
  case avsAck => exact kept_of_next (State.avsAck_kept _) h
  case avsTimeout => exact kept_of_next (State.avsTimeout_kept _ _) h
  case voltageSettled => exact kept_of_next (State.settled_kept _) h
  case isoBlkChange => exact kept_of_next (State.rstSet_kept _ _) h
  case pwrRstRelease => exact kept_of_next (State.rstSet_kept _ _) h
  case auditEnable => unfold execAuditEnable at h; exact mgtWrite_kept (State.onChan_kept _ _ _) h
  case postponeWrite => unfold execPostponeWrite at h; exact mgtWrite_kept (State.onChan_kept _ _ _) h
  case flipArm => unfold execFlipArm at h; exact mgtWrite_kept (State.onChan_kept _ _ _) h
  case flipDisarm => unfold execFlipDisarm at h; exact mgtWrite_kept (State.onChan_kept _ _ _) h
  case chipmarkWrite => unfold execChipmarkWrite at h; exact mgtWrite_kept (State.onChan_kept _ _ _) h
  case thatcherRestart => unfold execThatcherRestart at h; exact mgtWrite_kept (State.onChan_kept _ _ _) h
  case slateInval => unfold execSlateInval at h; exact mgtWrite_kept (State.onChan_kept _ _ _) h
  case slateInvalAll => unfold execSlateInvalAll at h; exact mgtWrite_kept (State.onChan_kept _ _ _) h
  case ueRecordRead => unfold execUeRecordRead at h; exact mgtRead_kept (State.chanRc_kept _ _ _) h
  case chipcntRead => unfold execChipcntRead at h; exact mgtRead_kept (State.chanRc_kept _ _ _) h
  case upkHwmRead => unfold execUpkHwmRead at h; exact mgtRead_kept (State.chanRc_kept _ _ _) h
  case xlateFwd => unfold execXlateFwd at h; exact mgtWrite_kept (State.onChan_kept _ _ _) h
  case xlateRev => unfold execXlateRev at h; exact mgtWrite_kept (State.onChan_kept _ _ _) h
  case loftOn => unfold execLoftOn at h; exact mgtTxn_kept h
  case loftOff => unfold execLoftOff at h; exact mgtTxn_kept h
  case wball => unfold execWball at h; exact mgtTxn_kept h
  case repair => unfold execRepair at h; exact mgtTxn_kept h
  case loftRecRead => unfold execLoftRecRead at h; exact mgtRead_kept (State.chanRc_kept _ _ _) h
  case rateRequestWrite => unfold execRateRequestWrite at h; exact mgtWrite_kept (State.onChan_kept _ _ _) h
  case stateGo => unfold execStateGo at h; exact mgtWrite_kept (State.onChan_kept _ _ _) h
  case mbxInGo => unfold execMbxInGo at h; exact mgtWrite_kept (State.onChan_kept _ _ _) h
  case mbxOutAck => unfold execMbxOutAck at h; exact mgtWrite_kept (State.onChan_kept _ _ _) h
  case legacyGo => unfold execLegacyGo at h; exact mgtWrite_kept (State.onChan_kept _ _ _) h
  case legacyAck => unfold execLegacyAck at h; exact mgtWrite_kept (State.onChan_kept _ _ _) h
  case fenceWrite => unfold execFenceWrite at h; exact mgtWrite_kept (State.onChan_kept _ _ _) h
  case cvStart => unfold execCvStart at h; exact mgtWrite_kept (State.onChan_kept _ _ _) h
  case cvIn => unfold execCvIn at h; exact mgtWrite_kept (State.onChan_kept _ _ _) h
  case uCntLoRead => unfold execUCntLoRead at h; exact mgtTxn_kept h
  case trussFrameSubmit => unfold execTrussFrameSubmit at h; exact mgtTxn_kept h
  case registerWrite => unfold execRegisterWrite at h; exact mgtTxn_kept h
  case registerRead => unfold execRegisterRead at h; exact mgtTxn_kept h
  all_goals exact kept_of_next (State.onChan_kept _ _ _) h

/-! ### A step -/

/-- What every command keeps, the resets and the commit included. -/
structure Holds (s t : State) : Prop where
  pending : t.pending = s.pending
  now : t.now = s.now
  sound : s.Sound → t.Sound
  quiet : s.Quiet → t.Quiet

theorem Kept.holds {s t : State} (h : Kept s t) : Holds s t := ⟨h.pending, h.now, h.sound, h.quiet⟩

theorem Holds.trans {s t u : State} (h : Holds s t) (g : Holds t u) : Holds s u :=
  ⟨g.pending.trans h.pending, g.now.trans h.now, g.sound ∘ h.sound, g.quiet ∘ h.quiet⟩

theorem State.reset_sound : State.reset.Sound :=
  ⟨⟨by decide, by decide, by decide, by decide, by decide, by decide⟩, ⟨by decide, by decide, by decide, by decide⟩⟩

theorem Chan.quiet_reset : Reset.chan.Quiet := ⟨rfl, rfl⟩

theorem State.reset_quiet : State.reset.Quiet := fun ch => by
  simpa [State.reset, State.chan, Vector.get_eq_getElem] using Chan.quiet_reset

theorem State.resetAll_holds (s : State) {f : Chan → Chan} (ctl : ResetCtl) (h : ∀ c, c.Quiet → (f c).Quiet) :
    Holds s (s.resetAll f ctl) :=
  ⟨rfl, rfl, fun _ => State.reset_sound, fun hq ch => by
    have := h _ (hq ch)
    simpa [State.resetAll, State.chan, Vector.get_eq_getElem] using this⟩

theorem State.powerReset_holds (s : State) : Holds s s.powerReset := State.resetAll_holds _ _ fun _ _ => ⟨rfl, rfl⟩

theorem Chan.loadLive_out (c : Chan) : c.SameOut c.loadLive := by
  unfold Chan.loadLive Chan.loadImg
  dsimp only
  split <;> exact ⟨rfl, rfl⟩

theorem Chan.commitImg_out (e : Env) (i : Option ChanImg) (c : Chan) : c.SameOut (c.commitImg e i) := Chan.loadLive_out { c with img := i }

/-- The channel after a commit: its part of the image in force, and its rate within the new clamps. -/
theorem State.takeImage_chan (n : Nat) (s : State) (ch : ChanId) : (s.takeImage n).chan ch =
    ((s.chan ch).commitImg ({ s with img := some (s.loader.blkImg n) } : State).env
      (if s.loader.enabled ch.val then some (s.loader.chanImg ch.val) else none)).clampRate (s.takeImage n).env := by
  unfold State.takeImage State.clampRates State.chan
  dsimp only
  rw [Vector.get_eq_getElem, Vector.getElem_map]
  unfold State.loadLevels
  dsimp only
  rw [Vector.getElem_ofFn]
  rfl

theorem State.takeImage_holds (n : Nat) (s : State) : Holds s (s.takeImage n) :=
  ⟨rfl, rfl, id, fun hq ch => by
    rw [State.takeImage_chan]
    have h := Chan.commitImg_out ({ s with img := some (s.loader.blkImg n) } : State).env
      (if s.loader.enabled ch.val then some (s.loader.chanImg ch.val) else none) (s.chan ch)
    exact ⟨h.1.trans (hq ch).1, h.2.trans (hq ch).2⟩⟩

theorem State.commitEnd_holds (n : Nat) (p : List Nat) (s : State) : Holds s (s.commitEnd n p) := by
  unfold State.commitEnd
  split
  · exact (Kept.refl s).holds
  · split
    · exact (State.withLoader_kept _ _).holds
    · exact (State.takeImage_holds _ _).trans (State.withLoader_kept _ _).holds

theorem Chan.afterChrst_quiet (c : Chan) : c.afterChrst.Quiet := by
  unfold Chan.afterChrst
  exact Chan.loadLive_out _

theorem State.warmEnd_holds {s t : State} (h : Holds s t) : Holds s t.warmEnd := by
  unfold State.warmEnd
  split
  · exact h.trans (State.resetAll_holds _ _ fun _ => id)
  · exact h

theorem State.setChan_rst_holds (s : State) (ch : ChanId) (r : ResetCtl) {c : Chan} (h : c.Quiet) :
    Holds s (({ s with rst := r } : State).setChan ch c) :=
  ⟨rfl, rfl, id, (State.setChan_kept s ch fun _ => h).quiet⟩

theorem State.resetSeqEnd_holds (ch : ChanId) (s : State) : Holds s (s.resetSeqEnd ch) := by
  unfold State.resetSeqEnd
  dsimp only
  split
  · exact (Kept.refl s).holds
  · split
    · exact State.warmEnd_holds (State.setChan_rst_holds _ _ _ ⟨rfl, rfl⟩)
    · exact (State.setChan_rst_holds _ _ _ (Chan.afterChrst_quiet _)).trans (State.onChan_kept _ _ _).holds

theorem exec_holds {i : Instr} {s t : State} (h : exec i s = .next t) : Holds s t := by
  by_cases hi : Reloads i
  · rcases hi with rfl | ⟨n, x, p, rfl⟩ | ⟨ch, rfl⟩
    · exact Host.Outcome.next.inj h ▸ State.powerReset_holds s
    · exact Host.Outcome.next.inj h ▸ (State.commitEnd_holds n (x :: p) s).trans (State.mgtRetry_kept _).holds
    · exact Host.Outcome.next.inj h ▸ (State.resetSeqEnd_holds ch s).trans (State.mgtRetry_kept _).holds
  · exact (exec_kept hi h).holds

theorem commitChan_chan (s : State) (ch : ChanId) (c : Chan) :
    (s.commitChan ch c).chan ch = { c.gatherOcc with evOut := [], occ := [] } := by
  unfold State.commitChan
  have h : ∀ (t : State), (t.repairDone ch c).chan ch = t.chan ch := by
    intro t
    unfold State.repairDone
    split <;> rfl
  dsimp only
  rw [h, (raiseAll_same ch c.events _).chan, State.chan_setChan_self]

/-- The outcome of a command answers a next state, unless a management transaction is outstanding (R113). -/
def Runs (s : State) (r : Res) : Prop :=
  (s.mgt.held = none → ∃ t, r = .next t) ∧ (∀ x, r ≠ .refused x) ∧ ∀ f, r = .fault f → f = .mgtOverlap

theorem runs_next (s t : State) : Runs s (.next t) := ⟨fun _ => ⟨t, rfl⟩, nofun, nofun⟩

theorem runs_mgtDo (t : MgtTxn) (eff : State → State × Word) (s : State) : Runs s (mgtDo t eff s) := by
  unfold mgtDo
  split
  · next h => exact ⟨by simp [h], nofun, fun f hf => by cases hf; rfl⟩
  · split <;> exact runs_next _ _

theorem runs_mgtTxn (t : MgtTxn) (s : State) : Runs s (mgtTxn t s) := by
  unfold mgtTxn
  split
  · next h => exact ⟨by simp [h], nofun, fun f hf => by cases hf; rfl⟩
  · split <;> exact runs_next _ _

theorem runs_write (p : Page) (off : Nat) (w : Word) (eff : State → State) (s : State) : Runs s (mgtWrite p off w eff s) := runs_mgtDo _ _ _

theorem runs_read (p : Page) (off : Nat) (eff : State → State × Word) (s : State) : Runs s (mgtRead p off eff s) := runs_mgtDo _ _ _

theorem exec_runs (i : Instr) (s : State) : Runs s (exec i s) := by
  cases i <;> dsimp only [exec]
  case uCntLoRead => exact runs_mgtTxn _ _
  case loftOn => exact runs_mgtTxn _ _
  case loftOff => exact runs_mgtTxn _ _
  case wball => exact runs_mgtTxn _ _
  case repair => exact runs_mgtTxn _ _
  case trussFrameSubmit => exact runs_mgtTxn _ _
  case registerWrite => exact runs_mgtTxn _ _
  case registerRead => exact runs_mgtTxn _ _
  case cntWhiWrite p w => cases p <;> exact runs_write _ _ _ _ _
  case ovfClr p w => cases p <;> exact runs_write _ _ _ _ _
  case freeze p w => cases p <;> exact runs_write _ _ _ _ _
  case wideAddrWrite p w => cases p <;> exact runs_write _ _ _ _ _
  case schedCtlWrite ch r w => cases r <;> exact runs_write _ _ _ _ _
  case legacyDataAccess ch we w =>
    unfold execLegacyDataAccess
    split
    · exact runs_write _ _ _ _ _
    · exact runs_read _ _ _ _
  case auditEnable => exact runs_write _ _ _ _ _
  case postponeWrite => exact runs_write _ _ _ _ _
  case flipArm => exact runs_write _ _ _ _ _
  case flipDisarm => exact runs_write _ _ _ _ _
  case chipmarkWrite => exact runs_write _ _ _ _ _
  case thatcherRestart => exact runs_write _ _ _ _ _
  case slateInval => exact runs_write _ _ _ _ _
  case slateInvalAll => exact runs_write _ _ _ _ _
  case ueRecordRead => exact runs_read _ _ _ _
  case chipcntRead => exact runs_read _ _ _ _
  case upkHwmRead => exact runs_read _ _ _ _
  case xlateFwd => exact runs_write _ _ _ _ _
  case xlateRev => exact runs_write _ _ _ _ _
  case loftRecRead => exact runs_read _ _ _ _
  case rateRequestWrite => exact runs_write _ _ _ _ _
  case stateGo => exact runs_write _ _ _ _ _
  case plevelGo => exact runs_write _ _ _ _ _
  case mbxInGo => exact runs_write _ _ _ _ _
  case mbxOutAck => exact runs_write _ _ _ _ _
  case legacyGo => exact runs_write _ _ _ _ _
  case legacyAck => exact runs_write _ _ _ _ _
  case fenceWrite => exact runs_write _ _ _ _ _
  case cvStart => exact runs_write _ _ _ _ _
  case cvIn => exact runs_write _ _ _ _ _
  case evqLoRead => exact runs_read _ _ _ _
  case evqHiRead => exact runs_read _ _ _ _
  case evqFlush => exact runs_write _ _ _ _ _
  case clrFatal => exact runs_write _ _ _ _ _
  case stickyRead => exact runs_read _ _ _ _
  case chrst => exact runs_write _ _ _ _ _
  case trussStart => exact runs_write _ _ _ _ _
  case trussCommit => exact runs_write _ _ _ _ _
  case trussAbort => exact runs_write _ _ _ _ _
  all_goals exact runs_next _ _

end Sys2Proof.Machine
end

