-- ==== Sys2Proof/Laws/Events.lean ====
section
/-! SUPPORT. How records enter the event queue, and what of it only grows. -/
namespace Sys2Proof.Machine

theorem newest_split {p : Record → Bool} {m : List Record} (h : ∃ x ∈ m, p x = true) :
    ∃ a v b, m = a ++ v :: b ∧ p v = true ∧ (∀ y ∈ a, p y = false) ∧ m.find? p = some v ∧
      m.takeWhile (fun x => !p x) = a ∧ (m.dropWhile fun x => !p x).drop 1 = b := by
  induction m with
  | nil => simp at h
  | cons x m ih =>
    by_cases hx : p x = true
    · exact ⟨[], x, m, by simp [hx]⟩
    · obtain ⟨y, hy, hp⟩ := h
      have hy : y ∈ m := by
        rcases List.mem_cons.mp hy with rfl | h1
        · exact absurd hp hx
        · exact h1
      obtain ⟨a, v, b, h1, h2, h3, h4, h5, h6⟩ := ih ⟨y, hy, hp⟩
      refine ⟨x :: a, v, b, ?_⟩
      simp only [Bool.not_eq_true] at hx
      refine ⟨by simp [h1], h2, ?_, by simp [hx, h4], by simp [hx, h5], by simp [hx, h6]⟩
      intro z hz
      rcases List.mem_cons.mp hz with rfl | hz
      · exact hx
      · exact h3 z hz

theorem foldl_min_le (l : List Record) (n : Nat) :
    l.foldl (fun m r => min m r.sev) n ≤ n ∧ (∀ x ∈ l, l.foldl (fun m r => min m r.sev) n ≤ x.sev) ∧
      (l.foldl (fun m r => min m r.sev) n = n ∨ ∃ x ∈ l, x.sev = l.foldl (fun m r => min m r.sev) n) := by
  induction l generalizing n with
  | nil => simp
  | cons a l ih =>
    obtain ⟨h1, h2, h3⟩ := ih (min n a.sev)
    simp only [List.foldl_cons, List.mem_cons, forall_eq_or_imp]
    refine ⟨by omega, ⟨by omega, h2⟩, ?_⟩
    rcases h3 with h3 | ⟨x, hx, h3⟩
    · rw [h3]
      by_cases hn : n ≤ a.sev
      · exact .inl (by omega)
      · exact .inr ⟨a, .inl rfl, by omega⟩
    · exact .inr ⟨x, .inr hx, h3⟩

theorem loseRec_dropped (e : Events) (r : Record) : (e.loseRec r).dropped = min 0xFFFF (e.dropped + 1) := by
  unfold Events.loseRec satAdd
  simp only [Events.stick]
  split <;> (dsimp only; split <;> omega)

/-- What of an event queue only grows while records enter it: the sticky bits and the FATAL latch. -/
def Grows (e f : Events) : Prop :=
  (∀ n j, (nth0 e.sticky n).testBit j = true → (nth0 f.sticky n).testBit j = true) ∧ (e.fatal = true → f.fatal = true)

theorem Grows.refl (e : Events) : Grows e e := ⟨fun _ _ h => h, id⟩

theorem Grows.trans {e f g : Events} (h : Grows e f) (k : Grows f g) : Grows e g :=
  ⟨fun n j x => k.1 n j (h.1 n j x), k.2 ∘ h.2⟩

theorem Grows.of_eq {e f : Events} (h : f.sticky = e.sticky) (k : f.fatal = e.fatal) : Grows e f := by
  unfold Grows; rw [h, k]; exact Grows.refl e

theorem stick_grows (e : Events) (n b : Nat) : Grows e (e.stick n b) := by
  refine ⟨fun k j h => ?_, id⟩
  simp only [Events.stick, updateAt, nth0, List.getD_eq_getElem?_getD, List.getElem?_modify] at h ⊢
  cases hk : e.sticky[k]? with
  | none => simp [hk] at h
  | some v =>
    simp only [hk, Option.getD_some] at h
    by_cases hn : n = k <;> simp [hn, h]

theorem loseRec_grows (e : Events) (r : Record) : Grows e (e.loseRec r) := by
  unfold Events.loseRec
  dsimp only
  split
  · refine Grows.trans ?_ (stick_grows _ _ _)
    exact .of_eq rfl rfl
  · exact .of_eq rfl rfl

theorem enqueue_grows (e : Events) (r : Record) : Grows e (e.enqueue r).1 := by
  unfold Events.enqueue
  have h : Grows e (if 64 ≤ e.filling.length && e.drained then e.swap else e) := by
    split <;> exact .of_eq rfl rfl
  revert h
  generalize (if (decide (64 ≤ e.filling.length) && e.drained) = true then e.swap else e) = f
  intro h
  refine h.trans ?_
  dsimp only
  split
  · dsimp only
    split <;> exact .of_eq rfl rfl
  · split
    · split
      · refine Grows.trans ?_ (loseRec_grows _ _)
        exact .of_eq rfl rfl
      · exact loseRec_grows _ _
    · exact loseRec_grows _ _

theorem irq_holds (s : State) (n : Nat) : s.ev.holds n = true ↔ ∃ r ∈ s.ev.filling ++ s.ev.draining ++ s.ev.latched.toList, r.route = n := by
  unfold Events.holds
  simp only [Bool.or_eq_true, List.any_eq_true, List.mem_append, beq_iff_eq]
  constructor
  · rintro ((⟨r, h, e⟩ | ⟨r, h, e⟩) | h)
    · exact ⟨r, .inl (.inl h), e⟩
    · exact ⟨r, .inl (.inr h), e⟩
    · cases hl : s.ev.latched with
      | none => simp [hl] at h
      | some r => exact ⟨r, .inr (by simp), by simpa [hl] using h⟩
  · rintro ⟨r, (h | h) | h, e⟩
    · exact .inl (.inl ⟨r, h, e⟩)
    · exact .inl (.inr ⟨r, h, e⟩)
    · cases hl : s.ev.latched with
      | none => simp [hl] at h
      | some x =>
        simp only [hl, Option.toList_some, List.mem_singleton] at h
        subst h
        exact .inr (by simpa using e)

theorem mark_sticky (e : Events) (sev : Nat) (n : Nat) (fatal : Bool) (h : n < e.sticky.length) (hs : sev ≤ 4) :
    (nth0 (e.mark sev (some n) fatal).sticky n).testBit sev = true := by
  have key : ∀ f : Events, n < f.sticky.length →
      (nth0 (f.stick n (2 ^ sev + if fatal then 0x10000 else 0)).sticky n).testBit sev = true := by
    intro f hf
    simp only [Events.stick, updateAt, nth0, List.getD_eq_getElem?_getD, List.getElem?_modify]
    simp only [List.getElem?_eq_getElem hf, if_true, Option.map_some, Option.getD_some, Nat.testBit_or]
    have : (2 ^ sev + if fatal = true then 65536 else 0).testBit sev = true := by
      have : sev = 0 ∨ sev = 1 ∨ sev = 2 ∨ sev = 3 ∨ sev = 4 := by omega
      rcases this with rfl | rfl | rfl | rfl | rfl <;> cases fatal <;> decide
    simp [this]
  revert key
  unfold Events.mark
  cases fatal <;> intro key <;> dsimp only
  · by_cases h4 : sev = 4
    · rw [if_pos h4]; exact key { e with fatal := true } h
    · rw [if_neg h4]; exact key e h
  · by_cases h4 : sev = 4
    · rw [if_pos h4]; exact key { e with fatal := true } h
    · rw [if_neg h4]; exact key e h

theorem mark_fatal (e : Events) (c : Option Nat) (fatal : Bool) : (e.mark 4 c fatal).fatal = true := by
  unfold Events.mark
  dsimp only
  rw [if_pos rfl]
  split
  · rfl
  · split <;> rfl

theorem routeOf_spec {word dflt sev : Nat} (hd : dflt ≤ 4) (hs : sev = if dflt = 4 ∨ bitAt word 11 = false then dflt else min 4 (bitsAt word 12 3))
    (h : dflt = 4 ∨ bitAt word 10 = true) : sev ≤ 4 ∧ ∃ r, routeOf word dflt = some (sev, r) ∧ r = match bitsAt word 15 2 with
            | 0 => if sev ≤ 2 then 1 else 2
            | 3 => 0
            | n => n := by
  have h4 : sev ≤ 4 := by rw [hs]; split <;> omega
  have hsev : (if dflt ≠ 4 ∧ bitAt word 11 = true then min 4 (bitsAt word 12 3) else dflt) = sev := by
    rw [hs]
    by_cases hd4 : dflt = 4
    · simp [hd4]
    · cases bitAt word 11 <;> simp [hd4]
  refine ⟨h4, _, ?_, rfl⟩
  unfold routeOf
  rw [if_neg (by rcases h with h | h <;> simp [h])]
  simp only [hsev]
  have hlt : bitsAt word 15 2 < 4 := by unfold bitsAt; exact Nat.mod_lt _ (by decide)
  revert hlt
  generalize bitsAt word 15 2 = m
  intro hlt
  have : m = 0 ∨ m = 1 ∨ m = 2 ∨ m = 3 := by omega
  rcases this with rfl | rfl | rfl | rfl <;> rfl

end Sys2Proof.Machine
end

