-- ==== Sys2Proof/Laws/Lane.lean ====
section
/-! SUPPORT. What the operations of the lane and the queues can do to a channel: one lemma for each. -/
namespace Sys2Proof.Machine

theorem Chan.direct_eq (c : Chan) (s : Sub) :
    ∃ h q, Drains q ∧ c.direct s = { c with sched := h, occ := c.occ ++ q } := by
  have h : ∀ (h : Sched) (p : Bool), ∃ g q, Drains q ∧
      (if p = true then ({ c with sched := h } : Chan).log (occ0 0x12 1 s.num) else { c with sched := h }) =
        { c with sched := g, occ := c.occ ++ q } := by
    intro h p
    cases p
    · exact ⟨h, [], by simp [Drains], by simp⟩
    · exact ⟨h, [_], by simp [Drains, occ0], rfl⟩
  exact h _ _

theorem Chan.directAll_eq (c : Chan) :
    ∃ h q, Drains q ∧ c.directAll = { c with sched := h, occ := c.occ ++ q } := by
  obtain ⟨h, q, i, e⟩ := direct_eq c .a
  obtain ⟨h', q', i', e'⟩ := direct_eq { c with sched := h, occ := c.occ ++ q } .b
  refine ⟨h', q ++ q', ?_, ?_⟩
  · intro x hx
    simp only [List.mem_append] at hx
    exact hx.elim (i x) (i' x)
  · unfold Chan.directAll
    rw [e, e', List.append_assoc]

theorem Chan.linkRd_eq (c : Chan) (r : RdEntry) :
    ∃ b, c.linkRd r = { c with
      rq := updateWhere (fun x => x.seq == r.seq) (fun x => { x with stage := .queued }) c.rq, banks := b } ∧
      ((c.rowMatch r) = none → b = c.banks) := by
  unfold Chan.linkRd
  dsimp only
  have hr : (c.modRd r.seq fun x => { x with stage := .queued }).rowMatch r = c.rowMatch r := rfl
  rw [hr]
  split
  · next h => exact ⟨_, rfl, fun _ => rfl⟩
  · next n h =>
    refine ⟨((c.modRd r.seq fun x => { x with stage := .queued }).modBank r.dev.bank
      fun b => { b with ord := true, ordSeq := max n (if b.ord then b.ordSeq else 0) }).banks, ?_, fun hn => ?_⟩
    · unfold Chan.modBank Chan.setBank Chan.modRd; rfl
    · rw [hn] at h; cases h

theorem Chan.lacksCredit_of_admits {c : Chan} {op : ReqOp} {f : ReqFlit} (h : c.Admits op f) : c.lacksCredit op (hostClass f.cls.toNat) = false := by
  obtain ⟨-, h1, h2, -⟩ := h
  unfold Chan.lacksCredit
  have : nth0 c.lane.held (hostClass f.cls.toNat) ≠ 0 := by omega
  by_cases hw : op.isWrite = true
  · have := h2 hw
    simp_all
    omega
  · simp_all

/-- An opcode that ignores its line address raises no error for it, and the other fields stay (R74). -/
theorem Chan.strip_reqError (c : Chan) (op : ReqOp) (f : ReqFlit) : c.reqError op (op.strip f).laddr = c.reqError op f.laddr := by
  by_cases h : (op.hasAddr || op == .bad) = true
  · simp only [ReqOp.strip, h, if_true]
  · simp only [Bool.not_eq_true, Bool.or_eq_false_iff] at h
    have h1 : op.hasMd = false := by cases op <;> simp_all [ReqOp.hasAddr, ReqOp.hasMd]
    simp [Chan.reqError, h.1, h1]

@[simp] theorem ReqOp.strip_tag (op : ReqOp) (f : ReqFlit) : (op.strip f).tag = f.tag := by
  unfold ReqOp.strip; split <;> rfl
@[simp] theorem ReqOp.strip_cls (op : ReqOp) (f : ReqFlit) : (op.strip f).cls = f.cls := by
  unfold ReqOp.strip; split <;> rfl
@[simp] theorem ReqOp.strip_priv (op : ReqOp) (f : ReqFlit) : (op.strip f).priv = f.priv := by
  unfold ReqOp.strip; split <;> rfl

theorem Chan.arrive_admits {c : Chan} {e : Env} {op : BitVec 5} {o : ReqOp} {f : ReqFlit} (ho : reqOpOf op.toNat = o)
    (h : c.Admits o f) (h1 : o ≠ .sconf) (h2 : o ≠ .scan) :
    Chan.arrive (.req op f) e c = (c.consume o (hostClass f.cls.toNat)).accept o (o.strip f) := by
  have hn := Chan.lacksCredit_of_admits h
  obtain ⟨⟨i, a, d⟩, -, -, ht, hr⟩ := h
  have e1 : Chan.arrive (.req op f) e c = c.accept1 o (o.strip f) := by
    unfold Chan.arrive Chan.ingress
    simp only [i, a, ho, Bool.false_eq_true, if_false]
    unfold Chan.take
    cases o <;> simp_all
  rw [e1]
  unfold Chan.accept1
  simp only [ReqOp.strip_tag, ReqOp.strip_cls]
  rw [if_neg (by simp [hn]), if_neg]
  · have : (c.consume o (hostClass f.cls.toNat)).reqError o (o.strip f).laddr = c.reqError o f.laddr := Chan.strip_reqError _ o f
    rw [this, hr]
  · simpa [Chan.consume] using ht

theorem Chan.mdPart_eq (c : Chan) (op : ReqOp) (f : ReqFlit) (n : Nat) :
    c.mdPart op f n = { c with loft := c.loft.withOp op f n } := by
  unfold Chan.mdPart Loft.withOp
  split <;> rfl

theorem Chan.serveRd_links {c : Chan} {r : RdEntry} {n : Nat} (hb : c.beatWaits r.laddr r.seq = false)
    (hw : c.newestWr r.laddr r.seq = none) : c.serveRd r n = c.linkRd r := by
  unfold Chan.serveRd
  simp [hb, hw]

/-- A line of the response buffer is reserved for a forwarded read (R116). -/
theorem Chan.reserve_fwd {c : Chan} {r : RdEntry} (h : r.reserved = false) : c.reserve r true =
    c.modRd r.seq fun x => { x with reserved := true, fwd := true, idx := freeIdx ((c.rq.filter RdEntry.usesRsp).map RdEntry.idx) } := by
  unfold Chan.reserve Chan.modRd
  simp [h]

/-- Two changes of one read entry in turn. -/
theorem Chan.modRd_twice (c : Chan) (n : Nat) (f g : RdEntry → RdEntry) (h : ∀ x, (f x).seq = x.seq) :
    (c.modRd n f).modRd n g = c.modRd n fun x => g (f x) := by
  unfold Chan.modRd
  dsimp only
  rw [updateWhere_twice _ _ _ _ fun y => by rw [h]]

/-- A buffer word without a flipped bit is read out as it is. -/
theorem Chan.readOut_sound {c : Chan} {store key : Nat} (h : c.flaws store key = []) (ok code idx : Nat) :
    c.readOut store key ok code idx = (false, c) := by
  unfold Chan.readOut
  rw [h]
  rfl

theorem Chan.serveRd_forwards {c : Chan} {r : RdEntry} {o : RdOp} {n : Nat} {w : WrEntry}
    (hk : r.kind = .host o) (hr : r.reserved = false) (hb : c.beatWaits r.laddr r.seq = false)
    (hw : c.newestWr r.laddr r.seq = some w) (hm : w.merge = .no) (hl : c.fwdFree r = true) (hu : c.flaws 0 w.seq = []) :
    c.serveRd r n = { c with
      rq := updateWhere (fun x => x.seq == r.seq) (fun x => { x with
        stage := if r.rds = .unresolved then .inHold else .answered, reserved := true, fwd := true,
        idx := freeIdx ((c.rq.filter RdEntry.usesRsp).map RdEntry.idx), result := some w.forwarded }) c.rq,
      lane := { c.lane with
        ready := c.lane.ready ++ (if r.rds = .unresolved then [] else [dataRsp r w.forwarded (c.lane.hclk + n)]) },
      occ := c.occ ++ [occR 0x0C r.dev.bank.sub.num r.cls r.priv o.ty r.laddr] } := by
  have hc : w.complete = true := by simp [WrEntry.complete, hm]
  have he : ∀ x : Occ, (c.log x).readBuf w = (false, c.log x) := fun x => Chan.readOut_sound (by exact hu) _ _ _
  have h0 : c.readBuf w = (false, c) := Chan.readOut_sound hu _ _ _
  unfold Chan.serveRd
  rw [if_neg (by simp [hb]), if_neg (by simp [hk])]
  simp only [hw, hc, hl, Bool.and_self, if_true]
  unfold Chan.forward
  simp only [hk, he, h0, Bool.false_eq_true, if_false]
  rw [Chan.reserve_fwd hr]
  by_cases h : r.rds = .unresolved
  · simp only [h, if_true, List.append_nil]
    exact Chan.modRd_twice _ _ _ _ fun _ => rfl
  · simp only [h, if_false]
    rw [Chan.modRd_twice]
    · rfl
    · exact fun _ => rfl

theorem Chan.acceptRead_eq {c : Chan} {o : RdOp} {f : ReqFlit} (hb : c.beatWaits f.laddr c.nextSeq = false)
    (hw : c.newestWr f.laddr c.nextSeq = none) :
    ∃ b h q, c.acceptRead o f = { c with
      nextSeq := c.nextSeq + 1, loft := c.loft.withOp (.read o) f c.nextSeq,
      rq := updateWhere (fun r => r.seq == c.nextSeq) (fun r => { r with stage := .queued }) (c.rq ++ [c.newRead o f]),
      banks := b, sched := h, occ := c.occ ++ q } ∧ (c.rowMatch (c.newRead o f) = none → b = c.banks) ∧ Drains q := by
  unfold Chan.acceptRead Chan.takeSeq
  dsimp only
  rw [Chan.mdPart_eq]
  unfold Chan.placeRd
  rw [Chan.serveRd_links (by exact hb) (by exact hw)]
  obtain ⟨b, hb, hr⟩ := Chan.linkRd_eq { c with
    nextSeq := c.nextSeq + 1, loft := c.loft.withOp (.read o) f c.nextSeq, rq := c.rq ++ [c.newRead o f] } (c.newRead o f)
  obtain ⟨h, q, i, hd⟩ := Chan.directAll_eq { c with
    nextSeq := c.nextSeq + 1, loft := c.loft.withOp (.read o) f c.nextSeq,
    rq := updateWhere (fun r => r.seq == c.nextSeq) (fun r => { r with stage := .queued }) (c.rq ++ [c.newRead o f]),
    banks := b }
  exact ⟨b, h, q, (congrArg Chan.directAll hb).trans hd, hr, i⟩

/-! ### Waiting reads -/

/-- No read waits outside the bank lists. -/
theorem Chan.serveWaiting_none {c : Chan} {n : Nat} (h : ∀ r ∈ c.rq, r.stage ≠ .waitBeat) : c.serveWaiting n = c := by
  unfold Chan.serveWaiting
  rw [List.filter_eq_nil_iff.mpr (by simpa using h)]
  rfl

theorem Chan.cascade_nil (c : Chan) (plan : List Cmd) (n : Nat) : c.cascade plan n [] = [] := by
  induction n with
  | zero => rfl
  | succ n ih => simp [Chan.cascade, ih]

/-- A drop that names no planned command drops none. -/
theorem Chan.drop_none {c : Chan} {p : Cmd → Bool} (h : c.planned.filter p = []) : c.drop p = c := by
  unfold Chan.drop
  simp only [h, Chan.cascade_nil, List.foldl_nil]
  simp

theorem foldl_push {α : Type} (g : α → Rsp) (l : List α) (c : Chan) :
    l.foldl (fun c p => c.push (g p)) c = { c with lane := { c.lane with ready := c.lane.ready ++ l.map g } } := by
  induction l generalizing c with
  | nil => simp
  | cons a l ih =>
    rw [List.foldl_cons, ih, List.map_cons, List.append_cons]
    rfl

/-- What placing a write can change: the write queue, and the flaws of a buffer word that it rewrites. -/
theorem Chan.placeWr_eq (c : Chan) (w : WrEntry) : c.placeWr w = { c with wq := (c.placeWr w).wq, upsets := (c.placeWr w).upsets } := by
  unfold Chan.placeWr
  split
  · split
    · split <;> rfl
    · rfl
  · rfl

/-- Counting an occurrence does not change where a write is placed. -/
theorem Chan.placeWr_log (c : Chan) (x : Occ) (w : WrEntry) : (c.log x).placeWr w = (c.placeWr w).log x := by
  have h : (c.log x).olderWr w = c.olderWr w := rfl
  have hn : ∀ o, (c.log x).readWaitsOn o w = c.readWaitsOn o w := fun _ => rfl
  have hb : (c.log x).beatWaits w.laddr w.ord = c.beatWaits w.laddr w.ord := rfl
  unfold Chan.placeWr
  simp only [h, hn, hb]
  split
  · split
    · split <;> rfl
    · rfl
  · rfl

/-! ### Acceptance -/

/-- Placing a write looks at the two queues, the waiting beats and the flipped bits alone. -/
theorem Chan.placeWr_congr {c d : Chan} (hw : d.wq = c.wq) (hr : d.rq = c.rq) (hb : d.lane.beats = c.lane.beats)
    (hu : d.upsets = c.upsets) (e : WrEntry) :
    (d.placeWr e).wq = (c.placeWr e).wq ∧ (d.placeWr e).upsets = (c.placeWr e).upsets := by
  have ho : ∀ x, d.olderWr x = c.olderWr x := fun x => by unfold Chan.olderWr; rw [hw]
  have hn : ∀ o, d.readWaitsOn o e = c.readWaitsOn o e := fun o => by unfold Chan.readWaitsOn; rw [hr]
  have hv : d.beatWaits e.laddr e.ord = c.beatWaits e.laddr e.ord := by unfold Chan.beatWaits; rw [hb]
  have hq : (d.enqueueWr e).wq = (c.enqueueWr e).wq ∧ (d.enqueueWr e).upsets = (c.enqueueWr e).upsets := by
    unfold Chan.enqueueWr Chan.newWr
    simp only [ho, hw, hu, and_self]
  unfold Chan.placeWr
  simp only [ho, hn, hv]
  cases c.olderWr e with
  | none => exact hq
  | some o =>
    dsimp only
    split
    · split <;> simp [Chan.modWr, Chan.rewrite, hw, hu]
    · exact hq

theorem Chan.acceptRead_forwards {c : Chan} {o : RdOp} {f : ReqFlit} {w : WrEntry} (hb : c.beatWaits f.laddr c.nextSeq = false)
    (hw : c.newestWr f.laddr c.nextSeq = some w) (hm : w.merge = .no)
    (hl : c.rspUsed < 96) (hu : c.flaws 0 w.seq = []) :
      ∃ h q, c.acceptRead o f = { c with
          nextSeq := c.nextSeq + 1, loft := c.loft.withOp (.read o) f c.nextSeq,
          rq := updateWhere (fun r => r.seq == c.nextSeq)
            (fun r => { r with
              stage := if o = .rds then .inHold else .answered, reserved := true, fwd := true,
              idx := freeIdx ((c.rq.filter RdEntry.usesRsp).map RdEntry.idx), result := some w.forwarded })
            (c.rq ++ [c.newRead o f]),
          lane := { c.lane with
            ready := c.lane.ready ++ (if o = .rds then [] else [dataRsp (c.newRead o f) w.forwarded (c.lane.hclk + 4)]) },
          sched := h,
          occ := c.occ ++ (occR 0x0C (c.devOf f.laddr).bank.sub.num (hostClass f.cls.toNat)
            f.priv.toNat o.ty f.laddr :: q) } ∧ Drains q := by
  have hr : (c.newRead o f).reserved = false := rfl
  have e1 : (c.rq ++ [c.newRead o f]).filter RdEntry.usesRsp = c.rq.filter RdEntry.usesRsp := by
    simp [RdEntry.usesRsp, hr]
  have e2 : ({ c with
      nextSeq := c.nextSeq + 1, loft := c.loft.withOp (.read o) f c.nextSeq, rq := c.rq ++ [c.newRead o f] } : Chan).fwdFree
      (c.newRead o f) = true := by
    have : ({ c with
      nextSeq := c.nextSeq + 1, loft := c.loft.withOp (.read o) f c.nextSeq, rq := c.rq ++ [c.newRead o f] } : Chan).rspUsed =
        c.rspUsed := congrArg List.length e1
    unfold Chan.fwdFree
    rw [this]
    simp [hl]
  have e3 : ((c.newRead o f).rds = .unresolved) = (o = .rds) := by
    cases o <;> simp [Chan.newRead, mkRd]
  have hs := Chan.serveRd_forwards (c := { c with
      nextSeq := c.nextSeq + 1, loft := c.loft.withOp (.read o) f c.nextSeq, rq := c.rq ++ [c.newRead o f] }) (r := c.newRead o f) (o := o) (n := 4) (w := w) rfl hr hb hw hm e2 hu
  simp only [e3, e1] at hs
  unfold Chan.acceptRead Chan.takeSeq
  dsimp only
  rw [Chan.mdPart_eq]
  obtain ⟨h, q, i, hd⟩ := Chan.directAll_eq (({ c with
      nextSeq := c.nextSeq + 1, loft := c.loft.withOp (.read o) f c.nextSeq, rq := c.rq ++ [c.newRead o f] } : Chan).serveRd (c.newRead o f) 4)
  refine ⟨h, q, ?_, i⟩
  refine Eq.trans hd ?_
  rw [hs]
  simp only [List.append_assoc]
  rfl

theorem Chan.captureWrite_eq {c : Chan} {o : WrOp} {f : ReqFlit} (ho : o ≠ .wrx) : c.captureWrite o f = { c with
    nextSeq := c.nextSeq + 1, loft := c.loft.withOp (.write o) f c.nextSeq,
    lane := { c.lane with
      beats := c.lane.beats ++ [{ tag := f.tag, wr := some { op := o, f := f, seq := c.nextSeq } }] } } := by
  cases o <;> first | exact absurd rfl ho | rfl

theorem Chan.acceptWrite_eq {c : Chan} {w : WaitWr} {data : Line} {be : BitVec 64} {psn : Bool}
    (h : ∀ r ∈ c.rq, r.stage ≠ .waitBeat) :
    ∃ g q, c.acceptWrite w data be psn = { c with
          lane := { c.lane with cmps := c.lane.cmps ++ [(w.f.tag, c.lane.hclk + 3)] },
          wq := (c.placeWr (c.newWrite w data be psn)).wq, upsets := (c.placeWr (c.newWrite w data be psn)).upsets, sched := g,
          occ := c.occ ++ (occR 0x04 (c.devOf w.f.laddr).bank.sub.num (hostClass w.f.cls.toNat) w.f.priv.toNat
            w.op.ty w.f.laddr :: q) } ∧ Drains q := by
  obtain ⟨g, q, i, hd⟩ := Chan.directAll_eq { c with
          lane := { c.lane with cmps := c.lane.cmps ++ [(w.f.tag, c.lane.hclk + 3)] },
          wq := (c.placeWr (c.newWrite w data be psn)).wq, upsets := (c.placeWr (c.newWrite w data be psn)).upsets,
          occ := c.occ ++ [occR 0x04 (c.devOf w.f.laddr).bank.sub.num (hostClass w.f.cls.toNat) w.f.priv.toNat
            w.op.ty w.f.laddr] }
  refine ⟨g, q, ?_, i⟩
  refine Eq.trans ?_ (hd.trans (by simp))
  unfold Chan.acceptWrite
  dsimp only
  rw [Chan.placeWr_log, Chan.placeWr_eq, Chan.serveWaiting_none (by exact h)]
  rfl

/-! ### Going down -/

/-- What a fatal event leaves of a channel that was up. -/
theorem Chan.fatal_eq {c : Chan} (h : c.down = false) :
    c.fatal.power = { c.power with fatal := true, trans := none } ∧ c.fatal.rq = [] ∧ c.fatal.lane.beats = [] ∧
      c.fatal.lane.flushes = [] ∧ c.fatal.fab = c.fab ∧ ∀ e ∈ c.evOut, e ∈ c.fatal.evOut := by
  obtain ⟨l, w, k, o, e, g, u, n, he, hb, hf⟩ := c.reportLost.empty_eq
  unfold Chan.fatal
  rw [if_neg (by simp [h])]
  dsimp only
  rw [he]
  unfold Chan.reportLost
  split
  · exact ⟨rfl, rfl, hb, hf, rfl, fun _ h => h⟩
  · exact ⟨rfl, rfl, hb, hf, rfl, fun _ h => List.mem_append_left _ h⟩

end Sys2Proof.Machine
end

