-- ==== Sys2Proof/Laws/Levels.lean ====
section
/-! SUPPORT. Commands of every channel at once, level changes and the ripcord. -/
namespace Sys2Proof.Machine

theorem allChans_nodup : allChans.Nodup := by decide

theorem mem_allChans (ch : ChanId) : ch ∈ allChans := by revert ch; decide

theorem onChans_chan {f : Env → Chan → Chan} (hf : ∀ e e' c, f e c = f e' c) (l : List ChanId) (hl : l.Nodup) (s : State) (ch : ChanId) :
    (ch ∉ l → (s.onChans l f).chan ch = s.chan ch) ∧
    (ch ∈ l → ∃ k, (s.onChans l f).chan ch = { f s.env (s.chan ch) with cnt := k, evOut := [], occ := [] }) := by
  induction l generalizing s with
  | nil => exact ⟨fun _ => rfl, fun h => by simp at h⟩
  | cons a l ih =>
    have ha : ∀ k, k ≠ a → (s.onChan a f).chan k = s.chan k := by
      intro k hk
      have h := raiseAll_same a (f s.env (s.chan a)).events
        (({ s with cnt := gatherBlk a (f s.env (s.chan a)) s.cnt } : State).setChan a { (f s.env (s.chan a)).gatherOcc with evOut := [], occ := [] })
      have hr : ∀ (x : State) (c : Chan), (x.repairDone a c).chan k = x.chan k := by
        intro x c
        unfold State.repairDone
        split <;> rfl
      unfold State.onChan State.commitChan
      dsimp only
      rw [hr, h.chan, State.chan_setChan_ne _ _ hk]
      rfl
    have hs : ∃ k, (s.onChan a f).chan a = { f s.env (s.chan a) with cnt := k, evOut := [], occ := [] } := by
      have h := raiseAll_same a (f s.env (s.chan a)).events
        (({ s with cnt := gatherBlk a (f s.env (s.chan a)) s.cnt } : State).setChan a { (f s.env (s.chan a)).gatherOcc with evOut := [], occ := [] })
      have hr : ∀ (x : State) (c : Chan), (x.repairDone a c).chan a = x.chan a := by
        intro x c
        unfold State.repairDone
        split <;> rfl
      obtain ⟨k, hk⟩ := (f s.env (s.chan a)).gatherOcc_eq
      refine ⟨k, ?_⟩
      unfold State.onChan State.commitChan
      dsimp only
      rw [hr, h.chan, State.chan_setChan_self, hk]
    have hl2 := List.nodup_cons.mp hl
    have e : s.onChans (a :: l) f = (s.onChan a f).onChans l f := rfl
    rw [e]
    obtain ⟨i1, i2⟩ := ih hl2.2 (s.onChan a f)
    refine ⟨fun h => ?_, fun h => ?_⟩
    · rw [i1 (fun hm => h (by simp [hm])), ha _ (fun hm => h (by simp [hm]))]
    · by_cases hc : ch = a
      · subst hc
        rw [i1 hl2.1]
        exact hs
      · obtain ⟨k, hk⟩ := i2 (by simpa [hc] using h)
        refine ⟨k, ?_⟩
        rw [hk, ha _ hc, hf _ s.env]

/-- Several channels, in silence. -/
theorem onChans_silent {f : Env → Chan → Chan} (he : ∀ e c, (f e c).evOut = c.evOut) (ho : ∀ e c, (f e c).occ = c.occ)
    (l : List ChanId) (hl : l.Nodup) (s : State) (hr : ∀ ch, s.Rest ch) :
    s.onChans l f = { s with chans := Vector.ofFn fun ch => if ch ∈ l then f s.env (s.chan ch) else s.chan ch } := by
  induction l generalizing s with
  | nil =>
    have : (Vector.ofFn fun ch : Fin 8 => s.chan ch) = s.chans := by
      apply Vector.ext
      intro i hi
      simp [State.chan, Vector.get_eq_getElem]
    cases s
    simp only [List.not_mem_nil, if_false, this]
    rfl
  | cons a l ih =>
    have e : s.onChans (a :: l) f = (s.onChan a f).onChans l f := rfl
    have h1 := State.onChan_silent (f := f) (hr a) (by rw [he]; exact (hr a).1) (by rw [ho]; exact (hr a).2.1)
    have hl2 := List.nodup_cons.mp hl
    rw [e, h1, ih hl2.2]
    · have : ∀ ch : Fin 8, (if ch ∈ l then f (s.setChan a (f s.env (s.chan a))).env ((s.setChan a (f s.env (s.chan a))).chan ch)
          else (s.setChan a (f s.env (s.chan a))).chan ch) = if ch ∈ a :: l then f s.env (s.chan ch) else s.chan ch := by
        intro ch
        by_cases hc : ch = a
        · subst hc
          rw [if_neg hl2.1, if_pos (by simp), State.chan_setChan_self]
        · rw [State.chan_setChan_ne _ _ hc]
          simp [hc]
          rfl
      simp only [this]
      rfl
    · intro ch
      by_cases hc : ch = a
      · subst hc
        refine ⟨?_, ?_, (hr ch).2.2⟩
        · rw [State.chan_setChan_self, he]; exact (hr ch).1
        · rw [State.chan_setChan_self, ho]; exact (hr ch).2.1
      · refine ⟨?_, ?_, (hr ch).2.2⟩
        · rw [State.chan_setChan_ne _ _ hc]; exact (hr ch).1
        · rw [State.chan_setChan_ne _ _ hc]; exact (hr ch).2.1

theorem onChans_all {f : Env → Chan → Chan} (he : ∀ e c, (f e c).evOut = c.evOut) (ho : ∀ e c, (f e c).occ = c.occ)
    (s : State) (hr : ∀ ch, s.Rest ch) : s.onChans allChans f = { s with chans := s.chans.map (f s.env) } := by
  rw [onChans_silent he ho _ allChans_nodup s hr]
  congr 1
  apply Vector.ext
  intro i hi
  simp [mem_allChans, State.chan, Vector.get_eq_getElem]

theorem pendLevel_none {i : BlkImg} {s : State} (h : s.lvl.pend = none) : s.pendLevel i = s := by
  unfold State.pendLevel
  rw [h]

theorem State.raiseBlk_lvl_pend (s : State) (a d n : Nat) {k m : Nat} :
    ((s.raiseBlk a d n).blkCount k m).lvl.pend = s.lvl.pend :=
  congrArg Levels.pend (State.raiseBlk_same s a d n).2.2.2.2.1

/-- What dropping commands leaves alone. -/
structure Undone (c d : Chan) : Prop where
  evOut : d.evOut = c.evOut
  occ : d.occ = c.occ
  wq : d.wq = c.wq
  lane : d.lane = c.lane
  dclk : d.dclk = c.dclk
  bal : d.bal.pct = c.bal.pct ∧ d.bal.capped = c.bal.capped ∧ d.bal.ramp = c.bal.ramp ∧ d.bal.eff = c.bal.eff

theorem Undone.refl (c : Chan) : Undone c c := ⟨rfl, rfl, rfl, rfl, rfl, rfl, rfl, rfl, rfl⟩

theorem Undone.trans {a b c : Chan} (h : Undone a b) (g : Undone b c) : Undone a c :=
  ⟨g.evOut.trans h.evOut, g.occ.trans h.occ, g.wq.trans h.wq, g.lane.trans h.lane, g.dclk.trans h.dclk,
    g.bal.1.trans h.bal.1, g.bal.2.1.trans h.bal.2.1, g.bal.2.2.1.trans h.bal.2.2.1, g.bal.2.2.2.trans h.bal.2.2.2⟩

theorem Chan.drop_undone (c : Chan) (p : Cmd → Bool) : Undone c (c.drop p) := by
  obtain ⟨ta, tb, r, s, q, e, -⟩ := c.drop_eq p
  rw [e]
  exact ⟨rfl, rfl, rfl, rfl, rfl, rfl, rfl, rfl, rfl⟩

theorem Chan.capPlan_undone (c : Chan) (sb : Sub) : Undone c (c.capPlan sb) := by
  unfold Chan.capPlan
  split
  · exact .refl c
  · next k _ =>
    have h := Chan.drop_undone c fun x => x.bank.sub == sb && c.isHostCol x && decide (k.time < x.time)
    exact ⟨h.evOut, h.occ, h.wq, h.lane, h.dclk, h.bal⟩

theorem Chan.capPlan_none {c : Chan} (h : c.planned = []) (sb : Sub) : c.capPlan sb = c := by
  unfold Chan.capPlan
  rw [h]
  rfl

theorem Chan.cap_undone (e : Env) (c : Chan) :
    Undone { c with bal := { c.bal with pct := e.cap, capped := true, ramp := false, tokA := 0, tokB := 0 } } (c.cap e) := by
  unfold Chan.cap
  dsimp only
  split
  · have h2 : ∀ (s : Sub) (d : Chan), Undone d (if d.capFree s then d else d.capPlan s) := by
      intro s d
      split
      · exact .refl d
      · exact Chan.capPlan_undone d s
    have h := (h2 .a { c with bal := { c.bal with pct := e.cap, capped := true, ramp := false, tokA := 0, tokB := 0 } }).trans
      (h2 .b _)
    exact ⟨h.evOut, h.occ, h.wq, h.lane, h.dclk, h.bal⟩
  · exact ⟨rfl, rfl, rfl, rfl, rfl, rfl, rfl, rfl, rfl⟩

theorem chan_map (s : State) (f : Chan → Chan) (ch : ChanId) : ({ s with chans := s.chans.map f } : State).chan ch = f (s.chan ch) := by
  simp [State.chan, Vector.get_eq_getElem]

theorem State.onChan_winNext (s : State) (ch : ChanId) (f : Env → Chan → Chan) : (s.onChan ch f).winNext = s.winNext := by
  have h := raiseAll_same ch (f s.env (s.chan ch)).events
    (({ s with cnt := gatherBlk ch (f s.env (s.chan ch)) s.cnt } : State).setChan ch { (f s.env (s.chan ch)).gatherOcc with evOut := [], occ := [] })
  have hr : ∀ (x : State) (c : Chan), (x.repairDone ch c).winNext = x.winNext := by
    intro x c
    unfold State.repairDone
    split <;> rfl
  unfold State.onChan State.commitChan
  dsimp only
  rw [hr]
  exact h.2.2.2.2.2.2.2.2.2.2.2

theorem State.onChans_winNext (s : State) (l : List ChanId) (f : Env → Chan → Chan) : (s.onChans l f).winNext = s.winNext := by
  induction l generalizing s with
  | nil => rfl
  | cons a l ih => exact (ih _).trans (State.onChan_winNext s a f)

/-- Everything of the common but the event queue and the block's counters. -/
def SameCommon (s t : State) : Prop :=
  t.pending = s.pending ∧ t.img = s.img ∧ t.loader = s.loader ∧ t.lvl = s.lvl ∧ t.wide = s.wide ∧ t.mgt = s.mgt ∧ t.rst = s.rst ∧
    t.tsBase = s.tsBase ∧ t.now = s.now ∧ t.rclk = s.rclk ∧ t.winNext = s.winNext

theorem SameCommon.refl (s : State) : SameCommon s s := by simp [SameCommon]

theorem SameCommon.trans {s t u : State} (h : SameCommon s t) (g : SameCommon t u) : SameCommon s u := by
  simp_all [SameCommon]

theorem outside_common {ch : ChanId} {s t : State} (h : SameOutside ch s t) : SameCommon s t := h.2

theorem butEv_common {s t : State} (h : SameButEv s t) : SameCommon s t := by
  simp_all [SameCommon, SameButEv]

theorem onChan_common {s : State} (h : s.mgt.repair = none) (ch : ChanId) (f : Env → Chan → Chan) : SameCommon s (s.onChan ch f) :=
  outside_common (State.commitChan_became (by rw [h]; exact nofun)).1

theorem onChans_common {s : State} (h : s.mgt.repair = none) (l : List ChanId) (f : Env → Chan → Chan) : SameCommon s (s.onChans l f) := by
  induction l generalizing s with
  | nil => exact .refl s
  | cons a l ih =>
    have h1 := onChan_common h a f
    exact h1.trans (ih (s := s.onChan a f) (by rw [h1.2.2.2.2.2.1]; exact h))

theorem blkEdge_common (s : State) : SameCommon s s.blkCounterEdge := by
  unfold State.blkCounterEdge
  have : ∀ (l : List Nat) (u : State), SameCommon u (l.foldl (fun s i => s.raiseBlk 0x07A 0 i) u) := by
    intro l
    induction l with
    | nil => exact fun u => .refl u
    | cons a l ih => exact fun u => (butEv_common (State.raiseBlk_same u _ _ _)).trans (ih _)
  exact SameCommon.trans (t := { s with cnt := s.cnt.edge.1 }) (.refl s) (this _ _)

end Sys2Proof.Machine
end

