-- ==== Sys2Proof/Laws/Loader.lean ====
section
/-! SUPPORT. The loader: what a frame counts, and what an end of a load starts. -/
namespace Sys2Proof.Machine

theorem onChan_startPend {s : State} (h : ∀ ch, s.Rest ch ∧ (s.chan ch).power.pend = none) (ch : ChanId) : s.onChan ch Chan.startPend = s := by
  refine State.onChan_id (h ch).1 ?_
  unfold Chan.startPend
  rw [(h ch).2]

theorem onChans_startPend {s : State} (h : ∀ ch, s.Rest ch ∧ (s.chan ch).power.pend = none) (l : List ChanId) : s.onChans l Chan.startPend = s := by
  induction l with
  | nil => rfl
  | cons a l ih =>
    show (s.onChan a Chan.startPend).onChans l Chan.startPend = s
    rw [onChan_startPend h a]; exact ih

theorem loadEnds_id {s : State} (h : ∀ ch, s.Rest ch ∧ (s.chan ch).power.pend = none) (l : List ChanId) : s.loadEnds l = s := by
  unfold State.loadEnds
  split
  · rfl
  · exact onChans_startPend h l

theorem withLoader_eq {s : State} (h : s.NoneWaits) (l : Loader) : s.withLoader l = ({ s with loader := l } : State).trussDone s.loader.st := by
  unfold State.withLoader
  have h1 : ∀ ch, ({ s with loader := l } : State).Rest ch ∧ (({ s with loader := l } : State).chan ch).power.pend = none := h
  rw [loadEnds_id h1]
  refine loadEnds_id ?_ _
  have hs : ∀ (u : State), (u.trussDone s.loader.st).chans = u.chans ∧ (u.trussDone s.loader.st).mgt = u.mgt := by
    intro u
    unfold State.trussDone
    split
    · have := State.raiseBlk_same u 0x07B 0 u.loader.fault; exact ⟨this.2.1, this.2.2.2.2.2.2.1⟩
    · split
      · have := State.raiseBlk_same u 0x07B 0 (16 + u.loader.fault); exact ⟨this.2.1, this.2.2.2.2.2.2.1⟩
      · exact ⟨rfl, rfl⟩
  intro ch
  have := h ch
  obtain ⟨a, b⟩ := hs { s with loader := l }
  unfold State.Rest State.chan
  rw [a, b]
  exact this

theorem trussDone_silent {s : State} {l : Loader} (hr : l.st = .refused → s.loader.st = .refused) (hc : s.loader.st = .committing → l.st ≠ .committed) :
    ({ s with loader := l } : State).trussDone s.loader.st = { s with loader := l } := by
  unfold State.trussDone
  dsimp only
  rw [if_neg, if_neg]
  · exact fun h => hc h.1 h.2
  · exact fun h => h.1 (by rw [h.2, hr h.2])

theorem trussDone_refused {s : State} {l : Loader} (hs : s.loader.st ≠ .refused) (hl : l.st = .refused) :
    ({ s with loader := l } : State).trussDone s.loader.st = ({ s with loader := l } : State).raiseBlk 0x07B 0 l.fault := by
  unfold State.trussDone
  dsimp only
  rw [if_pos ⟨by rw [hl]; exact fun h => hs h.symm, hl⟩]

theorem allGrounded_iff (s : State) : s.allGrounded = true ↔ ∀ ch, (s.chan ch).power.cur = .grounded ∧ (s.chan ch).power.trans = none := by
  unfold State.allGrounded
  rw [List.all_eq_true]
  constructor
  · intro h ch
    have := h ch (by revert ch; decide)
    simpa [Option.isNone_iff_eq_none] using this
  · intro h ch _
    simpa [Option.isNone_iff_eq_none] using h ch

/-- A loader step that counts no frame. -/
def SameCount (q r : Loader) : Prop := r.accepted = q.accepted ∧ r.nextAlive = q.nextAlive ∧ r.based = q.based

theorem refuse_same (q : Loader) (f : TFault) : SameCount q (q.refuse f) := ⟨rfl, rfl, rfl⟩

theorem feed_same (q : Loader) (p : List Nat) : SameCount q (q.feed p) := by
  unfold Loader.feed
  split <;> exact ⟨rfl, rfl, rfl⟩

theorem sameCount_trans {q r u : Loader} (h : SameCount q r) (g : SameCount r u) : SameCount q u :=
  ⟨g.1.trans h.1, g.2.1.trans h.2.1, g.2.2.trans h.2.2⟩

theorem takeBody_same (q : Loader) (o : OpenSect) (last : Bool) : SameCount q (q.takeBody o last) := by
  unfold Loader.takeBody
  split
  · exact refuse_same ..
  · split
    · exact ⟨rfl, rfl, rfl⟩
    · split
      · exact refuse_same ..
      · split
        · exact refuse_same ..
        · split
          · exact refuse_same ..
          · exact ⟨rfl, rfl, rfl⟩

theorem headerFrame_same (q : Loader) (a b : Nat) (c : Bool) (p : List Nat) : SameCount q (q.headerFrame a b c p) := by
  unfold Loader.headerFrame
  split
  · exact refuse_same ..
  · have h : SameCount q (({ q with header := some p, chkReg := hdrInit p } : Loader).feed p) := by
      have h := feed_same { q with header := some p, chkReg := hdrInit p } p
      exact ⟨h.1, h.2.1, h.2.2⟩
    generalize ({ q with header := some p, chkReg := hdrInit p } : Loader).feed p = r at h
    dsimp only
    split
    · exact sameCount_trans h (refuse_same ..)
    · split
      · exact sameCount_trans h (refuse_same ..)
      · exact h

theorem trailerFrame_same (q : Loader) (a : List Nat) (b : Nat) (c : Bool) (p : List Nat) : SameCount q (q.trailerFrame a b c p) := by
  unfold Loader.trailerFrame
  generalize leAt p 0 8 = v
  dsimp only
  split
  · exact refuse_same ..
  · split
    · exact refuse_same ..
    · exact ⟨rfl, rfl, rfl⟩

theorem sectionFrame_same (q : Loader) (a : List Nat) (b d : Nat) (c e : Bool) (p : List Nat) : SameCount q (q.sectionFrame a b d c e p) := by
  unfold Loader.sectionFrame
  have h := feed_same q p
  generalize q.feed p = r at h
  dsimp only
  refine sameCount_trans h ?_
  split
  · split
    · exact refuse_same ..
    · split
      · exact refuse_same ..
      · exact takeBody_same ..
  · split
    · exact refuse_same ..
    · exact takeBody_same ..

theorem content_same (q : Loader) (f : List Nat) : SameCount q (q.content f) := by
  unfold Loader.content
  generalize (f.drop 4).take (min (nth0 f 2) 56) = p
  dsimp only
  split
  · exact headerFrame_same ..
  · split
    · exact trailerFrame_same ..
    · split
      · exact sameCount_trans (feed_same _ _) (refuse_same ..)
      · exact sectionFrame_same ..

theorem mgtRetry_none {s : State} (h : s.mgt.held = none) : s.mgtRetry = s := by
  unfold State.mgtRetry
  rw [h]

theorem commitImg_keeps (e : Env) (c : Chan) (i : Option ChanImg) : (c.commitImg e i).img = i ∧ (c.commitImg e i).evOut = c.evOut ∧
    (c.commitImg e i).occ = c.occ ∧ (c.commitImg e i).power.pend = c.power.pend ∧ (c.commitImg e i).power.cur = c.power.cur ∧
    (c.commitImg e i).lane = c.lane ∧ (c.commitImg e i).loft.on = false ∧ (c.commitImg e i).th.enable = false := by
  unfold Chan.commitImg Chan.loadLive Chan.loadImg
  cases i <;> exact ⟨rfl, rfl, rfl, rfl, rfl, rfl, rfl, rfl⟩

end Sys2Proof.Machine
end

