-- ==== Sys2Proof/Laws/Loft.lean ====
section
/-! SUPPORT. The Loft's operations and the writes that it gives. -/
namespace Sys2Proof.Machine

/-- With no flipped buffer bit every word is read out as it is. -/
theorem Chan.flaws_nil {c : Chan} (h : c.upsets = []) (store key : Nat) : c.flaws store key = [] := by
  unfold Chan.flaws
  rw [h]
  rfl

theorem Chan.checkTagWords_sound {c : Chan} (h : c.upsets = []) (e : Env) (s : Nat) : c.checkTagWords e s = c := by
  unfold Chan.checkTagWords
  generalize c.loft.entries.filter (fun x => x.set == s) = l
  induction l with
  | nil => rfl
  | cons a l ih => simp only [List.foldl_cons, Chan.readOut_sound (c.flaws_nil h _ _), Bool.false_and, Bool.false_eq_true, if_false, ih]

theorem Chan.checkData_sound {c : Chan} (h : c.upsets = []) (e : Env) (x : LoftEntry) : c.checkData e x = c := by
  unfold Chan.checkData
  simp only [Chan.readOut_sound (c.flaws_nil h _ _), Bool.false_eq_true, if_false]

/-- The oldest operation of the input, while no buffer word is flipped: it hits, stalls or misses. -/
theorem Chan.opStart_sound {c : Chan} {e : Env} {o : LoftOp} (hi : c.loft.ops.find? (fun p => p.stage == .input) = some o)
    (hrep : o.isRepair = false) (hu : c.upsets = []) :
    c.opStart e = match c.loft.find o.granule with
      | some x => if !c.loft.pinned o.granule && decide (12 ≤ c.loft.pinsIn x.set) then c.stall e 0
        else (c.log (o.occ (if x.valid then 0x15 else 0x16))).startOn o x
      | none => c.miss e o := by
  have hd : ∀ x, c.dataBad x = false := fun x => by
    unfold Chan.dataBad
    rw [Chan.readOut_sound (c.flaws_nil hu _ _)]
  unfold Chan.opStart
  rw [hi]
  dsimp only
  rw [hrep, if_neg (by simp), Chan.checkTagWords_sound hu, if_neg (by simp [hd])]
  cases (c.loft.find o.granule).filter fun x => x.valid && !c.loft.pinned x.granule with
  | none => rfl
  | some x =>
    simp only [Chan.checkData_sound hu] <;> rfl

theorem Chan.placeWr_new {c : Chan} {w : WrEntry} (h : c.olderWr w = none) : c.placeWr w = c.enqueueWr w := by
  unfold Chan.placeWr
  rw [h]

theorem Chan.newWr_keeps (c : Chan) (w : WrEntry) : (c.newWr w).src = w.src ∧ (c.newWr w).laddr = w.laddr ∧
    (c.newWr w).line = (if w.psn then 0 else w.line) ∧ (c.newWr w).be = (if w.psn then allBytes else w.be) ∧ (c.newWr w).psn = w.psn ∧
    (c.newWr w).cls = w.cls ∧ (c.newWr w).committed = w.committed := by
  unfold Chan.newWr
  cases h : w.psn
  · by_cases hb : w.be = allBytes
    · simp [h, hb]
    · cases c.olderWr w <;> simp [h, hb]
  · simp [h]

end Sys2Proof.Machine
end

