-- ==== Sys2Proof/Laws/Mailbox.lean ====
section
/-! SUPPORT. The words and the check of a message. -/
namespace Sys2Proof.Machine

theorem mkMsg_len (alive op len st : Nat) (pay : List Word) : (mkMsg alive op len st pay).length = 16 := by
  simp [mkMsg]

theorem mkMsg_sum (alive op len st : Nat) (pay : List Word) : (mkMsg alive op len st pay).foldl (· + ·) 0 = 0xFFFFFFFF := by
  have h : ∀ ws : List Word, ws.length = 15 → (ws ++ [msgCheck ws]).foldl (· + ·) 0 = 0xFFFFFFFF := by
    intro ws hl
    simp only [List.foldl_append, List.foldl_cons, List.foldl_nil, msgCheck]
    rw [List.take_of_length_le (by omega)]
    generalize ws.foldl (· + ·) 0 = x
    rw [BitVec.add_not_self]; rfl
  exact h _ (by simp)

theorem mkMsg_head (alive op len st : Nat) (pay : List Word) : ((mkMsg alive op len st pay).getD 0 0).toNat =
        alive % 256 * 2 ^ 24 + op % 256 * 2 ^ 16 + len % 16 * 2 ^ 12 + st % 256 := by
  have : (mkMsg alive op len st pay).getD 0 0 = mkWord [(24, alive % 256), (16, op % 256), (12, len % 16), (0, st % 256)] := by
    simp [mkMsg]
  rw [this]
  simp only [mkWord, packFields, BitVec.toNat_ofNat]
  omega

end Sys2Proof.Machine
end

