-- ==== Sys2Proof/Laws/PerInstr.lean ====
section
/-! SUPPORT. The statements made for each command of the table. Family Channel: a command of one channel puts no image in force
and takes none out of force. -/
namespace Sys2Proof.Laws.Channel
open Sys2Proof.Machine

/-- A command of one channel is none of those that reload the image (R22, R53). -/
def Statement (i : Instr) : Prop := channelOf i ≠ none → ¬Reloads i

/-- The command is none of those that reload the image. -/
theorem of_ne {i : Instr} (h1 : i ≠ .pwrRstAssert) (h2 : ∀ n x p, i ≠ .commitComplete n x p) (h3 : ∀ ch, i ≠ .resetSequenceEnd ch) :
    Statement i := by
  rintro - (h | ⟨n, x, p, h⟩ | ⟨ch, h⟩)
  · exact h1 h
  · exact h2 n x p h
  · exact h3 ch h

/-- The command is none of a channel's own. -/
theorem of_none {i : Instr} (h : channelOf i = none) : Statement i := fun g => absurd h g

theorem rd (ch : ChanId) (f : ReqFlit) : Statement (.rd ch f) := of_ne nofun (fun _ _ _ => nofun) fun _ => nofun
theorem rds (ch : ChanId) (f : ReqFlit) : Statement (.rds ch f) := of_ne nofun (fun _ _ _ => nofun) fun _ => nofun
theorem sconf (ch : ChanId) (f : ReqFlit) : Statement (.sconf ch f) := of_ne nofun (fun _ _ _ => nofun) fun _ => nofun
theorem scan (ch : ChanId) (f : ReqFlit) : Statement (.scan ch f) := of_ne nofun (fun _ _ _ => nofun) fun _ => nofun
theorem rdm (ch : ChanId) (f : ReqFlit) : Statement (.rdm ch f) := of_ne nofun (fun _ _ _ => nofun) fun _ => nofun
theorem rdmu (ch : ChanId) (f : ReqFlit) : Statement (.rdmu ch f) := of_ne nofun (fun _ _ _ => nofun) fun _ => nofun
theorem wr (ch : ChanId) (f : ReqFlit) : Statement (.wr ch f) := of_ne nofun (fun _ _ _ => nofun) fun _ => nofun
theorem wrp (ch : ChanId) (f : ReqFlit) : Statement (.wrp ch f) := of_ne nofun (fun _ _ _ => nofun) fun _ => nofun
theorem wrm (ch : ChanId) (f : ReqFlit) : Statement (.wrm ch f) := of_ne nofun (fun _ _ _ => nofun) fun _ => nofun
theorem wrx (ch : ChanId) (f : ReqFlit) : Statement (.wrx ch f) := of_ne nofun (fun _ _ _ => nofun) fun _ => nofun
theorem mdr (ch : ChanId) (f : ReqFlit) : Statement (.mdr ch f) := of_ne nofun (fun _ _ _ => nofun) fun _ => nofun
theorem mdw (ch : ChanId) (f : ReqFlit) : Statement (.mdw ch f) := of_ne nofun (fun _ _ _ => nofun) fun _ => nofun
theorem mdcas (ch : ChanId) (f : ReqFlit) : Statement (.mdcas ch f) := of_ne nofun (fun _ _ _ => nofun) fun _ => nofun
theorem flush (ch : ChanId) (f : ReqFlit) : Statement (.flush ch f) := of_ne nofun (fun _ _ _ => nofun) fun _ => nofun
theorem badOpcodeRequest (ch : ChanId) (opcode : BitVec 5) (f : ReqFlit) : Statement (.badOpcodeRequest ch opcode f) := of_ne nofun (fun _ _ _ => nofun) fun _ => nofun
theorem wdatBeat (ch : ChanId) (b : Beat) : Statement (.wdatBeat ch b) := of_ne nofun (fun _ _ _ => nofun) fun _ => nofun
theorem wakeStoreCapture (ch : ChanId) (c : Captured) : Statement (.wakeStoreCapture ch c) := of_ne nofun (fun _ _ _ => nofun) fun _ => nofun
theorem responseSend (ch : ChanId) : Statement (.responseSend ch) := of_ne nofun (fun _ _ _ => nofun) fun _ => nofun
theorem cmpSend (ch : ChanId) : Statement (.cmpSend ch) := of_ne nofun (fun _ _ _ => nofun) fun _ => nofun
theorem flushComplete (ch : ChanId) : Statement (.flushComplete ch) := of_ne nofun (fun _ _ _ => nofun) fun _ => nofun
theorem schedulerPlan (ch : ChanId) : Statement (.schedulerPlan ch) := of_ne nofun (fun _ _ _ => nofun) fun _ => nofun
theorem tailShift (ch : ChanId) : Statement (.tailShift ch) := of_ne nofun (fun _ _ _ => nofun) fun _ => nofun
theorem bankTimingExpire (ch : ChanId) (b : Bank) : Statement (.bankTimingExpire ch b) := of_ne nofun (fun _ _ _ => nofun) fun _ => nofun
theorem urgencyEscalate (ch : ChanId) (seq : Nat) : Statement (.urgencyEscalate ch seq) := of_ne nofun (fun _ _ _ => nofun) fun _ => nofun
theorem lineCaptured (ch : ChanId) (sub : Sub) (w : PinBurst) (crcOk : Bool) : Statement (.lineCaptured ch sub w crcOk) := of_ne nofun (fun _ _ _ => nofun) fun _ => nofun
theorem decodeClassify (ch : ChanId) (sub : Sub) : Statement (.decodeClassify ch sub) := of_ne nofun (fun _ _ _ => nofun) fun _ => nofun
theorem mergeComplete (ch : ChanId) (seq : Nat) : Statement (.mergeComplete ch seq) := of_ne nofun (fun _ _ _ => nofun) fun _ => nofun
theorem writeRelease (ch : ChanId) (seq : Nat) : Statement (.writeRelease ch seq) := of_ne nofun (fun _ _ _ => nofun) fun _ => nofun
theorem patchWriteEnqueue (ch : ChanId) : Statement (.patchWriteEnqueue ch) := of_ne nofun (fun _ _ _ => nofun) fun _ => nofun
theorem pholdExpire (ch : ChanId) (idx : Fin 32) : Statement (.pholdExpire ch idx) := of_ne nofun (fun _ _ _ => nofun) fun _ => nofun
theorem auditViolation (ch : ChanId) (batten : Fin 128) (cls : CmdClass) (sub : Sub) (rank lrank short : Nat) : Statement (.auditViolation ch batten cls sub rank lrank short) := of_ne nofun (fun _ _ _ => nofun) fun _ => nofun
theorem auditEnable (ch : ChanId) : Statement (.auditEnable ch) := of_none rfl
theorem auditHistoryFull (ch : ChanId) : Statement (.auditHistoryFull ch) := of_ne nofun (fun _ _ _ => nofun) fun _ => nofun
theorem schedCtlWrite (ch : ChanId) (reg : SchedReg) (w : Word) : Statement (.schedCtlWrite ch reg w) := of_none rfl
theorem refreshTick (ch : ChanId) (sub : Sub) (rank lrank : Nat) : Statement (.refreshTick ch sub rank lrank) := of_ne nofun (fun _ _ _ => nofun) fun _ => nofun
theorem postponeWrite (ch : ChanId) (w : Word) : Statement (.postponeWrite ch w) := of_none rfl
theorem tempPoll (ch : ChanId) (sub : Sub) (rank lrank : Nat) : Statement (.tempPoll ch sub rank lrank) := of_ne nofun (fun _ _ _ => nofun) fun _ => nofun
theorem tempPollResult (ch : ChanId) (sub : Sub) (rank lrank : Nat) (r : TempReading) : Statement (.tempPollResult ch sub rank lrank r) := of_ne nofun (fun _ _ _ => nofun) fun _ => nofun
theorem alertAssert (ch : ChanId) (sub : Sub) : Statement (.alertAssert ch sub) := of_ne nofun (fun _ _ _ => nofun) fun _ => nofun
theorem backoffRelease (ch : ChanId) (sub : Sub) (rank lrank : Nat) : Statement (.backoffRelease ch sub rank lrank) := of_ne nofun (fun _ _ _ => nofun) fun _ => nofun
theorem backoffDelayExpire (ch : ChanId) (sub : Sub) : Statement (.backoffDelayExpire ch sub) := of_ne nofun (fun _ _ _ => nofun) fun _ => nofun
theorem zqIntervalExpire (ch : ChanId) (sub : Sub) (rank : Nat) : Statement (.zqIntervalExpire ch sub rank) := of_ne nofun (fun _ _ _ => nofun) fun _ => nofun
theorem zqcalDone (ch : ChanId) (sub : Sub) (rank : Nat) : Statement (.zqcalDone ch sub rank) := of_ne nofun (fun _ _ _ => nofun) fun _ => nofun
theorem glideIdleExpire (ch : ChanId) (sub : Sub) (rank : Nat) : Statement (.glideIdleExpire ch sub rank) := of_ne nofun (fun _ _ _ => nofun) fun _ => nofun
theorem ballastWindow : Statement .ballastWindow := of_none rfl
theorem ripcordReqRise : Statement .ripcordReqRise := of_none rfl
theorem channelCapped (ch : ChanId) : Statement (.channelCapped ch) := of_none rfl
theorem ripcordReqFall : Statement .ripcordReqFall := of_none rfl
theorem rampStep : Statement .rampStep := of_none rfl
theorem flipArm (ch : ChanId) (w : Word) : Statement (.flipArm ch w) := of_none rfl
theorem flipDisarm (ch : ChanId) (w : Word) : Statement (.flipDisarm ch w) := of_none rfl
theorem chipmarkWrite (ch : ChanId) (w : Word) : Statement (.chipmarkWrite ch w) := of_none rfl
theorem thatcherInterval (ch : ChanId) : Statement (.thatcherInterval ch) := of_ne nofun (fun _ _ _ => nofun) fun _ => nofun
theorem thatcherReadPlace (ch : ChanId) : Statement (.thatcherReadPlace ch) := of_ne nofun (fun _ _ _ => nofun) fun _ => nofun
theorem thatcherRestart (ch : ChanId) (w : Word) : Statement (.thatcherRestart ch w) := of_none rfl
theorem slateInval (ch : ChanId) (idx : Fin 32) : Statement (.slateInval ch idx) := of_none rfl
theorem slateInvalAll (ch : ChanId) (w : Word) : Statement (.slateInvalAll ch w) := of_none rfl
theorem ueRecordRead (ch : ChanId) : Statement (.ueRecordRead ch) := of_none rfl
theorem chipcntRead (ch : ChanId) (sub : Sub) (rank : Fin 8) (q : Fin 3) : Statement (.chipcntRead ch sub rank q) := of_none rfl
theorem upkHwmRead (ch : ChanId) : Statement (.upkHwmRead ch) := of_none rfl
theorem xlateFwd (ch : ChanId) : Statement (.xlateFwd ch) := of_none rfl
theorem xlateRev (ch : ChanId) : Statement (.xlateRev ch) := of_none rfl
theorem loftOpStart (ch : ChanId) : Statement (.loftOpStart ch) := of_ne nofun (fun _ _ _ => nofun) fun _ => nofun
theorem loftFillReturn (ch : ChanId) : Statement (.loftFillReturn ch) := of_ne nofun (fun _ _ _ => nofun) fun _ => nofun
theorem loftEvictEnqueue (ch : ChanId) : Statement (.loftEvictEnqueue ch) := of_ne nofun (fun _ _ _ => nofun) fun _ => nofun
theorem loftClean (ch : ChanId) : Statement (.loftClean ch) := of_ne nofun (fun _ _ _ => nofun) fun _ => nofun
theorem loftOpComplete (ch : ChanId) : Statement (.loftOpComplete ch) := of_ne nofun (fun _ _ _ => nofun) fun _ => nofun
theorem loftOn (ch : ChanId) (w : Word) : Statement (.loftOn ch w) := of_none rfl
theorem loftOff (ch : ChanId) (w : Word) : Statement (.loftOff ch w) := of_none rfl
theorem wball (ch : ChanId) (w : Word) : Statement (.wball ch w) := of_none rfl
theorem repair (ch : ChanId) (w : Word) : Statement (.repair ch w) := of_none rfl
theorem loftRecRead (ch : ChanId) : Statement (.loftRecRead ch) := of_none rfl
theorem retrimIntervalExpire (ch : ChanId) (sub : Sub) (rank : Nat) : Statement (.retrimIntervalExpire ch sub rank) := of_ne nofun (fun _ _ _ => nofun) fun _ => nofun
theorem retrimPauseEnd (ch : ChanId) (sub : Sub) (rank : Nat) (probes : List LaneProbe) : Statement (.retrimPauseEnd ch sub rank probes) := of_ne nofun (fun _ _ _ => nofun) fun _ => nofun
theorem rateRequestWrite (ch : ChanId) (w : Word) : Statement (.rateRequestWrite ch w) := of_none rfl
theorem quietAssert (ch : ChanId) : Statement (.quietAssert ch) := of_ne nofun (fun _ _ _ => nofun) fun _ => nofun
theorem pllLock (ch : ChanId) : Statement (.pllLock ch) := of_ne nofun (fun _ _ _ => nofun) fun _ => nofun
theorem shiftPauseEnd (ch : ChanId) (lat : Latencies) : Statement (.shiftPauseEnd ch lat) := of_ne nofun (fun _ _ _ => nofun) fun _ => nofun
theorem sensorPoll (ch : ChanId) (dimm sensor : Fin 2) (temp : BitVec 12) : Statement (.sensorPoll ch dimm sensor temp) := of_ne nofun (fun _ _ _ => nofun) fun _ => nofun
theorem sensorIbi (ch : ChanId) (dimm sensor : Fin 2) (temp : BitVec 12) : Statement (.sensorIbi ch dimm sensor temp) := of_ne nofun (fun _ _ _ => nofun) fun _ => nofun
theorem stateGo (ch : ChanId) (w : Word) : Statement (.stateGo ch w) := of_none rfl
theorem drainComplete (ch : ChanId) : Statement (.drainComplete ch) := of_ne nofun (fun _ _ _ => nofun) fun _ => nofun
theorem staggerStepStart (ch : ChanId) : Statement (.staggerStepStart ch) := of_none rfl
theorem transitionComplete (ch : ChanId) : Statement (.transitionComplete ch) := of_ne nofun (fun _ _ _ => nofun) fun _ => nofun
theorem tetherSample (ch : ChanId) (readings : List (Option (BitVec 12))) : Statement (.tetherSample ch readings) := of_ne nofun (fun _ _ _ => nofun) fun _ => nofun
theorem plevelGo (w : Word) : Statement (.plevelGo w) := of_none rfl
theorem clampReached : Statement .clampReached := of_none rfl
theorem avsAck : Statement .avsAck := of_none rfl
theorem avsTimeout (regulatorError : Bool) : Statement (.avsTimeout regulatorError) := of_none rfl
theorem voltageSettled : Statement .voltageSettled := of_none rfl
theorem isoRhpAssert (ch : ChanId) : Statement (.isoRhpAssert ch) := of_ne nofun (fun _ _ _ => nofun) fun _ => nofun
theorem isoRhpRelease (ch : ChanId) : Statement (.isoRhpRelease ch) := of_ne nofun (fun _ _ _ => nofun) fun _ => nofun
theorem isoBlkChange (level : Bool) : Statement (.isoBlkChange level) := of_none rfl
theorem mbxInGo (ch : ChanId) : Statement (.mbxInGo ch) := of_none rfl
theorem mbxRequestServe (ch : ChanId) : Statement (.mbxRequestServe ch) := of_ne nofun (fun _ _ _ => nofun) fun _ => nofun
theorem status (ch : ChanId) : Statement (.status ch) := of_ne nofun (fun _ _ _ => nofun) fun _ => nofun
theorem sbRead (ch : ChanId) : Statement (.sbRead ch) := of_ne nofun (fun _ _ _ => nofun) fun _ => nofun
theorem sbWrite (ch : ChanId) : Statement (.sbWrite ch) := of_ne nofun (fun _ _ _ => nofun) fun _ => nofun
theorem selftest (ch : ChanId) : Statement (.selftest ch) := of_ne nofun (fun _ _ _ => nofun) fun _ => nofun
theorem selftestAbort (ch : ChanId) : Statement (.selftestAbort ch) := of_ne nofun (fun _ _ _ => nofun) fun _ => nofun
theorem zqNow (ch : ChanId) : Statement (.zqNow ch) := of_ne nofun (fun _ _ _ => nofun) fun _ => nofun
theorem retrim (ch : ChanId) : Statement (.retrim ch) := of_ne nofun (fun _ _ _ => nofun) fun _ => nofun
theorem memClear (ch : ChanId) : Statement (.memClear ch) := of_ne nofun (fun _ _ _ => nofun) fun _ => nofun
theorem selftestPause (ch : ChanId) (lines : List TestLine) : Statement (.selftestPause ch lines) := of_ne nofun (fun _ _ _ => nofun) fun _ => nofun
theorem selftestDone (ch : ChanId) : Statement (.selftestDone ch) := of_ne nofun (fun _ _ _ => nofun) fun _ => nofun
theorem clearDone (ch : ChanId) : Statement (.clearDone ch) := of_ne nofun (fun _ _ _ => nofun) fun _ => nofun
theorem outboundDeliver (ch : ChanId) : Statement (.outboundDeliver ch) := of_ne nofun (fun _ _ _ => nofun) fun _ => nofun
theorem mbxOutAck (ch : ChanId) : Statement (.mbxOutAck ch) := of_none rfl
theorem legacyGo (ch : ChanId) (w : Word) : Statement (.legacyGo ch w) := of_none rfl
theorem legacyAck (ch : ChanId) (w : Word) : Statement (.legacyAck ch w) := of_none rfl
theorem legacyDataAccess (ch : ChanId) (we : Bool) (w : Word) : Statement (.legacyDataAccess ch we w) := of_none rfl
theorem fenceWrite (ch : ChanId) (w : Word) : Statement (.fenceWrite ch w) := of_none rfl
theorem fenceDone (ch : ChanId) (rank : Fin 8) : Statement (.fenceDone ch rank) := of_ne nofun (fun _ _ _ => nofun) fun _ => nofun
theorem cvStart (ch : ChanId) (w : Word) : Statement (.cvStart ch w) := of_none rfl
theorem cvIn (ch : ChanId) (w : Word) : Statement (.cvIn ch w) := of_none rfl
theorem evqSwap : Statement .evqSwap := of_none rfl
theorem evqLoRead : Statement .evqLoRead := of_none rfl
theorem evqHiRead : Statement .evqHiRead := of_none rfl
theorem evqFlush : Statement .evqFlush := of_none rfl
theorem clrFatal : Statement .clrFatal := of_none rfl
theorem stickyRead (ch : ChanId) : Statement (.stickyRead ch) := of_none rfl
theorem counterAdd : Statement .counterAdd := of_none rfl
theorem cntWhiWrite (p : Page) (w : Word) : Statement (.cntWhiWrite p w) := of_none rfl
theorem ovfClr (p : Page) (w : Word) : Statement (.ovfClr p w) := of_none rfl
theorem freeze (p : Page) (w : Word) : Statement (.freeze p w) := of_none rfl
theorem uCntLoRead (n : Fin 9) (i : Fin 16) : Statement (.uCntLoRead n k) := of_none rfl
theorem wideAddrWrite (p : Page) (w : Word) : Statement (.wideAddrWrite p w) := of_none rfl
theorem pwrRstAssert : Statement .pwrRstAssert := of_none rfl
theorem pwrRstRelease : Statement .pwrRstRelease := of_none rfl
theorem blockReady : Statement .blockReady := of_none rfl
theorem warmRst : Statement .warmRst := of_none rfl
theorem chrst (ch : ChanId) : Statement (.chrst ch) := of_none rfl
theorem resetSequenceEnd (ch : ChanId) : Statement (.resetSequenceEnd ch) := of_none rfl
theorem spdReadDone (ch : ChanId) (spd : Option SpdInfo) : Statement (.spdReadDone ch spd) := of_ne nofun (fun _ _ _ => nofun) fun _ => nofun
theorem trainingStepDone (ch : ChanId) (r : StepResult) : Statement (.trainingStepDone ch r) := of_ne nofun (fun _ _ _ => nofun) fun _ => nofun
theorem bringUpComplete (ch : ChanId) (lat : Latencies) (rfm : RfmInfo) : Statement (.bringUpComplete ch lat rfm) := of_ne nofun (fun _ _ _ => nofun) fun _ => nofun
theorem trussStart : Statement .trussStart := of_none rfl
theorem trussFrameSubmit (w : Word) : Statement (.trussFrameSubmit w) := of_none rfl
theorem trussCommit : Statement .trussCommit := of_none rfl
theorem commitComplete (hclkCount first : Nat) (rest : List Nat) : Statement (.commitComplete hclkCount first rest) := of_none rfl
theorem trussAbort : Statement .trussAbort := of_none rfl
theorem registerWrite (addr : BitVec 24) (w : Word) : Statement (.registerWrite addr w) := of_none rfl
theorem registerRead (addr : BitVec 24) : Statement (.registerRead addr) := of_none rfl
theorem mbxInDone (ch : ChanId) (r : SbResult) : Statement (.mbxInDone ch r) := of_ne nofun (fun _ _ _ => nofun) fun _ => nofun
theorem vretIoLost (ch : ChanId) : Statement (.vretIoLost ch) := of_ne nofun (fun _ _ _ => nofun) fun _ => nofun

end Sys2Proof.Laws.Channel
end

