-- ==== Sys2Proof/Laws/Plan.lean ====
section
/-! SUPPORT. What planning and the tail may change of a channel: nothing of the pins, the fabric and the clocks, and no committed command. -/
namespace Sys2Proof.Machine

/-- The image, the clocks, the pins and the fabric. -/
def Chan.fixed (c : Chan) : Option ChanImg × Nat × Nat × Pins × Fabric := (c.img, c.dclk, c.kclk, c.pins, c.fab)

/-- The same with the tail and the Ballast clock count. -/
def Chan.still (c : Chan) : (Option ChanImg × Nat × Nat × Pins × Fabric) × List Cmd × Nat := (c.fixed, c.tail, c.bal.dclkCnt)

/-- Nothing of the image, the clocks, the pins, the fabric, the tail and the Ballast clock count has changed. -/
def Fr (c d : Chan) : Prop := d.still = c.still

theorem Fr.refl (c : Chan) : Fr c c := rfl

theorem Fr.trans {a b c : Chan} (h : Fr a b) (g : Fr b c) : Fr a c := Eq.trans g h

/-- `Fr.trans` with the later step first, so that the state between is known when the earlier one is looked at. -/
theorem Fr.after {a b c : Chan} (g : Fr b c) (h : Fr a b) : Fr a c := h.trans g

theorem Fr.fixed {c d : Chan} (h : Fr c d) : d.fixed = c.fixed := congrArg Prod.fst h
theorem Fr.img {c d : Chan} (h : Fr c d) : d.img = c.img := congrArg (fun x => x.1.1) h
theorem Fr.dclk {c d : Chan} (h : Fr c d) : d.dclk = c.dclk := congrArg (fun x => x.1.2.1) h
theorem Fr.kclk {c d : Chan} (h : Fr c d) : d.kclk = c.kclk := congrArg (fun x => x.1.2.2.1) h
theorem Fr.pins {c d : Chan} (h : Fr c d) : d.pins = c.pins := congrArg (fun x => x.1.2.2.2.1) h
theorem Fr.fab {c d : Chan} (h : Fr c d) : d.fab = c.fab := congrArg (fun x => x.1.2.2.2.2) h
theorem Fr.tail {c d : Chan} (h : Fr c d) : d.tail = c.tail := congrArg (fun x => x.2.1) h
theorem Fr.cnt {c d : Chan} (h : Fr c d) : d.bal.dclkCnt = c.bal.dclkCnt := congrArg (fun x => x.2.2) h

theorem Fr.fold {α : Type} {f : Chan → α → Chan} (h : ∀ c a, Fr c (f c a)) (l : List α) (c : Chan) : Fr c (l.foldl f c) := by
  induction l generalizing c with
  | nil => exact .refl c
  | cons a l ih => exact (h c a).trans (ih _)

/-- Planning: committed commands stay, and every new one lies in a slot that may be planned (R123, R148). -/
structure Pl (c d : Chan) : Prop where
  fixed : d.fixed = c.fixed
  kept : ∀ k ∈ c.tail, k.time ≤ c.dclk + 3 → k ∈ d.tail
  fresh : ∀ k ∈ d.tail, k ∈ c.tail ∨ (c.dclk + 4 ≤ k.time ∧ k.time ≤ c.dclk + 15)

theorem Pl.img {c d : Chan} (h : Pl c d) : d.img = c.img := congrArg (fun x => x.1) h.fixed
theorem Pl.dclk {c d : Chan} (h : Pl c d) : d.dclk = c.dclk := congrArg (fun x => x.2.1) h.fixed
theorem Pl.kclk {c d : Chan} (h : Pl c d) : d.kclk = c.kclk := congrArg (fun x => x.2.2.1) h.fixed
theorem Pl.pins {c d : Chan} (h : Pl c d) : d.pins = c.pins := congrArg (fun x => x.2.2.2.1) h.fixed
theorem Pl.fab {c d : Chan} (h : Pl c d) : d.fab = c.fab := congrArg (fun x => x.2.2.2.2) h.fixed

theorem Fr.pl {c d : Chan} (h : Fr c d) : Pl c d := ⟨h.fixed, fun k hk _ => h.tail ▸ hk, fun k hk => .inl (h.tail ▸ hk)⟩

theorem Pl.refl (c : Chan) : Pl c c := (Fr.refl c).pl

theorem Pl.trans {a b c : Chan} (h : Pl a b) (g : Pl b c) : Pl a c where
  fixed := g.fixed.trans h.fixed
  kept k hk ht := g.kept k (h.kept k hk ht) (by rw [h.dclk]; exact ht)
  fresh k hk := by
    rcases g.fresh k hk with e | e
    · exact h.fresh k e
    · rw [h.dclk] at e; exact .inr e

theorem Pl.after {a b c : Chan} (g : Pl b c) (h : Fr a b) : Pl a c := h.pl.trans g

theorem Pl.onto {a b c : Chan} (g : Pl b c) (h : Pl a b) : Pl a c := h.trans g

theorem Pl.fold {α : Type} {f : Chan → α → Chan} (h : ∀ c a, Pl c (f c a)) (l : List α) (c : Chan) : Pl c (l.foldl f c) := by
  induction l generalizing c with
  | nil => exact .refl c
  | cons a l ih => exact (h c a).trans (ih _)

theorem refund_cnt (b : Ballast) (sb : Sub) : (b.refund sb).dclkCnt = b.dclkCnt := by
  unfold Ballast.refund; split <;> rfl

theorem setTok_cnt (b : Ballast) (sb : Sub) (n : Nat) : (b.setTok sb n).dclkCnt = b.dclkCnt := by
  unfold Ballast.setTok; split <;> rfl

theorem drop_pl (c : Chan) (p : Cmd → Bool) : Pl c (c.drop p) := by
  obtain ⟨ta, tb, r, s, q, e, h⟩ := c.drop_eq p
  rw [e]
  exact ⟨rfl, fun k hk ht => List.mem_filter.mpr ⟨hk, h k (decide_eq_true ht)⟩,
    fun k hk => .inl (List.mem_filter.mp hk).1⟩

theorem setBank_fr (c : Chan) (b : Bank) (x : BankEntry) : Fr c (c.setBank b x) := by
  unfold Chan.setBank
  exact rfl

theorem modBank_fr (c : Chan) (b : Bank) (f : BankEntry → BankEntry) : Fr c (c.modBank b f) := setBank_fr _ _ _

theorem modRank_fr (c : Chan) (sb : Sub) (r : Nat) (f : RankSt → RankSt) : Fr c (c.modRank sb r f) := rfl

theorem modAcct_fr (c : Chan) (sb : Sub) (r l : Nat) (f : Account → Account) : Fr c (c.modAcct sb r l f) := rfl

theorem modRd_fr (c : Chan) (n : Nat) (f : RdEntry → RdEntry) : Fr c (c.modRd n f) := rfl

theorem modWr_fr (c : Chan) (n : Nat) (f : WrEntry → WrEntry) : Fr c (c.modWr n f) := rfl

theorem log_fr (c : Chan) (o : Occ) : Fr c (c.log o) := rfl

theorem raise_fr (c : Chan) (a b : Nat) : Fr c (c.raise a b) := rfl

theorem startShift_pl (c : Chan) : Pl c c.startShift := by
  unfold Chan.startShift
  exact (drop_pl c _).trans (Fr.pl rfl)

theorem settleShift_pl (c : Chan) : Pl c c.settleShift := by
  unfold Chan.settleShift
  split
  · exact startShift_pl c
  · exact .refl c

theorem endPause_pl (c : Chan) (p : Pause) : Pl c (c.endPause p) :=
  Pl.trans (b := { c with upk := { c.upk with pauses := c.upk.pauses.erase p } }) (Fr.pl rfl) (settleShift_pl _)

theorem settlePauses_pl (e : Env) (c : Chan) : Pl c (c.settlePauses e) := by
  unfold Chan.settlePauses
  refine Pl.fold (fun c p => ?_) _ c
  dsimp only
  split
  · exact (endPause_pl c p).trans (modRank_fr _ _ _ _).pl
  · exact (endPause_pl c p).trans (modRank_fr _ _ _ _).pl
  · exact endPause_pl c p

theorem settleTrans_pl (c : Chan) : Pl c c.settleTrans := by
  unfold Chan.settleTrans
  split
  · exact .refl c
  · dsimp only
    split
    · split <;> exact Fr.pl rfl
    · split
      · split
        · split
          · exact Fr.pl rfl
          · exact (startShift_pl _).after rfl
        · exact Fr.pl rfl
      · exact .refl c

theorem linkRd_fr (c : Chan) (r : RdEntry) : Fr c (c.linkRd r) := by
  obtain ⟨b, e, -⟩ := Chan.linkRd_eq c r
  rw [e]; exact rfl

theorem ibuf_fr (c : Chan) (a b d e : Nat) : Fr c (c.ibuf a b d e) := by
  unfold Chan.ibuf
  repeat' split
  · exact .refl c
  · exact Fr.refl c
  · exact (raise_fr _ _ _).after rfl

theorem readOut_fr (c : Chan) (store key ok code idx : Nat) : Fr c (c.readOut store key ok code idx).2 := by
  unfold Chan.readOut
  dsimp only
  have h := Fr.fold (f := fun c (u : Upset) => c.ibuf u.bits ok code idx) (fun c u => ibuf_fr c u.bits ok code idx) (c.flaws store key) c
  exact h

theorem readBuf_fr (c : Chan) (w : WrEntry) : Fr c (c.readBuf w).2 := by
  unfold Chan.readBuf
  exact readOut_fr _ _ _ _ _ _

theorem reserve_fr (c : Chan) (r : RdEntry) (fwd : Bool) : Fr c (c.reserve r fwd) := by
  unfold Chan.reserve
  dsimp only
  split <;> exact rfl

theorem forward_fr (c : Chan) (r : RdEntry) (w : WrEntry) (n : Nat) : Fr c (c.forward r w n) := by
  unfold Chan.forward
  dsimp only
  split
  · rename_i op _
    have h := ((log_fr c (occR 0x0C r.dev.bank.sub.num r.cls r.priv op.ty r.laddr)).trans (readBuf_fr _ w)).trans (reserve_fr _ r true)
    split
    · exact h.trans (modRd_fr _ _ _)
    · exact Fr.after rfl h
  · exact Fr.after rfl (readBuf_fr c w)
  · exact .refl c

theorem serveRd_fr (c : Chan) (r : RdEntry) (n : Nat) : Fr c (c.serveRd r n) := by
  unfold Chan.serveRd
  split
  · exact .refl c
  · split
    · exact linkRd_fr c r
    · split
      · exact linkRd_fr c r
      · split
        · exact forward_fr _ _ _ _
        · exact .refl c

theorem serveWaiting_fr (c : Chan) (n : Nat) : Fr c (c.serveWaiting n) := Fr.fold (fun c r => serveRd_fr c r n) _ c

theorem directAll_fr (c : Chan) : Fr c c.directAll := by
  obtain ⟨h, q, -, e⟩ := Chan.directAll_eq c
  rw [e]; exact rfl

theorem refill_fr (c : Chan) : Fr c c.refill := by
  unfold Chan.refill; split <;> exact rfl

theorem placeWr_fr (c : Chan) (w : WrEntry) : Fr c (c.placeWr w) := by
  rw [Chan.placeWr_eq]; exact rfl

theorem clearStep_fr (sb : Sub) (c : Chan) : Fr c (c.clearStep sb) := by
  unfold Chan.clearStep
  split
  · dsimp only
    split
    · unfold Chan.clearWrite Chan.takeSeq
      exact (placeWr_fr _ _).after rfl
    · exact rfl
  · exact .refl c

theorem clearStore_fr (c : Chan) : Fr c c.clearStore := by
  unfold Chan.clearStore
  split
  · split
    · exact .refl c
    · dsimp only
      split <;> exact rfl
  · exact .refl c

theorem resume_fr (sb : Sub) (c : Chan) : Fr c (c.resume sb) := by
  unfold Chan.resume; split <;> exact rfl

theorem beginPause_pl (c : Chan) (p : Pause) : Pl c (c.beginPause p) := by
  unfold Chan.beginPause
  dsimp only
  split
  · exact (drop_pl _ _).after rfl
  · exact Fr.pl rfl

theorem admits_fr (e : Env) (c : Chan) (p : Pause) : Fr c (c.admits e p).2 := by
  unfold Chan.admits
  dsimp only
  repeat' split
  all_goals exact rfl

theorem tryPause_pl (e : Env) (sb : Sub) (c : Chan) : Pl c (c.tryPause e sb) := by
  unfold Chan.tryPause
  split
  · exact .refl c
  · rename_i p _
    have h := admits_fr e c p
    split <;> rename_i d hd <;> rw [hd] at h
    · exact h.pl.trans (beginPause_pl d p)
    · exact h.pl

theorem chooseDue_fr (sb : Sub) (c : Chan) : Fr c (c.chooseDue sb) := by
  unfold Chan.chooseDue
  split
  · exact .refl c
  · dsimp only
    split
    · exact .refl c
    · exact modAcct_fr _ _ _ _ _

theorem setClaims_pl (w : List Work) (sb : Sub) (c : Chan) : Pl c (c.setClaims w sb) := by
  unfold Chan.setClaims
  dsimp only
  refine Pl.trans (Fr.pl (Fr.fold (fun c b => ?_) _ c)) (drop_pl _ _)
  split
  · exact .refl c
  · exact modBank_fr _ _ _

theorem pay_fr (c : Chan) (sb : Sub) : Fr c (c.pay sb) := by
  unfold Chan.pay
  split
  · exact congrArg (fun n => (c.fixed, c.tail, n)) (setTok_cnt _ _ _)
  · exact .refl _

theorem takeTries_time (c : Chan) (k : Cmd) : (c.takeTries k).1.time = k.time ∧ Fr c (c.takeTries k).2 := by
  unfold Chan.takeTries
  split <;> exact ⟨rfl, rfl⟩

theorem insert_pl (c : Chan) (k : Cmd) (h1 : c.dclk + 4 ≤ k.time) (h2 : k.time ≤ c.dclk + 15) : Pl c (c.insert k) where
  fixed := rfl
  kept x hx _ := (mem_insertBy_iff _ _ _ _).mpr (.inr hx)
  fresh x hx := by
    rcases (mem_insertBy_iff _ _ _ _).mp hx with rfl | h
    · exact .inr ⟨h1, h2⟩
    · exact .inl h

theorem place_pl (c : Chan) (k : Cmd) (h1 : c.dclk + 4 ≤ k.time) (h2 : k.time ≤ c.dclk + 15) : Pl c (c.place k) := by
  have key : ∀ x, Fr c x → Pl c ((x.takeTries k).2.insert (x.takeTries k).1) := by
    intro x h
    obtain ⟨t, f⟩ := takeTries_time x k
    have e := (h.trans f).dclk
    exact (h.trans f).pl.trans (insert_pl _ _ (by rw [e, t]; exact h1) (by rw [e, t]; exact h2))
  unfold Chan.place
  dsimp only
  have g1 : Fr c (if c.isHostCol k = true then c.pay k.bank.sub else c) := by
    split
    · exact pay_fr _ _
    · exact .refl c
  generalize (if c.isHostCol k = true then c.pay k.bank.sub else c) = d at g1 ⊢
  refine key _ (g1.trans ?_)
  repeat' split
  all_goals first | exact reserve_fr _ _ _ | exact .refl _

theorem slots_time {c : Chan} {k x : Cmd} (h : x ∈ c.slots k) : c.dclk + 4 ≤ x.time ∧ x.time ≤ c.dclk + 15 := by
  unfold Chan.slots at h
  simp only [List.mem_map, List.mem_range] at h
  obtain ⟨q, hq, rfl⟩ := h
  exact ⟨by simp, by simp; omega⟩

theorem earliest_time {c : Chan} {ok : Nat → Bool} {k x : Cmd} (h : c.earliest ok k = some x) : c.dclk + 4 ≤ x.time ∧ x.time ≤ c.dclk + 15 :=
  slots_time (List.mem_of_find?_eq_some h)

theorem displace_time {c : Chan} {ok : Nat → Bool} {k : Cmd} {x : Cmd × List Cmd} (h : c.displace ok k = some x) : c.dclk + 4 ≤ x.1.time ∧ x.1.time ≤ c.dclk + 15 := by
  have := List.mem_of_find?_eq_some h
  simp only [List.mem_map] at this
  obtain ⟨y, hy, rfl⟩ := this
  exact slots_time hy

theorem slotFor_time {c : Chan} {b : Bool} {o : Offer} {x : Cmd} {l : List Cmd} (h : c.slotFor b o = some (x, l)) :
    c.dclk + 4 ≤ x.time ∧ x.time ≤ c.dclk + 15 := by
  have hf : ∀ {y}, (c.freeSlot o).1 = some y → c.dclk + 4 ≤ y.time ∧ y.time ≤ c.dclk + 15 := by
    intro y hy
    unfold Chan.freeSlot at hy
    dsimp only at hy
    split at hy
    · cases hy
    · exact earliest_time (Option.filter_eq_some_iff.mp hy).1
  unfold Chan.slotFor at h
  dsimp only at h
  cases hs : (c.freeSlot o).1 with
  | some y =>
    rw [hs] at h
    have e : y = x := congrArg Prod.fst (Option.some.inj h)
    exact e ▸ hf hs
  | none =>
    rw [hs] at h
    have hlast : ∀ {p : Cmd × List Cmd}, (c.earliest (c.slotOk o.cmd) o.cmd).map (fun x => (x, ([] : List Cmd))) = some p →
        c.dclk + 4 ≤ p.1.time ∧ p.1.time ≤ c.dclk + 15 := by
      intro p hp
      obtain ⟨y, hy, rfl⟩ := Option.map_eq_some_iff.mp hp
      exact earliest_time hy
    cases hd : (if b = true then c.displace (fun t => c.slotOk o.cmd t && (c.freeSlot o).2.all fun d => decide (t ≤ d)) o.cmd else none) with
    | some p =>
      rw [hd] at h
      split at hd
      · have e : p = (x, l) := Option.some.inj h
        have t := displace_time hd
        rw [e] at t
        exact t
      · cases hd
    | none =>
      rw [hd] at h
      exact hlast h

theorem placeOne_pl (b : Bool) (st : Chan × Nat × Bool) (o : Offer) : Pl st.1 (placeOne b st o).1 := by
  unfold placeOne
  dsimp only
  split
  · exact .refl _
  · split
    · rename_i x d hx
      have t := slotFor_time hx
      dsimp only
      split
      · exact place_pl _ _ t.1 t.2
      · have h := drop_pl st.1 fun y => d.contains y
        exact h.trans (place_pl _ _ (by rw [h.dclk]; exact t.1) (by rw [h.dclk]; exact t.2))
    · exact .refl _

theorem placeAll_pl (st : Chan × Nat × Bool) (os : List (Offer × Bool)) : Pl st.1 (placeAll st os).1 := by
  unfold placeAll
  induction os generalizing st with
  | nil => exact .refl _
  | cons a l ih => exact (placeOne_pl _ _ _).trans (ih _)

theorem bypass_pl (sb : Sub) (st : Chan × Nat × Bool) : Pl st.1 (Chan.bypass sb st).1 := by
  unfold Chan.bypass
  dsimp only
  split
  · exact .refl _
  · rename_i r _
    have hcol : ∀ (c : Chan) (t0 n : Nat), Pl c (match c.earliest (fun t => decide (t0 < t))
        (reqCmd .rd r.dev.bank r.dev.row r.dev.col .host (.read r.seq) false) with
      | some x => (c.place x, n + 1, st.2.2)
      | none => (c, n, st.2.2)).1 := by
      intro c t0 n
      split
      · rename_i x hx
        have := earliest_time hx
        exact place_pl _ _ this.1 this.2
      · exact .refl _
    split
    · split
      · exact .refl _
      · exact hcol _ _ _
    · split
      · exact .refl _
      · split
        · exact .refl _
        · rename_i x hx
          have := earliest_time hx
          exact (place_pl _ _ this.1 this.2).trans (hcol _ _ _)

theorem pauses_pl (e : Env) (sb : Sub) (c : Chan) : Pl c (if c.plansPause = true then (c.tryPause e sb).chooseDue sb else c) := by
  split
  · exact (tryPause_pl e sb c).trans (chooseDue_fr _ _).pl
  · exact .refl c

theorem placeIf_pl (p : Bool) (st : Chan × Nat × Bool) (os : List (Offer × Bool)) :
    Pl st.1 (if p = true then placeAll st os else st).1 := by
  split
  · exact placeAll_pl _ _
  · exact .refl _

theorem planSub_pl (e : Env) (sb : Sub) (c : Chan) : Pl c (c.planSub e sb) := by
  unfold Chan.planSub
  refine (resume_fr sb c).pl.trans ?_
  generalize c.resume sb = c
  dsimp only
  split
  · exact .refl c
  · split
    · exact placeAll_pl (c, 0, false) _
    · refine (pauses_pl e sb c).trans ?_
      generalize (if c.plansPause = true then (c.tryPause e sb).chooseDue sb else c) = c
      generalize hd : (if c.plansPause = true then c.dueWork sb else []) = due
      refine (setClaims_pl (c.upkeepWork e sb ++ due) sb c).trans ?_
      generalize c.setClaims (c.upkeepWork e sb ++ due) sb = d
      generalize (d.upkeepOffers (c.upkeepWork e sb) ++ d.item6 sb ++ _) = os
      refine (placeAll_pl (d, 0, false) os).trans ?_
      generalize placeAll (d, 0, false) os = st
      refine (placeIf_pl d.plansPause st (st.1.pauseOffers sb)).trans ?_
      generalize (if d.plansPause = true then placeAll st (st.1.pauseOffers sb) else st) = st
      split
      · exact placeAll_pl _ _
      · refine (placeAll_pl _ _).onto ((placeAll_pl _ _).onto ((placeAll_pl _ _).onto ((bypass_pl sb _).onto ?_)))
        exact (placeAll_pl _ _).onto (placeAll_pl st _)

theorem kclkOccs_fr (c : Chan) : Fr c c.kclkOccs := by
  unfold Chan.kclkOccs
  dsimp only
  have h1 := (log_fr c (occ0 0x01 1)).trans (Fr.fold (fun (c : Chan) (r : RdEntry) => log_fr c (occR 0x05 r.dev.bank.sub.num r.cls r.priv r.req r.laddr))
    ((c.log (occ0 0x01 1)).rq.filter RdEntry.isHost) _)
  refine h1.trans ?_
  generalize List.foldl _ _ _ = d
  split
  · split <;> exact rfl
  · split <;> exact rfl

theorem modCls_cnt (b : Ballast) (n : Nat) (f : _) : (b.modCls n f).dclkCnt = b.dclkCnt := by
  unfold Ballast.modCls; rfl

theorem serveCls_fr (c : Chan) (n : Nat) : Fr c (c.serveCls n) := by
  unfold Chan.serveCls Ballast.serve
  exact congrArg (fun n => (c.fixed, c.tail, n)) (modCls_cnt _ _ _)

theorem commitOccs_fr (c : Chan) (k : Cmd) : Fr c (c.commitOccs k) := by
  unfold Chan.commitOccs
  dsimp only
  have hl : ∀ (d : Chan) (p : Prop) [Decidable p] (o : Occ), Fr d (if p then d.log o else d) := by
    intro d p _ o
    split
    · exact log_fr _ _
    · exact .refl _
  have h1 := hl c (k.cls = .act) (c.occFor 0x08 k)
  generalize (if k.cls = .act then c.log (c.occFor 0x08 k) else c) = d at h1 ⊢
  have h2 := hl d (k.cls = .act ∧ k.specAct = true) (d.occFor 0x09 k)
  generalize (if k.cls = .act ∧ k.specAct = true then d.log (d.occFor 0x09 k) else d) = x at h2 ⊢
  have h3 := hl x (k.cls = .prepb ∧ k.src ≠ .upkeep ∧ k.src ≠ .pause) (occ0 0x0A 1 k.bank.sub.num)
  generalize (if k.cls = .prepb ∧ k.src ≠ .upkeep ∧ k.src ≠ .pause then x.log (occ0 0x0A 1 k.bank.sub.num) else x) = y at h3 ⊢
  exact ((h1.trans h2).trans h3).trans (hl _ _ _)

theorem coveredBanks_fr (c : Chan) (k : Cmd) : Fr c ((c.covered k).foldl (fun c b => c.modBank b (c.bankAfter k)) c) :=
  Fr.fold (fun c b => modBank_fr c b _) _ c

theorem commitBanks_fr (c : Chan) (k : Cmd) : Fr c (c.commitBanks k) := by
  unfold Chan.commitBanks
  split
  all_goals first | exact .refl c | exact coveredBanks_fr c k | skip
  split
  · exact coveredBanks_fr c k
  · exact .refl c

theorem mrwDone_fr (c : Chan) (sb : Sub) (r : Nat) : Fr c (c.mrwDone sb r) := by
  unfold Chan.mrwDone
  dsimp only
  split <;> exact rfl

theorem commitUpkeep_fr (c : Chan) (k : Cmd) : Fr c (c.commitUpkeep k) := by
  unfold Chan.commitUpkeep
  dsimp only
  split
  all_goals first
    | exact rfl
    | exact mrwDone_fr _ _ _
    | (unfold Chan.setBackoff; split <;> exact rfl)
    | (split <;> exact rfl)

theorem commitRead_fr (c : Chan) (k : Cmd) (n : Nat) : Fr c (c.commitRead k n) := by
  unfold Chan.commitRead
  split
  · exact .refl c
  · exact (serveCls_fr _ _).after rfl

theorem commitMerge_fr (c : Chan) (k : Cmd) (n : Nat) : Fr c (c.commitMerge k n) := by
  unfold Chan.commitMerge
  split
  · exact .refl c
  · exact (serveCls_fr _ _).after rfl

theorem inject_fr (c : Chan) (m : Nat) (sb : Sub) (h : Bool) (w : CodeWord) : Fr c (c.inject m sb h w).2 := by
  unfold Chan.inject
  dsimp only
  split <;> exact rfl

theorem writeWord_fr (c : Chan) (w : WrEntry) : Fr c (c.writeWord w).2 := (readBuf_fr c w).trans (inject_fr _ _ _ _ _)

theorem setPhold_fr (e : Env) (c : Chan) (a : LAddr) : Fr c (c.setPhold e a) := by
  unfold Chan.setPhold; split <;> exact rfl

theorem noteWrite_fr (c : Chan) (a : LAddr) (n : Nat) : Fr c (c.noteWrite a n) := by
  unfold Chan.noteWrite
  dsimp only
  split <;> exact rfl

theorem commitWrite_fr (e : Env) (c : Chan) (k : Cmd) (n : Nat) : Fr c (c.commitWrite e k n) := by
  unfold Chan.commitWrite
  split
  · exact .refl c
  · rename_i w _
    have h := writeWord_fr c w
    generalize c.writeWord w = p at h
    obtain ⟨word, d⟩ := p
    dsimp only at h ⊢
    refine h.trans ?_
    unfold Chan.takeOrd
    dsimp only
    refine Fr.trans ?_ (modBank_fr _ _ _)
    refine Fr.trans ?_ (serveCls_fr _ _)
    refine Fr.trans ?_ (noteWrite_fr _ _ _)
    split
    · refine Fr.trans ?_ (setPhold_fr e _ _)
      exact rfl
    · exact rfl

theorem commitPause_fr (e : Env) (c : Chan) (k : Cmd) : Fr c (c.commitPause e k) := by
  unfold Chan.commitPause
  split <;> exact rfl

/-- What committing a command does to the records of the tail. -/
structure Cm (c : Chan) (l : List Cmd) (d : Chan) : Prop where
  same : (d.img, d.dclk, d.kclk, d.pins, d.tail, d.bal.dclkCnt) = (c.img, c.dclk, c.kclk, c.pins, c.tail, c.bal.dclkCnt)
  put : ∀ k ∈ l, c.dclk ≤ k.time + maxAge → k ∈ d.fab.hist
  old : ∀ k ∈ c.fab.hist, c.dclk ≤ k.time + maxAge → k ∈ d.fab.hist
  from' : ∀ k ∈ d.fab.hist, k ∈ c.fab.hist ∨ k ∈ l
  rest : d.fab = { c.fab with hist := d.fab.hist, holds := d.fab.holds }

theorem Cm.img {c d : Chan} {l : List Cmd} (h : Cm c l d) : d.img = c.img := congrArg (fun x => x.1) h.same
theorem Cm.dclk {c d : Chan} {l : List Cmd} (h : Cm c l d) : d.dclk = c.dclk := congrArg (fun x => x.2.1) h.same
theorem Cm.kclk {c d : Chan} {l : List Cmd} (h : Cm c l d) : d.kclk = c.kclk := congrArg (fun x => x.2.2.1) h.same
theorem Cm.pins {c d : Chan} {l : List Cmd} (h : Cm c l d) : d.pins = c.pins := congrArg (fun x => x.2.2.2.1) h.same
theorem Cm.tail {c d : Chan} {l : List Cmd} (h : Cm c l d) : d.tail = c.tail := congrArg (fun x => x.2.2.2.2.1) h.same
theorem Cm.cnt {c d : Chan} {l : List Cmd} (h : Cm c l d) : d.bal.dclkCnt = c.bal.dclkCnt := congrArg (fun x => x.2.2.2.2.2) h.same

theorem commitCmd_cm (e : Env) (c : Chan) (k : Cmd) : Cm c [k] (c.commitCmd e k) := by
  unfold Chan.commitCmd
  have h0 := commitOccs_fr c k
  generalize c.commitOccs k = x at h0
  dsimp only
  generalize hy : ({ x with fab := { x.fab with
      hist := x.fab.hist.filter (fun (z : Cmd) => decide (x.dclk ≤ z.time + maxAge)) ++ [k],
      holds := x.stepHolds x.fab.holds k } } : Chan) = y
  have hh : y.fab.hist = c.fab.hist.filter (fun (z : Cmd) => decide (c.dclk ≤ z.time + maxAge)) ++ [k] := by
    rw [← hy, ← h0.fab, ← h0.dclk]
  have h1 : ∀ d, Fr y d → Cm c [k] d := by
    intro d h
    subst hy
    refine ⟨by simp only [h.img, h.dclk, h.kclk, h.pins, h.tail, h.cnt, h0.img, h0.dclk, h0.kclk, h0.pins, h0.tail, h0.cnt],
      fun z hz _ => ?_, fun z hz ht => ?_, fun z hz => ?_, by rw [h.fab]; dsimp only; rw [h0.fab]⟩
    · rw [h.fab, hh]; exact List.mem_append_right _ hz
    · rw [h.fab, hh]; exact List.mem_append_left _ (List.mem_filter.mpr ⟨hz, by simpa using ht⟩)
    · rw [h.fab, hh, List.mem_append, List.mem_filter] at hz
      exact hz.imp_left And.left
  have h2 : Fr y ((y.commitBanks k).commitUpkeep k) := (commitBanks_fr _ _).trans (commitUpkeep_fr _ _)
  generalize (y.commitBanks k).commitUpkeep k = z at h2
  refine h1 _ (h2.trans ?_)
  split
  · split
    · exact commitRead_fr _ _ _
    · exact .refl z
  · split
    · exact commitMerge_fr _ _ _
    · exact .refl z
  · split
    · exact commitWrite_fr _ _ _ _
    · exact .refl z
  · split
    · unfold Chan.commitResend
      exact modWr_fr _ _ _
    · exact .refl z
  · exact commitPause_fr _ _ _
  · split
    · split
      · exact Fr.refl _
      · exact .refl z
    · exact .refl z
  · exact .refl z

theorem commits_cm (e : Env) (l : List Cmd) (c : Chan) : Cm c l (l.foldl (fun c k => c.commitCmd e k) c) := by
  induction l generalizing c with
  | nil => exact ⟨rfl, nofun, fun _ h _ => h, fun _ h => .inl h, rfl⟩
  | cons a l ih =>
    have h := commitCmd_cm e c a
    have g := ih (c.commitCmd e a)
    refine ⟨g.same.trans h.same, fun k hk ht => ?_, fun k hk ht => g.old k (h.old k hk ht) (by rw [h.dclk]; exact ht), fun k hk => ?_,
      g.rest.trans (by rw [h.rest]; rfl)⟩
    · rcases List.mem_cons.mp hk with rfl | hk
      · exact g.old k (h.put k (List.mem_singleton.mpr rfl) ht) (by rw [h.dclk]; exact ht)
      · exact g.put k hk (by rw [h.dclk]; exact ht)
    · rcases g.from' k hk with e | e
      · exact (h.from' k e).imp_right fun e => by rw [List.mem_singleton.mp e]; exact List.mem_cons_self
      · exact .inr (List.mem_cons_of_mem _ e)

/-- What driving commands at the pins leaves alone. -/
structure Dr (c d : Chan) : Prop where
  same : (d.img, d.dclk, d.kclk, d.fab, d.tail, d.bal.dclkCnt) = (c.img, c.dclk, c.kclk, c.fab, c.tail, c.bal.dclkCnt)

theorem Dr.img {c d : Chan} (h : Dr c d) : d.img = c.img := congrArg (fun x => x.1) h.same
theorem Dr.dclk {c d : Chan} (h : Dr c d) : d.dclk = c.dclk := congrArg (fun x => x.2.1) h.same
theorem Dr.kclk {c d : Chan} (h : Dr c d) : d.kclk = c.kclk := congrArg (fun x => x.2.2.1) h.same
theorem Dr.fab {c d : Chan} (h : Dr c d) : d.fab = c.fab := congrArg (fun x => x.2.2.2.1) h.same
theorem Dr.tail {c d : Chan} (h : Dr c d) : d.tail = c.tail := congrArg (fun x => x.2.2.2.2.1) h.same
theorem Dr.cnt {c d : Chan} (h : Dr c d) : d.bal.dclkCnt = c.bal.dclkCnt := congrArg (fun x => x.2.2.2.2.2) h.same

theorem Dr.refl (c : Chan) : Dr c c := ⟨rfl⟩
theorem Dr.trans {a b c : Chan} (h : Dr a b) (g : Dr b c) : Dr a c := ⟨g.same.trans h.same⟩

/-- The command and data pins of a subchannel. -/
def Pins.side (p : Pins) (s : Sub) : Option Cmd × PinBurst × BitVec 80 := if s = .a then (p.caA, p.dqA, p.crcA) else (p.caB, p.dqB, p.crcB)

/-- A burst goes to the data pins of its subchannel alone. -/
theorem putBurst_dr (c : Chan) (s : Sub) (w : CodeWord) : Dr c (c.putBurst s w) ∧
    ((c.putBurst s w).pins.side s).1 = (c.pins.side s).1 ∧ ∀ x, x ≠ s → (c.putBurst s w).pins.side x = c.pins.side x := by
  unfold Chan.putBurst
  split
  · exact ⟨.refl c, rfl, fun _ _ => rfl⟩
  · rename_i i _
    dsimp only
    generalize i.toPins s w = p
    generalize (if i.wcrc = true then Config.writeCrc p else 0) = q
    cases s
    · exact ⟨⟨rfl⟩, rfl, fun x hx => by cases x; exact absurd rfl hx; rfl⟩
    · exact ⟨⟨rfl⟩, rfl, fun x hx => by cases x; rfl; exact absurd rfl hx⟩

/-- A command is driven at the pins of its subchannel alone. -/
theorem drive_dr (c : Chan) (k : Cmd) : Dr c (c.drive k) ∧ ((c.drive k).pins.side k.bank.sub).1 = some k ∧
    ∀ x, x ≠ k.bank.sub → (c.drive k).pins.side x = c.pins.side x := by
  have h0 : (Pins.side (if k.bank.sub = .a then { c.pins with caA := some k } else { c.pins with caB := some k }) k.bank.sub).1 = some k ∧
      ∀ x, x ≠ k.bank.sub →
        Pins.side (if k.bank.sub = .a then { c.pins with caA := some k } else { c.pins with caB := some k }) x = c.pins.side x := by
    cases k.bank.sub
    · exact ⟨rfl, fun x hx => by cases x; exact absurd rfl hx; rfl⟩
    · exact ⟨rfl, fun x hx => by cases x; rfl; exact absurd rfl hx⟩
  have burst : ∀ (d : Chan) (w : CodeWord), Dr c d → (d.pins.side k.bank.sub).1 = some k → (∀ x, x ≠ k.bank.sub → d.pins.side x = c.pins.side x) →
      Dr c (d.putBurst k.bank.sub w) ∧ ((d.putBurst k.bank.sub w).pins.side k.bank.sub).1 = some k ∧
      ∀ x, x ≠ k.bank.sub → (d.putBurst k.bank.sub w).pins.side x = c.pins.side x := by
    intro d w h1 h2 h3
    obtain ⟨g1, g2, g3⟩ := putBurst_dr d k.bank.sub w
    exact ⟨h1.trans g1, g2.trans h2, fun x hx => (g3 x hx).trans (h3 x hx)⟩
  unfold Chan.drive
  dsimp only
  generalize (if k.bank.sub = .a then { c.pins with caA := some k } else { c.pins with caB := some k }) = p at h0 ⊢
  split
  · split
    · exact burst _ _ ⟨rfl⟩ h0.1 h0.2
    · exact ⟨⟨rfl⟩, h0⟩
  · split
    · exact burst _ _ ⟨rfl⟩ h0.1 h0.2
    · exact ⟨⟨rfl⟩, h0⟩
  · split
    · exact burst _ _ ⟨rfl⟩ h0.1 h0.2
    · exact ⟨⟨rfl⟩, h0⟩
  · exact ⟨⟨rfl⟩, h0⟩

theorem drives_dr (l : List Cmd) (c : Chan) : Dr c (l.foldl Chan.drive c) ∧
    ∀ x, (∀ k ∈ l, k.bank.sub ≠ x) → (l.foldl Chan.drive c).pins.side x = c.pins.side x := by
  induction l generalizing c with
  | nil => exact ⟨.refl c, fun _ _ => rfl⟩
  | cons a l ih =>
    obtain ⟨g1, g2⟩ := ih (c.drive a)
    obtain ⟨h1, -, h2⟩ := drive_dr c a
    refine ⟨h1.trans g1, fun x h => ?_⟩
    exact (g2 x fun k hk => h k (List.mem_cons_of_mem _ hk)).trans (h2 x (h a List.mem_cons_self).symm)

/-- What the audit finds against a command hangs on the image, the rows and the fabric alone. -/
theorem Chan.violations_congr {c d : Chan} (h1 : d.img = c.img) (h2 : d.banks = c.banks) (h3 : d.fab = c.fab) (k : Cmd) :
    d.violations k = c.violations k := by
  have h : ∀ x : Chan, x.violations k = ({ Reset.chan with img := x.img, banks := x.banks, fab := x.fab } : Chan).violations k := fun x => by
    unfold Chan.violations Chan.shortOf
    rfl
  rw [h d, h c, h1, h2, h3]

/-- What auditing driven commands leaves alone: all but the audit's own part of the fabric. -/
theorem observe_same (c : Chan) (k : Cmd) :
    ((c.observe k).img, (c.observe k).dclk, (c.observe k).kclk, (c.observe k).pins, (c.observe k).tail, (c.observe k).bal,
      (c.observe k).fab.hist) = (c.img, c.dclk, c.kclk, c.pins, c.tail, c.bal, c.fab.hist) := by
  unfold Chan.observe
  split
  · rfl
  · dsimp only
    split <;> rfl

theorem busDclk_fr (sb : Sub) (c : Chan) : Fr c (c.busDclk sb) := by
  unfold Chan.busDclk
  dsimp only
  repeat' split
  all_goals exact rfl

theorem observes_same (l : List Cmd) (c : Chan) :
    ((l.foldl Chan.observe c).img, (l.foldl Chan.observe c).dclk, (l.foldl Chan.observe c).kclk, (l.foldl Chan.observe c).pins,
      (l.foldl Chan.observe c).tail, (l.foldl Chan.observe c).bal, (l.foldl Chan.observe c).fab.hist) =
      (c.img, c.dclk, c.kclk, c.pins, c.tail, c.bal, c.fab.hist) := by
  induction l generalizing c with
  | nil => rfl
  | cons a l ih => exact (ih (c.observe a)).trans (observe_same c a)

end Sys2Proof.Machine
end

