-- ==== Sys2Proof/Laws/Power.lean ====
section
/-! SUPPORT. Bring-up, power-down, wakes and the Tethered sampling. -/
namespace Sys2Proof.Machine

theorem Chan.startPend_none {c : Chan} {e : Env} (h : c.power.pend = none) : c.startPend e = c := by
  unfold Chan.startPend; rw [h]

theorem bringFail_down {c : Chan} {e : Env} {t : Trans} (n : Nat) (ht : c.power.trans = some t) (hp : c.power.pend = none) :
    c.BroughtDown (c.bringFail n e) n := by
  unfold Chan.bringFail Chan.BroughtDown
  rw [ht]
  dsimp only
  cases c.power.held
  · rw [if_neg (by decide), if_neg (by decide), Chan.startPend_none (by exact hp)]
    exact ⟨rfl, rfl, rfl, rfl, rfl, rfl, rfl, _, List.mem_append_right _ (List.mem_singleton.mpr rfl), rfl⟩
  · rw [if_pos rfl, if_pos rfl, Chan.startPend_none (by exact hp)]
    exact ⟨rfl, rfl, rfl, rfl, rfl, rfl, rfl, _, List.mem_append_right _ (List.mem_singleton.mpr rfl), rfl⟩

theorem down_of {c c' d : Chan} {n : Nat} (h : c'.BroughtDown d n) (hc : c'.power = c.power) : c.BroughtDown d n := by
  unfold Chan.BroughtDown at h ⊢; rw [hc] at h; exact h

theorem bringing_of {c : Chan} {t : Trans} (h : c.power.trans = some t) (g : t.ph = .bringUp) : c.bringing = true := by
  unfold Chan.bringing; rw [h]; simp [g]

/-- The channel once the modules have been read (R388). -/
def heard (c : Chan) (i : ChanImg) (x : SpdInfo) : Chan := { c with
          bring := { c.bring with tagv := i.tagOf x.serial }, trim := { c.trim with modMax := x.maxN },
          sb := { c.sb with
            present := x.present, noI3c := x.i2c, i2c := x.i2c || c.sb.rate == 3, started := true, busy := false,
            therm := c.sb.therm.map fun (p : Bool × BitVec 12) => (false, p.2),
            hotOff := List.replicate 4 false } }

theorem spdDone_some {c : Chan} {e : Env} {i : ChanImg} {x : SpdInfo} (hi : c.img = some i) (hb : c.bringing = true) (hs : c.bring.step = 0)
    (hr : c.bring.ready = false) : c.spdDone (some x) e = if spdUnsupported x then (heard c i x).bringFail 3 e
        else if spdMismatch x i then (heard c i x).bringFail 4 e
        else ((heard c i x).checkTags (i.tagOf x.serial)).chooseForm e i x := by
  unfold Chan.spdDone
  split
  · simp_all
  · rename_i j hj
    obtain rfl : j = i := by simp_all
    rw [if_neg (by simp [hb, hs, hr])]
    rfl

theorem checkTags_set (c : Chan) (v b : Nat) : (c.checkTags v).trim.set b =
    if (c.trim.set b).valid = true ∧ (c.trim.set b).tagv ≠ v then Reset.trimSet else c.trim.set b := by
  unfold Chan.checkTags Trim.set
  simp only [List.getD_eq_getElem?_getD, List.getElem?_map]
  cases c.trim.sets[b]? with
  | none => simp [Reset.trimSet]
  | some y => simp

theorem checkTags_tags (c : Chan) (v : Nat) : ∀ y ∈ (c.checkTags v).trim.sets, y.valid = true → y.tagv = v := by
  intro y hy hv
  unfold Chan.checkTags at hy
  simp only [List.mem_map] at hy
  obtain ⟨z, -, rfl⟩ := hy
  split at hv
  · simp [Reset.trimSet] at hv
  · rename_i h
    rw [if_neg h]
    by_contra hne
    exact h (by simp [hv, hne])

/-- What the end of a training step can change: the set in force and what hangs on it after step 1, the pins, the RCD and the
ranks after step 2, the ranks' sleep. -/
theorem Chan.stepEnd_eq (e : Env) (i : ChanImg) (c : Chan) : ∃ tr fb bk br u pn sb pw a, c.stepEnd e i = { c with
      trim := tr, fab := fb, banks := bk, bridges := br, upk := u, pins := pn, sb := sb, power := pw,
      bring := { c.bring with asleep := a } } ∧
    tr.sets = c.trim.sets ∧ fb.rl = c.fab.rl ∧ fb.wl = c.fab.wl ∧ u.pauses = c.upk.pauses ∧
    (c.bring.step = 1 → tr.tsel = c.bring.setNow ∧ tr.nCur = i.setN c.bring.setNow ∧ fb.tset = c.bring.setNow) ∧
    (c.bring.step = 2 → c.bring.verify = false → pw.initDone = true ∧ pn.hold = .driven ∧ sb.rcdN = i.setN c.bring.setNow) := by
  unfold Chan.stepEnd
  dsimp only
  split
  · next h => exact ⟨_, _, _, _, _, _, _, _, _, rfl, rfl, rfl, rfl, rfl, fun _ => ⟨rfl, rfl, rfl⟩, fun g => by omega⟩
  · next h1 =>
    split
    · next h => exact ⟨_, _, _, _, _, _, _, _, _, rfl, rfl, rfl, rfl, rfl, fun g => absurd g h1, fun _ _ => ⟨rfl, rfl, rfl⟩⟩
    · next h =>
      split <;> exact ⟨_, _, _, _, _, _, _, _, _, rfl, rfl, rfl, rfl, rfl, fun g => absurd g h1, fun g g2 => absurd ⟨g, g2⟩ h⟩

/-- What the start of a training step can change, but for the retrims of the STORED form. -/
theorem Chan.stepBegin_eq (i : ChanImg) (c : Chan) (hv : c.bring.verify = false) : ∃ pn sb u a, c.stepBegin i = { c with
      pins := pn, sb := sb, upk := u, bring := { c.bring with asleep := a } } ∧
    (c.bring.step = 2 → pn.hold = .resetLow ∧ sb.pmicOn = true) ∧ (c.bring.step ≠ 2 → sb = c.sb ∧ (c.bring.step ≠ 1 → pn = c.pins)) ∧
    u.pauses = c.upk.pauses ++ (if c.bring.step = 12 then c.rankPairs.flatMap (c.patternPauses i) else []) := by
  unfold Chan.stepBegin
  dsimp only
  by_cases h1 : c.bring.step = 1
  · rw [if_pos h1]
    have h2 : c.bring.step ≠ 2 := by omega
    split
    · exact ⟨c.pins, c.sb, { c.upk with park := true }, true, rfl, fun h => absurd h h2, fun _ => ⟨rfl, fun _ => rfl⟩, by simp [h1]⟩
    · split
      · exact ⟨(c.holdPins .driven).pins, c.sb, c.upk, c.bring.asleep, rfl, fun h => absurd h h2, fun _ => ⟨rfl, fun h => absurd h1 h⟩, by simp [h1]⟩
      · exact ⟨c.pins, c.sb, c.upk, c.bring.asleep, rfl, fun h => absurd h h2, fun _ => ⟨rfl, fun h => absurd h1 h⟩, by simp [h1]⟩
  · rw [if_neg h1]
    by_cases h2 : c.bring.step = 2
    · rw [if_pos ⟨h2, hv⟩]
      exact ⟨(c.holdPins .resetLow).pins, { c.sb with pmicOn := true }, c.upk, c.bring.asleep, rfl, fun _ => ⟨rfl, rfl⟩, fun h => absurd h2 h, by simp [h2]⟩
    · rw [if_neg (fun h => h2 h.1)]
      by_cases h3 : c.bring.step = 12
      · rw [if_pos ⟨h3, hv⟩]
        exact ⟨c.pins, c.sb, _, c.bring.asleep, rfl, fun h => absurd h h2, fun _ => ⟨rfl, fun _ => rfl⟩, by simp [h3]⟩
      · rw [if_neg (fun h => h3 h.1), if_neg h3]
        exact ⟨c.pins, c.sb, c.upk, c.bring.asleep, rfl, fun h => absurd h h2, fun _ => ⟨rfl, fun _ => rfl⟩, by simp [h3]⟩

/-- What step 1 begins with in a form that keeps no rank asleep: at most the ranks are parked first. -/
theorem stepBegin_one {c : Chan} {i : ChanImg} (hs : c.bring.step = 1) (hf : c.bring.form ≠ 2) : ∃ p a,
    c.stepBegin i = { c with upk := { c.upk with park := p }, bring := { c.bring with asleep := a } } := by
  unfold Chan.stepBegin
  dsimp only
  rw [if_pos hs, if_neg hf]
  split
  · exact ⟨_, _, rfl⟩
  · exact ⟨_, _, rfl⟩

theorem startFull_facts (e : Env) (i : ChanImg) (c : Chan) : (c.startFull e i).trim = { c.trim with sets := List.replicate 4 Reset.trimSet } ∧
    (c.startFull e i).sb = c.sb ∧ (c.startFull e i).power = c.power ∧ (c.startFull e i).bring.tagv = c.bring.tagv ∧
    ∀ a l, i.trainOrder (c.maxRate e) none = a :: l → ∃ p q, c.startFull e i = { c with
      trim := { c.trim with sets := List.replicate 4 Reset.trimSet }, upk := { c.upk with park := p },
      bring := { c.bring with form := 0, setNow := a, todo := l, step := 1, verify := false, asleep := q } } := by
  unfold Chan.startFull
  dsimp only
  have hm : c.clearSets.maxRate e = c.maxRate e := rfl
  rw [hm]
  generalize i.trainOrder (c.maxRate e) none = o
  cases o with
  | nil => exact ⟨rfl, rfl, rfl, rfl, nofun⟩
  | cons b q =>
    unfold Chan.nextSet
    dsimp only
    obtain ⟨p, a, h⟩ := stepBegin_one (i := i) (c := { c.clearSets with
      bring := { c.clearSets.bring with form := 0, todo := q, setNow := b, step := 1, verify := false } }) rfl (show (0 : Nat) ≠ 2 by decide)
    rw [h]
    refine ⟨rfl, rfl, rfl, rfl, fun x l hx => ?_⟩
    obtain ⟨rfl, rfl⟩ := List.cons.inj hx
    exact ⟨p, a, rfl⟩

theorem trainStep_eq {c : Chan} {e : Env} {i : ChanImg} (r : StepResult) (hi : c.img = some i) (hb : c.bringing = true) (hs : c.bring.step ≠ 0)
    (hr : c.bring.ready = false) (hy : c.bringBusy = false) : c.trainStep r e = match r with
      | .ok lat =>
        let c := match lat with
          | some l => c.setLat l
          | none => c
        if c.retrimFailed then c.startFull e i else c.stepOk e i c.bring.tagv
      | .failed sub rank lane => c.stepFail sub rank lane e i := by
  unfold Chan.trainStep
  split
  · simp_all
  · rename_i j hj
    obtain rfl : j = i := by simp_all
    rw [if_neg (by simp [hb, hs, hr, hy])]
    all_goals cases r <;> rfl

theorem bringEnd_eq {c : Chan} {e : Env} {i : ChanImg} {t : Trans} (lat : Latencies) (rfm : RfmInfo) (hi : c.img = some i) (ht : c.power.trans = some t) (hb : c.bringing = true)
    (hr : c.bring.ready = true) (hy : c.bringBusy = false) (ho : c.bring.outcome ≠ 1) :
    c.bringEnd lat rfm e = c.bringFail c.bring.outcome e := by
  unfold Chan.bringEnd
  split
  · rw [if_neg (by simp [hb, hr, hy]), if_pos ho]
  · simp_all

/-- The channel at the end of training, before it enters Flight (R390, R391). -/
def atEnd (c : Chan) (e : Env) (i : ChanImg) (n : Nat) (lat : Latencies) (rfm : RfmInfo) : Chan :=
  let d := if n = c.trim.tsel then c else c.newRate e n (i.setN n)
  Chan.setLat lat { d with
    trim := { d.trim with reqN := clampTo 24 (d.maxRate e) (i.setN n), noset := false },
    upk := { d.upk with
      aboRfm := rfm.aboRfm, aboDly := rfm.aboDly, raammt := rfm.raammt, raaimt := rfm.raaimt },
    bring := { d.bring with done := true, result := 1, tset := n, time := d.bringTime e, ready := false },
    power := { d.power with initDone := true } }

theorem bringEnd_ok {c : Chan} {e : Env} {i : ChanImg} {t : Trans} {n : Nat} (lat : Latencies) (rfm : RfmInfo) (hi : c.img = some i) (ht : c.power.trans = some t) (hb : c.bringing = true)
    (hr : c.bring.ready = true) (hy : c.bringBusy = false) (ho : c.bring.outcome = 1) (hs : c.endSet e i = some n) :
    c.bringEnd lat rfm e = (atEnd c e i n lat rfm).enterFlight t false e := by
  unfold Chan.bringEnd
  split
  · rename_i j u hj hu
    obtain rfl : j = i := by simp_all
    obtain rfl : u = t := by simp_all
    rw [if_neg (by simp [hb, hr, hy]), if_neg (by simp [ho]), hs]
    rfl
  · simp_all

theorem freshFlight_facts (c : Chan) (t : Trans) (e : Env) (h : t.frm = .grounded) : ∃ u b th sb, c.freshFlight t e = { c with
    upk := u, bal := b, th := th, sb := sb, lane := { c.lane with crstDue := true } } ∧ u.flightAt = e.now ∧ b.eff = 850 := by
  unfold Chan.freshFlight
  rw [h]
  cases e.ripReq
  · exact ⟨_, _, _, _, rfl, rfl, rfl⟩
  · exact ⟨_, _, _, _, rfl, rfl, rfl⟩

theorem applyRate_same {c : Chan} {n : Nat} (h : c.trim.bestSet c.trim.reqN = some n) (ht : n = c.trim.tsel) (hs : c.trim.shift = none) : c.applyRate = c := by
  unfold Chan.applyRate
  rw [h]
  dsimp only
  rw [hs, if_neg (by simp), if_pos (by simp [ht])]

theorem enterFlight_facts {c : Chan} {t : Trans} {e : Env} {n : Nat} (hw : c.lane.wake = []) (hfr : t.frm = .grounded) (hfl : t.req.tgt = .flight)
    (hp : c.power.pend = none) (hb : c.trim.bestSet c.trim.reqN = some n) (ht : n = c.trim.tsel) (hs : c.trim.shift = none) :
    ∃ u b th sb, c.enterFlight t false e = { c with
      power := { c.power with cur := .flight, kept := false, held := false, trans := none },
      pins := { c.pins with hold := .driven, ck := true },
      upk := u, bal := b, th := th, sb := sb, lane := { c.lane with crstDue := true, wake := [] },
      evOut := c.evOut ++ [{ loc := evStateDone, info := packFields [(16, t.src % 8), (14, 3), (12, PState.flight.num), (11, 0)] }] } ∧
      u.flightAt = e.now ∧ b.eff = 850 := by
  obtain ⟨u, b, th, sb, hf, h1, h2⟩ := freshFlight_facts { c with
    power := { c.power with cur := .flight, kept := false, held := false, trans := none },
    pins := { c.pins with hold := .driven, ck := true } } t e hfr
  refine ⟨u, b, th, sb, ?_, h1, h2⟩
  unfold Chan.enterFlight Chan.holdPins
  dsimp only
  rw [show (PinHold.driven == PinHold.driven) = true from rfl, hf]
  simp only [Bool.false_eq_true, if_false]
  unfold Chan.replayWake
  dsimp only
  rw [hw]
  dsimp only [List.foldl]
  rw [applyRate_same (by exact hb) (by exact ht) (by exact hs), if_neg (by simp [hfl]), Chan.startPend_none (by exact hp)]
  unfold Chan.stateDone Chan.raise
  rw [hfr]
  rfl

theorem stepReady_none {c : Chan} {t : Trans} (h : c.power.trans = some t) (hp : t.ph = .stagger) : c.stepReady = true := by
  unfold Chan.stepReady; rw [h]; simp [hp]

theorem loadSet_same {c : Chan} {e : Env} (h : c.trim.bestSet c.trim.reqN = some c.trim.tsel) : c.loadSet e = c := by
  unfold Chan.loadSet; rw [h]; simp

theorem seqStart_ok {c : Chan} {x : ChanImg} (hx : c.img = some x) (h : Config.codeCheckOk x.code = true) : c.seqStart = { c with
      seqr := { c.seqr with run := true, fault := false, test := none, clear := none },
      mbxOut := { c.mbxOut with alive := 0 }, mbxIn := { c.mbxIn with kept := none } } := by
  unfold Chan.seqStart
  dsimp only
  rw [if_pos (by rw [hx]; exact h)]

theorem loftSettle_wb {c : Chan} (h1 : c.loft.wbBusy = false) (h2 : c.loft.closing = true) (h3 : c.loft.ops = []) (h4 : c.loft.dirtyList ≠ []) :
    c.loftSettle = { c with loft := { c.loft with wball := c.loft.dirtyList, wbBusy := true } } := by
  have h5 : c.loft.dirtyList.isEmpty = false := by simpa using h4
  unfold Chan.loftSettle
  simp [h1, h2, h3, h5]

theorem excursion_none {c : Chan} {e : Env} (h : c.power.cur ≠ .moored ∨ c.trim.nCur ≤ c.maxRate e) : c.excursion e = c := by
  unfold Chan.excursion
  rw [if_neg]
  rintro ⟨h1, h2, h3, h4⟩
  rcases h with h | h
  · exact h h1
  · omega

theorem sampleOne_absent {c : Chan} {k : Nat} {r : Option (BitVec 12)} (h : c.sb.hasSensor (k / 2) (k % 2) = false) : c.sampleOne k r = (c, none) := by
  unfold Chan.sampleOne
  dsimp only
  rw [if_pos (by simp [h])]

theorem sampleOne_hot {c : Chan} {k : Nat} {t : BitVec 12} (h : c.sb.hasSensor (k / 2) (k % 2) = true) (hw : 4 * (c.power.wakeTemp : Int) ≤ quarterDeg t) :
    c.sampleOne k (some t) = (Chan.raise { c with sb := { c.sb with
        therm := updateAt k (fun _ => (true, t)) c.sb.therm, silent := updateAt k (fun _ => 0) c.sb.silent } } evTether
          (packFields [(9, k / 2), (8, k % 2), (0, wholeDeg t)]),
        some { source := 3, dimm := k / 2, sensor := k % 2, temp := wholeDeg t }) := by
  unfold Chan.sampleOne
  dsimp only
  rw [if_neg (by simp [h]), if_pos (by push_cast; exact hw)]

theorem enterLow_tethered {c : Chan} {e : Env} {frm : PState} {keep : Bool} {wake : WakeInfo} {ph : TransPh} (h : c.power.pend = none) :
    ∃ x, Chan.enterLow { frm := frm, req := { tgt := .tethered, keep := keep, wake := wake }, ph := ph } e c = { c.gateLogic with
      th := (c.thMark e).th,
      power := { c.power with
        cur := .tethered, kept := false, trans := none, initDone := c.power.initDone && true,
        tetherNext := e.now + c.power.period * 10 * refMs },
      pins := { c.pins with hold := .selfRef, ck := false }, sb := { c.sb with silent := List.replicate 4 0 },
      seqr := { c.seqr with run := false, test := none, clear := none },
      evOut := c.evOut ++ [{ loc := evStateDone, info := x }] } := by
  unfold Chan.enterLow
  simp only [show (PState.tethered == PState.grounded) = false from rfl, Bool.false_and, Bool.false_eq_true, if_false, reduceCtorEq]
  rw [Chan.startPend_none (by exact h), excursion_none (.inl (by intro h; cases h))]
  exact ⟨_, rfl⟩

theorem enterLow_moored {c : Chan} {e : Env} {frm : PState} {keep : Bool} {wake : WakeInfo} {ph : TransPh} (h : c.power.pend = none)
    (hr : c.trim.nCur ≤ c.maxRate e) :
    ∃ x, Chan.enterLow { frm := frm, req := { tgt := .moored, keep := keep, wake := wake }, ph := ph } e c = { c with
      th := (c.thMark e).th, upk := { c.upk with park := false, wake := false },
      power := { c.power with
        cur := .moored, kept := false, trans := none, initDone := c.power.initDone && true,
        tetherNext := e.now + c.power.period * 10 * refMs },
      pins := { c.pins with hold := .driven, ck := true }, sb := { c.sb with silent := List.replicate 4 0 },
      seqr := { c.seqr with run := false, test := none, clear := none },
      evOut := c.evOut ++ [{ loc := evStateDone, info := x }] } := by
  unfold Chan.enterLow
  simp only [show (PState.moored == PState.grounded) = false from rfl, Bool.false_and, Bool.false_eq_true, if_false, reduceCtorEq, if_true]
  rw [Chan.startPend_none (by exact h), excursion_none (.inr (by exact hr))]
  exact ⟨_, rfl⟩

theorem request_tethered {c : Chan} {e : Env} {w : WakeInfo} (hd : c.down = false) (hc : c.power.cur = .tethered) (ht : c.power.trans = none) :
    c.request { tgt := .moored, keep := false, wake := w } e = { c with
      power := { c.power with
        trans := some { frm := .tethered, req := { tgt := .moored, keep := false, wake := w }, ph := .stagger }, pend := none,
        readyAt := e.now } } := by
  unfold Chan.down at hd
  simp only [Bool.or_eq_false_iff] at hd
  unfold Chan.request Chan.notEnabled Chan.loadHolds Chan.startReq Chan.begin
  simp [hd, hc, ht]

theorem sampled {c : Chan} {rs : List (Option (BitVec 12))} {e : Env} (hd : c.down = false) (hc : c.power.cur = .tethered) (ht : c.power.trans = none)
    (hw : c.power.tetherNext ≤ e.now) (k : Fin 4) {t : BitVec 12}
    (hk : ∀ j : Fin 4, c.sb.hasSensor (j.val / 2) (j.val % 2) = true ↔ j = k) (hr : rs.getD k.val none = some t)
    (hq : 4 * (c.power.wakeTemp : Int) ≤ quarterDeg t) : ∃ x, c.tetherSample rs e = { c with
      power := { c.power with
        tetherNext := c.power.tetherNext + c.power.period * 10 * refMs, pend := none, readyAt := e.now,
        trans := some { frm := .tethered, ph := .stagger, req := { tgt := .moored, keep := false, wake := {
            source := 3, dimm := k.val / 2, sensor := k.val % 2, temp := wholeDeg t } } } },
      sb := x,
      evOut := c.evOut ++ [{ loc := evTether, info := packFields [(9, k.val / 2), (8, k.val % 2), (0, wholeDeg t)] }] } := by
  unfold Chan.tetherSample
  rw [if_neg (by simp [hd, hc, ht]; omega)]
  dsimp only
  generalize hdd : ({ c with power := { c.power with tetherNext := c.power.tetherNext + c.power.period * 10 * refMs } } : Chan) = d
  have hs : d.sb = c.sb := by rw [← hdd]
  have hwt : d.power.wakeTemp = c.power.wakeTemp := by rw [← hdd]
  have hno : ∀ (x : Chan) (j : Fin 4) (r : Option (BitVec 12)), x.sb.present = c.sb.present → j ≠ k → x.sampleOne j.val r = (x, none) := by
    intro x j r hx hj
    refine sampleOne_absent ?_
    have := mt (hk j).mp hj
    unfold Sideband.hasSensor at this ⊢
    rw [hx]
    simpa using this
  have hyes := sampleOne_hot (c := d) (k := k.val) (t := t) (by rw [hs]; exact (hk k).mpr rfl) (by rw [hwt]; exact hq)
  have hfold : (List.range 4).foldl (fun (p : Chan × Option WakeInfo) k =>
      let q := p.1.sampleOne k (rs.getD k none)
      (q.1, p.2 <|> q.2)) (d, none) = d.sampleOne k.val (some t) := by
    rw [show List.range 4 = [0, 1, 2, 3] from rfl]
    dsimp only [List.foldl]
    have hp : d.sb.present = c.sb.present := by rw [hs]
    have hyp : (d.sampleOne k.val (some t)).1.sb.present = c.sb.present := by rw [hyes]; exact hp
    have h2 : (d.sampleOne k.val (some t)).2 = some { source := 3, dimm := k.val / 2, sensor := k.val % 2, temp := wholeDeg t } := by rw [hyes]
    generalize hY : d.sampleOne k.val (some t) = Y at hyp h2 ⊢
    obtain ⟨Y1, Y2⟩ := Y
    obtain rfl : Y2 = _ := h2
    have n0 := fun (x : Chan) r hx hj => hno x 0 r hx hj
    have n1 := fun (x : Chan) r hx hj => hno x 1 r hx hj
    have n2 := fun (x : Chan) r hx hj => hno x 2 r hx hj
    have n3 := fun (x : Chan) r hx hj => hno x 3 r hx hj
    simp only [Fin.val_zero, Fin.val_one, Fin.val_two, show (3 : Fin 4).val = 3 from rfl] at n0 n1 n2 n3
    obtain ⟨k, hk4⟩ := k
    interval_cases k
    · simp only at hr hY
      rw [hr, hY, n1 _ _ hyp (by simp [Fin.ext_iff]), n2 _ _ hyp (by simp [Fin.ext_iff]), n3 _ _ hyp (by simp [Fin.ext_iff])]
      rfl
    · simp only at hr hY
      rw [n0 _ _ hp (by simp [Fin.ext_iff])]
      dsimp only
      rw [hr, hY, n2 _ _ hyp (by simp [Fin.ext_iff]), n3 _ _ hyp (by simp [Fin.ext_iff])]
      rfl
    · simp only at hr hY
      rw [n0 _ _ hp (by simp [Fin.ext_iff])]
      dsimp only
      rw [n1 _ _ hp (by simp [Fin.ext_iff])]
      dsimp only
      rw [hr, hY, n3 _ _ hyp (by simp [Fin.ext_iff])]
      rfl
    · simp only at hr hY
      rw [n0 _ _ hp (by simp [Fin.ext_iff])]
      dsimp only
      rw [n1 _ _ hp (by simp [Fin.ext_iff])]
      dsimp only
      rw [n2 _ _ hp (by simp [Fin.ext_iff])]
      dsimp only
      rw [hr, hY]
      rfl
  rw [hfold, hyes]
  dsimp only
  rw [request_tethered (by rw [← hdd]; exact hd) (by rw [← hdd]; exact hc) (by rw [← hdd]; exact ht)]
  rw [← hdd]
  exact ⟨_, rfl⟩

end Sys2Proof.Machine
end

