-- ==== Sys2Proof/Laws/Queue.lean ====
section
/-! SUPPORT. The lane's arrivals and sends, the queues and upkeep. -/
namespace Sys2Proof.Machine

theorem laneCmd_exec (s : State) (ch : ChanId) (op : BitVec 5) (f : ReqFlit) :
    exec (laneCmd ch op f) s = .next (s.commitChan ch (Chan.arrive (.req op f) s.env (s.chan ch))) := by
  obtain ⟨n, hn⟩ := op
  have : n < 32 := hn
  interval_cases n <;> rfl

theorem Chan.arrive_open {c : Chan} {e : Env} {x : Captured} (h : c.lane.iso = false) (g : c.asleep = false) :
    Chan.arrive x e c = c.ingress e x := by
  unfold Chan.arrive
  rw [if_neg (by simp [h]), if_neg (by simp [g])]

theorem Chan.take_req {c : Chan} {e : Env} {o : ReqOp} {f : ReqFlit} (h1 : o ≠ .sconf) (h2 : o ≠ .scan) :
    c.take e o f = if c.down then c.refuseReq o (o.strip f) else c.accept1 o (o.strip f) := by
  unfold Chan.take
  dsimp only
  split
  · exact absurd rfl h1
  · exact absurd rfl h2
  · rfl

theorem Chan.refuseReq_req {c : Chan} {o : ReqOp} {f : ReqFlit} (h1 : o ≠ .sconf) (h2 : o ≠ .scan) :
    c.refuseReq o f = (c.useTag f.tag).pushErr f o.ty errDown := by
  unfold Chan.refuseReq
  split
  · exact absurd rfl h1
  · exact absurd rfl h2
  · rfl

theorem Chan.errSent_plain {d : Chan} {r : Rsp} (hs : r.status ≠ errCmdFail) (ha : d.answeredRd r.tag = none)
    (ho : (d.loft.ops.any fun o => o.tag == r.tag && o.sent) = false) :
    d.errSent r = { d with
      occ := d.occ ++ [occR 0x19 0 r.cls r.priv r.req r.laddr],
      lane := { d.lane with inUse := d.lane.inUse.erase r.tag } } := by
  unfold Chan.errSent
  have hs2 : (r.status == errCmdFail) = false := by simpa using hs
  simp only [hs2, Bool.false_and, Bool.false_eq_true, if_false]
  have ha2 : (d.log (occR 0x19 0 r.cls r.priv r.req r.laddr)).answeredRd r.tag = none := ha
  rw [ha2]
  dsimp only
  unfold Chan.opSent
  have : ((d.log (occR 0x19 0 r.cls r.priv r.req r.laddr)).loft.ops.find? fun o => o.tag == r.tag && o.sent) = none := by
    simpa [Chan.log] using ho
  rw [this]
  rfl

theorem Chan.bufferCheck_plain {d : Chan} {r : Rsp} {e : RdEntry} (ha : d.answeredRd r.tag = some e) (hk : e.isRds = false)
    (hu : d.flaws 1 e.seq = []) : d.bufferCheck r = (r, d) := by
  have hs : e.usesHold = false := by simp [RdEntry.usesHold, hk]
  unfold Chan.bufferCheck
  rw [ha]
  simp only [hs, Bool.false_eq_true, if_false, Chan.readOut_sound hu, Bool.not_false, if_true]

theorem Chan.sent_data {d : Chan} {r : Rsp} {e : RdEntry} (hr : r.ty = .data) (ha : d.answeredRd r.tag = some e)
    (hk : e.kind = .host .rd) : d.sent r = { d with
      occ := d.occ ++ [occR 0x03 e.dev.bank.sub.num e.cls e.priv e.req e.laddr],
      rq := d.rq.filter fun y => y.seq != e.seq,
      lane := { d.lane with inUse := d.lane.inUse.erase e.tag } } := by
  unfold Chan.sent
  simp only [hr, ha]
  unfold Chan.readDone
  simp only [hk]
  rfl

theorem Chan.sendFlit_data {x : Chan} {env : Env} {r : Rsp} {e : RdEntry} (hp : x.lane.pick = some r) (hc : x.lane.crstDue = false)
    (hr : r.ty = .data) (ha : x.answeredRd r.tag = some e) (hk : e.kind = .host .rd) (hu : x.flaws 1 e.seq = []) :
    x.sendFlit env = { x with
      lane := { (x.giveCredits (x.grant env.win) x.wgrant).lane with
        ready := x.lane.ready.erase r, inUse := x.lane.inUse.erase e.tag,
        out := some (flitOf r (x.grant env.win) x.wgrant) },
      rq := x.rq.filter fun y => y.seq != e.seq,
      occ := x.occ ++ [occR 0x03 e.dev.bank.sub.num e.cls e.priv e.req e.laddr] } := by
  unfold Chan.sendFlit
  simp only [hp, hc, Bool.false_and, Bool.false_eq_true, if_false, hr, reduceCtorEq, or_false, if_true]
  rw [Chan.bufferCheck_plain (e := e) (by exact ha) (by simp [RdEntry.isRds, hk]) (by exact hu)]
  dsimp only
  rw [Chan.sent_data (e := e) hr (by exact ha) hk]
  simp only [Chan.giveCredits, flitOf]

/-- An EDATA that its class still allows is left alone. -/
theorem Chan.recheckEarly_none {c : Chan} {r : Rsp} (h : r.ty = .edata → (c.bal.cls r.cls).early = true) : c.recheckEarly r = c := by
  unfold Chan.recheckEarly
  by_cases hr : r.ty = .edata
  · simp [h hr]
  · have : (r.ty != .edata) = true := by simpa using hr
    simp [this]

/-- What an HCLK edge does before a flit is chosen while every waiting EDATA is still allowed. -/
theorem Chan.atEdge_eq {c : Chan} (h : ∀ r ∈ c.lane.ready, r.ty = .edata → (c.bal.cls r.cls).early = true) :
    c.atEdge = { c with lane := { c.lane with
      hclk := c.lane.hclk + 1, cmps := c.lane.cmps.filter fun p => !decide (p.2 ≤ c.lane.hclk + 1),
      ready := c.lane.ready ++ (c.lane.cmps.filter fun p => decide (p.2 ≤ c.lane.hclk + 1)).map fun p =>
        plainRsp .cmp p.1 0 p.2 0 } } := by
  have hf : ∀ (l : List Rsp) (d : Chan), (∀ r ∈ l, r.ty = .edata → (d.bal.cls r.cls).early = true) →
      l.foldl Chan.recheckEarly d = d := by
    intro l
    induction l with
    | nil => exact fun _ _ => rfl
    | cons a l ih =>
      intro d hd
      rw [List.foldl_cons, Chan.recheckEarly_none (hd a (by simp))]
      exact ih d fun r hr => hd r (by simp [hr])
  unfold Chan.atEdge Chan.cmpDue
  dsimp only
  rw [foldl_push]
  exact hf _ _ fun r hr => by
    rcases List.mem_append.1 hr with hr | hr
    · exact h r hr
    · obtain ⟨p, -, rfl⟩ := List.mem_map.1 hr
      exact fun e => by cases e

theorem find?_filter_ne {b x : Bank} (h : x.key ≠ b.key) (l : List (Bank × BankEntry)) :
    (l.filter fun p => decide (p.1.key ≠ b.key)).find? (fun p => p.1 == x) = l.find? fun p => p.1 == x := by
  induction l with
  | nil => rfl
  | cons p l ih =>
    by_cases hp : p.1.key = b.key
    · have : (p.1 == x) = false := by
        simp only [beq_eq_false_iff_ne, ne_eq]
        rintro rfl
        exact h hp
      simp [List.filter_cons, hp, List.find?_cons, this, ih] <;> simpa using ih
    · rw [List.filter_cons, if_pos (by simpa using hp), List.find?_cons, List.find?_cons, ih]

theorem find?_insertBank {b x : Bank} (h : x.key ≠ b.key) (e : BankEntry) (l : List (Bank × BankEntry)) :
    (∀ p ∈ l, p.1.key = b.key → p.1 = b) →
    (insertBank b e l).find? (fun p => p.1 == x) = l.find? fun p => p.1 == x := by
  have hb : (b == x) = false := by
    simp only [beq_eq_false_iff_ne, ne_eq]
    rintro rfl
    exact h rfl
  induction l with
  | nil => intro _; simp [insertBank, hb]
  | cons p l ih =>
    intro hl
    unfold insertBank
    split
    · simp [hb]
    · split
      · next hk =>
        have hp := hl p (by simp) hk.symm
        have : (p.1 == x) = false := by rw [hp]; exact hb
        simp [hb, this]
      · rw [List.find?_cons, List.find?_cons, ih fun q hq => hl q (by simp [hq])]

theorem serve_direct {c : Chan} {n : Nat} (h : ∀ r ∈ c.rq, r.stage ≠ .waitBeat) :
    ∃ g q, Drains q ∧ (c.serveWaiting n).directAll = { c with sched := g, occ := c.occ ++ q } := by
  rw [Chan.serveWaiting_none h]
  exact Chan.directAll_eq c

theorem Chan.serveRd_thatcher {c : Chan} {r : RdEntry} {n : Nat} (hb : c.beatWaits r.laddr r.seq = false)
    (hk : r.kind = .thatcher) : c.serveRd r n = c.linkRd r := by
  unfold Chan.serveRd
  rw [if_neg (by simp [hb]), if_pos hk]

/-- `setDrain` steps for directAll -/
theorem Chan.direct_drain (c : Chan) (s : Sub) :
    ∃ d w g q, c.direct s = { c with sched := c.sched.setDrain s d w g, occ := c.occ ++ q } ∧ Drains q := by
  have h : ∀ (d w : Bool) (g : List Nat) (p : Bool), ∃ q,
      (if p = true then ({ c with sched := c.sched.setDrain s d w g } : Chan).log (occ0 0x12 1 s.num) else { c with sched := c.sched.setDrain s d w g }) =
        { c with sched := c.sched.setDrain s d w g, occ := c.occ ++ q } ∧ Drains q := by
    intro d w g p
    cases p
    · exact ⟨[], by simp, by simp [Drains]⟩
    · exact ⟨[_], rfl, by simp [Drains, occ0]⟩
  exact ⟨_, _, _, h _ _ _ _⟩

theorem Chan.directAll_drain (c : Chan) :
    ∃ d1 m1 g1 d2 m2 g2 q, c.directAll = { c with
      sched := (c.sched.setDrain .a d1 m1 g1).setDrain .b d2 m2 g2, occ := c.occ ++ q } ∧ Drains q := by
  obtain ⟨d, m, g, q, e, i⟩ := Chan.direct_drain c .a
  obtain ⟨d', m', g', q', e', i'⟩ := Chan.direct_drain { c with sched := c.sched.setDrain .a d m g, occ := c.occ ++ q } .b
  refine ⟨d, m, g, d', m', g', q ++ q', ?_, ?_⟩
  · unfold Chan.directAll
    rw [e, e', List.append_assoc]
  · intro x hx
    simp only [List.mem_append] at hx
    exact hx.elim (i x) (i' x)

end Sys2Proof.Machine
end

