-- ==== Sys2Proof/Laws/Register.lean ====
section
/-! SUPPORT. The register space: addresses, the writers and readers of a channel page, and the transactions that the lane takes. -/
namespace Sys2Proof.Machine

theorem onCh {s : State} {ch : ChanId} {f : Env → Chan → Chan} {c : Chan} (h : f s.env (s.chan ch) = c) :
    (Host.Outcome.next (s.onChan ch f) : Res) = .next (s.commitChan ch c) := by rw [← h]; rfl

theorem onWr {s : State} {ch : ChanId} {off : Nat} {w : Word} {f : Env → Chan → Chan} {c : Chan}
    (ht : s.Takes (wrTxn (.chan ch) off w)) (h : f s.env (s.chan ch) = c) :
    mgtWrite (.chan ch) off w (fun s => s.onChan ch f) s = .next ((s.commitChan ch c).respond false 0) := by
  rw [mgtWrite_takes ht, ← h]; rfl

theorem chanWrite_of (s : State) (ch : ChanId) (off : Nat) (w : Word) {f : ChanWriter} (hf : regAt off chanWriters = some f) :
    s.chanWrite ch off w = some (s.onChan ch (f w)) := by
  unfold State.chanWrite
  rw [hf]

theorem writeAddr_chan (s : State) (ch : ChanId) (a : Nat) (w : Word) (h1 : addrChan a = some ch) :
   s.writeAddr a w = s.chanWrite ch (addrOff a) w := by
    unfold State.writeAddr
    rw [h1]

theorem writeAddr_of {s : State} {ch : ChanId} {a off : Nat} {w : Word} {f : ChanWriter} (h1 : addrChan a = some ch) (h2 : addrOff a = off)
    (hf : regAt off chanWriters = some f) : s.writeAddr a w = some (s.onChan ch (f w)) := by
  rw [writeAddr_chan s ch a w h1, chanWrite_of s ch (addrOff a) w (h2 ▸ hf)]

theorem repairOf_chan (t : MgtTxn) (ch : ChanId) (h1 : addrChan t.addr.toNat = some ch) (h2 : addrOff t.addr.toNat = 0xA00) : repairOf t = if t.we && bitAt t.data.toNat 30 then some ch else none := by
  unfold repairOf
  rw [h1]
  simp only [h2, beq_self_eq_true, Bool.and_true]

theorem regTxn_wr (s t : State) (x : MgtTxn) (h1 : repairOf x = none) (h2 : x.we = true) (h3 : s.writeAddr x.addr.toNat x.data = some t) :
  s.regTxn x = t.respond false 0 := by
  unfold State.regTxn
  simp only [h1, h2, h3, if_true]

theorem regTxn_rep (s : State) (x : MgtTxn) (ch : ChanId) (h1 : repairOf x = some ch) (h2 : x.we = true) :
  s.regTxn x = ({ s with mgt := { s.mgt with held := some x, repair := some ch, rspV := false } } : State).onChan ch fun _ c => c.loftCtl x.data := by
  unfold State.regTxn
  simp only [h1, h2, if_true]

theorem w_loft : regAt 0xA00 chanWriters = some (plainW Chan.loftCtl) := rfl

theorem regAddr_toNat (ch : ChanId) (off : Nat) (h : off < 0x100000) : (regAddr (.chan ch) off).toNat = 0x100000 * (ch.val + 1) + off := by
  have := ch.isLt
  simp only [regAddr, chanBase, BitVec.toNat_ofNat]
  omega

theorem addrChan_eq (ch : ChanId) (off : Nat) (h : off < 0x100000) : addrChan (0x100000 * (ch.val + 1) + off) = some ch := by
  have := ch.isLt
  unfold addrChan
  rw [dif_pos (by omega)]
  congr 1
  apply Fin.ext
  show _ / _ - 1 = _
  omega

theorem regAddr_chan {ch : ChanId} {off : Nat} (h : off < 0x100000) : addrChan (regAddr (.chan ch) off).toNat = some ch := by
  rw [regAddr_toNat ch off h, addrChan_eq ch off h]

theorem regAddr_off {ch : ChanId} {off : Nat} (h : off < 0x100000) : addrOff (regAddr (.chan ch) off).toNat = off := by
  rw [regAddr_toNat ch off h]
  unfold addrOff; omega

theorem loftCtl_takes {s : State} {ch : ChanId} {v : Word} (h : s.Takes (wrTxn (.chan ch) 0xA00 v)) :
    mgtTxn (wrTxn (.chan ch) 0xA00 v) s = .next (if bitAt v.toNat 30 then
      ({ s with mgt := { s.mgt with held := some (wrTxn (.chan ch) 0xA00 v), repair := some ch, rspV := false } } : State).commitChan ch
        ((s.chan ch).loftCtl v)
      else (s.commitChan ch ((s.chan ch).loftCtl v)).respond false 0) := by
  rw [mgtTxn_takes h]
  have h1 := repairOf_chan (wrTxn (.chan ch) 0xA00 v) ch (regAddr_chan (by decide)) (regAddr_off (by decide))
  have h2 := writeAddr_of (s := s) (w := v) (regAddr_chan (ch := ch) (off := 0xA00) (by decide)) (regAddr_off (by decide)) w_loft
  by_cases hb : bitAt v.toNat 30 = true
  · have h1 : repairOf (wrTxn (.chan ch) 0xA00 v) = some ch := by rw [h1, if_pos (by simpa [wrTxn] using hb)]
    rw [if_pos hb, regTxn_rep s _ ch h1 rfl]
    rfl
  · have h1 : repairOf (wrTxn (.chan ch) 0xA00 v) = none := by rw [h1, if_neg (by simpa [wrTxn] using hb)]
    rw [if_neg hb, regTxn_wr s _ _ h1 rfl h2]
    rfl

theorem mgtHeld_none {s : State} {t : MgtTxn} (hr : s.rst.ready = true) (h : addrChan t.addr.toNat = none) (h2 : t.we = true → t.addr.toNat ≠ 0xF0003C ∧ t.addr.toNat ≠ 0x400) :
    mgtHeld s t = false := by
  unfold mgtHeld
  cases hw : t.we
  · simp [h, hr]
  · simp [h, hr, h2 hw]

theorem mgtHeld_chan {s : State} {t : MgtTxn} {ch : ChanId} (hr : s.rst.ready = true) (h : addrChan t.addr.toNat = some ch)
   (hp : (s.chan ch).power.rst = false) (ho : (s.chan ch).cv.owner = false) (hw : t.we = true → addrOff t.addr.toNat ≠ 0x68 ∧ addrOff t.addr.toNat ≠ 0x900) : mgtHeld s t = false := by
  unfold mgtHeld
  cases hwe : t.we
  · simp [h, hr, hp, ho]
  · simp [h, hr, hp, ho, hw hwe]

theorem registerRead_takes {s : State} {a : BitVec 24} {r : Option (State × Word)} (h : s.mgt.held = none) (hh : mgtHeld s { we := false, addr := a, data := 0 } = false) :
    s.readAddr a.toNat = r → exec (.registerRead a) s = .next (match r with
        | some p => p.1.respond false p.2
        | none => s.respond true 0) := by
  intro hr
  refine (mgtTxn_takes (t := { we := false, addr := a, data := 0 }) ⟨h, hh⟩).trans ?_
  unfold State.regTxn
  simp only [Bool.false_eq_true, if_false, hr]
  cases r <;> rfl

theorem registerWrite_takes {s : State} {a : BitVec 24} {w : Word} {r : Option State} (h : s.mgt.held = none) (hh : mgtHeld s { we := true, addr := a, data := w } = false)
    (hp : repairOf { we := true, addr := a, data := w } = none) :
    s.writeAddr a.toNat w = r → exec (.registerWrite a w) s = .next (match r with
        | some t => t.respond false 0
        | none => s.respond true 0) := by
  intro hr
  refine (mgtTxn_takes (t := { we := true, addr := a, data := w }) ⟨h, hh⟩).trans ?_
  unfold State.regTxn
  simp only [hp, if_true, hr]
  all_goals cases r <;> rfl

theorem repairOf_blk {t : MgtTxn} (h : addrChan t.addr.toNat = none) : repairOf t = none := by
  unfold repairOf
  simp only [h]

theorem addrChan_none {a : Nat} (h : a < 0x100000 ∨ 0x900000 ≤ a) : addrChan a = none := by
  unfold addrChan; rw [dif_neg (by omega)]

theorem readAddr_hole {s : State} {a : Nat} (h1 : 0x900000 ≤ a) (h2 : a < 0xF00000) (h3 : a < 0xA00000 ∨ 0xA09000 ≤ a) : s.readAddr a = none := by
  unfold State.readAddr
  rw [addrChan_none (.inr h1)]
  dsimp only
  rw [if_neg (by omega), if_neg (by omega), if_neg (by omega)]

theorem writeAddr_hole {s : State} {a : Nat} {w : Word} (h1 : 0x900000 ≤ a) (h2 : a < 0xF00000) : s.writeAddr a w = none := by
  unfold State.writeAddr
  rw [addrChan_none (.inr h1)]
  dsimp only
  rw [if_neg (by omega), if_neg (by omega)]

theorem w_tether : regAt 0x20 chanWriters = some (plainW Chan.setTether) := rfl

theorem w_irq (s : State) (w : Word) : s.writeAddr 0x310 w = some { s with ev := s.ev.irqEn w } := rfl

theorem w_ver (s : State) (w : Word) : s.writeAddr 4 w = some s := rfl

theorem r_id (s : State) : s.readAddr 0 = some (s, 0xB1700880) := rfl

theorem r_ver (s : State) : s.readAddr 4 = some (s, 0x03010300) := rfl

theorem readAddr_chan (s : State) (ch : ChanId) (a : Nat) (h1 : addrChan a = some ch) : s.readAddr a = s.chanRead ch (addrOff a) := by
  unfold State.readAddr
  simp only [h1]

theorem readAddr_of {s : State} {ch : ChanId} {a off : Nat} {r : Option (State × Word)} (h1 : addrChan a = some ch)
    (h0 : addrOff a = off) (h3 : s.chanRead ch off = r) : s.readAddr a = r := by
  rw [readAddr_chan s ch a h1, h0, h3]

theorem chanRead_plain {s : State} {ch : ChanId} {off : Nat} {w : Word} (hr : s.Rest ch) (h1 : off ≠ 0xC)
    (h2 : (s.chan ch).readReg s.env off = some (s.chan ch, w)) : s.chanRead ch off = some (s, w) := by
  unfold State.chanRead
  rw [if_neg h1, h2, Option.map_some, State.onChan_id hr rfl]

theorem read_plain {s : State} {ch : ChanId} {off : Nat} {w : Word} (hr : s.Rest ch) (h0 : off < 0x100000) (h1 : off ≠ 0xC)
    (h2 : (s.chan ch).readReg s.env off = some (s.chan ch, w)) (ht : s.Takes (rdTxn (.chan ch) off)) :
    exec (.registerRead (regAddr (.chan ch) off)) s = .next (s.respond false w) :=
  registerRead_takes ht.1 ht.2 (readAddr_of (regAddr_chan h0) (regAddr_off h0) (chanRead_plain hr h1 h2))

theorem rd_0x4 (c : Chan) (e : Env) : c.readReg e 0x4 = some (c, mkWord [
        (24, maskBits ((List.range 8).map fun r => c.inGlide .a r || c.inGlide .b r)), (23, b2n c.down), (22, b2n c.keptNow),
        (21, b2n c.draining), (20, b2n c.power.trans.isSome), (19, b2n c.power.pend.isSome),
        (18, match c.power.pend with | some q => b2n q.keep | none => 0),
        (16, match c.power.pend with | some q => q.tgt.num | none => 0),
        (12, match c.power.trans with | some t => t.req.tgt.num | none => 0), (8, c.power.cur.num)]) := rfl

theorem rd_0x18 (c : Chan) (e : Env) : c.readReg e 0x18 = some (c, mkWord [(8, c.seqr.fenceDone.toNat), (0, c.seqr.fence.toNat)]) := rfl

theorem rd_0x88 (c : Chan) (e : Env) : c.readReg e 0x88 = some (c, mkWord [(24, c.rspUsed), (16, c.holdUsed), (8, c.wq.length), (0, c.rqUsed)]) := rfl

theorem w_truss (s : State) (w : Word) : s.writeAddr 0x100 w = some (s.trussCtl w) := rfl

end Sys2Proof.Machine
end

