-- ==== Sys2Proof/Laws/Resets.lean ====
section
/-! SUPPORT. What a reset leaves of a channel, and the reset record. -/
namespace Sys2Proof.Machine

theorem startReset_facts {c : Chan} (h : c.power.rst = false) : ∃ d, c.startReset = d ∧ d.power.rst = true ∧ d.power.trans = none ∧ d.rq = [] ∧
    d.lane.out = none ∧ d.power.rstKeep = (c.resetKeeps && !c.bringing) ∧ d.power.rstWlost = c.resetLoses := by
  refine ⟨_, rfl, ?_⟩
  unfold Chan.startReset
  rw [if_neg (by simp [h])]
  exact ⟨rfl, rfl, rfl, rfl, rfl, rfl⟩

theorem onlyBit : ∀ ch : ChanId, (allChans.filter fun k => bitAt (BitVec.ofNat 32 (2 ^ ch.val) : Word).toNat k.val) = [ch] := by
  decide +kernel

theorem putRec_bits (r : Word) (ch k : ChanId) (v : Nat) (hv : v < 16) :
    bitsAt (putRec r ch.val v).toNat (4 * k.val) 4 = if k = ch then v else bitsAt r.toNat (4 * k.val) 4 := by
  have hr := r.isLt
  generalize hn : r.toNat = n at hr
  unfold putRec setBits bitsAt
  rw [hn, BitVec.toNat_ofNat]
  simp only [Nat.shiftRight_eq_div_pow]
  fin_cases ch <;> fin_cases k <;> simp <;> omega

theorem warmEnd_last {s : State} (h : s.rst.warmLeft.isEmpty = true) : s.warmEnd =
    s.resetAll (fun c => c) { Reset.resetCtl with pwrLow := false, resetRec := s.rst.resetRec } := by
  unfold State.warmEnd; rw [if_pos h]

theorem warmEnd_more {s : State} (h : s.rst.warmLeft.isEmpty = false) : s.warmEnd = s := by
  unfold State.warmEnd; rw [if_neg (by simp [h])]

end Sys2Proof.Machine
end

