-- ==== Sys2Proof/Laws/Trim.lean ====
section
/-! SUPPORT. Trim sets and retrim pauses. -/
namespace Sys2Proof.Machine

theorem Chan.clearFrom_free (c : Chan) (n : Nat) (l : List Cmd) (k : Cmd) (f t : Nat) :
    ({ c with free := n } : Chan).clearFrom l k f t = c.clearFrom l k f t := by
  induction f generalizing t with
  | zero => rfl
  | succ f ih => unfold Chan.clearFrom; rw [ih]; rfl

/-- The free values do not decide how long a sequence lasts. -/
theorem Chan.seqLength_free (c : Chan) (n : Nat) (l : List SeqCmd) : ({ c with free := n } : Chan).seqLength l = c.seqLength l := by
  have h : ({ c with free := n } : Chan).placeAfter = c.placeAfter := by
    funext l k
    unfold Chan.placeAfter
    dsimp only
    rw [Chan.clearFrom_free]
  unfold Chan.seqLength
  rw [h]

/-- The pause that a retrim asks for, and its declared length (R300). -/
theorem Chan.askPause_retrim (c : Chan) (s : Sub) (r : Nat) (w : Bool) : c.askPause .retrim s r w = { c with
    free := c.free + 1,
    upk := { c.upk with
      pauses := c.upk.pauses ++ [{
        kind := .retrim, sub := s, rank := r, len := c.refOfDclk (c.seqLength (c.retrimCmds s r w)), wide := w, running := false,
        endAt := 0, cmds := [] }] } } := by
  unfold Chan.askPause Chan.fresh
  dsimp only
  rw [if_pos rfl, Chan.seqLength_free]
  rfl

theorem retrimFold (e : Env) (n : Nat) (l : List (Nat × Sub × Nat)) (c : Chan) : ∃ d, l.foldl (fun c p =>
      (c.askPause .retrim p.2.1 p.2.2 false).modRank p.2.1 p.2.2 fun x =>
        { x with retrimNext := e.now + (p.1 + 1) * c.retrimInterval / n }) c = d ∧
      d.trim = c.trim ∧ d.fab = c.fab ∧ d.err = c.err ∧ d.bal = c.bal ∧ d.power = c.power ∧ d.img = c.img ∧ d.upk.wake = c.upk.wake ∧
      (∀ p ∈ d.upk.pauses, p ∈ c.upk.pauses ∨ p.kind = .retrim) ∧ (∀ p ∈ c.upk.pauses, p ∈ d.upk.pauses) ∧
      ∀ q ∈ l, ∃ p ∈ d.upk.pauses, p.kind = .retrim ∧ p.sub = q.2.1 ∧ p.rank = q.2.2 ∧ p.wide = false ∧ p.running = false := by
  induction l generalizing c with
  | nil => exact ⟨c, rfl, rfl, rfl, rfl, rfl, rfl, rfl, rfl, fun _ h => .inl h, fun _ h => h, nofun⟩
  | cons a l ih =>
    obtain ⟨d, e1, h1, h2, h3, h4, h5, h6, h7, h8, h9, h10⟩ := ih ((c.askPause .retrim a.2.1 a.2.2 false).modRank a.2.1 a.2.2 fun x =>
        { x with retrimNext := e.now + (a.1 + 1) * c.retrimInterval / n })
    have hnew : ∃ p : Pause, ((c.askPause .retrim a.2.1 a.2.2 false).modRank a.2.1 a.2.2 fun x =>
        { x with retrimNext := e.now + (a.1 + 1) * c.retrimInterval / n }).upk.pauses = c.upk.pauses ++ [p] ∧ p.kind = .retrim ∧ p.sub = a.2.1 ∧ p.rank = a.2.2 ∧ p.wide = false ∧ p.running = false :=
      ⟨_, rfl, rfl, rfl, rfl, rfl, rfl⟩
    obtain ⟨p, hp, g⟩ := hnew
    refine ⟨d, e1, h1, h2, h3, h4, h5, h6, h7, fun q hq => ?_, fun q hq => ?_, fun q hq => ?_⟩
    · rcases h8 q hq with h | h
      · rw [hp, List.mem_append, List.mem_singleton] at h
        rcases h with h | rfl
        · exact .inl h
        · exact .inr g.1
      · exact .inr h
    · exact h9 q (by rw [hp]; exact List.mem_append_left _ hq)
    · rcases List.mem_cons.mp hq with rfl | hq
      · exact ⟨p, h9 p (by rw [hp]; simp), g⟩
      · exact h10 q hq

theorem modSet_set (t : Trim) (i j : Nat) (f : TrimSet → TrimSet) (h : f Reset.trimSet = Reset.trimSet) :
    (t.modSet i f).set j = if j = i then f (t.set j) else t.set j := by
  unfold Trim.modSet Trim.set updateAt
  simp only [List.getD_eq_getElem?_getD, List.getElem?_modify]
  by_cases hj : i = j
  · subst hj
    simp only [if_true]
    cases t.sets[i]? <;> simp [h]
  · rw [if_neg (fun e => hj e.symm)]
    cases t.sets[j]? <;> simp [hj]

theorem entry_put_ne (t : TrimSet) (s u : Sub) (r l q m : Nat) (v : BitVec 128) (h : ¬ (u = s ∧ q = r ∧ m = l)) :
    (t.putEntry s r l v).entry u q m = t.entry u q m := by
  unfold TrimSet.putEntry TrimSet.entry
  dsimp only
  have : ∀ es : List (Sub × Nat × Nat × BitVec 128),
      (es.map fun x => if (x.1 == s && x.2.1 == r && x.2.2.1 == l) = true then (x.1, x.2.1, x.2.2.1, v) else x).find?
        (fun x => x.1 == u && x.2.1 == q && x.2.2.1 == m) = es.find? (fun x => x.1 == u && x.2.1 == q && x.2.2.1 == m) := by
    intro es
    induction es with
    | nil => rfl
    | cons a as ih =>
      obtain ⟨a1, a2, a3, a4⟩ := a
      rw [List.map_cons, List.find?_cons, List.find?_cons, ih]
      by_cases hk : ((a1 == s && a2 == r) && a3 == l) = true
      · simp only [hk, if_true]
        have : ((a1 == u && a2 == q) && a3 == m) = false := by
          rw [Bool.eq_false_iff]
          intro g
          simp only [Bool.and_eq_true, beq_iff_eq] at hk g
          exact h ⟨g.1.1.symm.trans hk.1.1, g.1.2.symm.trans hk.1.2, g.2.symm.trans hk.2⟩
        simp only [this]
      · simp only [hk, Bool.false_eq_true, if_false]
  rw [this]

theorem entry_put_eq (t : TrimSet) (s : Sub) (r l : Nat) (v : BitVec 128) (h : ∃ x ∈ t.entries, x.1 = s ∧ x.2.1 = r ∧ x.2.2.1 = l) :
    (t.putEntry s r l v).entry s r l = v := by
  unfold TrimSet.putEntry TrimSet.entry
  dsimp only
  generalize t.entries = es at h
  induction es with
  | nil => simp at h
  | cons a as ih =>
    obtain ⟨a1, a2, a3, a4⟩ := a
    rw [List.map_cons, List.find?_cons]
    by_cases hk : ((a1 == s && a2 == r) && a3 == l) = true
    · simp only [hk, if_true]
    · simp only [hk, Bool.false_eq_true, if_false]
      refine ih ?_
      obtain ⟨x, hx, g⟩ := h
      rcases List.mem_cons.mp hx with rfl | hx
      · exact absurd (by simp only [Bool.and_eq_true, beq_iff_eq]; exact ⟨⟨g.1, g.2.1⟩, g.2.2⟩) hk
      · exact ⟨x, hx, g⟩

/-- What the ends of the first `n` lanes of a retrim pause leave. -/
theorem retrimLanes (p : Pause) (probes : List LaneProbe) (base : Nat) (c : Chan) (n : Nat) : ∃ d,
    (List.range n).foldl (Chan.retrimLane p probes base) c = d ∧ d.img = c.img ∧ d.upk = c.upk ∧ d.free = c.free ∧ d.mbxIn = c.mbxIn ∧
    d.trim.tsel = c.trim.tsel ∧ d.trim.nCur = c.trim.nCur ∧ d.trim.pauses = c.trim.pauses ∧ d.trim.shift = c.trim.shift ∧ d.trim.interval = c.trim.interval ∧
    (∀ t, ((d.trim.set t).entries.map fun x => (x.1, x.2.1, x.2.2.1)) = (c.trim.set t).entries.map fun x => (x.1, x.2.1, x.2.2.1)) ∧
    (∀ t u q l, (t ≠ c.trim.tsel ∨ u ≠ p.sub ∨ q ≠ p.rank ∨ n ≤ l) → (d.trim.set t).entry u q l = (c.trim.set t).entry u q l) ∧
    ∀ l, l < n → (∃ x ∈ (c.trim.set c.trim.tsel).entries, x.1 = p.sub ∧ x.2.1 = p.rank ∧ x.2.2.1 = l) →
      (d.trim.set c.trim.tsel).entry p.sub p.rank l = entryAfter ((c.trim.set c.trim.tsel).entry p.sub p.rank l)
        (retrimMove (probeOf p.wide (laneProbes c.x8 probes l).readPass) (if p.wide then 24 else 2))
        (retrimMove (probeOf p.wide (laneProbes c.x8 probes l).writePass) (if p.wide then 24 else 2)) (base + 2 * (if c.x8 then l / 2 * 2 else l)) := by
  induction n with
  | zero => exact ⟨c, rfl, rfl, rfl, rfl, rfl, rfl, rfl, rfl, rfl, rfl, fun _ => rfl, fun _ _ _ _ _ => rfl, nofun⟩
  | succ n ih =>
    obtain ⟨d, e, h1, h2, h3, h4, h5, h6, h7, h8, h9, h10, h11, h12⟩ := ih
    refine ⟨_, rfl, ?_⟩
    rw [List.range_succ, List.foldl_append, e]
    dsimp only [List.foldl]
    generalize hv : (d.trim.set d.trim.tsel).entry p.sub p.rank n = v
    generalize hrd : retrimMove (probeOf p.wide (laneProbes c.x8 probes n).readPass) (if p.wide then 24 else 2) = rd
    generalize hwr : retrimMove (probeOf p.wide (laneProbes c.x8 probes n).writePass) (if p.wide then 24 else 2) = wr
    have hx8 : d.x8 = c.x8 := by
      unfold Chan.x8
      rw [h1]
    generalize hb : base + 2 * (if c.x8 then n / 2 * 2 else n) = b
    have hlane : ∃ np ev, d.retrimLane p probes base n = { d with
        evOut := ev,
        trim := { d.trim.modSet d.trim.tsel (fun x => x.putEntry p.sub p.rank n (entryAfter v rd wr b)) with noPass := np } } := by
      unfold Chan.retrimLane
      rw [hx8]
      dsimp only
      rw [hv, hrd, hwr, hb]
      split
      · exact ⟨_, _, rfl⟩
      · split <;> exact ⟨_, _, rfl⟩
    obtain ⟨np, ev, el⟩ := hlane
    rw [el]
    have hset : ∀ t, (({ d.trim.modSet d.trim.tsel (fun x => x.putEntry p.sub p.rank n (entryAfter v rd wr b)) with noPass := np } : Trim).set t) =
        if t = c.trim.tsel then (d.trim.set t).putEntry p.sub p.rank n (entryAfter v rd wr b) else d.trim.set t := by
      intro t
      rw [← h5]
      exact modSet_set _ _ _ _ rfl
    refine ⟨h1, h2, h3, h4, h5, h6, h7, h8, h9, fun t => ?_, fun t u q l hl => ?_, fun l hl hx => ?_⟩
    · rw [hset]
      split
      · rw [← h10]
        unfold TrimSet.putEntry
        rw [List.map_map]
        refine List.map_congr_left fun a _ => ?_
        simp only [Function.comp]
        split <;> rfl
      · exact h10 t
    · rw [hset]
      rw [← h11 t u q l (hl.imp_right (Or.imp_right (Or.imp_right (by omega))))]
      split
      · rw [entry_put_ne]
        rintro ⟨rfl, rfl, rfl⟩
        rename_i ht
        rcases hl with hl | hl | hl | hl
        · exact hl ht
        · exact hl rfl
        · exact hl rfl
        · omega
      · rfl
    · rw [hset, if_pos rfl]
      have hkeys : (∃ x ∈ (d.trim.set c.trim.tsel).entries, x.1 = p.sub ∧ x.2.1 = p.rank ∧ x.2.2.1 = l) := by
        obtain ⟨x, hx, k1, k2, k3⟩ := hx
        have : (x.1, x.2.1, x.2.2.1) ∈ (d.trim.set c.trim.tsel).entries.map fun x => (x.1, x.2.1, x.2.2.1) := by
          rw [h10]; exact List.mem_map.mpr ⟨x, hx, rfl⟩
        obtain ⟨y, hy, e⟩ := List.mem_map.mp this
        simp only [Prod.mk.injEq] at e
        exact ⟨y, hy, by rw [e.1, k1], by rw [e.2.1, k2], by rw [e.2.2, k3]⟩
      by_cases hln : l = n
      · subst hln
        rw [entry_put_eq _ _ _ _ _ hkeys, hrd, hwr, hb, ← hv, h5, h11 _ _ _ _ (by omega)]
      · rw [entry_put_ne _ _ _ _ _ _ _ _ (fun h => hln h.2.2)]
        exact h12 l (by omega) hx

end Sys2Proof.Machine
end

