-- ==== Sys2Proof/WellFormed.lean ====
section
/-! DEFINITION. Well-formed commands: the operands lie in the ranges that the fields of the rules give them. A command
that is not well-formed names something the block does not have; its meaning is still total. -/
namespace Sys2Proof

/-- A rank number (R2, R58): 0 to 7. -/
def wfRank (r : Nat) : Bool := decide (r < 8)

/-- The fields of a bank name lie in their widths (R57, R154). -/
def Bank.wf (b : Bank) : Bool := wfRank b.rank && decide (b.lrank < 8) && decide (b.bg < 8) && decide (b.ba < 4)

/-- The code of a defined request opcode (R75). -/
def definedOpcode (n : Nat) : Bool :=
  decide (1 ≤ n ∧ n ≤ 6) || decide (8 ≤ n ∧ n ≤ 14) || n == 16

/-- What the SPD of the modules describes, supported or not, in bytes (R388). -/
def SpdInfo.wf (i : SpdInfo) : Bool :=
  ([i.moduleType, i.dimms, i.ranksPerDimm, i.stack, i.density, i.maxN, i.rcdSpeedN] ++ i.serial).all (decide <| · < 256)

/-- The well-formed commands. -/
def Instr.wf : Instr → Bool
  | .badOpcodeRequest _ op _ => !definedOpcode op.toNat
  | .bankTimingExpire _ b => b.wf
  | .auditViolation _ _ _ _ r l _ => wfRank r && wfRank l
  | .refreshTick _ _ r l | .tempPoll _ _ r l | .tempPollResult _ _ r l _ | .backoffRelease _ _ r l =>
    wfRank r && wfRank l
  | .zqIntervalExpire _ _ r | .zqcalDone _ _ r | .glideIdleExpire _ _ r | .retrimIntervalExpire _ _ r => wfRank r
  | .retrimPauseEnd _ _ r ps => wfRank r && decide (ps.length ≤ 10)
  | .tetherSample _ rs => decide (rs.length = 4)
  | .spdReadDone _ (some i) => i.wf
  | .trainingStepDone _ (.failed _ r lane) => wfRank r && decide (lane < 16)
  | .mbxInDone _ r => decide (r.bytes.length ≤ 40) && r.bytes.all (decide <| · < 256)
  | .commitComplete n x xs => decide (1 ≤ n) && decide (xs.length = 1023) && (x :: xs).all (decide <| · < 4096)
  | _ => true

end Sys2Proof
end

