-- ==== Sys2Proof/Tests/Slice0.lean ====
section
/-! SUPPORT. The model's own tests: ill-formed commands that WellFormed refuses, small tests of single commands, and for each
statement with hypotheses a witness that its hypotheses can be met together. Expected values come from the spec's text. -/
set_option Elab.async false
namespace Sys2Proof.Tests
open Sys2Proof.Machine

/-! ### A small machine

One enabled channel with one rank of 16 Gbit x4 RDIMM devices, in Flight, with credits granted on every class. -/

def topoBytes : List Nat := [1, 1, 1, 1, 16, 0, 64, 0, 24, 32, 0, 0, 0, 0, 0, 0]

/-- Line-address bits 0 to 26 in order: subchannel, 7 column bits, 3 bank-group bits, 2 bank bits, 14 row bits. -/
def mapNums : List Nat :=
  (([(0, 0)] ++ (List.range 7).map (fun k => (6, k)) ++ (List.range 3).map (fun k => (3, k)) ++
    (List.range 2).map (fun k => (4, k)) ++ (List.range 14).map (fun k => (5, k)) : List (Nat × Nat)).zip (List.range 27)).map
    fun p => p.1.1 * 2 ^ 45 + p.1.2 * 2 ^ 40 + 2 ^ (p.2 + 6)

def tImg : ChanImg :=
  { topo := clampTopo topoBytes, battens := [2 ^ 127], maps := mapNums, prot := clampProt false [],
    ballast := defaultBallast, phy := List.range 40 ++ List.range 40 ++ List.replicate 16 0, code := List.replicate 16 0,
    routing := [], loft := [1, 0, 0, 0, 0, 0, 0, 0], sched := defaultSched, upk := clampUpk [] }

def tBlk : BlkImg :=
  { header := List.replicate 56 0, frames := 0, sections := 0, trailer := 0, levels := defaultLevels,
    wakeOrder := defaultWake, routing := [], phasePs := 0 }

def tRank (b : Sub) : RankSt :=
  { sub := b, rank := 0, zqNext := 1000, zqPhase := 0, zqAt := 0, glide := false, idleSince := 0, selfRef := false,
    retrimNext := 1000, retrimWide := false, poll1x := [0] }

def tAcct (b : Sub) : Account :=
  { sub := b, rank := 0, lrank := 0, debts := [0], next := 390, lp := 4, newLp := none, pull := 0, chosen := [] }

def tSet (n : Nat) : TrimSet :=
  { valid := true, failed := false, n := n, tagv := 0, entries := [(.a, 0, 0, 0), (.a, 0, 1, 0)] }

/-- The channel in Flight. -/
def up : Chan :=
  { Reset.chan with
    img := some tImg,
    power := { Reset.power with cur := .flight, initDone := true },
    pins := { Reset.pins with hold := .driven },
    lane := { Reset.lane with held := List.replicate 16 4, wheld := 4 },
    upk := { Reset.upkeep with
      accounts := [tAcct .a, tAcct .b], ranks := [tRank .a, tRank .b], pollNext := [(.a, 0, 0, 800000), (.b, 0, 0, 800000)] },
    trim := { Reset.trim with nCur := 24, sets := [tSet 24, tSet 32, Reset.trimSet, Reset.trimSet] },
    seqr := { Reset.sequencer with run := true } }

/-- The block ready, with an image in force and channel 0 as given. -/
def st (c : Chan) : State :=
  { State.reset with
    chans := State.reset.chans.set 0 c, img := some tBlk, loader := { Reset.loader with st := .committed },
    rst := { Reset.resetCtl with pwrLow := false, ready := true } }

/-- The same machine with channel 0 as the reset leaves it, but for its image. -/
def low : Chan := { Reset.chan with img := some tImg }

theorem st_chan (c : Chan) : (st c).chan 0 = c := rfl

/-- The outcome is a next state of which `p` holds. -/
def isNext (o : Host.Outcome State Fault Refusal) (p : State → Bool) : Bool :=
  match o with
  | .next t => p t
  | _ => false

theorem next_of {o : Host.Outcome State Fault Refusal} {p : State → Bool} (h : isNext o p = true) :
    ∃ t, o = .next t ∧ p t = true := by
  cases o with
  | next t => exact ⟨t, rfl, h⟩
  | fault _ => exact absurd h (by simp [isNext])
  | refused _ => exact absurd h (by simp [isNext])

/-- A request of class 0 for line 5, and a beat. -/
def req : ReqFlit :=
  { tag := 7, cls := 0, priv := 0, spec := false, early := false, laddr := 5, mdnew := 0, mdexp := 0 }
def beat : Beat := { tag := 7, data := 1, be := allBytes, psn := false }

/-! ### Witnesses: the common

Each theorem below names the statement it belongs to and shows states and operands that meet the hypotheses of its clauses
together, at the edges of their ranges. `st c` is the small machine with channel 0 as `c`. -/

theorem witness_StepRunsTheFrontCommand :
    ({ st up with pending := [.evqSwap, .counterAdd] } : State).pending = .evqSwap :: [.counterAdd] ∧ (st up).pending = [] :=
  ⟨rfl, rfl⟩

theorem witness_StepTakesOneCommand :
    (∃ t, step (st up) = .next t ∧ decide (t.now = 1) = true) ∧
      ∃ t, step { st up with pending := [.evqSwap, .counterAdd] } = .next t ∧ decide (t.pending = [.counterAdd]) = true :=
  ⟨next_of (by decide +kernel), next_of (by decide +kernel)⟩

/-- The lane with a transaction outstanding. -/
def busyLane : State := { st up with mgt := { Reset.mgt with held := some (rdTxn .blk 0) } }

theorem witness_OnlyAnOverlapStops :
    (st up).mgt.held = none ∧ exec (.registerRead 0) busyLane = .fault .mgtOverlap := ⟨rfl, rfl⟩

def record (sev : Nat) : Record := { ident := 0x85, sev := sev, time := 1, info := 2, route := 1 }

/-- Both banks at their bounds, DROPPED at its greatest value and a fatal channel. -/
def fullEvents : Events :=
  { Reset.events with
    filling := List.replicate 64 (record 4), draining := List.replicate 63 (record 1), latched := some (record 2),
    dropped := 0xFFFF, fatal := true, fatalCh := 2 }

theorem witness_EveryStepKeepsTheInvariants :
    ({ st up with ev := fullEvents } : State).Sound ∧ (st up).Quiet ∧
      ∃ t, step { st up with ev := fullEvents } = .next t ∧ decide (t.now = 1) = true :=
  ⟨⟨⟨by decide +kernel, by decide +kernel, by decide, by decide, by decide +kernel, by decide⟩,
      ⟨by decide +kernel, by decide +kernel, by decide, by decide⟩⟩,
    by unfold State.Quiet Chan.Quiet; decide +kernel, next_of (by decide +kernel)⟩

theorem witness_ResetLeavesTheStatedValues : ∃ s c, s = State.reset ∧ c = s.chan 7 := ⟨_, _, rfl, rfl⟩

/-- A loader that is committing a load of seven sections for channel 0. -/
def tHeader : List Nat :=
  [0x50, 0x4C, 0x59, 0x58, 3, 0, 1, 3, 1, 16, 7, 0, 9, 0, 0, 0, 1] ++ List.replicate 39 0

def tSects : List SectLoad :=
  [{ id := 1, chmask := 1, records := 1, body := topoBytes }, { id := 2, chmask := 1, records := 1, body := List.replicate 16 0 },
    { id := 3, chmask := 1, records := 27, body := (mapNums.map (toBytes 8)).flatten },
    { id := 4, chmask := 1, records := 1, body := List.replicate 16 0 }, { id := 8, chmask := 1, records := 1, body := tImg.phy },
    { id := 9, chmask := 1, records := 16, body := List.replicate 16 0 },
    { id := 13, chmask := 1, records := 1, body := List.replicate 16 0 }]

def committing : Loader := { Reset.loader with st := .committing, accepted := 9, header := some tHeader, sects := tSects }

theorem witness_CommitPassesOrIsRefused :
    ({ st up with loader := committing } : State).loader.st = .committing ∧ ({ st up with loader := committing } : State).NoneWaits ∧
      ({ st up with loader := committing } : State).mgt.held = none ∧ committing.commitFault 16383 [0] = none ∧
      committing.commitFault 16385 [0, 16] = none ∧ committing.commitFault 16382 [0, 16] = some (14, 0, 0) ∧
      committing.commitFault 16384 [0, 17] = some (14, 0, 0) ∧ committing.enabled 0 = true ∧ committing.enabled 1 = false :=
  ⟨rfl, by unfold State.NoneWaits State.Rest; decide +kernel, rfl, by decide +kernel, by decide +kernel, by decide +kernel,
    by decide +kernel, by decide +kernel, by decide +kernel⟩

/-- A channel at the end of a channel reset, and of a reset that keeps its contents. -/
def resetting (keep : Bool) : Chan :=
  { up with
    power := { up.power with cur := .moored, rst := true, rstKeep := keep, rstAct := 7, held := keep },
    upk := { up.upk with ranks := up.upk.ranks.map fun x => { x with selfRef := true } } }

theorem witness_ImageChangesAtCommitOrReset :
    (∃ t, exec .pwrRstAssert (st up) = .next t ∧ decide (t.img ≠ (st up).img) = true) ∧
    (∃ t, exec (.commitComplete 16384 0 []) { st low with loader := committing } = .next t ∧ decide (t.img ≠ (st low).img) = true) ∧
    ∃ t, exec (.resetSequenceEnd 0) { st (resetting false) with rst := { (st up).rst with warm := true, warmLeft := [0] } } = .next t ∧
      decide (t.img ≠ (st (resetting false)).img) = true :=
  ⟨next_of (by decide +kernel), next_of (by decide +kernel), next_of (by decide +kernel)⟩

theorem witness_ChannelCommandsStayInside : channelOf (.isoRhpAssert 7) = some 7 ∧ (st up).mgt.repair ≠ some 7 := by decide

/-- Two machines that differ in every channel but the first. -/
theorem witness_ChannelsDoNotSeeEachOther :
    channelOf (.rd 0 req) = some 0 ∧ (st up).chan 0 = ((st up).setChan 1 up).chan 0 ∧ (st up).env = ((st up).setChan 1 up).env ∧
      (st up).chan 1 ≠ ((st up).setChan 1 up).chan 1 := ⟨rfl, rfl, rfl, by decide +kernel⟩

theorem witness_StoredChannelsReport :
    (st up).mgt.repair ≠ some 0 ∧ up.Quiet ∧ ({ up with evOut := [{ loc := 5, info := 1 }] } : Chan).occ = [] :=
  ⟨by decide, ⟨rfl, rfl⟩, rfl⟩

theorem witness_OneLoaderCommandAtATime :
    (∀ w ∈ [3, 5, 6, 7], (st up).Takes (wrTxn .blk 0x100 (BitVec.ofNat 32 w))) ∧ (st up).NoneWaits ∧
      (bitAt 3 0 = true ∧ bitAt 3 1 = true) ∧ (bitAt 5 0 = true ∧ bitAt 5 2 = true) ∧ bitAt 6 1 = true ∧ bitAt 6 2 = true :=
  ⟨by unfold State.Takes; decide +kernel, by unfold State.NoneWaits State.Rest; decide +kernel, by decide⟩

/-- A loader in state `l` whose window holds a frame of ALIVE `a`, all zero but its CRC (which the write of word 15 brings). -/
def loadAt (l : LoadState) (a : Nat) : Loader :=
  { Reset.loader with
    st := l, accepted := 5, nextAlive := 5, based := true, window := BitVec.ofNat 32 a :: List.replicate 15 0 }

theorem witness_LoadsOpenAndEnd :
    (∀ l, ({ st low with loader := loadAt l 5 } : State).NoneWaits) ∧ (st up).NoneWaits ∧
    (∀ l ∈ [LoadState.empty, .loading, .ready, .committing, .committed, .refused],
      ∀ w ∈ [1, 2, 4], ({ st low with loader := loadAt l 5 } : State).Takes (wrTxn .blk 0x100 (BitVec.ofNat 32 w))) ∧
    (∀ ch, ((st low).chan ch).power.cur = .grounded ∧ ((st low).chan ch).power.trans = none) ∧
    (∃ ch, ((st up).chan ch).power.cur ≠ .grounded) ∧
    (∀ l ∈ [LoadState.empty, .loading, .ready, .committed, .refused],
      ({ st low with loader := loadAt l 5 } : State).Takes { we := true, addr := 0xF0003C, data := 0 }) ∧
    crc32c (({ loadAt .loading 5 with window := (loadAt .loading 5).window.set 15 0 } : Loader).frame.take 60) ≠
      leAt ({ loadAt .loading 5 with window := (loadAt .loading 5).window.set 15 0 } : Loader).frame 60 4 ∧
    ∀ p ∈ [(4, 2299126444), (5, 4239542007), (9, 2354649249)],
      ∀ m ∈ [({ loadAt .ready p.1 with window := (loadAt .ready p.1).window.set 15 (BitVec.ofNat 32 p.2) } : Loader)],
        crc32c (m.frame.take 60) = leAt m.frame 60 4 ∧ nth0 m.frame 0 = p.1 ∧ (p.1 = 4 ↔ p.1 = (m.nextAlive + 255) % 256) :=
  ⟨fun _ => by show (st low).NoneWaits; unfold State.NoneWaits State.Rest; decide +kernel,
    by unfold State.NoneWaits State.Rest; decide +kernel, by unfold State.Takes; decide +kernel, by decide +kernel, ⟨0, by decide +kernel⟩,
    by unfold State.Takes; decide +kernel, by decide +kernel, by decide +kernel⟩

theorem witness_EventsAreQueuedAndSignalled :
    (record 4).sev ≤ 4 ∧ (List.replicate 62 (record 0)).length < 63 ∧
    ({ Reset.events with filling := List.replicate 63 (record 0), draining := [record 0] } : Events).drained = false ∧
    ({ Reset.events with filling := List.replicate 63 (record 0) } : Events).drained = true ∧
    ({ Reset.events with filling := List.replicate 64 (record 0) } : Events).drained = true ∧ fullEvents.drained = false ∧
    fullEvents.filling.length = 64 ∧ (∀ x ∈ fullEvents.filling, (record 4).sev ≤ x.sev) ∧
    (∃ x ∈ ({ fullEvents with filling := record 3 :: List.replicate 63 (record 4) } : Events).filling, x.sev < (record 4).sev) ∧
    ((record 0).ident / 128 = 1 ∧ (record 0).ident % 128 < 120 ∧ 1 < fullEvents.sticky.length) ∧
    120 ≤ ({ record 0 with ident := 0x078 } : Record).ident % 128 ∧
    ((3 : Nat) ≠ 4 ∧ bitAt 0xF800 10 = false) ∧ (bitAt 0x7C00 10 = true ∧ min 4 (bitsAt 0x7C00 12 3) = 4 ∧ bitAt 0x7C00 11 = true) := by
  decide +kernel

theorem witness_EventQueueIsRead :
    (fullEvents.latched = some (record 2)) ∧
    ({ fullEvents with latched := none } : Events).head = some (record 1) ∧ Reset.events.latched = none ∧ Reset.events.draining = [] ∧
    (∀ t ∈ [rdTxn .blk 0x300, rdTxn .blk 0x304, wrTxn .blk 0x308 1, wrTxn .blk 0x314 0x80000000, rdTxn (.chan 7) 0xC],
      ({ st up with ev := fullEvents } : State).Takes t ∧ (st up).Takes t) := by
  unfold State.Takes; decide +kernel

/-! ### Witnesses: the lane and the queues -/

def dev0 : Dev := { bank := { sub := .a, rank := 0, lrank := 0, bg := 0, ba := 0 }, row := 0, col := 0 }
def rd0 : RdEntry := { mkRd 3 (.host .rds) 7 0 0 true true 5 dev0 0 .unresolved with stage := .queued }
def wr0 : WrEntry := mkWr 3 .host [{ tag := 9, op := .wr, cls := 0, priv := 0, seq := 3, cmpSent := false }] 0 5 dev0 1 allBytes false
def clean : Decoded := { outcome := .clean, line := 0, chips := 0, nsym := 0 }

/-- The channel with one write, one read, and one planned command. -/
def withWr (w : WrEntry) : Chan := { up with wq := [w], nextSeq := 4 }
def withRd (r : RdEntry) : Chan := { up with rq := [r], nextSeq := 4, lane := { up.lane with inUse := [7] } }
def cmd0 : Cmd :=
  { cls := .act, bank := dev0.bank, row := 0, col := 0, time := 4, level := .host, src := .read 3, specAct := false, tries := 0 }

/-- With the last credits held, and with the Loft on. -/
def lastCredit : Chan := { up with lane := { up.lane with held := List.replicate 16 1, wheld := 1 } }
def loftUp : Chan := { up with loft := { up.loft with on := true } }

theorem witness_HostReadsAreAccepted :
    (st lastCredit).chan 0 = lastCredit ∧ lastCredit.Admits (.read .rds) req ∧ lastCredit.beatWaits req.laddr lastCredit.nextSeq = false ∧
    lastCredit.newestWr req.laddr lastCredit.nextSeq = none ∧
    (st (withWr wr0)).chan 0 = withWr wr0 ∧ (withWr wr0).Admits (.read .rd) req ∧
    (withWr wr0).beatWaits req.laddr (withWr wr0).nextSeq = false ∧ (withWr wr0).newestWr req.laddr (withWr wr0).nextSeq = some wr0 ∧
    wr0.merge = .no ∧ (withWr wr0).flaws 0 wr0.seq = [] ∧
    ({ withWr wr0 with rq := List.replicate 95 { rd0 with reserved := true, fwd := true } } : Chan).rspUsed = 95 :=
  ⟨rfl, by unfold Chan.Admits Chan.Open; decide +kernel, by decide +kernel, by decide +kernel, rfl,
    by unfold Chan.Admits Chan.Open; decide +kernel, by decide +kernel, by decide +kernel, rfl, by decide +kernel, by decide +kernel⟩

theorem witness_WritesAreAccepted :
    (st lastCredit).chan 0 = lastCredit ∧ WrOp.wr ≠ .wrx ∧ lastCredit.Admits (.write .wr) req ∧ lastCredit.Admits (.write .wrx) req ∧
      ∀ r ∈ lastCredit.rq, r.stage ≠ .waitBeat :=
  ⟨rfl, by decide, by unfold Chan.Admits Chan.Open; decide +kernel, by unfold Chan.Admits Chan.Open; decide +kernel, by decide +kernel⟩

/-- The channel that expects a beat of tag 7. -/
def beatDue (w : Option WaitWr) : Chan := { up with lane := { up.lane with beats := [{ tag := 7, wr := w }] } }
def wrAt (n : Nat) : WrEntry :=
  mkWr n .host [{ tag := 8, op := .wr, cls := 0, priv := 0, seq := n, cmpSent := false }] 0 5 dev0 1 allBytes false
def newWr : WrEntry := wrAt 4
def lateWr : WrEntry := wrAt 5

theorem witness_WriteDataIsPlaced :
    (∀ w : WaitWr, ∀ c ∈ [beatDue none, beatDue (some w)], (st c).chan 0 = c) ∧
    (∀ c ∈ [beatDue none, beatDue (some { op := .wr, f := req, seq := 0 })], c.asleep = false ∧ c.down = false ∧ c.lane.iso = false ∧
      (∃ x, c.lane.beats = [x]) ∧ (c.lane.beats.all fun x => x.tag == beat.tag) ∧ c.rq = []) ∧
    newWr.merge = .no ∧ up.olderWr newWr = none ∧
    (withWr { wr0 with committed := true }).olderWr newWr = some { wr0 with committed := true } ∧
    ((withWr wr0).olderWr newWr = some wr0 ∧ wr0.committed = false ∧ (withWr wr0).readWaitsOn wr0 newWr = false ∧
      (withWr wr0).beatWaits newWr.laddr newWr.ord = false) ∧
    (∃ c : Chan, c.olderWr lateWr = some wr0 ∧ c.readWaitsOn wr0 lateWr = true) ∧
    ∃ c : Chan, c.olderWr lateWr = some wr0 ∧ lateWr.hosts ≠ [] ∧ c.beatWaits lateWr.laddr lateWr.ord = true := by
  refine ⟨fun w c _ => rfl, ?_, rfl, ?_, ?_, ?_, ?_, ?_⟩
  · intro c h
    rcases List.mem_cons.1 h with rfl | h
    · exact ⟨by decide +kernel, by decide +kernel, rfl, ⟨_, rfl⟩, rfl, rfl⟩
    · rw [List.mem_singleton.1 h]
      exact ⟨by decide +kernel, by decide +kernel, rfl, ⟨_, rfl⟩, rfl, rfl⟩
  · decide +kernel
  · decide +kernel
  · decide +kernel
  · exact ⟨{ withWr wr0 with rq := [{ rd0 with seq := 4, stage := .waitBeat }] }, by decide +kernel⟩
  · exact ⟨{ withWr wr0 with lane := { up.lane with beats := [{ tag := 8, wr := some { op := .wr, f := req, seq := 4 } }] } },
      by decide +kernel⟩

theorem witness_MetadataAndFlushEnter :
    (st loftUp).chan 0 = loftUp ∧ loftUp.Admits (.md .mdcas) req ∧ up.Admits .flush req ∧ up.openWrites = [] ∧
      (withWr wr0).Admits .flush req ∧ (withWr wr0).openWrites ≠ [] :=
  ⟨rfl, by unfold Chan.Admits Chan.Open; decide +kernel, by unfold Chan.Admits Chan.Open; decide +kernel, by decide +kernel,
    by unfold Chan.Admits Chan.Open; decide +kernel, by decide +kernel⟩

/-- The small machine has 2^29 lines, of which a training reserve of 2^10 and a metadata region of 2^24 are not usable (R64, R65). -/
theorem witness_RequestIsTurnedAway :
    (st low).chan 0 = low ∧ reqOpOf 1 = .read .rd ∧ reqOpOf 0 = .bad ∧ low.lane.iso = false ∧ low.asleep = false ∧ low.down = true ∧
    (st lastCredit).chan 0 = lastCredit ∧ lastCredit.lane.iso = false ∧ lastCredit.asleep = false ∧ lastCredit.down = false ∧
    0 < nth0 lastCredit.lane.held 0 ∧ 0 < lastCredit.lane.wheld ∧ req.tag ∉ lastCredit.lane.inUse ∧
    (lastCredit.usable = 2 ^ 29 - 2 ^ 10 - 2 ^ 24 ∧ lastCredit.usable ≤ ({ req with laddr := 520092672 } : ReqFlit).laddr.toNat ∧
      ({ req with laddr := 520092671 } : ReqFlit).laddr.toNat < lastCredit.usable) ∧
    (ReqOp.hasMd (.md .mdr) = true ∧ lastCredit.mdServes = false) ∧
    ({ lastCredit with seqr := { up.seqr with fence := 1 } } : Chan).reqFenced (.read .rd) 5 = true := by
  refine ⟨rfl, ?_⟩; decide +kernel

theorem witness_ViolationIsDiscarded :
    (st Reset.chan).chan 0 = Reset.chan ∧
    ({ up with lane := Reset.lane } : Chan).Open ∧ nth0 Reset.lane.held (hostClass req.cls.toNat) = 0 ∧
    ({ up with lane := { Reset.lane with crstAt := some 0, hclk := 65 } } : Chan).crstGrace = false ∧
    (withRd rd0).Open ∧ 0 < nth0 (withRd rd0).lane.held (hostClass req.cls.toNat) ∧ req.tag ∈ (withRd rd0).lane.inUse ∧
    (beatDue none).lane.beats = [{ tag := 7, wr := none }] ∧ (7 : Tag) ≠ ({ beat with tag := 8 } : Beat).tag ∧ up.lane.beats = [] :=
  ⟨rfl, by unfold Chan.Open; decide +kernel, by decide +kernel, by decide +kernel, by unfold Chan.Open; decide +kernel, by decide +kernel,
    by decide +kernel, rfl, by decide, rfl⟩

theorem witness_SpeculativeReadIsResolved :
    (∀ g ∈ [RdStage.queued, .waitBeat, .issued, .captured, .inHold],
      (withRd { rd0 with stage := g }).findRds req.tag = some { rd0 with stage := g } ∧
      (withRd { rd0 with stage := g }).planned.filter (fun k => k.src == .read rd0.seq) = []) ∧
    (withRd rd0).Open ∧ ({ rd0 with stage := .inHold, result := some clean } : RdEntry).colOrd = 0 :=
  ⟨by decide +kernel, by unfold Chan.Open; decide +kernel, rfl⟩

/-- A sleeping channel with `n` requests stored. -/
def asleep (s : PState) (n : Nat) : Chan :=
  { up with
    power := { up.power with cur := s },
    lane := { up.lane with wake := List.replicate n (.req 3 req) } }

theorem witness_SleepingLaneIsCaptured :
    (∀ p ∈ [PState.moored, .tethered], (asleep p 175).power.cur = p ∧ (asleep p 175).down = false ∧ (asleep p 175).lane.iso = false ∧
      (asleep p 175).wakeFull (.req 1 req) = false ∧ (asleep p 176).wakeFull (.req 1 req) = true ∧
      (asleep p 176).wakeFull (.beat beat) = false ∧ (asleep p 175).lane.wake.any capWakes = false ∧ (asleep p 175).power.trans = none) ∧
    capWakes (.req 3 req) = false ∧ capWakes (.beat beat) = false ∧ capWakes (.req 1 req) = true ∧
    ∃ t : Trans, ({ asleep .moored 0 with power := { (asleep .moored 0).power with trans := some t } } : Chan).down = false ∧
      t.req.tgt ≠ .grounded := by
  refine ⟨by decide +kernel, by decide, by decide, by decide, ⟨{ frm := .moored, req := hostWake, ph := .stagger }, by decide +kernel⟩⟩

/-- A flush whose covered write has reached the pins. -/
def flushing : Chan :=
  { withWr { wr0 with reached := true } with
    lane := { up.lane with flushes := [{ tag := 1, cls := 0, seq := 4, covers := [3] }] } }

theorem witness_LaneSendsWhatIsDue :
    ({ up with lane := { up.lane with iso := true } } : Chan).linkOpen = false ∧ up.linkOpen = true ∧ up.lane.crstDue = false ∧
    (∀ r ∈ up.lane.ready, r.ty = .edata → (up.bal.cls r.cls).early = true) ∧ up.atEdge.linkOpen = true ∧
    up.atEdge.lane.crstDue = false ∧ up.atEdge.lane.pick = none ∧
    (∃ c : Chan, c = { up with lane := { up.lane with ready := [errRsp req (.read .rd) errRange 1] } } ∧
      c.atEdge.linkOpen = true ∧ c.atEdge.lane.pick = some (errRsp req (.read .rd) errRange 1) ∧ c.atEdge.answeredRd req.tag = none ∧
      (c.atEdge.loft.ops.any fun o => o.tag == req.tag && o.sent) = false) ∧
    (∃ c : Chan, ∃ r : RdEntry, r = { rd0 with kind := .host .rd, rds := .na, stage := .answered } ∧
      c = { withRd r with lane := { up.lane with ready := [dataRsp r clean 1] } } ∧ c.atEdge.linkOpen = true ∧
      c.atEdge.lane.pick = some (dataRsp r clean 1) ∧ (dataRsp r clean 1).ty = .data ∧
      c.atEdge.answeredRd r.tag = some r ∧ c.atEdge.flaws 1 r.seq = []) ∧
    flushing.lane.flushes.find? flushing.flushReady = some { tag := 1, cls := 0, seq := 4, covers := [3] } ∧
    up.lane.flushes.find? up.flushReady = none :=
  ⟨by decide +kernel, by decide +kernel, rfl, by decide +kernel, by decide +kernel, by decide +kernel, by decide +kernel,
    ⟨_, rfl, by decide +kernel⟩, ⟨_, _, rfl, rfl, by decide +kernel⟩, by decide +kernel, by decide +kernel⟩

/-- A channel with one bank in a state. -/
def bankIn (g : BankSt) : Chan := { up with banks := [(dev0.bank, { BankEntry.idle with st := g })] }

theorem witness_QueueTimersRun :
    ((bankIn .opening).bank dev0.bank).st = .opening ∧ (bankIn .opening).timeOut dev0.bank [.act] [.rd, .wr] = true ∧
    ((bankIn .closing).bank dev0.bank).st = .closing ∧
    (bankIn .closing).timeOut dev0.bank [.prepb, .presb, .preab, .rda, .wra] [.act] = true ∧
    ((bankIn .refreshing).bank dev0.bank).st = .refreshing ∧
    (bankIn .refreshing).timeOut dev0.bank [.refab, .refsb, .rfmab, .rfmsb] [.act] = true ∧
    (((bankIn .paused).bank dev0.bank).st = .paused ∧ (bankIn .paused).pausedBank dev0.bank = false ∧
      (bankIn .paused).timeOut dev0.bank [.prepb, .presb, .preab, .rda, .wra, .mpc] [.act] = true) ∧
    (∃ x : Bank, x.key ≠ dev0.bank.key) ∧ (∀ p ∈ (bankIn .opening).banks, p.1.key = dev0.bank.key → p.1 = dev0.bank) ∧
    (∀ a ∈ [599, 600, 1079, 1080, 1199, 1200], (withRd { rd0 with age := a }).findRd 3 = some { rd0 with age := a } ∧
      rd0.kind ≠ .thatcher ∧ rd0.stage = .queued ∧ (withRd { rd0 with age := a }).target 0 = 1200 ∧
      (withRd { rd0 with age := a }).sched.thr1 = 50 ∧ (withRd { rd0 with age := a }).sched.thr2 = 90) :=
  ⟨rfl, by decide +kernel, rfl, by decide +kernel, rfl, by decide +kernel, by decide +kernel, ⟨{ dev0.bank with ba := 1 }, by decide⟩,
    by decide, by decide +kernel⟩

/-- A committed write whose command has been driven. -/
def goneWr : WrEntry := { wr0 with committed := true, onPins := true }

theorem witness_WritesLeaveTheQueue :
    (∀ m ∈ [MergeSt.merged, .older 2], (withWr { wr0 with merge := m }).findWr 3 = some { wr0 with merge := m }) ∧
    (∀ r ∈ (withWr wr0).rq, r.stage ≠ .waitBeat) ∧
    (∀ c ∈ [({ withWr wr0 with wq := [{ wr0 with merge := .older 2 }, { wr0 with seq := 2 }] } : Chan)],
      c.findWr 2 = some { wr0 with seq := 2 } ∧ c.flaws 0 2 = []) ∧
    (∀ d ∈ [15, 16], ∀ c ∈ [({ withWr goneWr with dclk := d, fab := { up.fab with wl := 8, bld := 8 } } : Chan)], c.findWr 3 = some goneWr ∧
      c.imgBit ChanImg.wcrc = false ∧ (goneWr.pinTime + c.fab.wl + c.fab.bld ≤ c.dclk ↔ d = 16) ∧ c.flaws 0 3 = []) ∧
    ∀ d ∈ [4, 5], ∀ c ∈ [({ withWr goneWr with
        dclk := d, err := { up.err with crcWin := 4 }, img := some { tImg with prot := 1 :: tImg.prot.drop 1 } } : Chan)],
      c.findWr 3 = some goneWr ∧ c.imgBit ChanImg.wcrc = true ∧
        (goneWr.pinTime + c.fab.wl + c.fab.bld + c.err.crcWin < c.dclk ↔ c.fab.wl + c.fab.bld = 0 ∧ d = 5) :=
  ⟨by decide +kernel, by decide +kernel, by decide +kernel, by decide +kernel, by decide +kernel⟩

theorem witness_BurstsAreDecoded :
    (withRd { rd0 with stage := .issued }).nextBurst .a = some (.read { rd0 with stage := .issued }) ∧
    ({ rd0 with stage := .issued } : RdEntry).pinTime + (withRd { rd0 with stage := .issued }).fab.rl +
      (withRd { rd0 with stage := .issued }).fab.bld ≤ (withRd { rd0 with stage := .issued }).dclk ∧
    (withRd { rd0 with stage := .issued }).prot.flipRemain = 0 ∧ tImg.ofPins .a (tImg.toPins .a 3) = 3 ∧ (withRd { rd0 with stage := .issued }).rcrc = false ∧
    (withRd { rd0 with stage := .captured }).nextWord .a = some (.read { rd0 with stage := .captured }, 0) ∧
    rd0.kind = .host .rds ∧ rd0.rds = .unresolved ∧ (decode up.x8 (up.mark .a) 0).outcome = .clean ∧
    (∀ x ∈ [RdsState.na, .confirmed], (withRd { rd0 with stage := .captured, rds := x }).nextWord .a =
      some (.read { rd0 with stage := .captured, rds := x }, 0)) := by
  decide +kernel

def found0 : AuditRec := { batten := 127, cls := .act, sub := .a, rank := 0, lrank := 0, short := 4095 }

theorem witness_AuditCatchesAViolation :
    up.down = false ∧ up.fab.auditEn = true ∧ low.down = true ∧ found0 ∉ up.fab.audFound ∧
    found0 ∈ ({ up with fab := { up.fab with audFound := [found0] } } : Chan).fab.audFound ∧
    found0 = { batten := (127 : Fin 128).val, cls := .act, sub := .a, rank := 0, lrank := 0, short := 4095 } := by
  decide +kernel

theorem witness_SchedulerPlansTheTail : low.logicRuns = false ∧ up.logicRuns = true ∧
    ∃ c : Chan, c.logicRuns = true ∧ cmd0 ∈ c.tail ∧ ({ cmd0 with time := 3 } : Cmd) ∈ c.tail ∧ c.dclk + 3 = 3 :=
  ⟨by decide, by decide, ⟨{ withRd rd0 with tail := [{ cmd0 with time := 3 }, cmd0] }, by decide +kernel⟩⟩

theorem witness_TailShiftsAndCommits : low.logicRuns = false ∧ low.tail = [] ∧ up.logicRuns = true ∧ up.fab.auditEn = true ∧
    ({ low with tail := [cmd0] } : Chan).tail ≠ [] ∧ ({ up with fab := { up.fab with auditEn := false } } : Chan).fab.auditEn = false ∧
    (∃ c : Chan, c.logicRuns = true ∧ (∃ k ∈ c.tail, k.time = c.dclk + 4) ∧
      ∀ k ∈ c.tail, k.bank.sub = .a → c.dclk + 1 < k.time) ∧
    ∃ c : Chan, c.logicRuns = true ∧ c.tail.filter (fun x => decide (x.time ≤ c.dclk + 1)) = [{ cmd0 with time := 1 }] :=
  ⟨by decide, rfl, by decide, by decide, by decide, rfl, ⟨{ withRd rd0 with tail := [cmd0] }, by decide +kernel⟩,
    ⟨{ withRd rd0 with tail := [{ cmd0 with time := 1 }, cmd0] }, by decide +kernel⟩⟩

/-! ### Witnesses: upkeep, levels and registers -/

def at' (n : Nat) (s : State) : State := { s with now := n }
def withAcct (a : Account) : Chan := { up with upk := { up.upk with accounts := [a] } }

theorem witness_RefreshAndPollsRun :
    (∀ d ∈ [(4 : Int), 5], ∀ a ∈ [({ tAcct .a with debts := [d] } : Account)],
      (withAcct a).upk.accounts.find? (fun x => x.sub == .a && x.rank == 0 && x.lrank == 0) = some a ∧ a.newLp = none ∧
      a.next ≤ (at' 390 (st (withAcct a))).now ∧ (withAcct a).power.fatal = false ∧ (withAcct a).inSelfRef .a 0 = false ∧
      (withAcct a).down = false ∧
      (({ a with debts := a.debts.map (· + 1) } : Account).top < (a.lp : Int) + 2 ↔ d = 4)) ∧
    (resetting true).inSelfRef .a 0 = true ∧ (resetting true).upk.accounts.find? (fun x => x.sub == .a && x.rank == 0 && x.lrank == 0) = some (tAcct .a) ∧
    up.running = true ∧ up.upk.pollNext.find? (fun p => p.1 == .a && p.2.1 == 0 && p.2.2.1 == 0) = some (.a, 0, 0, 800000) ∧
    up.hasRank 0 = true ∧
    (∃ c : Chan, c.running = true ∧ c.hasRank 0 = true ∧ bitAt c.fab.hot.toNat 0 = true ∧
      (c.modRank .a 0 (fun x => { x with poll1x := updateAt 0 (fun n => min 2 (n + 1)) x.poll1x })).coolTwice 0 = true) :=
  ⟨by decide +kernel, by decide +kernel, by decide +kernel, by decide +kernel, by decide +kernel, by decide +kernel,
    ⟨{ up with fab := { up.fab with hot := 1 }, upk := { up.upk with ranks := up.upk.ranks.map fun x => { x with poll1x := [2] } } },
      by decide +kernel⟩⟩

theorem witness_BallastWindowEnds :
    (at' 399 (st up)).now < (at' 399 (st up)).winNext ∧ (at' 400 (st up)).winNext ≤ (at' 400 (st up)).now ∧
      ((st up).chan 0).img ≠ none := by decide +kernel

def ripped (b : Ballast) : State :=
  { st { up with bal := b } with lvl := { Reset.levels with ripReq := true, ripRise := 0 } }

theorem witness_RipcordCapsAndReleases :
    (∀ ch, (st up).Rest ch) ∧ (st up).lvl.ripReq = false ∧ (st up).rst.pwrLow = false ∧ ((st up).chan 0).planned = [] ∧
    (ripped up.bal).lvl.ripReq = true ∧ (∀ ch, (ripped up.bal).Rest ch) ∧
    (∃ s : State, (∀ ch, s.Rest ch) ∧ s.lvl.ripReq = false ∧ s.lvl.ripNext = s.now ∧ ∃ ch, (s.chan ch).bal.ramp = true) ∧
    ((ripped { up.bal with capPend := some 0 }).chan 0).capDone = true ∧
    (ripped { up.bal with capPend := some 0 }).lvl.ripAck = false :=
  ⟨by unfold State.Rest; decide +kernel, by decide, by decide, by decide, by decide, by unfold State.Rest; decide +kernel,
    ⟨st { up with bal := { up.bal with ramp := true, pct := 25 } }, by unfold State.Rest; decide +kernel, rfl, rfl, 0, by decide +kernel⟩,
    by decide +kernel, rfl⟩

/-- The machine with a level change under way. -/
def changing (p : LevelPh) : State :=
  { at' 10000 (st up) with lvl := { Reset.levels with change := some (1, p), avsAt := 0, settleAt := 10000, volt := 650 } }

theorem witness_LevelChangeProceeds :
    (st up).img = some tBlk ∧
    (changing .shifting).img = some tBlk ∧ (changing .shifting).lvl.change = some (1, .shifting) ∧
      (∀ ch, ((changing .shifting).chan ch).withinClamp (changing .shifting).env = true) ∧ tBlk.levMv 1 ≠ tBlk.levMv 3 ∧
    (∀ r, (changing (.avs r)).lvl.change = some (1, .avs r) ∧ (changing (.avs r)).lvl.avsAt + 100 * (changing (.avs r)).lvl.timeout ≤ 10000) ∧
    (changing (.avs true)).lvl.pend = none ∧ (changing .settle).lvl.settleAt = (changing .settle).now ∧
    (at' 9999 (changing .settle)).now < (at' 9999 (changing .settle)).lvl.settleAt :=
  ⟨rfl, rfl, rfl, by decide +kernel, by decide +kernel, by decide +kernel, rfl, by decide +kernel, by decide +kernel⟩

theorem witness_PinsActOnTheirOwn :
    (st up).Rest 0 ∧ ∃ c : Chan, (st c).Rest 0 ∧ c.power.cur = .grounded ∧ c.power.kept = true ∧ c.power.trans = none :=
  ⟨by unfold State.Rest; decide +kernel,
    ⟨{ low with power := { low.power with kept := true } }, by unfold State.Rest; decide +kernel⟩⟩

theorem witness_SchedulerRegistersAreWritten :
    (∀ o ∈ [0xC8, 0x84, 0x80, 0xE0], (st up).Takes (wrTxn (.chan 0) o 1)) ∧ (st up).Takes (rdTxn (.chan 0) 0xF0) ∧
      bitAt (0x20000 : Word).toNat 17 = true ∧ bitAt (1 : Word).toNat 17 = false ∧ (∀ k ∈ up.planned, k.specAct = false) ∧
      (st up).Takes (wrTxn (.chan 0) 0x80 0x20000) :=
  ⟨by unfold State.Takes; decide +kernel, by unfold State.Takes; decide +kernel, by decide, by decide, by decide +kernel,
    by unfold State.Takes; decide +kernel⟩

theorem witness_ProtectionRegistersAreWritten :
    (0xFF000001 : Word) = 0xFF000000 ||| 1 ∧ (0xFF000002 : Word) = (0xFF000003 &&& 0xFFFFFFFC) ||| 2 ∧
    (0x4000001F : Word) = 0x1F ||| 0x40000000 ∧ bitAt (0x1F : Word).toNat 31 = false ∧ (0x3FFFF : Word) = 0x1FFFF ||| 0x20000 ∧
    bitAt (0x1FFFF : Word).toNat 16 = true ∧ (∃ c : Chan, c.th.enable = true ∧ (st c).Takes (wrTxn (.chan 0) 0x300 0x3FFFF)) ∧
    (∀ p ∈ [(0x204, 0xFF000001), (0x204, 0xFF000002), (0x200, 0xFFFF), (0x320, 0x80000000), (0x320, 0x8000001F), (0x320, 0x4000001F)],
      (st up).Takes (wrTxn (.chan 0) p.1 (BitVec.ofNat 32 p.2))) :=
  ⟨by decide, by decide, by decide, by decide, by decide, by decide,
    ⟨{ up with th := { up.th with enable := true } }, rfl, by unfold State.Takes; decide +kernel⟩, by unfold State.Takes; decide +kernel⟩

theorem witness_StatusRegistersShowTheChannel :
    (st up).Rest 0 ∧ ∀ o ∈ [0x4, 0x18, 0x88], (st up).Takes (rdTxn (.chan 0) o) :=
  ⟨by unfold State.Rest; decide +kernel, by unfold State.Takes; decide +kernel⟩

theorem witness_RegisterSpaceAnswers :
    (st up).rst.ready = true ∧ busyLane.mgt.held ≠ none ∧ busyLane.rst.ready = true ∧ (st up).mgt.held = none ∧
    addrChan (regAddr (.chan 0) 0x20).toNat = some 0 ∧ ((st (resetting true)).chan 0).power.rst = true ∧
    (∀ ch : ChanId, ((st up).chan ch).power.rst = false ∧ ((st up).chan ch).cv.owner = false) ∧
    (∀ a ∈ [0x2, 0x900000, 0xA09000, 0xEFFFFC, 0xF00040], ((st up).readAddr a).isNone = true) ∧
    (∀ a ∈ [0x0, 0x4, 0xF0003C], ((st up).readAddr a).isSome = true) := by decide +kernel

theorem witness_CountersCount :
    (∀ p ∈ [Page.blk, .chan 7], ∀ o ∈ [0x844, 0x848, 0x400, 0x584, 0x588, 0x900], (st up).Takes (wrTxn p o 0xFFFFFFFF)) ∧
    ((st up).userCnt 8 = (st up).cnt ∧ (st up).userCnt 0 = up.cnt ∧ (st up).mgt.held = none ∧ (st up).rst.ready = true) ∧
    (∃ c : Counter, c.user = true ∧ ({ up.cnt with cs := c :: up.cnt.cs.tail } : Counters).cs[0]? = some c) ∧
    (∀ c, (st up).cnt.cs[15]? = some c → c.user = false) ∧ (∀ c, up.cnt.cs[15]? = some c → c.user = false) ∧
    ∃ c : Counter, ∃ k : Counters, k.cs[0]? = some c ∧ (∀ l ∈ k.load, l.1 ≠ 0) ∧ c.value + c.acc = 2 ^ 48 ∧ k.freeze = false :=
  ⟨by unfold State.Takes; decide +kernel, ⟨rfl, rfl, rfl, rfl⟩, ⟨{ Reset.counter with user := true }, rfl, rfl⟩, nofun,
    fun c h => by rw [← Option.some.inj h]; rfl,
    ⟨{ Reset.counter with value := 2 ^ 48 - 1, acc := 1 },
      { Reset.counters 16 with cs := [{ Reset.counter with value := 2 ^ 48 - 1, acc := 1 }], load := [(15, 0)] }, by decide +kernel⟩⟩

/-! ### Witnesses: Loft, trim, power and bring-up -/

def lop (k : LoftKind) (g : LoftStage) : LoftOp :=
  { kind := k, seq := 1, tag := 7, cls := 0, priv := 0, age := 0, laddr := 0, mdnew := 2, mdexp := 0, stage := g,
    lineDone := false, sent := false }
def lent (s w g : Nat) (d : Bool) : LoftEntry := { set := s, way := w, granule := g, value := 0, valid := true, dirty := d, doomed := false }
def withLoft (ops : List LoftOp) (es : List LoftEntry) : Chan := { up with loft := { up.loft with on := true, ops := ops, entries := es } }

/-- `n` pinned ways of set 0, none of granule 0. -/
def pinnedWays (n : Nat) : List LoftEntry := (List.range n).map fun k => lent 0 (k + 1) ((k + 1) * 2 ^ 14 + k + 1) false
def pinners (n : Nat) : List LoftOp :=
  (List.range n).map fun k => { lop .mdr .started with laddr := BitVec.ofNat 34 (4 * ((k + 1) * 2 ^ 14 + k + 1)), seq := k + 2 }

def fill0 : LoftFill := { mdline := 519045120, seq := 9, result := some clean, failed := false }
def fill1 : LoftFill := { fill0 with mdline := 519045121, result := none }
def evict0 : Evict := { mdline := 519045120, line := 0, be := 0xFF, cls := 15, granule := 0, cleaning := false, psn := false }

theorem witness_LoftOperationsRun :
    (∀ n ∈ [11, 12], ∀ c ∈ [withLoft (lop .mdr .input :: pinners n) (lent 0 0 0 false :: pinnedWays n)],
      c.loft.ops.find? (fun p => p.stage == .input) = some (lop .mdr .input) ∧ (lop .mdr .input).kind ≠ .repair ∧ c.upsets = [] ∧
      c.loft.find (lop .mdr .input).granule = some (lent 0 0 0 false) ∧ c.loft.pinned (lop .mdr .input).granule = false ∧
      (c.loft.pinsIn (lent 0 0 0 false).set = n)) ∧
    (∀ c ∈ [({ withLoft [lop .mdr .input] [lent 0 1 16385 false] with
        loft := { (withLoft [lop .mdr .input] [lent 0 1 16385 false]).loft with fills := List.replicate 11 fill1 } } : Chan)],
      c.loft.ops.find? (fun p => p.stage == .input) = some (lop .mdr .input) ∧
      c.loft.find (lop .mdr .input).granule = none ∧ c.loft.pinsIn (setOf (lop .mdr .input).granule) < 12 ∧
      c.pickWay (setOf (lop .mdr .input).granule) = some 0 ∧ (c.loft.at (setOf (lop .mdr .input).granule) 0).isNone = true ∧
      c.inEvicts (lop .mdr .input).granule = none ∧ c.upsets = [] ∧ c.loft.fills.length = 11 ∧
      (∀ f ∈ c.loft.fills, f.mdline ≠ c.mdLineOf (lop .mdr .input).granule) ∧ c.loft.evicts = [] ∧
      c.fenced (c.devOf (c.mdLineOf (lop .mdr .input).granule)).bank.rank = false ∧
      ({ c with seqr := { c.seqr with fence := 1 } } : Chan).fenced (c.devOf (c.mdLineOf (lop .mdr .input).granule)).bank.rank = true ∧
      c.beatWaits (c.mdLineOf (lop .mdr .input).granule) c.nextSeq = false ∧
      c.newestWr (c.mdLineOf (lop .mdr .input).granule) c.nextSeq = none) ∧
    (∀ l ∈ [({ up.loft with fills := [fill0] } : Loft)], l.fills.find? (fun f => f.result.isSome || f.failed) = some fill0 ∧
      fill0.result = some clean ∧ clean.outcome.isBad = false) ∧
    (∀ n ∈ [7, 8], ∀ c ∈ [({ up with loft := { up.loft with evicts := [evict0] }, wq := List.replicate n { wr0 with src := .patch } } : Chan)],
      c.loft.evicts = [evict0] ∧ c.fenced (c.devOf evict0.mdline).bank.rank = false ∧ c.resWq = n ∧
      (∀ w ∈ c.wq, w.laddr ≠ evict0.mdline) ∧ evict0.cleaning = false ∧ c.sourcesHold = false ∧ c.loft.closing = false) ∧
    ({ up with bal := { up.bal with pct := 99 } } : Chan).sourcesHold = true ∧
    (∃ c : Chan, ∃ x ∈ c.loft.entries, c.upsets = [] ∧ c.sourcesHold = false ∧ c.loft.wball = [] ∧ c.loft.evicts.length = 7 ∧ c.loft.dirtyMax = 256 ∧ c.loft.dirty = 257 ∧
      c.loft.entries.find? (fun y => (y.valid && y.dirty) && decide (c.loft.cleanPtr ≤ y.set)) = some x) ∧
    (∀ k ∈ [LoftKind.mdcas, .mdw], ∀ c ∈ [withLoft [lop k .started] [lent 0 0 0 false]],
      c.loft.ops.find? (fun p => p.stage == .started) = some (lop k .started) ∧
      c.loft.find (lop k .started).granule = some (lent 0 0 0 false) ∧ (lop k .started).sent = false ∧ c.upsets = []) :=
  ⟨by decide +kernel, by decide +kernel, by decide +kernel, by decide +kernel, by decide +kernel,
    ⟨{ up with loft := { up.loft with dirtyMax := 256, entries := (List.range 257).map fun g => lent g 0 g true, evicts := List.replicate 7 evict0 } }, lent 0 0 0 true, by decide +kernel⟩,
    by decide +kernel⟩

theorem witness_LoftControlIsWritten :
    up.img = some tImg ∧ tImg.mdEn = true ∧ (0x104000 : Word) = 0x4000 ||| 0x100000 ∧ (0x4000 : Word) = 0x4000 &&& 0xFFEFFFFF ∧
    (0x80104000 : Word) = 0x104000 ||| 0x80000000 ∧ (0x40104000 : Word) = 0x104000 ||| 0x40000000 ∧
    (∀ v ∈ [0x104000, 0x4000, 0x80104000, 0x40104000], (st (withLoft [] [lent 0 0 0 true])).Takes (wrTxn (.chan 0) 0xA00 (BitVec.ofNat 32 v)) ∧
      (st up).Takes (wrTxn (.chan 0) 0xA00 (BitVec.ofNat 32 v))) ∧
    up.loft.on = false ∧ (withLoft [] [lent 0 0 0 true]).loft.on = true ∧ (withLoft [] [lent 0 0 0 true]).loft.wbBusy = false ∧
    (withLoft [] [lent 0 0 0 true]).running = true ∧ (withLoft [] [lent 0 0 0 true]).loft.closing = false ∧
    (withLoft [] [lent 0 0 0 true]).loft.dirtyList ≠ [] := by
  unfold State.Takes; decide +kernel

/-- A channel in a shift pause, with its ranks in self-refresh or out of it. -/
def shiftAt (p : ShiftPh) (sr : Bool) : Chan :=
  { up with
    trim := { up.trim with shift := some p, shiftTo := 1 },
    upk := { up.upk with ranks := up.upk.ranks.map fun x => { x with selfRef := sr } } }

theorem witness_ShiftPauseRuns :
    (∀ x ∈ (shiftAt .prepare true).upk.ranks, x.selfRef = true) ∧ (shiftAt .prepare true).trim.shift = some .prepare ∧
    (shiftAt .prepare true).quiet = true ∧ (∃ x ∈ (shiftAt .prepare false).upk.ranks, x.selfRef = false) ∧
    (shiftAt .clocks true).trim.shift = some .clocks ∧ (shiftAt .restart false).trim.shift = some .restart ∧
    (∀ x ∈ (shiftAt .restart false).upk.ranks, x.selfRef = false) ∧ (shiftAt .restart false).tail = [] ∧ (shiftAt .restart false).burstsOver = true ∧
    (shiftAt .restart false).power.trans = none ∧ (shiftAt .restart false).trim.bestSet (shiftAt .restart false).trim.reqN =
      some (shiftAt .restart false).trim.tsel := by decide +kernel

def pause0 : Pause := { kind := .retrim, sub := .a, rank := 0, len := 10, wide := false, running := true, endAt := 50, cmds := [] }

theorem witness_RetrimMovesTheCentres :
    up.upk.rank .a 0 = some (tRank .a) ∧ up.running = true ∧ up.trim.shift = none ∧ (at' 999 (st up)).now < (tRank .a).retrimNext ∧
    (tRank .a).retrimNext ≤ (at' 1000 (st up)).now ∧ (∀ p ∈ up.upk.pauses, p.kind = .retrim → p.sub = .a → p.rank ≠ 0) ∧
    (∀ c ∈ [({ up with upk := { up.upk with pauses := [pause0] } } : Chan)],
      c.retrimOver (at' 50 (st c)).env .a 0 = some pause0 ∧ c.retrimOver (at' 49 (st c)).env .a 0 = none ∧ c.img = some tImg ∧
      c.trim.shift = none ∧ ∃ x ∈ (c.trim.set c.trim.tsel).entries, x.1 = .a ∧ x.2.1 = 0 ∧ x.2.2.1 = 1) ∧
    retrimMove (probeOf false [true, true, true]) 2 ≠ none ∧ retrimMove (probeOf false [false, false, false]) 2 = none := by
  decide +kernel

def sensed (i2c off : Bool) : Chan :=
  { up with sb := { up.sb with present := 0x21F, i2c := i2c, hotOff := [off, false, false, false], nextPoll := [100, 0, 0, 0] } }

/-- 85 degrees is 340 quarter degrees, and 80 degrees 320. -/
theorem witness_SensorsAreRead :
    (∀ o : Bool, (sensed false o).running = true ∧ (sensed false o).sb.poll = true ∧ (sensed false o).sb.hasSensor 0 0 = true ∧
      (sensed false o).sb.i2c = false ∧ (sensed true o).sb.i2c = true ∧ (sensed false o).sb.busy = false ∧
      (at' 99 (st (sensed false o))).now < nth0 (sensed false o).sb.nextPoll 0 ∧
      nth0 (sensed false o).sb.nextPoll 0 ≤ (at' 100 (st (sensed false o))).now) ∧
    4 * (up.sb.thermHi : Int) = quarterDeg 340 ∧ quarterDeg 320 = 4 * (up.sb.thermHi : Int) - 20 ∧ quarterDeg 0xFFF = -1 := by
  decide +kernel

/-- A channel in a transition. -/
def moving (frm tgt : PState) (keep : Bool) (p : TransPh) : Chan :=
  { up with
    power := { up.power with cur := frm, trans := some { frm := frm, req := { tgt := tgt, keep := keep, wake := Reset.wakeInfo }, ph := p } },
    upk := { up.upk with ranks := up.upk.ranks.map fun x => { x with selfRef := true } } }

theorem witness_RatesAndStatesAreRequested :
    (∀ w ∈ [0, 24, 32, 255], (st up).Takes (wrTxn (.chan 0) 0x10 (BitVec.ofNat 32 w)) ∧ (st low).Takes (wrTxn (.chan 0) 0x10 (BitVec.ofNat 32 w))) ∧
    (low.trim.bestSet 24 = none ∧ up.trim.bestSet 24 = some 0 ∧ up.trim.bestSet 31 = some 0 ∧ up.trim.bestSet 32 = some 1 ∧
      up.trim.tsel = 0 ∧ up.trim.shift = none ∧ up.running = true ∧ up.power.trans = none) ∧
    ((shiftAt .due false).trim.shift = some .due ∧ (shiftAt .due false).trim.bestSet 24 = some (shiftAt .due false).trim.tsel ∧
      (shiftAt .due false).trim.bestSet 32 = some 1 ∧ (moving .flight .moored false .drain).draining = true) ∧
    (∃ s : State, ∃ c : Chan, s.chan 0 = c ∧ c.trim.bestSet 32 = some 1 ∧ c.trim.tsel = 0 ∧ c.running = true ∧ c.power.trans = none ∧
      c.trim.shift = none ∧ pause0 ∈ c.upk.pauses ∧ pause0.running = true ∧ s.Takes (wrTxn (.chan 0) 0x10 32) ∧
      32 = clampTo 24 (clampTo 24 64 (min (if c.mr then s.lvl.clampMr else s.lvl.clampRd)
        (min (match c.img with | some i => if i.dimms = 2 then 32 else 64 | none => 64) c.trim.modMax))) (bitsAt (32 : Word).toNat 0 8)) ∧
    (∀ v ∈ [4, 5, 6, 7], (st up).Takes (wrTxn (.chan 0) 0 (BitVec.ofNat 32 v)) ∧ (st low).Takes (wrTxn (.chan 0) 0 (BitVec.ofNat 32 v)) ∧
      (BitVec.ofNat 32 v : Word) = BitVec.ofNat 32 (v % 4) ||| 4) ∧
    (PState.ofNum (bitsAt 4 0 2) = .flight ∧ PState.ofNum (bitsAt 5 0 2) = .moored ∧ PState.ofNum (bitsAt 7 0 2) = .grounded) ∧
    (up.power.rst = false ∧ up.power.fatal = false ∧ up.power.cur = .flight ∧ low.power.cur = .grounded ∧ low.img ≠ none ∧
      (st low).img ≠ none ∧ (st low).loader.isOpen = false ∧ (moving .moored .flight false .waking).power.trans ≠ none) ∧
    ((st up).Takes (wrTxn .blk 0x200 4) ∧ (4 : Word) = 0 ||| 4 ∧ State.reset.img = none ∧ (changing .settle).lvl.change ≠ none ∧
      (st up).lvl.change = none ∧ (st up).lvl.clampMr ≤ tBlk.levMr 0 ∧ (st up).lvl.clampRd ≤ tBlk.levRd 0 ∧ tBlk.levMv 0 ≠ tBlk.levMv 3) := by
  refine ⟨by unfold State.Takes; decide +kernel, by decide +kernel, by decide +kernel, ?_, by unfold State.Takes; decide +kernel, by decide +kernel,
    by decide +kernel, by unfold State.Takes; decide +kernel⟩
  exact ⟨{ st { up with upk := { up.upk with pauses := [pause0] } } with lvl := { Reset.levels with clampRd := 44 } }, _, rfl,
    by unfold State.Takes; decide +kernel⟩

theorem witness_PowerDownDrains :
    (∀ k : Bool, ∀ p ∈ [PState.moored, .tethered, .grounded], ∀ c ∈ [moving .flight p k .drain],
      c.drainedNow = true ∧ c.planned = [] ∧ c.seqr.test = none ∧ c.seqr.clear = none ∧ c.loft.dirty = 0 ∧
      ({ c with loft := { c.loft with entries := [lent 0 0 0 true] } } : Chan).loft.dirty ≠ 0 ∧ c.loft.wbBusy = false) ∧
    (∃ c : Chan, (∃ t, c.power.trans = some t ∧ t.ph = .drain) ∧ c.drainedNow = false) ∧
    (∃ c : Chan, ∃ t, c.power.trans = some t ∧ t.ph = .enter ∧ c.tail ≠ [] ∧ t.req.tgt ≠ .grounded) ∧
    (∀ p ∈ [PState.moored, .tethered], ∀ c ∈ [moving .flight p false .enter], c.tail = [] ∧ (∀ x ∈ c.upk.ranks, x.selfRef = true) ∧
      c.power.pend = none ∧ c.trim.nCur = c.maxRate (st c).env) :=
  ⟨by decide +kernel,
    ⟨{ moving .flight .moored false .drain with rq := [rd0] }, ⟨_, rfl, rfl⟩, by decide +kernel⟩,
    ⟨{ moving .flight .moored false .enter with tail := [cmd0] }, _, rfl, rfl, by decide +kernel, by decide⟩, by decide +kernel⟩

/-- The check of the firmware code is open (log entry 9): the clause of a bring-up holds for every code that passes it. -/
theorem witness_WakesAndSamplesRun :
    (∃ s : State, s.img = some tBlk ∧ s.rst.lastStep = some 0 ∧ s.now + 1 = 0 + tBlk.stagger) ∧ up.stepReady = false ∧
    (∃ t : Trans, (moving .moored .flight false .stagger).power.trans = some t ∧ t.ph = .stagger ∧ t.frm = .moored ∧ t.req.tgt = .flight ∧
      (moving .moored .flight false .stagger).trim.shift ≠ some .locked ∧ (st (moving .moored .flight false .stagger)).stepOpen tBlk = true ∧
      (st (moving .moored .flight false .stagger)).nextStep tBlk = some 0 ∧
      (moving .moored .flight false .stagger).trim.bestSet (moving .moored .flight false .stagger).trim.reqN =
        some (moving .moored .flight false .stagger).trim.tsel) ∧
    (∃ t : Trans, (moving .grounded .flight false .stagger).power.trans = some t ∧ t.ph = .stagger ∧ t.frm = .grounded ∧
      (moving .grounded .flight false .stagger).img = some tImg ∧
      (moving .grounded .flight false .stagger).power.kept = false ∧ (moving .grounded .flight false .stagger).power.fatal = false ∧
      (st (moving .grounded .flight false .stagger)).stepOpen tBlk = true ∧
      (st (moving .grounded .flight false .stagger)).nextStep tBlk = some 0) ∧
    (∀ c ∈ [({ moving .grounded .flight false .stagger with
        power := { (moving .grounded .flight false .stagger).power with kept := true } } : Chan)],
      c.power.kept = true ∧ c.pins.hold ≠ .floating ∧ c.power.fatal = false ∧ c.img ≠ none ∧ c.trim.bestSet c.trim.reqN = some c.trim.tsel ∧
      (st c).stepOpen tBlk = true ∧ (st c).nextStep tBlk = some 0) ∧
    (∀ c ∈ [shiftAt .locked true], c.trim.shift = some .locked ∧ (st c).stepOpen tBlk = true ∧ (st c).nextStep tBlk = some 0 ∧
      c.power.trans.isNone = true) ∧
    (∀ c ∈ [({ up with power := { up.power with cur := .tethered, tetherNext := 100 } } : Chan)],
      (at' 99 (st c)).now < c.power.tetherNext ∧ c.power.tetherNext ≤ (at' 100 (st c)).now ∧ c.down = false ∧ c.power.cur = .tethered ∧
      c.power.trans = none ∧ c.sb.present = 0) ∧
    (∀ b ∈ [({ up.sb with present := 0x80 } : Sideband)], ∀ j : Fin 4, b.hasSensor (j.val / 2) (j.val % 2) = true ↔ j = 3) ∧
    [none, none, none, some (340 : BitVec 12)].getD (3 : Fin 4).val none = some 340 ∧ 4 * (up.power.wakeTemp : Int) ≤ quarterDeg 340 :=
  ⟨⟨at' 199 { st up with rst := { (st up).rst with lastStep := some 0 } }, rfl, rfl, by decide +kernel⟩, by decide +kernel,
    ⟨_, rfl, by decide +kernel⟩, ⟨_, rfl, by decide +kernel⟩, by decide +kernel, by decide +kernel, by decide +kernel, by decide +kernel,
    by decide, by decide +kernel⟩

/-- A channel in bring-up, out of a Grounded state. -/
def bringing (b : BringUp) : Chan := { moving .grounded .flight false .bringUp with bring := b }
def tSpd : SpdInfo :=
  { moduleType := 1, dimms := 1, ranksPerDimm := 1, stack := 1, density := 16, maxN := 64, serial := [1, 2],
    rcdSpeedN := 64, present := 0x21F, i2c := false }

/-- A retrim of a stored set that has failed on one lane, and a step whose SRX is still planned. -/
def failedTrim : Chan :=
  { bringing { Reset.bringUp with step := 12, form := 1, verify := true } with
    trim := { up.trim with sets := updateAt 0 (fun x => x.putEntry .a 0 0 (BitVec.ofNat 128 (2 ^ 124))) up.trim.sets } }
def busyBring : Chan :=
  { bringing { Reset.bringUp with step := 2 } with tail := [{ cmd0 with cls := .srx }] }

theorem witness_BringUpRuns :
    (∃ t : Trans, (bringing Reset.bringUp).power.trans = some t ∧ t.ph = .bringUp ∧ t.frm = .grounded ∧ t.req.tgt = .flight) ∧
    ((bringing Reset.bringUp).img = some tImg ∧ (bringing Reset.bringUp).power.pend = none ∧ (bringing Reset.bringUp).bring.step = 0 ∧
      (bringing Reset.bringUp).bring.ready = false ∧ (bringing Reset.bringUp).power.held = false) ∧
    (spdUnsupported tSpd = false ∧ spdUnsupported { tSpd with moduleType := 7 } = true ∧ spdUnsupported { tSpd with stack := 2 } = true ∧
      spdUnsupported { tSpd with density := 20 } = true ∧ spdMismatch tSpd tImg = false ∧ spdMismatch { tSpd with dimms := 2 } tImg = true ∧
      ({ bringing Reset.bringUp with trim := { up.trim with modMax := 64 } } : Chan).maxRate (st up).env = tImg.setN tImg.bringSet ∧
      ({ bringing Reset.bringUp with trim := { up.trim with modMax := 64 } } : Chan).maxRate (st up).env < tImg.setN 1 ∧
      tImg.trainOrder 24 none = [0] ∧ tImg.trainOrder 32 none = [1, 0] ∧ (up.trim.set tImg.bringSet).valid = true ∧
      (up.trim.set tImg.bringSet).tagv ≠ tImg.tagOf tSpd.serial) ∧
    (∀ p ∈ [(1, 2), (2, 3), (11, 12)], ∀ b ∈ [({ Reset.bringUp with step := p.1 } : BringUp)], b.step ≠ 0 ∧ b.form ≠ 1 ∧ b.setNow = tImg.bringSet ∧
      (bringing b).bringBusy = false ∧ b.verify = false ∧
      stepAfter b.step (trainSteps b.form tImg.mr (b.first || b.step = 2) ((bringing b).lastStep12 tImg)) = some p.2) ∧
    (∀ b ∈ [({ Reset.bringUp with step := 12 } : BringUp), { Reset.bringUp with step := 12, todo := [1] }], b.form ≠ 1 ∧ b.step ≠ 1 ∧
      b.step ≠ 2 ∧ (bringing b).bringBusy = false ∧
      stepAfter b.step (trainSteps b.form tImg.mr b.first ((bringing b).lastStep12 tImg)) = none) ∧
    (bringing { Reset.bringUp with step := 12, form := 1, verify := true }).retrimFailed = false ∧
    (failedTrim).retrimFailed = true ∧ failedTrim.bringBusy = false ∧ busyBring.bringBusy = true ∧
    (∀ b ∈ [({ Reset.bringUp with form := 1, step := 2, verify := true } : BringUp)], b.form = 1 ∧ b.step = 2 ∧ b.verify = true ∧
      tImg.trainOrder ((bringing b).maxRate (st (bringing b)).env) none = [0]) ∧
    (∀ c ∈ [bringing { Reset.bringUp with ready := true, outcome := 1, step := 12 }], c.bring.ready = true ∧ c.bring.outcome = 1 ∧ c.bringBusy = false ∧
      c.endSet (st c).env tImg = some 0 ∧ c.trim.bestSet (clampTo 24 (c.maxRate (st c).env) (tImg.setN 0)) = some 0 ∧ c.trim.shift = none ∧ c.lane.wake = []) ∧
    (5 : Nat) ≠ 1 :=
  ⟨⟨_, rfl, rfl, rfl, rfl⟩, ⟨rfl, rfl, rfl, rfl, rfl⟩, by decide +kernel, by decide +kernel, by decide +kernel, by decide +kernel,
    by decide +kernel, by decide +kernel, by decide +kernel, by decide +kernel, by decide +kernel, by decide⟩

/-! ### Witnesses: the sequencer, the reliability units and the resets -/

/-- A channel with an inbound message of opcode `op` and words 1 to 4, its check right, taken up or not. -/
def asked (op w1 w2 : Nat) (taken : Option Nat) (working : Bool) : Chan :=
  { up with
    mbxIn := { Reset.mbxIn with
      words := mkMsg 0x21 op 2 0 [BitVec.ofNat 32 w1, BitVec.ofNat 32 w2], busy := true, op := taken, working := working } }

theorem witness_MailboxIsServed :
    (∀ c ∈ [asked 1 0 0 none false, asked 0xFF 0 0 none false], c.mbxIn.busy = true ∧ c.mbxIn.op = none ∧ c.seqr.run = true ∧ c.bringing = false ∧
      c.shifting = false ∧ c.mbxIn.legacy = false ∧ c.mbxIn.words.getD 15 0 = ~~~((c.mbxIn.words.take 15).foldl (· + ·) 0) ∧
      c.mbxIn.kept = none) ∧
    (asked 0x30 0 0 none false).mbxIn.opcode = 0x30 ∧ (asked 4 0 0 none false).mbxIn.opcode ∉ [1, 2, 3, 0x10, 0x11, 0x12, 0x20, 0x30] ∧
    (∀ m ∈ [({ (asked 1 0 0 none false).mbxIn with kept := some (0x21, []) } : MbxIn)], m.kept = some (m.aliveOf, [])) ∧
    (∀ m ∈ [({ (asked 1 0 0 none false).mbxIn with words := List.replicate 16 0 } : MbxIn)],
      m.words.getD 15 0 ≠ ~~~((m.words.take 15).foldl (· + ·) 0)) ∧
    (∀ k ∈ [1, 2, 3, 0x11], (asked k 0x9000 0 (some k) false).mbxIn.op = some k ∧ (asked k 0x9000 0 (some k) false).mbxIn.working = false ∧
      bitsAt ((asked k 0x9000 0 (some k) false).mbxIn.word 1) 12 4 = 9) ∧
    (∀ b : Bool, ∀ c ∈ [({ asked 3 0xA000 0 (some 3) false with sb := { up.sb with present := if b then 1 else 0 } } : Chan)],
      c.sbPresent (c.mbxIn.word 1) = b) ∧
    ∀ n ∈ [0, 1, 32, 255], (asked 2 0xA000 (n * 2 ^ 16) (some 2) true).mbxIn.working = true ∧
      clampTo 1 32 (bitsAt ((asked 2 0xA000 (n * 2 ^ 16) (some 2) true).mbxIn.word 2) 16 8) = (if n = 0 then 1 else if n = 255 then 32 else n) := by
  decide +kernel

def test0 : SelfTest :=
  { word1 := 3, first := 0, last := 0, pace := 0, seed := 0, posA := 0, posB := 0, fails := 0, corrected := 0, chips := 0, sig := 0,
    firstFail := none, abort := false, next := 0 }

theorem witness_LongRequestsBegin :
    (∀ k ∈ [0x10, 0x12, 0x20], (asked k 0x700 0 (some k) false).mbxIn.op = some k ∧ (asked k 0x700 0 (some k) false).mbxIn.working = false ∧
      reqRank ((asked k 0x700 0 (some k) false).mbxIn.word 1) = 7 ∧ (asked k 0x700 0 (some k) false).hasRank 7 = false) ∧
    ((asked 0x10 0 0 (some 0x10) false).hasRank 0 = true ∧ (asked 0x10 0 0 (some 0x10) false).img = some tImg ∧
      (asked 0x10 0 0 (some 0x10) false).seqr.run = true ∧ (asked 0x10 0 0 (some 0x10) false).seqr.test = none ∧
      (asked 0x10 0 0 (some 0x10) false).seqr.clear = none ∧ ({ up.seqr with test := some test0 } : Sequencer).test ≠ none) ∧
    (∀ sb ∈ [Sub.a, .b], ∀ c ∈ [asked 0x12 (2 ^ sb.num) 0 (some 0x12) false],
      (if bitsAt (c.mbxIn.word 1) 0 2 = 0 then 3 else bitsAt (c.mbxIn.word 1) 0 2) = 2 ^ sb.num ∧
      ∃ x ∈ c.upk.ranks, c.upk.rank sb 0 = some x ∧ x.zqPhase = 0) := by decide +kernel

/-- With no refresh accounts the admission asks nothing of the length of the pause, which is open (log entry 8). -/
def testing (t : SelfTest) : Chan := { withAcct (tAcct .a) with upk := { up.upk with accounts := [] }, seqr := { up.seqr with test := some t } }

theorem witness_LongWorkRuns :
    up.seqr.test = none ∧ (testing test0).seqr.test = some test0 ∧ test0.nextSub tImg = some .a ∧ 0 < min 1 (min 64 (test0.left tImg .a)) ∧
    (testing test0).testMay (st up).env test0 .a = true ∧
    (∀ len, ({ testing test0 with free := (testing test0).free + 1 } : Chan).admits (st up).env
        { pause0 with
          kind := .selftest, len := len, running := false, endAt := len,
          cmds := lineCmds tImg false .a 0 ((List.range 1).map fun j => test0.dev tImg .a (test0.pos .a + j)) } =
      (true, { testing test0 with free := (testing test0).free + 1 })) ∧
    (min 0 (min 64 (test0.left tImg .a)) = 0) ∧
    (∀ t ∈ [({ test0 with abort := true } : SelfTest), { test0 with posA := 4096, posB := 4096 }],
      (testing t).seqr.test = some t ∧ (testing t).upk.pauses = [] ∧ (t.abort = true ∨ t.nextSub tImg = none)) ∧
    (∀ c ∈ [({ up with seqr := { up.seqr with clear := some { mask := 0, on := false, posA := 0, posB := 0, gran := 0 } } } : Chan)],
      c.clearOver tImg { mask := 0, on := false, posA := 0, posB := 0, gran := 0 } = true ∧ c.img = some tImg ∧ c.seqr.run = true) ∧
    (∀ n ∈ [1, 8], ∀ m ∈ [({ Reset.mbxOut with queue := List.replicate n (0x90, 0, List.replicate 8 0), dropped := 3 } : MbxOut)],
      m.valid = false ∧ m.queue = (0x90, 0, List.replicate 8 0) :: List.replicate (n - 1) (0x90, 0, List.replicate 8 0) ∧
      (List.replicate 8 (0 : Word)).length = 8 ∧ (m.queue.length < 8 ↔ n = 1)) :=
  ⟨rfl, rfl, by decide +kernel, by decide +kernel, by decide +kernel, fun _ => rfl, by decide +kernel, by decide +kernel, by decide +kernel,
    by decide +kernel⟩

theorem witness_RanksAreFenced :
    (∀ f ∈ [0, 1, 0xFF], (st up).Takes (wrTxn (.chan 0) 0x18 (BitVec.ofNat 32 f))) ∧ up.seqr.test = none ∧
    (∃ c : Chan, bitAt c.seqr.fence.toNat 0 = true ∧ (∃ x ∈ c.rq, x.dev.bank.rank = 0 ∧ x.kind = .thatcher) ∧ (∃ x ∈ c.wq, x.src = .clear) ∧
      (∀ x ∈ c.rq, x.dev.bank.rank = 0 → x.kind = .thatcher) ∧ (∀ x ∈ c.wq, x.dev.bank.rank = 0 → x.src = .clear)) ∧
    ∃ c : Chan, bitAt c.seqr.fence.toNat 0 = true ∧ ∃ x ∈ c.rq, x.dev.bank.rank = 0 ∧ x.kind ≠ .thatcher :=
  ⟨by unfold State.Takes; decide +kernel, rfl,
    ⟨{ up with seqr := { up.seqr with fence := 1 }, rq := [{ rd0 with kind := .thatcher }], wq := [{ wr0 with src := .clear }] }, by decide +kernel⟩,
    ⟨{ withRd rd0 with seqr := { up.seqr with fence := 1 } }, by decide +kernel⟩⟩

theorem witness_CheckValueUnitRuns :
    (st up).chan 0 = up ∧ (0xFF : Word) = 0x7F ||| 0x80 ∧ (st up).Takes (wrTxn (.chan 0) 0x808 0xFF) ∧
      (st up).Takes (wrTxn (.chan 0) 0x824 0xFFFFFFFF) :=
  ⟨rfl, by decide, by unfold State.Takes; decide +kernel, by unfold State.Takes; decide +kernel⟩

/-- The machine in a warm reset with the channels of `l` left. -/
def warm (c : Chan) (l : List ChanId) : State := { st c with rst := { (st c).rst with ready := false, warm := true, warmLeft := l } }

theorem witness_ResetsTakeEffect :
    (State.reset.rst.pwrLow = true ∧ (warm up [0]).rst.warm = true ∧ (st up).rst.pwrLow = false ∧ (st up).rst.warm = false ∧
      (st up).mgt.held = none ∧ ((st up).chan 0).power.rst = false) ∧
    ((st up).Takes (wrTxn .blk 0x8 (BitVec.ofNat 32 (2 ^ 0))) ∧ (st (resetting true)).Takes (wrTxn .blk 0x8 (BitVec.ofNat 32 (2 ^ 0)))) ∧
    (∀ k : Bool, (resetting k).power.rst = true ∧ (resetting k).power.rstAct < 8 ∧ (resetting k).tail = [] ∧
      (∀ x ∈ (resetting k).upk.ranks, x.selfRef = true) ∧ (st (resetting k)).mgt.held = none ∧ (st (resetting k)).rst.warm = false) ∧
    (st (resetting true)).NoneWaits ∧ (st (resetting false)).NoneWaits ∧ (warm (resetting false) [0]).NoneWaits ∧
    ((∃ k ∈ (warm (resetting false) [0, 1]).rst.warmLeft, k ≠ 0) ∧ ∀ k ∈ (warm (resetting false) [0]).rst.warmLeft, k = 0) ∧
    (∃ x ∈ ({ resetting true with upk := up.upk } : Chan).upk.ranks, x.selfRef = false) ∧ (resetting true).power.rstKeep = true := by
  refine ⟨by decide +kernel, by unfold State.Takes; decide +kernel, by decide +kernel, ?_, ?_, ?_, by decide +kernel, by decide +kernel, rfl⟩ <;>
    unfold State.NoneWaits State.Rest <;> decide +kernel

def patch0 : PatchReq := { laddr := 5, line := 0, psn := false, colOrd := 1 }
def patrol (o p : Nat) : Chan := { up with th := { up.th with enable := true, owed := o, pos := p } }

theorem witness_ThatcherAndPatchesRun :
    (∀ n ∈ [99, 100], ∀ c ∈ [({ patrol 64 0 with th := { (patrol 64 0).th with next := 100 } } : Chan)],
      c.th.enable = true ∧ c.down = false ∧ c.power.cur = .flight ∧ (c.th.next ≤ (at' n (st c)).now ↔ n = 100)) ∧
    (∀ c ∈ [patrol 1 0, patrol 1 (2 ^ 29 - 2 ^ 10 - 2)], c.th.enable = true ∧ c.down = false ∧ c.power.cur = .flight ∧ c.power.trans = none ∧ 0 < c.th.owed ∧ 100 ≤ c.bal.pct ∧
      countWhere (fun r : RdEntry => r.kind == .thatcher) c.rq < 4 ∧ c.resRq < 16 ∧ c.th.pos + 1 < c.patrolLines ∧
      c.fenced (c.devOf (BitVec.ofNat 34 c.th.pos)).bank.rank = false ∧ (∀ w ∈ c.wq, w.laddr ≠ BitVec.ofNat 34 c.th.pos) ∧
      c.beatWaits (BitVec.ofNat 34 c.th.pos) c.nextSeq = false) ∧
    (∀ c ∈ [({ patrol 1 5 with wq := [wr0] } : Chan)], ∃ w ∈ c.wq, w.laddr = BitVec.ofNat 34 c.th.pos) ∧
    (∀ n ∈ [0, 7], ∀ c ∈ [({ up with err := { up.err with patches := [patch0] }, wq := List.replicate n { wr0 with laddr := 6, src := .evict } } : Chan)],
      c.err.patches = [patch0] ∧ c.running = true ∧ 100 ≤ c.bal.pct ∧ c.resWq < 8 ∧ (∀ w ∈ c.wq, w.laddr ≠ patch0.laddr) ∧
      c.err.wroteSince patch0.laddr patch0.colOrd = false) ∧
    (∀ c ∈ [({ up with err := { up.err with patches := [patch0], lastWrite := [(5, 2)] } } : Chan)],
      c.err.wroteSince patch0.laddr patch0.colOrd = true) ∧
    (st up).Rest 0 ∧ ∀ n ∈ [0, 1], ∀ c ∈ [({ up with err := { up.err with slate := List.replicate 32 { Reset.slateEntry with phold := true, pholdUntil := n } } } : Chan)],
      (c.err.entry 31).phold = true ∧ ((c.err.entry 31).pholdUntil ≤ (st c).now ↔ n = 0) :=
  ⟨by decide +kernel, by decide +kernel, by decide +kernel, by decide +kernel, by decide +kernel, by unfold State.Rest; decide +kernel, by decide +kernel⟩

theorem witness_RecordsAreReadAndLinesTranslated :
    (∀ o ∈ [0x328, 0xA18, 0x340, 0x340 + 0x60 + 0xC * 7 + 4 * 2], (st up).Takes (rdTxn (.chan 0) o)) ∧
    (∀ w ∈ [1, 2], (st up).Takes (wrTxn (.chan 0) 0x68 (BitVec.ofNat 32 w)) ∧ State.reset.chan 0 = Reset.chan ∧ Reset.chan.img = none ∧
      ({ State.reset with rst := (st up).rst } : State).Takes (wrTxn (.chan 0) 0x68 (BitVec.ofNat 32 w))) ∧ up.img = some tImg :=
  ⟨by unfold State.Takes; decide +kernel, fun w h => ⟨by revert w; unfold State.Takes; decide +kernel, rfl, rfl,
    by revert w; unfold State.Takes; decide +kernel⟩, rfl⟩

theorem witness_AlertsAndRankTimersRun :
    (up.down = false ∧ up.logicRuns = true ∧ up.crcHits .a = [] ∧ up.crcPause .a = [] ∧ up.parHit .a = none ∧
      up.imgBit ChanImg.pracEn = false) ∧
    (∀ c ∈ [({ up with img := some { tImg with upk := [0, 0, 2] } } : Chan)], c.down = false ∧ c.logicRuns = true ∧ c.crcHits .a = [] ∧
      c.crcPause .a = [] ∧ c.parHit .a = none ∧ c.imgBit ChanImg.pracEn = true ∧ (∀ r ∈ c.rq, r.stage ≠ .waitBeat) ∧ (c.upk.backoff .a).active = false ∧
      (c.upk.backoff .a).delay = false ∧ (c.upk.backoff .a).lastEv = none ∧
      (∀ k ∈ c.planned, k.cls = .act → k.bank.sub = .a → k.time ≤ c.dclk + c.dclkOf 18)) ∧
    (∀ c ∈ [up.setBackoff .a (fun b => { b with active := true, owed := [(0, 0, 0)] })], (c.upk.backoff .a).active = true ∧
      (∃ o ∈ (c.upk.backoff .a).owed, o = (0, 0, 0)) ∧
      (∀ p ∈ c.banks, p.1.sub = .a → p.1.rank = 0 → p.1.lrank = 0 → p.2.st ≠ .refreshing)) ∧
    (∃ x ∈ up.upk.ranks, up.upk.rank .a 0 = some x ∧ x.zqPhase = 0 ∧ x.zqNext ≤ (at' 1000 (st up)).now) ∧
    (∃ c : Chan, ∃ x ∈ c.upk.ranks, c.upk.rank .a 0 = some x ∧ x.zqPhase = 2 ∧ x.zqAt = (st c).now) ∧
    (∀ c ∈ [({ up with power := { up.power with glideIdle := 100 } } : Chan)], c.rankBusy .a 0 = false ∧ (tRank .a).glide = false ∧ (tRank .a).selfRef = false ∧
      c.stopped .a = false ∧ c.recovering .a = false ∧ c.upk.park = false ∧ c.upk.wake = false ∧
      (tRank .a).idleSince + c.power.glideIdle = (at' 100 (st c)).now ∧ c.planned = [] ∧ c.pauseOn .a = none ∧
      (c.earliest (fun _ => true) (rankCmd .pde .a 0 .internal)).isSome = true) :=
  ⟨by decide +kernel, by decide +kernel, by decide +kernel, by decide +kernel,
    ⟨{ up with upk := { up.upk with ranks := [{ tRank .a with zqPhase := 2, zqAt := 0 }] } }, by decide +kernel⟩, by decide +kernel⟩

theorem witness_MailboxMessagesMove :
    (List.replicate 14 (0 : Word)).length = 14 ∧ (255 : Nat) < 256 ∧ (st up).chan 0 = up ∧
    (∀ p ∈ [(0x140, 1), (0x1C0, 1), (0x1D0, 0x80000010), (0x1D0, 0x4000000F), (0x1D4, 5)], (st up).Takes (wrTxn (.chan 0) p.1 (BitVec.ofNat 32 p.2))) ∧
    (st up).Takes (rdTxn (.chan 0) 0x1D4) ∧ (0x80000010 : Word) = 0x10 ||| 0x80000000 ∧ (0x4000000F : Word) = 0xF ||| 0x40000000 ∧
    bitAt (0xF : Word).toNat 31 = false :=
  ⟨rfl, by decide, rfl, by unfold State.Takes; decide +kernel, by unfold State.Takes; decide +kernel, by decide, by decide, by decide⟩

/-! ### Ill-formed commands -/

/-- One command for each check of WellFormed, which the check refuses, beside one that it accepts. -/
theorem test_wf_badOpcode : (Instr.badOpcodeRequest 0 1 req).wf = false ∧ (Instr.badOpcodeRequest 0 7 req).wf = true := by decide

theorem test_wf_bank :
    (Instr.bankTimingExpire 0 { dev0.bank with rank := 8 }).wf = false ∧ (Instr.bankTimingExpire 0 { dev0.bank with lrank := 8 }).wf = false ∧
    (Instr.bankTimingExpire 0 { dev0.bank with bg := 8 }).wf = false ∧ (Instr.bankTimingExpire 0 { dev0.bank with ba := 4 }).wf = false ∧
    (Instr.bankTimingExpire 0 dev0.bank).wf = true := by decide

theorem test_wf_ranks :
    (Instr.auditViolation 0 0 .act .a 8 0 0).wf = false ∧ (Instr.auditViolation 0 0 .act .a 0 8 0).wf = false ∧
    (Instr.refreshTick 0 .a 8 0).wf = false ∧ (Instr.tempPoll 0 .a 0 8).wf = false ∧ (Instr.tempPollResult 0 .a 8 0 .x1).wf = false ∧
    (Instr.backoffRelease 0 .a 0 8).wf = false ∧ (Instr.zqIntervalExpire 0 .a 8).wf = false ∧ (Instr.zqcalDone 0 .a 8).wf = false ∧
    (Instr.glideIdleExpire 0 .a 8).wf = false ∧ (Instr.retrimIntervalExpire 0 .a 8).wf = false ∧
    (Instr.retrimPauseEnd 0 .a 8 []).wf = false ∧ (Instr.trainingStepDone 0 (.failed .a 8 0)).wf = false ∧
    (Instr.refreshTick 0 .a 7 7).wf = true := by decide

theorem test_wf_lists :
    (Instr.retrimPauseEnd 0 .a 0 (List.replicate 11 { readPass := [], writePass := [] })).wf = false ∧
    (Instr.tetherSample 0 [none]).wf = false ∧ (Instr.tetherSample 0 [none, none, none, none]).wf = true ∧
    (Instr.mbxInDone 0 { ack := true, bytes := List.replicate 41 0 }).wf = false ∧ (Instr.mbxInDone 0 { ack := true, bytes := [256] }).wf = false ∧
    (Instr.trainingStepDone 0 (.failed .a 0 16)).wf = false := by decide

theorem test_wf_spd :
    (Instr.spdReadDone 0 (some { tSpd with moduleType := 256 })).wf = false ∧ (Instr.spdReadDone 0 (some { tSpd with maxN := 256 })).wf = false ∧ (Instr.spdReadDone 0 (some { tSpd with serial := [256] })).wf = false ∧
    (Instr.spdReadDone 0 (some tSpd)).wf = true := by decide

theorem test_wf_commit :
    (Instr.commitComplete 0 0 (List.replicate 1023 0)).wf = false ∧ (Instr.commitComplete 1 0 (List.replicate 1022 0)).wf = false ∧
    (Instr.commitComplete 1 0 (List.replicate 1023 4096)).wf = false ∧ (Instr.commitComplete 1 4095 (List.replicate 1023 4095)).wf = true := by
  decide +kernel

/-! ### Small tests of single commands -/

/-- BLK_ID and BLK_VERSION read their fixed words (R370); a hole answers a bus error (R113). -/
theorem test_blk_id : isNext (exec (.registerRead 0) (st up)) (fun t => t.mgt.rdata == 0xB1700880 && !t.mgt.rspErr) = true := by
  decide +kernel
theorem test_blk_version : isNext (exec (.registerRead 4) (st up)) (fun t => t.mgt.rdata == 0x03010300) = true := by decide +kernel
theorem test_hole : isNext (exec (.registerRead 0x900000) (st up)) (fun t => t.mgt.rspErr && t.mgt.rdata == 0) = true := by decide +kernel

/-- The mapping and its inverse agree on a line (R69). -/
theorem test_mapping : tImg.lineOf (tImg.devOf 123456789).vals = 123456789 := by decide +kernel

/-- A clean word decodes to its line, one bad symbol is corrected, and the poison word is poison (R217, R220). -/
theorem test_decode_clean : (decode false none 0).outcome = .clean ∧ (decode false none 0).line = 0 := by decide +kernel
theorem test_decode_symbol : (decode false none 0x40).outcome = .corrSym ∧ (decode false none 0x40).line = 0 := by decide +kernel
theorem test_decode_poison : (decode false none poisonWord).outcome = .poison := by decide +kernel

/-- The first line that is not usable is answered ADDR_RANGE, and the last one that is joins the queue (R65, R99). -/
theorem test_rd_range : isNext (exec (.rd 0 { req with laddr := 520092672 }) (st up))
    (fun t => (t.chan 0).rq.isEmpty && (t.chan 0).lane.ready.any fun r => r.ty == .err && r.status == errRange) = true := by decide +kernel
theorem test_rd_queued : isNext (exec (.rd 0 { req with laddr := 520092671 }) (st up))
    (fun t => (t.chan 0).rq.length == 1 && (t.chan 0).lane.ready.isEmpty && nth0 (t.chan 0).lane.held 0 == 3) = true := by decide +kernel

/-- A beat completes its write, whose CMP falls due 3 HCLK later (R91). -/
theorem test_beat : isNext (exec (.wdatBeat 0 beat) (st (beatDue (some { op := .wr, f := req, seq := 0 }))))
    (fun t => (t.chan 0).wq.length == 1 && (t.chan 0).lane.cmps == [(7, 3)] && (t.chan 0).lane.beats.isEmpty) = true := by decide +kernel
theorem test_beat_order : isNext (exec (.wdatBeat 0 { beat with tag := 8 }) (st (beatDue none)))
    (fun t => (t.chan 0).lane.beats.length == 1 && t.ev.filling.any fun r => r.info == 2 * 2 ^ 16 + 8) = true := by decide +kernel

/-- A tick adds 1 to the debt and comes again 3.9 µs later (R172). -/
theorem test_refresh_tick : isNext (exec (.refreshTick 0 .a 0 0) (at' 390 (st (withAcct (tAcct .a)))))
    (fun t => (t.chan 0).upk.accounts.all fun a => a.debts == [1] && a.next == 780) = true := by decide +kernel

/-- The cap of the ripcord is 25 per cent at reset (R205, R337). -/
theorem test_ripcord : isNext (exec .ripcordReqRise (st up)) (fun t => (t.chan 0).bal.pct == 25 && (t.chan 7).bal.capped) = true := by
  decide +kernel

/-- A state request to Moored drains the channel first (R317). -/
theorem test_state_go : isNext (exec (.stateGo 0 5) (st up))
    (fun t => match (t.chan 0).power.trans with | some x => x.ph == .drain && x.req.tgt == .moored | none => false) = true := by decide +kernel

/-- The head of the draining bank is the oldest record of the highest severity (R363). -/
theorem test_evq_head : ({ Reset.events with draining := [record 1, record 3, { record 3 with time := 2 }] } : Events).head = some (record 3) := by
  decide +kernel

/-- A counter passes 2^48 with OVF (R373). -/
theorem test_counter_wrap : ({ Reset.counters 1 with cs := [{ Reset.counter with value := 2 ^ 48 - 1, acc := 2 }] } : Counters).edge.1.cs =
    [{ Reset.counter with value := 1, ovf := true }] := by decide +kernel

/-- A reading at the wake limit in Tethered wakes to Moored (R323). -/
theorem test_tether : isNext (exec (.tetherSample 0 [some 340, none, none, none]) (at' 100 (st { up with
      power := { up.power with cur := .tethered, tetherNext := 100 }, sb := { up.sb with present := 0x2 } })))
    (fun t => match (t.chan 0).power.trans with | some x => x.req.tgt == .moored && x.req.wake.source == 3 | none => false) = true := by
  decide +kernel

/-- A message with a wrong check is answered BAD_CHECK, status 2 (R342). -/
theorem test_bad_check : isNext (exec (.mbxRequestServe 0) (st { up with mbxIn := { Reset.mbxIn with busy := true } }))
    (fun t => (t.chan 0).mbxIn.done && bitsAt ((t.chan 0).mbxIn.word 0) 0 8 == 2) = true := by decide +kernel

/-- A cold reset forgets the image and every channel's state (R380). -/
theorem test_cold_reset : isNext (exec .pwrRstAssert (st up)) (fun t => t.img.isNone && (t.chan 0).img.isNone && t.rst.pwrLow) = true := by
  decide +kernel

/-- With no command waiting a step is one REFCLK cycle (a choice of the model, log entry 2). -/
theorem test_idle : isNext (step (st up)) (fun t => t.now == 1) = true := by decide +kernel


/-- A request flit comes apart into its fields, its reserved bits ignored (R73). -/
theorem test_req_flit :
    reqFlit (BitVec.ofNat 96 (13 * 2 ^ 91 + 513 * 2 ^ 81 + 9 * 2 ^ 77 + 2 * 2 ^ 75 + 2 ^ 73 + 2 ^ 72 + (2 ^ 33 + 5) * 2 ^ 38 +
      0xABCD * 2 ^ 22 + 0x1234 * 2 ^ 6 + 63)) =
    (13, { tag := 513, cls := 9, priv := 2, spec := false, early := true, laddr := 0x200000005, mdnew := 0xABCD, mdexp := 0x1234 }) := by
  decide +kernel

/-- A response flit with an ERR of status 2 and a grant of three credits for class 5 (R80, R81). -/
theorem test_rsp_flit :
    (flitOf (plainRsp .err 513 2 0 0) (some (5, 3)) 1).word = BitVec.ofNat 64 (7 * 2 ^ 60 + 513 * 2 ^ 50 + 2 * 2 ^ 46 + 5 * 2 ^ 20 + 3 * 2 ^ 16 + 2 ^ 12) := by
  decide +kernel

end Sys2Proof.Tests
end

/-! The steps of the model: the invariants that each keeps, and where one stops. -/
namespace Sys2Proof.Machine

theorem State.Sound.idle {s : State} (h : s.Sound) : (({ s with now := s.now + 1 } : State).blkCount 0xC1 1).Sound :=
  State.Sound.blkCount (s := { s with now := s.now + 1 }) h _ _

/-- What a step keeps: an idle cycle and every command alike (R6, R362, R372). -/
theorem step_keeps {s t : State} (h : step s = .next t) : (s.Sound → t.Sound) ∧ (s.Quiet → t.Quiet) := by
  unfold step at h
  split at h
  · obtain rfl := Host.Outcome.next.inj h
    exact ⟨State.Sound.idle, id⟩
  · have hk := exec_holds h
    exact ⟨hk.sound, hk.quiet⟩

/-- Settles O4: every command keeps both invariants, and so does a step that finds none. -/
theorem everyStepKeepsTheInvariants : Obligations.EveryStepKeepsTheInvariants :=
  ⟨fun _ _ hs h => (step_keeps h).1 hs, fun _ _ hq h => (step_keeps h).2 hq⟩

/-- A command of one channel answers a next state, whatever the lane holds. -/
theorem exec_channel_next {i : Instr} {ch : ChanId} (h : channelOf i = some ch) (s : State) : ∃ t, exec i s = .next t := by
  rcases exec_channel h with ⟨f, hf⟩ | rfl
  · exact ⟨_, hf s⟩
  · exact ⟨_, rfl⟩

/-- Settles O3: a command answers a next state unless the lane is outstanding, and a command of one channel always does. -/
theorem onlyAnOverlapStops : Obligations.OnlyAnOverlapStops := by
  intro i s
  obtain ⟨hnext, hrefused, hfault⟩ := exec_runs i s
  refine ⟨hnext, hrefused, fun f hf => ⟨hfault f hf, ?_⟩⟩
  cases hc : channelOf i with
  | none => rfl
  | some ch =>
    obtain ⟨t, ht⟩ := exec_channel_next hc s
    rw [ht] at hf
    cases hf

end Sys2Proof.Machine

/-! The register space: which transactions fault, wait, answer a bus error and are done. -/
namespace Sys2Proof.Machine

/-- A transaction presented while another is outstanding is a fault (R11, R113). -/
theorem mgtTxn_overlap {s : State} (t : MgtTxn) (h : s.mgt.held ≠ none) : mgtTxn t s = .fault .mgtOverlap := by
  cases hm : s.mgt.held with
  | none => exact absurd hm h
  | some _ => unfold mgtTxn; rw [hm]

/-- A transaction that the lane holds waits, and nothing else changes (R400). -/
theorem mgtTxn_waits {s : State} {t : MgtTxn} (h : s.mgt.held = none) (hh : mgtHeld s t = true) :
    mgtTxn t s = .next { s with mgt := { s.mgt with held := some t, rspV := false } } := by
  unfold mgtTxn
  rw [h]
  exact if_pos hh

/-- The lane holds every transaction to a channel in its reset sequence (R400). -/
theorem mgtHeld_of_rst {s : State} {t : MgtTxn} {ch : ChanId} (h : addrChan t.addr.toNat = some ch)
    (hr : (s.chan ch).power.rst = true) : mgtHeld s t = true := by
  simp [mgtHeld, h, hr]

/-- With the block ready and every channel out of reset and of a sequencer use, no read is held (R400). -/
theorem mgtHeld_read {s : State} (hr : s.rst.ready = true)
    (hc : ∀ ch, (s.chan ch).power.rst = false ∧ (s.chan ch).cv.owner = false) (a : BitVec 24) :
    mgtHeld s { we := false, addr := a, data := 0 } = false := by
  cases h : addrChan a.toNat with
  | none => exact mgtHeld_none hr h nofun
  | some ch => exact mgtHeld_chan hr h (hc ch).1 (hc ch).2 nofun

/-- Only the write of CH_LOFT_CTL is a REPAIR (R282). -/
theorem repairOf_ne {t : MgtTxn} (h : addrOff t.addr.toNat ≠ 0xA00) : repairOf t = none := by
  unfold repairOf
  cases addrChan t.addr.toNat <;> simp [h]

/-- A write outside the channel pages, of neither a register that the lane may hold (R400), is done. -/
theorem registerWrite_done {s t : State} (a : BitVec 24) {w : Word} (hr : s.rst.ready = true) (hm : s.mgt.held = none)
    (h : a.toNat < 0x100000 ∨ 0x900000 ≤ a.toNat) (h1 : a.toNat ≠ 0xF0003C ∧ a.toNat ≠ 0x400)
    (hw : s.writeAddr a.toNat w = some t) : exec (.registerWrite a w) s = .next (t.respond false 0) :=
  have ha := addrChan_none h
  registerWrite_takes hm (mgtHeld_none hr ha fun _ => h1) (repairOf_blk ha) hw

/-- A write of a hole, or of a user page, answers a bus error (R379, R399). -/
theorem registerWrite_hole {s : State} (a : BitVec 24) (w : Word) (hr : s.rst.ready = true) (hm : s.mgt.held = none)
    (h1 : 0x900000 ≤ a.toNat) (h2 : a.toNat < 0xF00000) : exec (.registerWrite a w) s = .next (s.respond true 0) :=
  have ha := addrChan_none (.inr h1)
  have hne : a.toNat ≠ 0xF0003C ∧ a.toNat ≠ 0x400 := by omega
  registerWrite_takes hm (mgtHeld_none hr ha fun _ => hne) (repairOf_blk ha) (writeAddr_hole h1 h2)

/-- A write of a channel's register, but those that the lane may hold and CH_LOFT_CTL, runs its writer (R400). -/
theorem registerWrite_chan {s : State} {ch : ChanId} {a : BitVec 24} {off : Nat} {f : ChanWriter} (w : Word)
    (hr : s.rst.ready = true) (hm : s.mgt.held = none) (hp : (s.chan ch).power.rst = false)
    (ho : (s.chan ch).cv.owner = false) (ha : addrChan a.toNat = some ch) (hoff : addrOff a.toNat = off)
    (hne : off ≠ 0x68 ∧ off ≠ 0x900 ∧ off ≠ 0xA00) (hf : regAt off chanWriters = some f) :
    exec (.registerWrite a w) s = .next ((s.onChan ch (f w)).respond false 0) := by
  subst hoff
  exact registerWrite_takes hm (mgtHeld_chan hr ha hp ho fun _ => ⟨hne.1, hne.2.1⟩) (repairOf_ne hne.2.2)
    (writeAddr_of ha rfl hf)

/-- Settles O39: the outcome of a transaction follows from whether the lane takes it and from what its address names. -/
theorem registerSpaceAnswers : Obligations.RegisterSpaceAnswers := by
  intro s a w hr
  refine ⟨fun hm => ⟨mgtTxn_overlap _ hm, mgtTxn_overlap _ hm⟩, fun hm => ⟨fun ch ha hrst =>
    ⟨mgtTxn_waits hm (mgtHeld_of_rst ha hrst), mgtTxn_waits hm (mgtHeld_of_rst ha hrst)⟩, fun hc => ?_⟩⟩
  have hread := fun b {r} => registerRead_takes (a := b) (r := r) hm (mgtHeld_read hr hc b)
  refine ⟨fun h => hread a h, fun t x h => hread a h, fun h1 h2 h3 => ⟨hread a (readAddr_hole h1 h2 h3), ?_⟩, fun h1 h2 => ?_,
    ?_, ?_, ?_, ?_⟩
  · exact registerWrite_hole a w hr hm h1 h2
  · exact registerWrite_hole a w hr hm (by omega) (by omega)
  · rintro rfl
    exact hread 0 (r_id s)
  · rintro rfl
    exact ⟨hread 4 (r_ver s), registerWrite_done 4 hr hm (.inl (by decide)) (by decide) (w_ver s w)⟩
  · rintro rfl
    exact registerWrite_done 0x310 hr hm (.inl (by decide)) (by decide) (w_irq s w)
  · rintro ch rfl
    have ha := regAddr_chan (ch := ch) (off := 0x20) (by decide)
    have hoff := regAddr_off (ch := ch) (off := 0x20) (by decide)
    have hdone := registerWrite_chan w hr hm (hc ch).1 (hc ch).2 ha hoff (by decide) w_tether
    exact hdone

end Sys2Proof.Machine

/-! Resets: how a warm and a channel reset begin, and what the end of a sequence leaves. -/
namespace Sys2Proof.Machine

/-! ### WARM_RST_n and CHRST -/

/-- Which channels keep their contents through a reset (R383). -/
theorem Chan.resetKeeps_iff (c : Chan) : (c.resetKeeps && !c.bringing) = true ↔ c.bringing = false ∧
    (c.power.held = true ∨ (c.power.initDone = true ∧ c.power.fatal = false ∧
      (c.power.cur ≠ .grounded ∨ c.power.kept = true ∨ c.power.trans ≠ none))) := by
  unfold Chan.resetKeeps
  rw [← Option.isSome_iff_ne_none]
  cases c.bringing
  · simp [and_assoc, or_assoc]
  · simp

/-- Which writes a reset loses: a write that had received CMP and was not committed (R385). -/
theorem Chan.resetLoses_iff (c : Chan) :
    c.resetLoses = true ↔ ∃ w ∈ c.wq, w.committed = false ∧ ∃ h ∈ w.hosts, h.cmpSent = true := by
  simp [Chan.resetLoses]

theorem Chan.startReset_of_rst {c : Chan} (h : c.power.rst = true) : c.startReset = c := if_pos h

/-- A CHRST bit reaches its own channel only (R394). -/
theorem chrstMask_one (s : State) (ch : ChanId) :
    s.chrstMask (BitVec.ofNat 32 (2 ^ ch.val)) = s.commitChan ch (s.chan ch).startReset := by
  unfold State.chrstMask
  rw [onlyBit ch]
  rfl

theorem warmStart_of_reset {s : State} (h : s.rst.pwrLow = true ∨ s.rst.warm = true) : s.warmStart = s :=
  if_pos (by simpa using h)

theorem warmStart_runs {s : State} (hp : s.rst.pwrLow = false) (hw : s.rst.warm = false) :
    s.warmStart = { s with
      chans := s.chans.map Chan.startReset, rst := { s.rst with ready := false, warm := true, warmLeft := allChans } } :=
  if_neg (by simp [hp, hw])

/-- BLOCK_READY while a reset of the block lasts does nothing; else it sets READY (R381). -/
theorem blockReady_of_reset {s : State} (h : s.rst.pwrLow = true ∨ s.rst.warm = true) : exec .blockReady s = .next s :=
  congrArg Host.Outcome.next (if_pos (by simpa using h))

theorem blockReady_sets {s : State} (hp : s.rst.pwrLow = false) (hw : s.rst.warm = false) (hm : s.mgt.held = none) :
    exec .blockReady s = .next { s with rst := { s.rst with ready := true } } :=
  congrArg Host.Outcome.next ((if_neg (by simp [hp, hw])).trans (mgtRetry_none hm))

/-! ### The end of a reset sequence -/

/-- The channel at the end of its sequence: Grounded, out of reset, and held where it keeps its contents (R384). -/
structure Chan.Landed (c d : Chan) : Prop where
  cur : d.power.cur = .grounded
  rst : d.power.rst = false
  held : d.power.held = c.power.rstKeep
  hold : d.pins.hold = if c.power.rstKeep then .selfRef else .resetLow

theorem Chan.afterReset_landed (c : Chan) : c.Landed c.afterReset := ⟨rfl, rfl, rfl, rfl⟩

/-- What an image loads leaves the pins, the image and the state of power but for GLIDE and TETHER (R53). -/
theorem Chan.loadLive_keeps (c : Chan) : c.loadLive.img = c.img ∧ c.loadLive.pins = c.pins ∧
    c.loadLive.power.cur = c.power.cur ∧ c.loadLive.power.rst = c.power.rst ∧ c.loadLive.power.held = c.power.held ∧
    c.loadLive.power.pend = c.power.pend := by
  unfold Chan.loadLive Chan.loadImg
  dsimp only
  split <;> exact ⟨rfl, rfl, rfl, rfl, rfl, rfl⟩

theorem Chan.afterChrst_landed (c : Chan) :
    c.Landed c.afterChrst ∧ c.afterChrst.img = c.img ∧ c.afterChrst.power.pend = c.power.pend := by
  unfold Chan.afterChrst
  obtain ⟨himg, hpins, hcur, hrst, hheld, hpend⟩ := Chan.loadLive_keeps { c.afterReset with
    img := c.img, bridges := c.bridges, power := { c.afterReset.power with wakeRec := c.power.wakeRec, pend := c.power.pend } }
  exact ⟨⟨hcur, hrst, hheld, congrArg Pins.hold hpins⟩, himg, hpend⟩

/-- The sequence of channel `ch` is over: BLK_RESET_REC holds its field (R385, R387). -/
def State.recorded (s : State) (ch : ChanId) : State :=
  { s with rst := { s.rst with
      resetRec := putRec s.rst.resetRec ch.val ((s.chan ch).resetField (bitsAt s.rst.resetRec.toNat (4 * ch.val) 4)) } }

/-- The field of BLK_RESET_REC that the end of a sequence writes (R385, R387). -/
theorem Chan.resetField_eq (c : Chan) {old : Nat} (h : old < 16) : c.resetField old =
    if c.power.held = true ∧ c.power.rstKeep = true then old / 8 * 8 + 2 else b2n c.power.rstWlost * 8 + c.power.rstAct := by
  unfold Chan.resetField
  rw [Nat.mod_eq_of_lt h]
  simp only [Bool.and_eq_true]

theorem Chan.resetField_lt {c : Chan} (old : Nat) (h : c.power.rstAct < 8) : c.resetField old < 16 := by
  have hb : b2n c.power.rstWlost ≤ 1 := by cases c.power.rstWlost <;> decide
  unfold Chan.resetField
  split <;> omega

/-- BLK_RESET_REC after a sequence: the field of its channel, and no other, is written. -/
theorem State.recorded_bits {s : State} {ch : ChanId} (h : (s.chan ch).power.rstAct < 8) :
    (∀ k : ChanId, k ≠ ch → bitsAt (s.recorded ch).rst.resetRec.toNat (4 * k.val) 4 = bitsAt s.rst.resetRec.toNat (4 * k.val) 4) ∧
    bitsAt (s.recorded ch).rst.resetRec.toNat (4 * ch.val) 4 =
      if (s.chan ch).power.held = true ∧ (s.chan ch).power.rstKeep = true
        then bitsAt s.rst.resetRec.toNat (4 * ch.val) 4 / 8 * 8 + 2
        else b2n (s.chan ch).power.rstWlost * 8 + (s.chan ch).power.rstAct := by
  have hbits := fun k => putRec_bits s.rst.resetRec ch k _
    (Chan.resetField_lt (bitsAt s.rst.resetRec.toNat (4 * ch.val) 4) h)
  refine ⟨fun k hk => (hbits k).trans (if_neg hk), ?_⟩
  exact ((hbits ch).trans (if_pos rfl)).trans (Chan.resetField_eq _ (bitsAt_lt _ _ 4))

theorem Chan.resetOver_iff (c : Chan) : c.resetOver = true ↔ c.power.rst = true ∧ c.tail = [] ∧
    (c.power.rstKeep = true → ∀ x ∈ c.upk.ranks, x.selfRef = true) := by
  unfold Chan.resetOver Chan.allSelfRef
  cases c.power.rstKeep <;> simp [and_assoc]

theorem resetSeqEnd_waits {s : State} {ch : ChanId} (h : (s.chan ch).resetOver = false) : s.resetSeqEnd ch = s :=
  if_pos (by rw [h]; rfl)

/-- A channel reset ends: the channel alone is reset, and no request waits behind it (R380, R382). -/
theorem resetSeqEnd_chrst {s : State} {ch : ChanId} (hn : s.NoneWaits) (h : (s.chan ch).resetOver = true)
    (hw : s.rst.warm = false) : s.resetSeqEnd ch = (s.recorded ch).setChan ch (s.chan ch).afterChrst := by
  obtain ⟨⟨-, -, hrep⟩, hpend⟩ := hn ch
  have hc : ((s.recorded ch).setChan ch (s.chan ch).afterChrst).chan ch = (s.chan ch).afterChrst := State.chan_setChan_self _ _ _
  unfold State.resetSeqEnd
  dsimp only
  rw [if_neg (by rw [h]; decide), if_neg (by rw [hw]; decide)]
  have hquiet := Chan.afterChrst_quiet (s.chan ch)
  refine State.onChan_id (s := (s.recorded ch).setChan ch (s.chan ch).afterChrst) ⟨?_, ?_, hrep⟩ ?_
  · rw [hc]; exact hquiet.1
  · rw [hc]; exact hquiet.2
  · rw [hc]; exact Chan.startPend_none ((Chan.afterChrst_landed _).2.2.trans hpend)

/-- One channel's part of a warm reset ends (R382). -/
def State.warmPart (s : State) (ch : ChanId) : State :=
  ({ s.recorded ch with rst := { (s.recorded ch).rst with warmLeft := s.rst.warmLeft.filter (· != ch) } } : State).setChan ch
    (s.chan ch).afterReset

theorem resetSeqEnd_warm {s : State} {ch : ChanId} (h : (s.chan ch).resetOver = true) (hw : s.rst.warm = true) :
    s.resetSeqEnd ch = (s.warmPart ch).warmEnd := by
  unfold State.resetSeqEnd
  dsimp only
  rw [if_neg (by rw [h]; decide), if_pos hw]
  rfl

theorem warmPart_more {s : State} {ch : ChanId} (h : ∃ k ∈ s.rst.warmLeft, k ≠ ch) : (s.warmPart ch).warmEnd = s.warmPart ch := by
  obtain ⟨k, hk, hne⟩ := h
  exact warmEnd_more (List.isEmpty_eq_false_iff.mpr (List.ne_nil_of_mem (List.mem_filter.mpr ⟨hk, by simpa using hne⟩)))

theorem warmPart_last {s : State} {ch : ChanId} (h : ∀ k ∈ s.rst.warmLeft, k = ch) : (s.warmPart ch).warmEnd =
    (s.warmPart ch).resetAll (fun c => c) { Reset.resetCtl with pwrLow := false, resetRec := (s.recorded ch).rst.resetRec } := by
  refine warmEnd_last (s := s.warmPart ch) (List.isEmpty_iff.mpr (List.filter_eq_nil_iff.mpr fun k hk => ?_))
  simpa using h k hk

theorem resetSequenceEnd_to {s t : State} {ch : ChanId} (h : s.resetSeqEnd ch = t) (hm : t.mgt.held = none) :
    exec (.resetSequenceEnd ch) s = .next t := by
  subst h
  exact congrArg Host.Outcome.next (mgtRetry_none hm)

/-- A channel reset ends with its image and every other channel as they were (R380). -/
theorem resetSequenceEnd_chrst {s : State} {ch : ChanId} (hm : s.mgt.held = none) (hn : s.NoneWaits)
    (h : (s.chan ch).resetOver = true) (hw : s.rst.warm = false) : ∃ t, exec (.resetSequenceEnd ch) s = .next t ∧
      t.rst.resetRec = (s.recorded ch).rst.resetRec ∧ (s.chan ch).Landed (t.chan ch) ∧
      (t.chan ch).img = (s.chan ch).img ∧ t.img = s.img ∧ ∀ k, k ≠ ch → t.chan k = s.chan k := by
  obtain ⟨hlanded, himg, -⟩ := (s.chan ch).afterChrst_landed
  refine ⟨_, resetSequenceEnd_to (resetSeqEnd_chrst hn h hw) hm, rfl, ?_, ?_, rfl, fun k hk => State.chan_setChan_ne _ _ hk⟩
  · rwa [State.chan_setChan_self]
  · rwa [State.chan_setChan_self]

/-- A channel of a warm reset ends its part while others are left: the block's image stays (R382). -/
theorem resetSequenceEnd_warm_more {s : State} {ch : ChanId} (hm : s.mgt.held = none) (h : (s.chan ch).resetOver = true)
    (hw : s.rst.warm = true) (hl : ∃ k ∈ s.rst.warmLeft, k ≠ ch) : ∃ t, exec (.resetSequenceEnd ch) s = .next t ∧
      t.rst.resetRec = (s.recorded ch).rst.resetRec ∧ t.chan ch = (s.chan ch).afterReset ∧
      t.img = s.img ∧ t.rst.warm = true ∧ t.rst.warmLeft = s.rst.warmLeft.filter (· != ch) :=
  ⟨_, resetSequenceEnd_to ((resetSeqEnd_warm h hw).trans (warmPart_more hl)) hm, rfl, State.chan_setChan_self _ _ _, rfl,
    hw, rfl⟩

/-- The last channel of a warm reset ends its part: the block is reset (R380, R382). -/
theorem resetSequenceEnd_warm_last {s : State} {ch : ChanId} (hm : s.mgt.held = none) (h : (s.chan ch).resetOver = true)
    (hw : s.rst.warm = true) (hl : ∀ k ∈ s.rst.warmLeft, k = ch) : ∃ t, exec (.resetSequenceEnd ch) s = .next t ∧
      t.rst.resetRec = (s.recorded ch).rst.resetRec ∧ t.chan ch = (s.chan ch).afterReset ∧
      t.img = none ∧ t.rst.warm = false ∧ t.lvl = State.reset.lvl ∧ t.tsBase = s.now :=
  ⟨_, resetSequenceEnd_to ((resetSeqEnd_warm h hw).trans (warmPart_last hl)) hm, rfl,
    (chan_map (s.warmPart ch) (fun c => c) ch).trans (State.chan_setChan_self _ _ _), rfl, rfl, rfl, rfl⟩

/-- Settles O55: the cold reset by its definition, the starts by what `startReset` leaves, and the end of a sequence by its
three cases: a channel reset, a warm reset with channels left, and the last of a warm reset. -/
theorem resetsTakeEffect : Obligations.ResetsTakeEffect := by
  refine ⟨fun s => ⟨rfl, rfl, blockReady_of_reset, blockReady_sets, fun h => ?_, fun hp hw => ?_, ?_⟩,
    fun s ch c hc hm hn => ⟨fun h => ?_, fun hrst hact htail hself => ?_⟩⟩
  · exact congrArg Host.Outcome.next (warmStart_of_reset h)
  · refine ⟨_, congrArg Host.Outcome.next (warmStart_runs hp hw), rfl, ?_⟩
    rintro ch _ rfl hrst
    obtain ⟨d, hd, hrst, htrans, hrq, hout, hkeep, -⟩ := startReset_facts hrst
    exact ⟨d, (chan_map _ Chan.startReset ch).trans hd, hrst, htrans, hrq, hout, hkeep ▸ Chan.resetKeeps_iff _⟩
  · rintro ch _ rfl ht
    have hexec : exec (.chrst ch) s = .next ((s.commitChan ch (s.chan ch).startReset).respond false 0) := by
      rw [← chrstMask_one]
      exact mgtWrite_takes ht
    refine ⟨fun hrst => ?_, fun hrst => ?_⟩
    · rwa [Chan.startReset_of_rst hrst] at hexec
    · obtain ⟨d, hd, hrst, htrans, hrq, hout, -, hlost⟩ := startReset_facts hrst
      exact ⟨d, hd ▸ hexec, hrst, htrans, hrq, hout, hlost ▸ Chan.resetLoses_iff _⟩
  · subst hc
    have hwait : (s.chan ch).resetOver = false := by
      rw [Bool.eq_false_iff, Ne, Chan.resetOver_iff]
      rintro ⟨hrst, htail, hself⟩
      rcases h with h | h | ⟨hkeep, x, hx, h⟩
      · simp [hrst] at h
      · exact h htail
      · simp [hself hkeep x hx] at h
    exact resetSequenceEnd_to (resetSeqEnd_waits hwait) hm
  · subst hc
    have hover : (s.chan ch).resetOver = true := (Chan.resetOver_iff _).mpr ⟨hrst, htail, hself⟩
    have hrec := State.recorded_bits (s := s) hact
    cases hw : s.rst.warm with
    | false =>
      obtain ⟨t, ht, hr, ⟨hcur, hrst, hheld, hhold⟩, himg, hblk, hothers⟩ := resetSequenceEnd_chrst hm hn hover hw
      rw [← hr] at hrec
      exact ⟨t, ht, hrec.1, hrec.2, hcur, hrst, hheld, hhold, fun _ => ⟨himg, hblk, hothers⟩, nofun⟩
    | true =>
      obtain ⟨hcur, hrst, hheld, hhold⟩ := (s.chan ch).afterReset_landed
      by_cases hmore : ∃ k ∈ s.rst.warmLeft, k ≠ ch
      · obtain ⟨t, ht, hr, hc, hblk, hwarm, hleft⟩ := resetSequenceEnd_warm_more hm hover hw hmore
        rw [← hr] at hrec
        rw [← hc] at hcur hrst hheld hhold
        exact ⟨t, ht, hrec.1, hrec.2, hcur, hrst, hheld, hhold, nofun, fun _ => ⟨by rw [hc]; rfl,
          fun _ => ⟨hblk, hwarm, hleft⟩, fun h => absurd hmore (by simpa using h)⟩⟩
      · obtain ⟨t, ht, hr, hc, hlast⟩ := resetSequenceEnd_warm_last hm hover hw (by simpa using hmore)
        rw [← hr] at hrec
        rw [← hc] at hcur hrst hheld hhold
        exact ⟨t, ht, hrec.1, hrec.2, hcur, hrst, hheld, hhold, nofun, fun _ => ⟨by rw [hc]; rfl,
          fun h => absurd h hmore, fun _ => hlast⟩⟩

end Sys2Proof.Machine

/-! Bring-up: the SPD read, the training steps and the end of a bring-up. -/
namespace Sys2Proof.Machine

/-! ### The SPD read -/

/-- No SPD answer ends the bring-up with RESULT 2 (R388, R393). -/
theorem spdDone_none {c : Chan} {e : Env} {i : ChanImg} (hi : c.img = some i) (hb : c.bringing = true) (hs : c.bring.step = 0)
    (hr : c.bring.ready = false) : c.spdDone none e = c.bringFail 2 e := by
  unfold Chan.spdDone
  split
  · simp_all
  · exact if_neg (by simp [hb, hs, hr])

/-- A bring-up that ends on what the SPD data says leaves the channel Grounded (R388, R391). -/
theorem heard_down {c : Chan} {e : Env} {t : Trans} (i : ChanImg) (x : SpdInfo) (n : Nat) (ht : c.power.trans = some t)
    (hp : c.power.pend = none) : c.BroughtDown ((heard c i x).bringFail n e) n :=
  down_of (c' := heard c i x) (bringFail_down n ht hp) rfl

/-- The stored sets of a channel whose modules match: those of another tag are cleared (R293). -/
def tagged (c : Chan) (i : ChanImg) (x : SpdInfo) : Chan := (heard c i x).checkTags (i.tagOf x.serial)

theorem tagged_down {c : Chan} {e : Env} {t : Trans} (i : ChanImg) (x : SpdInfo) (n : Nat) (ht : c.power.trans = some t)
    (hp : c.power.pend = none) : c.BroughtDown ((tagged c i x).bringFail n e) n :=
  down_of (c' := tagged c i x) (bringFail_down n ht hp) rfl

theorem tagged_set_valid (c : Chan) (i : ChanImg) (x : SpdInfo) (b : Nat) : ((tagged c i x).trim.set b).valid = true ↔
    (c.trim.set b).valid = true ∧ (c.trim.set b).tagv = i.tagOf x.serial := by
  unfold tagged
  rw [checkTags_set]
  change (if (c.trim.set b).valid = true ∧ (c.trim.set b).tagv ≠ _ then _ else c.trim.set b).valid = true ↔ _
  split
  · next h => simp [Reset.trimSet, h.2]
  · next h => simp_all

/-- What STORED form begins with (R389). -/
theorem stored_begins {c : Chan} {e : Env} {i : ChanImg} {x : SpdInfo} (hheld : c.power.held = false)
    (hlim : i.setN i.bringSet ≤ c.maxRate e) (hv : (c.trim.set i.bringSet).valid = true) : ∃ p a,
    c.chooseForm e i x = { c with
      upk := { c.upk with park := p },
      bring := { c.bring with form := 1, setNow := i.bringSet, step := 1, first := true, verify := false, asleep := a } } := by
  unfold Chan.chooseForm
  dsimp only
  rw [if_neg (by simp [hheld]), if_neg (by omega), if_pos hv]
  exact stepBegin_one (c := { c with
    bring := { c.bring with form := 1, setNow := i.bringSet, step := 1, first := true, verify := false } }) rfl
    (show (1 : Nat) ≠ 2 by decide)

/-- Without a stored bring-up set the form is FULL (R391). -/
theorem full_begins {c : Chan} {e : Env} {i : ChanImg} {x : SpdInfo} (hheld : c.power.held = false)
    (hlim : i.setN i.bringSet ≤ c.maxRate e) (hv : (c.trim.set i.bringSet).valid = false) :
    c.chooseForm e i x = c.startFull e i := by
  unfold Chan.chooseForm
  dsimp only
  rw [if_neg (by simp [hheld]), if_neg (by omega), if_neg (by simp [hv])]

/-- A bring-up set above the clamp ends the bring-up (R17, R391). -/
theorem chooseForm_above {c : Chan} {e : Env} {i : ChanImg} {x : SpdInfo} (hheld : c.power.held = false)
    (hlim : c.maxRate e < i.setN i.bringSet) : c.chooseForm e i x = c.bringFail 6 e := by
  unfold Chan.chooseForm
  dsimp only
  rw [if_neg (by simp [hheld]), if_pos hlim]

/-- What the SPD read leaves of a channel whose bring-up goes on: what the modules said, and the power state as it was. -/
structure Chan.Heard (c d : Chan) (i : ChanImg) (x : SpdInfo) : Prop where
  modMax : d.trim.modMax = x.maxN
  sb : d.sb = (heard c i x).sb
  tagv : d.bring.tagv = i.tagOf x.serial
  power : d.power = c.power

/-- The form that a bring-up takes: STORED with a valid bring-up set of the right tag, FULL otherwise (R388, R391). -/
theorem form_chosen {c : Chan} {e : Env} {i : ChanImg} {x : SpdInfo} (hheld : c.power.held = false)
    (hlim : i.setN i.bringSet ≤ (tagged c i x).maxRate e) : ∃ d, (tagged c i x).chooseForm e i x = d ∧ c.Heard d i x ∧
      ((c.trim.set i.bringSet).valid = true ∧ (c.trim.set i.bringSet).tagv = i.tagOf x.serial →
        d.bring.form = 1 ∧ d.bring.step = 1 ∧ d.bring.setNow = i.bringSet ∧
        ∀ y ∈ d.trim.sets, y.valid = true → y.tagv = i.tagOf x.serial) ∧
      (∀ a l, ((c.trim.set i.bringSet).valid = false ∨ (c.trim.set i.bringSet).tagv ≠ i.tagOf x.serial) →
        i.trainOrder ((tagged c i x).maxRate e) none = a :: l → d.bring.form = 0 ∧ d.bring.step = 1 ∧ d.bring.setNow = a ∧
        d.bring.todo = l ∧ d.trim.sets = List.replicate 4 Reset.trimSet) := by
  have hiff := tagged_set_valid c i x i.bringSet
  cases hv : ((tagged c i x).trim.set i.bringSet).valid with
  | true =>
    obtain ⟨hvalid, htag⟩ := hiff.mp hv
    obtain ⟨p, a, h⟩ := stored_begins (x := x) (c := tagged c i x) hheld hlim hv
    refine ⟨_, h, ⟨rfl, rfl, rfl, rfl⟩, fun _ => ⟨rfl, rfl, rfl, checkTags_tags _ _⟩, fun a l hno => ?_⟩
    rcases hno with hno | hno
    · simp [hvalid] at hno
    · exact absurd htag hno
  | false =>
    have hno : ¬((c.trim.set i.bringSet).valid = true ∧ (c.trim.set i.bringSet).tagv = i.tagOf x.serial) := by
      rw [← hiff, hv]; decide
    obtain ⟨htrim, hsb, hpower, htagv, horder⟩ := startFull_facts e i (tagged c i x)
    refine ⟨_, full_begins (x := x) hheld hlim hv, ⟨by rw [htrim]; rfl, hsb, htagv, hpower⟩, fun h => absurd h hno,
      fun a l _ ho => ?_⟩
    obtain ⟨p, q, h⟩ := horder a l ho
    rw [h]
    exact ⟨rfl, rfl, rfl, rfl, rfl⟩

/-! ### Training steps -/

theorem stepAfter_mem {s n : Nat} {l : List Nat} (h : stepAfter s l = some n) : s ∈ l ∧ n ∈ l.tail := by
  induction l with
  | nil => cases h
  | cons a l ih =>
    cases l with
    | nil => cases h
    | cons b l =>
      unfold stepAfter at h
      split at h
      · next ha =>
        cases h
        exact ⟨ha ▸ List.mem_cons_self, List.mem_cons_self⟩
      · exact ⟨List.mem_cons_of_mem _ (ih h).1, List.mem_cons_of_mem _ (ih h).2⟩

/-- Step 1 is the first step only, and step 2, of FULL form, leads to step 3 (R295). -/
theorem stepAfter_trainSteps {form s n : Nat} {mr first last : Bool} (h : stepAfter s (trainSteps form mr first last) = some n) :
    n ≠ 1 ∧ (s = 2 → form = 0 ∧ n = 3) := by
  obtain ⟨hs, hn⟩ := stepAfter_mem h
  refine ⟨?_, ?_⟩
  · rintro rfl
    revert hn
    unfold trainSteps
    cases mr <;> cases last <;> by_cases hf : form = 0 <;> cases first <;> simp [hf]
  · rintro rfl
    by_cases hf : form = 0 ∧ first = true
    · refine ⟨hf.1, ?_⟩
      unfold trainSteps at h
      rw [if_pos hf] at h
      exact (Option.some.inj h).symm
    · revert hs
      unfold trainSteps
      rw [if_neg hf]
      cases mr <;> cases last <;> by_cases hf : form = 0 <;> simp [hf]

/-- The channel with the latencies that the sequencer wrote, if it wrote any (R167). -/
def Chan.withLat (lat : Option Latencies) (c : Chan) : Chan :=
  match lat with
  | some l => c.setLat l
  | none => c

theorem Chan.withLat_eq (lat : Option Latencies) (c : Chan) : ∃ f x, c.withLat lat = { c with fab := f, err := x } := by
  cases lat <;> exact ⟨_, _, rfl⟩

theorem Chan.retrimFailed_withLat (lat : Option Latencies) (c : Chan) : (c.withLat lat).retrimFailed = c.retrimFailed := by
  obtain ⟨f, x, h⟩ := c.withLat_eq lat
  rw [h]
  rfl

/-- A channel in training: in a bring-up, past the SPD read and with steps left. -/
structure Chan.Training (c : Chan) (i : ChanImg) : Prop where
  img : c.img = some i
  bringing : c.bringing = true
  step : c.bring.step ≠ 0
  ready : c.bring.ready = false

theorem Chan.Training.waits {c : Chan} {i : ChanImg} (h : c.Training i) (hy : c.bringBusy = true) (r : StepResult) (e : Env) :
    c.trainStep r e = c := by
  unfold Chan.trainStep
  rw [h.img]
  exact if_pos (by simp [hy])

theorem Chan.Training.ok {c : Chan} {i : ChanImg} (h : c.Training i) (hy : c.bringBusy = false) (lat : Option Latencies) (e : Env) :
    c.trainStep (.ok lat) e =
      if c.retrimFailed then (c.withLat lat).startFull e i else (c.withLat lat).stepOk e i c.bring.tagv := by
  rw [trainStep_eq (.ok lat) h.img h.bringing h.step h.ready hy, ← c.retrimFailed_withLat lat]
  cases lat <;> rfl

theorem Chan.Training.failed {c : Chan} {i : ChanImg} (h : c.Training i) (hy : c.bringBusy = false) (sb : Sub) (r l : Nat) (e : Env) :
    c.trainStep (.failed sb r l) e = c.stepFail sb r l e i :=
  trainStep_eq (.failed sb r l) h.img h.bringing h.step h.ready hy

theorem Chan.retrimFailed_of_form {c : Chan} (h : c.bring.form ≠ 1) : c.retrimFailed = false := by
  simp [Chan.retrimFailed, h]

theorem Chan.retrimFailed_of_step {c : Chan} (h : c.bring.step ≠ 12) : c.retrimFailed = false := by
  simp [Chan.retrimFailed, h]

theorem Chan.stepEnd_bring (e : Env) (i : ChanImg) (c : Chan) : ∃ a, (c.stepEnd e i).bring = { c.bring with asleep := a } := by
  obtain ⟨tr, fb, bk, br, u, pn, sb, pw, a, h, -⟩ := c.stepEnd_eq e i
  exact ⟨a, by rw [h]⟩

theorem Chan.lastStep12_of_form {c : Chan} (i : ChanImg) (h : c.bring.form ≠ 2) :
    c.lastStep12 i = (c.bring.setNow == i.bringSet) := by
  simp [Chan.lastStep12, h]

/-- FULL and PRESERVE form: a step that passes leads to the next of its set (R295). -/
theorem stepOk_next {c : Chan} {e : Env} {i : ChanImg} {v n : Nat} (hf : c.bring.form ≠ 1)
    (h : stepAfter c.bring.step (trainSteps c.bring.form i.mr (c.bring.first || c.bring.step = 2) (c.lastStep12 i)) = some n) :
    ∃ x, c.stepOk e i v = ({ c.stepEnd e i with
      bring := { (c.stepEnd e i).bring with first := x, step := n } } : Chan).stepBegin i := by
  obtain ⟨a, ha⟩ := c.stepEnd_bring e i
  unfold Chan.stepOk
  dsimp only
  rw [ha, if_neg hf]
  by_cases hs : c.bring.step = 2
  · have hform : c.bring.form ≠ 2 := by rw [((stepAfter_trainSteps h).2 hs).1]; decide
    rw [Chan.lastStep12_of_form i hform] at h
    rw [if_pos hs, Chan.lastStep12_of_form i (by exact hform)]
    dsimp only
    rw [h]
    exact ⟨_, rfl⟩
  · have hlast : (c.stepEnd e i).lastStep12 i = c.lastStep12 i := by unfold Chan.lastStep12; rw [ha]
    rw [if_neg hs, hlast, ha]
    dsimp only
    rw [h]
    exact ⟨_, rfl⟩

/-- FULL and PRESERVE form: the last step that passes ends its set (R295). -/
theorem stepOk_last {c : Chan} {e : Env} {i : ChanImg} {v : Nat} (hf : c.bring.form ≠ 1) (hs : c.bring.step ≠ 2)
    (h : stepAfter c.bring.step (trainSteps c.bring.form i.mr c.bring.first (c.lastStep12 i)) = none) :
    c.stepOk e i v = (c.stepEnd e i).setDone e i v := by
  obtain ⟨a, ha⟩ := c.stepEnd_bring e i
  have hlast : (c.stepEnd e i).lastStep12 i = c.lastStep12 i := by unfold Chan.lastStep12; rw [ha]
  unfold Chan.stepOk
  dsimp only
  rw [ha, if_neg hf]
  dsimp only
  rw [if_neg hs, hlast, ha]
  dsimp only
  rw [show (c.bring.first || decide (c.bring.step = 2)) = c.bring.first by simp [hs], h]

/-- What a step that passes and is not its set's last leaves: the next step begun, with the effects of both (R295, R389). -/
theorem step_passes {c : Chan} {e : Env} {i : ChanImg} {v n : Nat} (hf : c.bring.form ≠ 1) (hv : c.bring.verify = false)
    (h : stepAfter c.bring.step (trainSteps c.bring.form i.mr (c.bring.first || c.bring.step = 2) (c.lastStep12 i)) = some n) :
    ∃ d, c.stepOk e i v = d ∧ d.bring.step = n ∧ d.bring.setNow = c.bring.setNow ∧ d.bring.ready = c.bring.ready ∧
      d.lane = c.lane ∧ d.rq = c.rq ∧ d.wq = c.wq ∧ d.fab.rl = c.fab.rl ∧ d.fab.wl = c.fab.wl ∧ d.err = c.err ∧
      (c.bring.step = 1 → d.trim.tsel = c.bring.setNow ∧ d.trim.nCur = i.setN c.bring.setNow ∧ d.fab.tset = c.bring.setNow) ∧
      (c.bring.step = 2 → d.power.initDone = true ∧ d.pins.hold = .driven ∧ d.sb.rcdN = i.setN c.bring.setNow) ∧
      (n = 2 → d.pins.hold = .resetLow ∧ d.sb.pmicOn = true) ∧
      (n = 12 → d.upk.pauses = c.upk.pauses ++ c.rankPairs.flatMap (c.patternPauses i)) := by
  obtain ⟨hn1, hs2⟩ := stepAfter_trainSteps h
  obtain ⟨x, hok⟩ := stepOk_next (e := e) (v := v) hf h
  obtain ⟨tr, fb, bk, br, u, pn, sb, pw, a, hend, -, hrl, hwl, hpauses, hone, htwo⟩ := c.stepEnd_eq e i
  rw [hend] at hok
  dsimp only at hok
  have hbegin := Chan.stepBegin_eq i { c with
    trim := tr, fab := fb, banks := bk, bridges := br, upk := u, pins := pn, sb := sb, power := pw,
    bring := { c.bring with asleep := a, first := x, step := n } } hv
  obtain ⟨pn', sb', u', a', hbegin, hlow, hkept, hpatterns⟩ := hbegin
  rw [hbegin] at hok
  refine ⟨_, hok, rfl, rfl, rfl, rfl, rfl, rfl, hrl, hwl, rfl, hone, fun hs => ?_, hlow, fun hn => ?_⟩
  · obtain ⟨hinit, hhold, hrcd⟩ := htwo hs hv
    have hn3 := (hs2 hs).2
    obtain ⟨hsb, hpins⟩ := hkept (by dsimp only; omega)
    exact ⟨hinit, (congrArg Pins.hold (hpins hn1)).trans hhold, (congrArg Sideband.rcdN hsb).trans hrcd⟩
  · rw [hpatterns, if_pos hn, hpauses]
    rfl

/-- Training goes on with the first set left. -/
theorem nextSet_cons {c : Chan} {e : Env} {i : ChanImg} {x : Nat} {l : List Nat} (h : c.bring.todo = x :: l) :
    ∃ pn sb u a, c.nextSet e i = { c with
      pins := pn, sb := sb, upk := u,
      bring := { c.bring with setNow := x, todo := l, step := 1, verify := false, asleep := a } } := by
  unfold Chan.nextSet
  rw [h]
  obtain ⟨pn, sb, u, a, hb, -⟩ := Chan.stepBegin_eq i
    { c with bring := { c.bring with setNow := x, todo := l, step := 1, verify := false } } rfl
  exact ⟨pn, sb, u, a, hb⟩

/-- Training is over when no set is left. -/
theorem nextSet_nil {c : Chan} {e : Env} {i : ChanImg} (h : c.bring.todo = []) :
    c.nextSet e i = c.bringReady (if (c.endSet e i).isSome then 1 else 5) := by
  unfold Chan.nextSet
  rw [h]

/-- What the end of a set leaves: its trained values stored under the tag `v`, and training gone on with the next set, or
over (R295). -/
structure Chan.SetStored (c d : Chan) (i : ChanImg) (v : Nat) : Prop where
  sets : d.trim.sets = updateAt c.bring.setNow (fun _ => trainedSet i c.bring.setNow v c.free) c.trim.sets
  free : d.free = c.free + 164
  done : c.bring.todo = [] → d.bring.ready = true
  further : ∀ x l, c.bring.todo = x :: l → d.bring.setNow = x ∧ d.bring.step = 1 ∧ d.bring.todo = l

theorem setDone_stores (c : Chan) (e : Env) (i : ChanImg) (v : Nat) : ∃ d, c.setDone e i v = d ∧ c.SetStored d i v := by
  cases htodo : c.bring.todo with
  | nil =>
    refine ⟨_, nextSet_nil (by exact htodo), rfl, rfl, fun _ => rfl, fun x l h => ?_⟩
    rw [htodo] at h
    cases h
  | cons y q =>
    obtain ⟨pn, sb, u, a, hnext⟩ := nextSet_cons (e := e) (i := i) (c := { c with
      trim := c.trim.modSet c.bring.setNow fun _ => trainedSet i c.bring.setNow v c.free, free := c.free + 164,
      bring := { c.bring with first := false } }) htodo
    refine ⟨_, hnext, rfl, rfl, fun h => ?_, fun x l h => ?_⟩
    · rw [htodo] at h
      cases h
    · obtain ⟨rfl, rfl⟩ := List.cons.inj (htodo.symm.trans h)
      exact ⟨rfl, rfl, rfl⟩

/-- The last step of a set, in FULL and PRESERVE form (R295). -/
theorem set_passes {c : Chan} {e : Env} {i : ChanImg} {v : Nat} (hf : c.bring.form ≠ 1) (hs : c.bring.step ≠ 2)
    (h : stepAfter c.bring.step (trainSteps c.bring.form i.mr c.bring.first (c.lastStep12 i)) = none) :
    ∃ d, c.stepOk e i v = d ∧ c.SetStored d i v := by
  obtain ⟨tr, fb, bk, br, u, pn, sb, pw, a, hend, hsets, -⟩ := c.stepEnd_eq e i
  obtain ⟨d, hd, ⟨hstored, hfree, hdone, hfurther⟩⟩ := setDone_stores (c.stepEnd e i) e i v
  rw [hend] at hstored hfree hdone hfurther
  exact ⟨d, (stepOk_last hf hs h).trans hd, hsets ▸ hstored, hfree, hdone, hfurther⟩

/-- FULL form begins with the first set of its order (R391). -/
theorem startFull_begins {c : Chan} {e : Env} {i : ChanImg} {a : Nat} {l : List Nat}
    (h : i.trainOrder (c.maxRate e) none = a :: l) : ∃ p q, c.startFull e i = { c with
      trim := { c.trim with sets := List.replicate 4 Reset.trimSet }, upk := { c.upk with park := p },
      bring := { c.bring with form := 0, setNow := a, todo := l, step := 1, verify := false, asleep := q } } := by
  obtain ⟨-, -, -, -, hbegins⟩ := startFull_facts e i c
  exact hbegins a l h

/-- A failure in FULL or PRESERVE form that ends the bring-up: TRAIN_FAIL, and the set is marked (R296, R390). -/
theorem stepFail_ends {c : Chan} (e : Env) {i : ChanImg} (sb : Sub) (r l : Nat) (hf : c.bring.form ≠ 1)
    (h : c.bring.form = 2 ∨ c.bring.setNow = i.bringSet) : c.stepFail sb r l e i = { c with
      evOut := c.evOut ++ [{
        loc := evTrainFail,
        info := packFields [(15, c.bring.step), (14, sb.num), (11, r % 8), (7, l % 16), (5, c.bring.setNow)] }],
      trim := { c.trim with
        sets := updateAt c.bring.setNow (fun x => { x with valid := false, failed := true, entries := [] }) c.trim.sets },
      upk := if c.bring.form = 2 ∧ c.someAwake = true then { c.upk with park := true } else c.upk,
      bring := { c.bring with ready := true, outcome := 5, todo := [] } } := by
  unfold Chan.stepFail
  dsimp only
  rw [if_neg hf]
  by_cases h2 : c.bring.form = 2
  · rw [if_pos (by exact h2)]
    by_cases ha : c.someAwake = true
    · rw [if_pos (by exact ha), if_pos ⟨h2, ha⟩]
      rfl
    · rw [if_neg (by exact ha), if_neg fun g => ha g.2]
      rfl
  · rw [if_neg (by exact h2), if_pos (h.resolve_left h2), if_neg fun g => h2 g.1]
    rfl

/-- STORED form: after the check of step 2 the patterns are written (R389). -/
theorem stored_check {c : Chan} {e : Env} {i : ChanImg} {v : Nat} (hf : c.bring.form = 1) (hs : c.bring.step = 2)
    (hv : c.bring.verify = true) : c.stepOk e i v = { c with
      upk := { c.upk with wake := false, pauses := c.upk.pauses ++ c.rankPairs.flatMap (c.patternPauses i) },
      bring := { c.bring with step := 12, verify := false } } := by
  have hend : c.stepEnd e i = { c with upk := { c.upk with wake := false } } := by
    simp [Chan.stepEnd, hs, hv]
  unfold Chan.stepOk Chan.storedNext
  dsimp only
  rw [hend, if_pos (by exact hf), if_neg (by simp [hs]), if_neg (by simp [hs]), if_neg (by simp [hv])]
  rfl

/-- STORED form: the widened retrim, passed, ends the training (R389). -/
theorem stored_ends {c : Chan} {e : Env} {i : ChanImg} {v : Nat} (hf : c.bring.form = 1) (hs : c.bring.step = 12)
    (hv : c.bring.verify = true) : c.stepOk e i v = { c with
      upk := { c.upk with wake := false }, bring := { c.bring with ready := true, outcome := 1, todo := [] } } := by
  have hend : c.stepEnd e i = { c with upk := { c.upk with wake := false } } := by
    simp [Chan.stepEnd, hs]
  unfold Chan.stepOk Chan.storedNext
  dsimp only
  rw [hend, if_pos (by exact hf), if_pos ⟨hs, hv⟩]

/-! ### The end of a bring-up -/

theorem bringEnd_waits {c : Chan} {e : Env} (lat : Latencies) (rfm : RfmInfo) (hy : c.bringBusy = true) :
    c.bringEnd lat rfm e = c := by
  unfold Chan.bringEnd
  split
  · exact if_pos (by simp [hy])
  · rfl

/-- What the end of training leaves of the channel: its end set in force, the request at the set's rate within the clamp, and
the latencies (R302, R391, R393). -/
theorem atEnd_eq (c : Chan) (e : Env) (i : ChanImg) (n : Nat) (lat : Latencies) (rfm : RfmInfo) :
    ∃ k fb bk br er u b, atEnd c e i n lat rfm = { c with
      trim := { c.trim with tsel := n, nCur := k, reqN := clampTo 24 (c.maxRate e) (i.setN n), noset := false },
      fab := fb, banks := bk, bridges := br, err := er, upk := u, bring := b, power := { c.power with initDone := true } } ∧
    fb.rl = lat.rl % 256 ∧ fb.wl = lat.wl % 256 ∧ b.done = true ∧ b.result = 1 ∧ b.tset = n ∧
    (n ≠ c.trim.tsel → k = i.setN n ∧ fb.tset = n ∧ fb.hist = [] ∧ fb.audHist = []) ∧
    (n = c.trim.tsel → k = c.trim.nCur ∧ fb.tset = c.fab.tset) := by
  unfold atEnd
  by_cases h : n = c.trim.tsel
  · subst h
    rw [if_pos rfl]
    exact ⟨_, _, _, _, _, _, _, rfl, rfl, rfl, rfl, rfl, rfl, fun g => absurd rfl g, fun _ => ⟨rfl, rfl⟩⟩
  · rw [if_neg h]
    exact ⟨_, _, _, _, _, _, _, rfl, rfl, rfl, rfl, rfl, rfl, fun _ => ⟨rfl, rfl, rfl, rfl⟩, fun g => absurd g h⟩

/-- A bring-up that succeeded enters Flight (R302, R393). -/
theorem atEnd_flies {c : Chan} {e : Env} {i : ChanImg} {t : Trans} {n : Nat} (lat : Latencies) (rfm : RfmInfo)
    (hp : c.power.pend = none) (hbest : c.trim.bestSet (clampTo 24 (c.maxRate e) (i.setN n)) = some n)
    (hshift : c.trim.shift = none) (hw : c.lane.wake = []) (hfrm : t.frm = .grounded) (htgt : t.req.tgt = .flight) :
    ∃ d, (atEnd c e i n lat rfm).enterFlight t false e = d ∧ d.power.cur = .flight ∧ d.power.trans = none ∧
      d.power.held = false ∧ d.power.kept = false ∧ d.pins.hold = .driven ∧ d.bring.done = true ∧ d.bring.result = 1 ∧
      d.bring.tset = n ∧ d.trim.tsel = n ∧ d.trim.reqN = clampTo 24 (c.maxRate e) (i.setN n) ∧
      (n ≠ c.trim.tsel → d.trim.nCur = i.setN n ∧ d.fab.tset = n ∧ d.fab.hist = [] ∧ d.fab.audHist = []) ∧
      (n = c.trim.tsel → d.trim.nCur = c.trim.nCur ∧ d.fab.tset = c.fab.tset) ∧ d.fab.rl = lat.rl % 256 ∧
      d.fab.wl = lat.wl % 256 ∧ d.lane.crstDue = true ∧ d.bal.eff = 850 ∧ d.upk.flightAt = e.now ∧
      { loc := evStateDone, info := packFields [(16, t.src % 8), (14, 3), (12, PState.flight.num), (11, 0)] } ∈ d.evOut := by
  obtain ⟨k, fb, bk, br, er, u, b, h, hrl, hwl, hdone, hresult, htset, hnew, hsame⟩ := atEnd_eq c e i n lat rfm
  obtain ⟨u', bal, th, sb, hf, hat, heff⟩ := enterFlight_facts (c := atEnd c e i n lat rfm) (e := e) (n := n)
    (by rw [h]; exact hw) hfrm htgt (by rw [h]; exact hp) (by rw [h]; exact hbest) (by rw [h]) (by rw [h]; exact hshift)
  rw [hf, h]
  exact ⟨_, rfl, rfl, rfl, rfl, rfl, rfl, hdone, hresult, htset, rfl, rfl, hnew, hsame, hrl, hwl, rfl, heff, hat,
    List.mem_append_right _ (List.mem_singleton.mpr rfl)⟩

/-- Settles O49: the SPD read by the form it chooses, a training step by its form and its outcome, and the end by the set that
the bring-up ends at. -/
theorem bringUpRuns : Obligations.BringUpRuns := by
  refine ⟨?_, ?_, ?_⟩
  · rintro s ch _ i t rfl hi ht hph hp hs hr
    have hb := bringing_of ht hph
    have hread := fun x => spdDone_some (e := s.env) (x := x) hi hb hs hr
    refine ⟨⟨_, onCh (spdDone_none hi hb hs hr), bringFail_down 2 ht hp⟩, ?_⟩
    rintro x _ rfl
    refine ⟨fun hu => ?_, fun hu hm => ?_, fun hu hm hheld hlim => ?_, fun hu hm hheld hlim => ?_⟩
    · exact ⟨_, onCh ((hread x).trans (if_pos hu)), heard_down i x 3 ht hp⟩
    · exact ⟨_, onCh ((hread x).trans ((if_neg (by simp [hu])).trans (if_pos hm))), heard_down i x 4 ht hp⟩
    · have hgo := (hread x).trans ((if_neg (by simp [hu])).trans (if_neg (by simp [hm])))
      exact ⟨_, onCh (hgo.trans (chooseForm_above (c := tagged (s.chan ch) i x) hheld hlim)), tagged_down i x 6 ht hp⟩
    · have hgo := (hread x).trans ((if_neg (by simp [hu])).trans (if_neg (by simp [hm])))
      obtain ⟨d, hd, ⟨hmax, hsb, htag, hpower⟩, hstored, hfull⟩ := form_chosen (e := s.env) (x := x) hheld hlim
      refine ⟨d, onCh (hgo.trans hd), hmax, ?_, ?_, ?_, ?_, htag, hpower, hstored, hfull⟩ <;> rw [hsb] <;> rfl
  · rintro s ch _ b i t lat rfl hi ht hph hs hr hb
    obtain rfl : b = (s.chan ch).withLat lat := by cases lat <;> exact hb
    have htrain : (s.chan ch).Training i := ⟨hi, bringing_of ht hph, hs, hr⟩
    refine ⟨fun r hy => onCh (htrain.waits hy r s.env), fun hy => ?_⟩
    have hok := htrain.ok hy lat s.env
    have hfail := fun sb r l => htrain.failed hy sb r l s.env
    obtain ⟨f, x, hlat⟩ := (s.chan ch).withLat_eq lat
    rw [hlat] at hok ⊢
    have hpass := fun h : (s.chan ch).retrimFailed = false => hok.trans (if_neg (by rw [h]; decide))
    refine ⟨fun n hf hv hn => ?_, fun hf h1 h2 hn => ?_, fun sb r l hf hset => ?_, fun r k a q hf hcase ho => ?_,
      fun hf h2 hv => ?_, fun hf h12 hv hret => ?_⟩
    · obtain ⟨d, hd, hstep, hset, hready, hfacts⟩ := step_passes (c := { s.chan ch with fab := f, err := x })
        (e := s.env) (v := (s.chan ch).bring.tagv) hf hv hn
      exact ⟨d, onCh ((hpass (Chan.retrimFailed_of_form hf)).trans hd), hstep, hset, hready.trans hr, hfacts⟩
    · obtain ⟨d, hd, ⟨hsets, hfree, hdone, hfurther⟩⟩ := set_passes (c := { s.chan ch with fab := f, err := x })
        (e := s.env) (v := (s.chan ch).bring.tagv) hf h2 hn
      exact ⟨d, onCh ((hpass (Chan.retrimFailed_of_form hf)).trans hd), hsets, hfree, hdone, hfurther⟩
    · exact onCh ((hfail sb r l).trans (stepFail_ends s.env sb r l hf hset))
    · rcases hcase with ⟨rfl, rfl, hret⟩ | ⟨sb, r, l, rfl, rfl⟩
      · obtain ⟨p, y, h⟩ := startFull_begins (c := { s.chan ch with fab := f, err := x }) ho
        exact ⟨p, y, onCh ((hok.trans (if_pos hret)).trans h)⟩
      · obtain ⟨p, y, h⟩ := startFull_begins ho
        exact ⟨p, y, onCh (((hfail sb r l).trans (if_pos hf)).trans h)⟩
    · have hstep := stored_check (c := { s.chan ch with fab := f, err := x }) (e := s.env) (i := i)
        (v := (s.chan ch).bring.tagv) hf h2 hv
      exact onCh ((hpass (Chan.retrimFailed_of_step (by omega))).trans hstep)
    · have hstep := stored_ends (c := { s.chan ch with fab := f, err := x }) (e := s.env) (i := i)
        (v := (s.chan ch).bring.tagv) hf h12 hv
      exact onCh ((hpass hret).trans hstep)
  · rintro s ch _ i t lat rfm rfl hi ht hph hp hr
    have hb := bringing_of ht hph
    refine ⟨fun hy => onCh (bringEnd_waits lat rfm hy), fun hy ho => ?_, ?_⟩
    · exact ⟨_, onCh (bringEnd_eq lat rfm hi ht hb hr hy ho), bringFail_down _ ht hp⟩
    · rintro n _ hy ho hend rfl hbest hshift hw hfrm htgt
      obtain ⟨d, hd, hfacts⟩ := atEnd_flies lat rfm hp hbest hshift hw hfrm htgt
      exact ⟨d, onCh ((bringEnd_ok lat rfm hi ht hb hr hy ho hend).trans hd), hfacts⟩

end Sys2Proof.Machine

/-! One step of the block, and what the command of one channel reaches. -/
namespace Sys2Proof.Machine

/-- Settles O1: both cases are the equations of `step`. -/
theorem stepRunsTheFrontCommand : Obligations.StepRunsTheFrontCommand := by
  refine ⟨fun s c cs h => ?_, fun s h => ?_⟩
  · rw [step, h]
  · rw [step, h]

/-- Settles O2: an idle cycle by its definition, and a command by what every command keeps. -/
theorem stepTakesOneCommand : Obligations.StepTakesOneCommand := by
  intro s t h
  cases hp : s.pending with
  | nil =>
    rw [stepRunsTheFrontCommand.2 s hp] at h
    obtain rfl := Host.Outcome.next.inj h
    exact .inl ⟨rfl, hp, rfl⟩
  | cons c cs =>
    rw [stepRunsTheFrontCommand.1 s c cs hp] at h
    have hkept := exec_holds h
    exact .inr ⟨⟨c, by rw [hkept.pending]⟩, hkept.now⟩

/-! ### The channel of a command -/

/-- What a command leaves of its channel hangs on that channel, and on what it sees of the common, alone (R22). -/
theorem exec_channel_chan {i : Instr} {ch : ChanId} (h : channelOf i = some ch) :
    ∃ f : Env → Chan → Chan, ∀ s, ∃ t, exec i s = .next t ∧ t.chan ch = f s.env (s.chan ch) := by
  rcases exec_channel h with ⟨f, hf⟩ | rfl
  · exact ⟨fun e c => { (f e c).gatherOcc with evOut := [], occ := [] }, fun s => ⟨_, hf s, commitChan_chan s ch _⟩⟩
  · refine ⟨fun e c => { (c.hclkEdge e).gatherOcc with evOut := [], occ := [] }, fun s => ⟨_, rfl, ?_⟩⟩
    have hedge := commitChan_chan s ch ((s.chan ch).hclkEdge s.env)
    by_cases h0 : ch = 0
    · rw [if_pos h0]
      exact hedge
    · rw [if_neg h0]
      exact hedge

/-- Settles O9: the two runs store the same function of the same channel and the same surroundings. -/
theorem channelsDoNotSeeEachOther : Obligations.ChannelsDoNotSeeEachOther := by
  intro i ch s u hi hchan henv
  obtain ⟨f, hf⟩ := exec_channel_chan hi
  obtain ⟨t, ht, hs⟩ := hf s
  obtain ⟨v, hv, hu⟩ := hf u
  exact ⟨t, v, ht, hv, by rw [hs, hu, hchan, henv]⟩

/-- The HCLK edge of lane 0 also ends the response of the management lane and is counted (R112, R377). -/
theorem hclkEdge_zero_outside {s : State} (h : s.mgt.repair ≠ some 0) :
    ∃ t, exec (.responseSend 0) s = .next t ∧ SameOutside 0 { s with mgt := { s.mgt with rspV := false } } t := by
  refine ⟨_, congrArg Host.Outcome.next (if_pos rfl), ?_⟩
  have hout : SameOutside 0 s (s.onChan 0 Chan.hclkEdge) := (State.commitChan_became h).1
  generalize s.onChan 0 Chan.hclkEdge = t at hout ⊢
  obtain ⟨hchans, hpend, himg, hload, hlvl, hwide, hmgt, hrest⟩ := hout
  exact ⟨hchans, hpend, himg, hload, hlvl, hwide, by rw [← hmgt]; rfl, hrest⟩

/-- Settles O8: every command of a channel stores that channel, and the HCLK edge of lane 0 is the one that does more. -/
theorem channelCommandsStayInside : Obligations.ChannelCommandsStayInside := by
  intro i ch s hi hrep
  by_cases h0 : i = .responseSend 0
  · subst h0
    obtain rfl : 0 = ch := Option.some.inj hi
    rw [if_pos rfl]
    exact hclkEdge_zero_outside hrep
  · rw [if_neg h0]
    rcases exec_channel hi with ⟨f, hf⟩ | rfl
    · exact ⟨_, hf s, (State.commitChan_became hrep).1⟩
    · have hne : ch ≠ 0 := fun h => h0 (congrArg Instr.responseSend h)
      exact ⟨_, congrArg Host.Outcome.next (if_neg hne), (State.commitChan_became hrep).1⟩

/-! ### Storing a channel -/

/-- With no occurrence, storing a channel stores it and raises its events (R359). -/
theorem commitChan_of_occ_nil {s : State} {ch : ChanId} {c : Chan} (h : s.mgt.repair ≠ some ch) (ho : c.occ = []) :
    s.commitChan ch c =
      c.events.foldl (fun t e => t.raiseChan ch e.loc e.info) (s.setChan ch { c with evOut := [] }) := by
  have hmgt := (raiseAll_same ch c.events (s.setChan ch { c with evOut := [] })).2.2.2.2.2.2.1
  have hstored : ({ c with evOut := [], occ := [] } : Chan) = { c with evOut := [] } := by rw [← ho]
  unfold State.commitChan
  rw [gatherBlk_nil ho, Chan.gatherOcc_nil ho, hstored]
  exact State.repairDone_of_ne (by rw [hmgt]; exact h)

theorem commitChan_quiet {s : State} {ch : ChanId} {c : Chan} (h : s.mgt.repair ≠ some ch) (hq : c.Quiet) :
    s.commitChan ch c = s.setChan ch c := by
  obtain ⟨hev, hocc⟩ := hq
  have hstored : ({ c with evOut := [] } : Chan) = c := by rw [← hev]
  rw [commitChan_of_occ_nil h hocc, Chan.events_nil hev, hstored]
  rfl

theorem Chan.events_one {c : Chan} {e : EvReq} (h : c.evOut = [e]) : c.events = [e] := by
  unfold Chan.events
  rw [h]
  rfl

/-- Settles O10: what storing changes, with the two special cases of no event and of one. -/
theorem storedChannelsReport : Obligations.StoredChannelsReport := by
  intro s ch c hrep
  refine ⟨State.commitChan_became hrep, commitChan_quiet hrep, fun hocc e he => ?_⟩
  rw [commitChan_of_occ_nil hrep hocc, Chan.events_one he]
  rfl

end Sys2Proof.Machine

/-! The end of a commit: the image is refused, or in force in the common and in every channel. -/
namespace Sys2Proof.Machine

/-! ### The rate limit of a channel (R17) -/

/-- Of the common, the greatest rate of a channel looks at the levels alone. -/
theorem maxRate_of_lvl {s t : State} (h : t.lvl = s.lvl) (c : Chan) : c.maxRate t.env = c.maxRate s.env := by
  have hmr : t.env.clampMr = s.env.clampMr := congrArg Levels.clampMr h
  have hrd : t.env.clampRd = s.env.clampRd := congrArg Levels.clampRd h
  unfold Chan.maxRate
  rw [hmr, hrd]

/-- A commit leaves the requested rate to the clamp that follows it. -/
theorem commitImg_reqN (e : Env) (c : Chan) (i : Option ChanImg) : (c.commitImg e i).trim.reqN = c.trim.reqN := by
  unfold Chan.commitImg Chan.loadLive Chan.loadImg
  cases i <;> rfl

/-! ### The image in force (R51 to R53) -/

/-- What taking the image leaves of a channel. -/
theorem takeImage_keeps (n : Nat) (s : State) (ch : ChanId) :
    ((s.takeImage n).chan ch).img = (if s.loader.enabled ch.val then some (s.loader.chanImg ch.val) else none) ∧
    ((s.takeImage n).chan ch).evOut = (s.chan ch).evOut ∧ ((s.takeImage n).chan ch).occ = (s.chan ch).occ ∧
    ((s.takeImage n).chan ch).power.pend = (s.chan ch).power.pend ∧
    ((s.takeImage n).chan ch).power.cur = (s.chan ch).power.cur ∧ ((s.takeImage n).chan ch).lane = (s.chan ch).lane ∧
    ((s.takeImage n).chan ch).loft.on = false ∧ ((s.takeImage n).chan ch).th.enable = false := by
  rw [State.takeImage_chan]
  exact commitImg_keeps ({ s with img := some (s.loader.blkImg n) } : State).env (s.chan ch) _

/-- Every requested rate is within the limits of the new image (R17). -/
theorem takeImage_reqN (n : Nat) (s : State) (ch : ChanId) : ((s.takeImage n).chan ch).trim.reqN =
    clampTo 24 (((s.takeImage n).chan ch).maxRate (s.takeImage n).env) (s.chan ch).trim.reqN := by
  rw [State.takeImage_chan]
  exact congrArg (clampTo 24 _) (commitImg_reqN _ (s.chan ch) _)

theorem takeImage_noneWaits {s : State} (h : s.NoneWaits) (n : Nat) : (s.takeImage n).NoneWaits := by
  intro ch
  obtain ⟨⟨hev, hocc, hrep⟩, hpend⟩ := h ch
  obtain ⟨-, hev', hocc', hpend', -⟩ := takeImage_keeps n s ch
  exact ⟨⟨hev'.trans hev, hocc'.trans hocc, hrep⟩, hpend'.trans hpend⟩

/-- TRUSS_DONE changes nothing but the event queue and the block's counters (R357). -/
theorem trussDone_same (was : LoadState) (s : State) : SameButEv s (s.trussDone was) := by
  unfold State.trussDone
  split
  · exact State.raiseBlk_same s _ _ _
  · split
    · exact State.raiseBlk_same s _ _ _
    · exact .refl s

/-! ### The two ends of a commit -/

/-- A commit fault refuses the load (R50, R52). -/
theorem commitEnd_refused {s : State} {n : Nat} {p : List Nat} {f : TFault} (hst : s.loader.st = .committing)
    (hw : s.NoneWaits) (hf : s.loader.commitFault n p = some f) :
    s.commitEnd n p = ({ s with loader := s.loader.refuse f } : State).raiseBlk 0x07B 0 f.1 := by
  unfold State.commitEnd
  rw [if_neg (by simp [hst]), hf]
  exact (withLoader_eq hw _).trans (trussDone_refused (by simp [hst]) rfl)

/-- Without a fault the image takes force, and the loader is COMMITTED (R51). -/
theorem commitEnd_passes {s : State} {n : Nat} {p : List Nat} (hst : s.loader.st = .committing) (hw : s.NoneWaits)
    (hf : s.loader.commitFault n p = none) :
    SameButEv { s.takeImage (s.loader.phase p) with loader := { s.loader with st := .committed, sects := [], cur := none } }
      (s.commitEnd n p) := by
  unfold State.commitEnd
  rw [if_neg (by simp [hst]), hf]
  dsimp only
  rw [withLoader_eq (takeImage_noneWaits hw _)]
  exact trussDone_same _ _

/-- With no transaction held, the end of a commit is all that COMMIT_COMPLETE does (R400). -/
theorem commitComplete_to {s t : State} {n x : Nat} {xs : List Nat} (h : s.commitEnd n (x :: xs) = t)
    (hm : t.mgt.held = none) : exec (.commitComplete n x xs) s = .next t := by
  subst h
  exact congrArg Host.Outcome.next (mgtRetry_none hm)

/-- Settles O13: the two ends of a commit, and what taking the image leaves of every channel. -/
theorem commitPassesOrIsRefused : Obligations.CommitPassesOrIsRefused := by
  rintro s _ n x xs _ rfl rfl hst hw hm
  refine ⟨fun f hf => ?_, fun hf => ?_⟩
  · have hsame := State.raiseBlk_same ({ s with loader := s.loader.refuse f } : State) 0x07B 0 f.1
    obtain ⟨-, -, -, -, -, -, hmgt, -⟩ := hsame
    exact commitComplete_to (commitEnd_refused hst hw hf) ((congrArg Mgt.held hmgt).trans hm)
  · have hsame := commitEnd_passes hst hw hf
    obtain ⟨-, -, himg, hload, hlvl, -, hmgt, -⟩ := id hsame
    refine ⟨_, commitComplete_to rfl ((congrArg Mgt.held hmgt).trans hm), himg, hload, fun ch => ?_,
      (congrArg Levels.cur hlvl).trans rfl, (congrArg Levels.timeout hlvl).trans rfl⟩
    obtain ⟨hci, -, -, -, hcur, hlane, hloft, hth⟩ := takeImage_keeps (s.loader.phase (x :: xs)) s ch
    rw [hsame.chan ch, maxRate_of_lvl hlvl]
    exact ⟨hci, hcur, hloft, hth, hlane, takeImage_reqN _ s ch⟩

end Sys2Proof.Machine

/-! A KCLK of the scheduler: what planning moves in the tail, and what it leaves alone. -/
namespace Sys2Proof.Machine

/-- What follows of itself before a KCLK plans: pauses and transitions, reads that wait, tokens, and the direction. -/
def Chan.prepared (e : Env) (c : Chan) : Chan := (((c.settlePauses e).settleTrans).serveWaiting 2).refill.directAll

theorem prepared_pl (e : Env) (c : Chan) : Pl c (c.prepared e) :=
  ((((settlePauses_pl e c).trans (settleTrans_pl _)).trans (serveWaiting_fr _ 2).pl).trans (refill_fr _).pl).trans
    (directAll_fr _).pl

/-- A memory clear goes on in the queues, not in the tail (R263). -/
theorem clears_fr (c : Chan) : Fr c (if c.plansHost then ((c.clearStep .a).clearStep .b).clearStore else c) := by
  split
  · exact ((clearStep_fr .a c).trans (clearStep_fr .b _)).trans (clearStore_fr _)
  · exact .refl c

/-- The occurrences of a KCLK, the idle timers and the ages leave the tail (R123, R376). -/
theorem aged_fr (e : Env) (c : Chan) : Fr c (c.kclkOccs.noteIdle e).ageUp := (kclkOccs_fr c).trans rfl

/-- A KCLK of planning is planning and a step of KCLK (R24, R129). -/
theorem plan_pl {c : Chan} (e : Env) (h : c.logicRuns = true) : ∃ d, Pl c d ∧ c.plan e = { d with kclk := d.kclk + 1 } := by
  refine ⟨_, ?_, if_neg (by simp [h])⟩
  refine Pl.trans ?_ (aged_fr e _).pl
  refine Pl.trans ?_ (planSub_pl e .b _)
  refine Pl.trans ?_ (planSub_pl e .a _)
  exact (prepared_pl e c).trans (clears_fr _).pl

/-- Settles O29: planning by what it may do to the tail, and the clock on top. -/
theorem schedulerPlansTheTail : Obligations.SchedulerPlansTheTail := by
  rintro s ch _ rfl
  refine ⟨fun h => onCh (if_pos (by simp [h])), fun h => ?_⟩
  obtain ⟨d, hd, hplan⟩ := plan_pl s.env h
  exact ⟨_, onCh hplan, congrArg (· + 1) hd.kclk, hd.dclk, hd.img, hd.pins, hd.fab, hd.kept, hd.fresh⟩

end Sys2Proof.Machine

/-! A DCLK edge: the command that is committed, the commands that reach the pins, and the shadow audit of them. -/
namespace Sys2Proof.Machine

/-! ### What the audit does with the commands at the pins (R169 to R171) -/

/-- With the audit off, nothing is counted or found (R171). -/
theorem observes_off {c : Chan} (h : c.fab.auditEn = false) (l : List Cmd) : l.foldl Chan.observe c = c := by
  induction l with
  | nil => rfl
  | cons k l ih =>
    have hk : c.observe k = c := if_pos (by simp [h])
    rw [List.foldl_cons, hk, ih]

/-- With the audit on, a command enters the audit file; once the file is full, it is counted and checked (R169, R170). -/
theorem observe_on {c : Chan} (h : c.fab.auditEn = true) (k : Cmd) :
    (c.observe k).fab.audHist = (c.fab.audHist.filter fun (x : Cmd) => decide (c.dclk ≤ x.time + maxAge)) ++ [k] ∧
    (c.observe k).fab.auditCnt = (if c.fab.auditReady then c.fab.auditCnt + 1 else c.fab.auditCnt) ∧
    (c.observe k).fab.audFound = (if c.fab.auditReady then
      c.fab.audFound ++ ({ c with fab := c.fab.audHotNow c.dclk } : Chan).auditView.violations k else c.fab.audFound) := by
  unfold Chan.observe
  rw [if_neg (by simp [h])]
  dsimp only
  split
  · next hr =>
    change c.fab.auditReady = true at hr
    rw [if_pos hr, if_pos hr]
    exact ⟨rfl, rfl, rfl⟩
  · next hr =>
    change ¬c.fab.auditReady = true at hr
    rw [if_neg hr, if_neg hr]
    exact ⟨rfl, rfl, rfl⟩

/-- The audit's view hangs on the image and on the audit's own part of the fabric: commits do not show in it (R169). -/
theorem auditView_violations {c d : Chan} {n : Nat} {h : List Cmd} {l : List Hold} (hi : d.img = c.img)
    (hf : d.fab = { c.fab with hist := h, holds := l }) (hn : d.dclk = n) (k : Cmd) :
    ({ d with fab := d.fab.audHotNow d.dclk } : Chan).auditView.violations k =
      ({ c with dclk := n, fab := c.fab.audHotNow n } : Chan).auditView.violations k := by
  subst hn
  refine Chan.violations_congr ?_ ?_ ?_ k
  · exact hi
  · rw [hf]
    rfl
  · rw [hf]
    rfl

/-! ### The stages of an edge (R130) -/

/-- The clocks of an edge. -/
def Chan.ticked (c : Chan) : Chan :=
  { c with dclk := c.dclk + 1, bal := { c.bal with dclkCnt := c.bal.dclkCnt + 1 } }

/-- The commands that reach the committed position at the next edge, and those that reach the pins. -/
def Chan.committing (c : Chan) : List Cmd := c.tail.filter fun k => decide (k.time = c.dclk + 4)
def Chan.leaving (c : Chan) : List Cmd := c.tail.filter fun k => decide (k.time ≤ c.dclk + 1)

/-- The channel with its leaving commands driven at the pins and seen by the audit. -/
def Chan.shown (c : Chan) (l : List Cmd) : Chan := l.foldl Chan.observe (l.foldl Chan.drive c)

/-- What the commands at the pins leave alone. -/
theorem shown_keeps (c : Chan) (l : List Cmd) : (c.shown l).img = c.img ∧ (c.shown l).dclk = c.dclk ∧
    (c.shown l).kclk = c.kclk ∧ (c.shown l).tail = c.tail ∧ (c.shown l).bal.dclkCnt = c.bal.dclkCnt ∧
    (c.shown l).fab.hist = c.fab.hist ∧ (c.shown l).pins = (l.foldl Chan.drive c).pins := by
  obtain ⟨hd, -⟩ := drives_dr l c
  have ho := observes_same l (l.foldl Chan.drive c)
  simp only [Prod.mk.injEq] at ho
  obtain ⟨himg, hdclk, hkclk, hpins, htail, hbal, hhist⟩ := ho
  exact ⟨himg.trans hd.img, hdclk.trans hd.dclk, hkclk.trans hd.kclk, htail.trans hd.tail,
    (congrArg Ballast.dclkCnt hbal).trans hd.cnt, hhist.trans (congrArg Fabric.hist hd.fab), hpins⟩

/-- The channel once an edge has committed what reaches position 3. -/
def Chan.afterCommits (e : Env) (c : Chan) : Chan := c.committing.foldl (fun c k => c.commitCmd e k) c.ticked

theorem afterCommits_cm (e : Env) (c : Chan) : Cm c.ticked c.committing (c.afterCommits e) := commits_cm e c.committing c.ticked

/-- An edge commits, shows the leaving commands, and shifts the tail (R130). -/
theorem shiftTail_stages {c : Chan} (e : Env) (h : c.logicRuns = true ∨ c.tail ≠ []) :
    Fr { (c.afterCommits e).shown c.leaving with tail := c.tail.filter fun k => decide (c.dclk + 1 < k.time) }
      (c.shiftTail e) := by
  have hm := afterCommits_cm e c
  obtain ⟨-, hdclk, -, htail, -⟩ := shown_keeps (c.afterCommits e) c.leaving
  have hrun : ¬(!c.logicRuns && c.tail.isEmpty) = true := by
    rcases h with h | h <;> simp [h]
  have hleave : ((c.afterCommits e).tail.filter fun k => decide (k.time ≤ (c.afterCommits e).dclk)) = c.leaving := by
    rw [hm.tail, hm.dclk]
    rfl
  have hstep : c.shiftTail e = (((({ (c.afterCommits e).shown c.leaving with
      tail := ((c.afterCommits e).shown c.leaving).tail.filter fun k =>
        decide (((c.afterCommits e).shown c.leaving).dclk < k.time) } : Chan).busDclk .a).busDclk .b).directAll) := by
    rw [← hleave]
    exact if_neg hrun
  rw [hstep, hdclk, htail, hm.dclk, hm.tail]
  exact ((busDclk_fr .a _).trans (busDclk_fr .b _)).trans (directAll_fr _)

/-! ### What an edge leaves (R24, R130, R164) -/

/-- The clocks, the image and the tail after an edge. -/
theorem shiftTail_clocks {c : Chan} (e : Env) (h : c.logicRuns = true ∨ c.tail ≠ []) :
    (c.shiftTail e).dclk = c.dclk + 1 ∧ (c.shiftTail e).kclk = c.kclk ∧ (c.shiftTail e).img = c.img ∧
    (c.shiftTail e).bal.dclkCnt = c.bal.dclkCnt + 1 ∧
    (c.shiftTail e).tail = c.tail.filter fun k => decide (c.dclk + 1 < k.time) := by
  have hf := shiftTail_stages e h
  have hm := afterCommits_cm e c
  obtain ⟨himg, hdclk, hkclk, -, hcnt, -⟩ := shown_keeps (c.afterCommits e) c.leaving
  exact ⟨hf.dclk.trans (hdclk.trans hm.dclk), hf.kclk.trans (hkclk.trans hm.kclk), hf.img.trans (himg.trans hm.img),
    hf.cnt.trans (hcnt.trans hm.cnt), hf.tail⟩

/-- The fabric after an edge is that of the commits and of the audit. -/
theorem shiftTail_fab {c : Chan} (e : Env) (h : c.logicRuns = true ∨ c.tail ≠ []) :
    (c.shiftTail e).fab = ((c.afterCommits e).shown c.leaving).fab := (shiftTail_stages e h).fab

theorem mem_committing {c : Chan} {k : Cmd} : k ∈ c.committing ↔ k ∈ c.tail ∧ k.time = c.dclk + 4 := by
  simp [Chan.committing]

theorem mem_leaving {c : Chan} {k : Cmd} : k ∈ c.leaving ↔ k ∈ c.tail ∧ k.time ≤ c.dclk + 1 := by
  simp [Chan.leaving]

/-- The timestamp file takes the commands that an edge commits, and no other (R164). -/
theorem shiftTail_hist {c : Chan} (e : Env) (h : c.logicRuns = true ∨ c.tail ≠ []) :
    (∀ k ∈ c.tail, k.time = c.dclk + 4 → k ∈ (c.shiftTail e).fab.hist) ∧
    ∀ k ∈ (c.shiftTail e).fab.hist, k ∈ c.fab.hist ∨ (k ∈ c.tail ∧ k.time = c.dclk + 4) := by
  have hm := afterCommits_cm e c
  obtain ⟨-, -, -, -, -, hhist, -⟩ := shown_keeps (c.afterCommits e) c.leaving
  rw [shiftTail_fab e h, hhist]
  refine ⟨fun k hk ht => hm.put k (mem_committing.mpr ⟨hk, ht⟩) ?_, fun k hk => ?_⟩
  · show c.dclk + 1 ≤ k.time + maxAge
    omega
  · exact (hm.from' k hk).imp_right mem_committing.mp

/-- The pins after an edge are those after the leaving commands were driven. -/
theorem shiftTail_pins {c : Chan} (e : Env) (h : c.logicRuns = true ∨ c.tail ≠ []) :
    (c.shiftTail e).pins = (c.leaving.foldl Chan.drive (c.afterCommits e)).pins := by
  obtain ⟨-, -, -, -, -, -, hpins⟩ := shown_keeps (c.afterCommits e) c.leaving
  exact (shiftTail_stages e h).pins.trans hpins

/-- A subchannel with no command due keeps its pins. -/
theorem shiftTail_side {c : Chan} (e : Env) (h : c.logicRuns = true ∨ c.tail ≠ []) {s : Sub}
    (hs : ∀ k ∈ c.tail, k.bank.sub = s → c.dclk + 1 < k.time) : (c.shiftTail e).pins.side s = c.pins.side s := by
  rw [shiftTail_pins e h]
  refine ((drives_dr c.leaving (c.afterCommits e)).2 s fun k hk hks => ?_).trans
    (congrArg (Pins.side · s) (afterCommits_cm e c).pins)
  obtain ⟨hmem, hle⟩ := mem_leaving.mp hk
  have := hs k hmem hks
  omega

/-- The one command that leaves is driven at the pins of its subchannel (R130). -/
theorem shiftTail_drives {c : Chan} (e : Env) (h : c.logicRuns = true ∨ c.tail ≠ []) {k : Cmd} (hk : c.leaving = [k]) :
    ((c.shiftTail e).pins.side k.bank.sub).1 = some k := by
  rw [shiftTail_pins e h, hk]
  exact (drive_dr (c.afterCommits e) k).2.1

/-- The one command that leaves enters the audit file, and once the audit is ready it is counted and checked (R169, R170). -/
theorem shiftTail_audits {c : Chan} (e : Env) (h : c.logicRuns = true ∨ c.tail ≠ []) {k : Cmd} (hk : c.leaving = [k])
    (hen : c.fab.auditEn = true) :
    (c.shiftTail e).fab.audHist =
      (c.fab.audHist.filter fun (x : Cmd) => decide (c.dclk + 1 ≤ x.time + maxAge)) ++ [k] ∧
    (c.shiftTail e).fab.auditCnt = (if c.fab.auditReady then c.fab.auditCnt + 1 else c.fab.auditCnt) ∧
    (c.shiftTail e).fab.audFound = (if c.fab.auditReady then c.fab.audFound ++
      ({ c with dclk := c.dclk + 1, fab := c.fab.audHotNow (c.dclk + 1) } : Chan).auditView.violations k
      else c.fab.audFound) := by
  have hm := afterCommits_cm e c
  have hd := (drive_dr (c.afterCommits e) k).1
  have hfab := hd.fab.trans hm.rest
  have hdclk : ((c.afterCommits e).drive k).dclk = c.dclk + 1 := hd.dclk.trans hm.dclk
  have hshown : (c.shiftTail e).fab = (((c.afterCommits e).drive k).observe k).fab := by
    rw [shiftTail_fab e h, hk]
    rfl
  obtain ⟨hhist, hcnt, hfound⟩ := observe_on (c := (c.afterCommits e).drive k) (by rw [hfab]; exact hen) k
  rw [auditView_violations (hd.img.trans hm.img) hfab hdclk] at hfound
  rw [hfab] at hhist hcnt hfound
  rw [hdclk] at hhist
  rw [hshown]
  exact ⟨hhist, hcnt, hfound⟩

/-- With the audit off an edge counts and finds nothing (R171). -/
theorem shiftTail_audit_off {c : Chan} (e : Env) (h : c.logicRuns = true ∨ c.tail ≠ []) (hoff : c.fab.auditEn = false) :
    (c.shiftTail e).fab.audFound = c.fab.audFound ∧ (c.shiftTail e).fab.auditCnt = c.fab.auditCnt := by
  have hm := afterCommits_cm e c
  have hfab := (drives_dr c.leaving (c.afterCommits e)).1.fab.trans hm.rest
  have hseen := observes_off (c := c.leaving.foldl Chan.drive (c.afterCommits e)) (by rw [hfab]; exact hoff) c.leaving
  have hshown : (c.shiftTail e).fab = (c.leaving.foldl Chan.drive (c.afterCommits e)).fab :=
    (shiftTail_fab e h).trans (congrArg Chan.fab hseen)
  rw [hshown, hfab]
  exact ⟨rfl, rfl⟩

/-- Settles O30: the stages of an edge, by what each leaves of the clocks, the timestamp file, the pins and the audit. -/
theorem tailShiftsAndCommits : Obligations.TailShiftsAndCommits := by
  rintro s ch _ rfl
  refine ⟨fun hrun ht => onCh (if_pos (by simp [hrun, ht])), fun h => ⟨_, onCh rfl, ?_⟩⟩
  obtain ⟨hdclk, hkclk, himg, hcnt, htail⟩ := shiftTail_clocks s.env h
  obtain ⟨hput, hfrom⟩ := shiftTail_hist s.env h
  refine ⟨hdclk, hkclk, himg, hcnt, htail, hput, hfrom, fun hs => ?_, fun hs => ?_, fun k hk => ⟨?_, ?_⟩,
    shiftTail_audit_off s.env h⟩
  · simpa [Pins.side] using shiftTail_side s.env h hs
  · simpa [Pins.side] using shiftTail_side s.env h hs
  · have hca := shiftTail_drives s.env h hk
    unfold Pins.side at hca
    rwa [apply_ite Prod.fst] at hca
  · rintro _ rfl hen
    exact shiftTail_audits s.env h hk hen

end Sys2Proof.Machine

/-! A shift pause: QUIET, the new clock and the end (R304). -/
namespace Sys2Proof.Machine

/-! ### QUIET (R168) -/

theorem Chan.allSelfRef_iff (c : Chan) : c.allSelfRef = true ↔ ∀ x ∈ c.upk.ranks, x.selfRef = true := by
  simp [Chan.allSelfRef]

/-- QUIET stops CK once every rank is in self-refresh and the fabric is quiet. -/
theorem quietAssert_stops {c : Chan} (hs : c.trim.shift = some .prepare) (hr : ∀ x ∈ c.upk.ranks, x.selfRef = true)
    (hq : c.quiet = true) : c.quietAssert = { c with
      trim := { c.trim with shift := some .clocks, mrw := [] }, upk := { c.upk with park := false },
      pins := { c.pins with ck := false } } :=
  if_pos ⟨hs, c.allSelfRef_iff.mpr hr, hq⟩

/-- Before that it does nothing. -/
theorem quietAssert_waits {c : Chan}
    (h : c.trim.shift ≠ some .prepare ∨ c.quiet = false ∨ ∃ x ∈ c.upk.ranks, x.selfRef = false) : c.quietAssert = c := by
  refine if_neg ?_
  rintro ⟨hs, hr, hq⟩
  rcases h with h | h | ⟨x, hx, h⟩
  · exact h hs
  · simp [hq] at h
  · simp [c.allSelfRef_iff.mp hr x hx] at h

/-! ### The end of a shift pause (R304, R305) -/

theorem Chan.shiftReady_iff (c : Chan) : c.shiftReady = true ↔ c.trim.shift = some .restart ∧
    (∀ x ∈ c.upk.ranks, x.selfRef = false) ∧ c.tail = [] ∧ c.burstsOver = true := by
  simp [Chan.shiftReady, and_assoc]

/-- A retrim of every rank asks for one normal pause of each and changes nothing else that a shift pause ends with (R297). -/
theorem retrimAll_asks (e : Env) (c : Chan) : (c.retrimAll e).trim = c.trim ∧ (c.retrimAll e).fab = c.fab ∧
    (c.retrimAll e).err = c.err ∧ (c.retrimAll e).upk.wake = c.upk.wake ∧
    (∀ p ∈ (c.retrimAll e).upk.pauses, p ∈ c.upk.pauses ∨ p.kind = .retrim) ∧
    ∀ q ∈ c.rankPairs, ∃ p ∈ (c.retrimAll e).upk.pauses, p.kind = .retrim ∧ p.sub = q.1 ∧ p.rank = q.2 ∧ p.wide = false ∧
      p.running = false := by
  obtain ⟨d, hd, htrim, hfab, herr, -, -, -, hwake, hfrom, -, hasked⟩ := retrimFold e (max 1 c.rankPairs.length)
    ((List.range c.rankPairs.length).zip c.rankPairs)
    { c with upk := { c.upk with pauses := c.upk.pauses.filter fun (p : Pause) => p.running || p.kind != .retrim } }
  obtain rfl : c.retrimAll e = d := hd
  refine ⟨htrim, hfab, herr, hwake, fun p hp => (hfrom p hp).imp_left List.mem_of_mem_filter, fun q hq => ?_⟩
  obtain ⟨i, hi, rfl⟩ := List.getElem_of_mem hq
  exact hasked (i, c.rankPairs[i]) (List.mem_iff_getElem.mpr ⟨i, by simpa using hi, by simp⟩)

/-- The channel that a shift pause ends with, before its retrims. -/
def Chan.shifted (c : Chan) (e : Env) (lat : Latencies) : Chan :=
  (({ c with trim := { c.trim with shift := none }, upk := { c.upk with wake := false } } : Chan).setLat lat).freshStart e

theorem shifted_modeReq (c : Chan) (e : Env) (lat : Latencies) : (c.shifted e lat).bal.modeReq = c.bal.modeReq := by
  show (if c.bal.capped then { c.bal with tokA := 0, tokB := 0 } else c.bal).modeReq = c.bal.modeReq
  split <;> rfl

/-- Outside a transition, and with the set of the newest request in force, a shift pause ends with its retrims (R305). -/
theorem shiftEnd_retrims {c : Chan} (e : Env) (lat : Latencies) (hr : c.shiftReady = true) (ht : c.power.trans = none)
    (hb : c.trim.bestSet c.trim.reqN = some c.trim.tsel) :
    c.shiftEnd lat e = { (c.shifted e lat).retrimAll e with bal := (c.shifted e lat).bal.ask 2 } := by
  have hend : c.shiftEnd lat e =
      ({ (c.shifted e lat).retrimAll e with bal := (c.shifted e lat).bal.ask 2 } : Chan).applyRate := by
    refine (if_neg (by simp [hr])).trans ?_
    dsimp only
    split
    · next t hsome =>
      have : c.power.trans = some t := hsome
      simp [ht] at this
    · rfl
  obtain ⟨htrim, -⟩ := retrimAll_asks e (c.shifted e lat)
  have hset : ((c.shifted e lat).retrimAll e).trim = { c.trim with shift := none } := htrim
  rw [hend]
  refine applyRate_same (n := c.trim.tsel) ?_ ?_ ?_
  · show ((c.shifted e lat).retrimAll e).trim.bestSet ((c.shifted e lat).retrimAll e).trim.reqN = _
    rw [hset]
    exact hb
  · show _ = ((c.shifted e lat).retrimAll e).trim.tsel
    rw [hset]
  · show ((c.shifted e lat).retrimAll e).trim.shift = none
    rw [hset]

/-- Settles O43: QUIET by whether the ranks and the fabric are quiet, the new clock by its definition, and the end by whether
the channel is ready for it. -/
theorem shiftPauseRuns : Obligations.ShiftPauseRuns := by
  rintro s ch _ rfl
  refine ⟨fun hr hs hq => onCh (quietAssert_stops hs hr hq), fun h => onCh (quietAssert_waits h), ?_, ?_, ?_⟩
  · rintro _ hs rfl
    exact onCh (if_pos hs)
  · intro lat hs hself htail hburst htrans hbest
    have hready := (s.chan ch).shiftReady_iff.mpr ⟨hs, hself, htail, hburst⟩
    obtain ⟨htrim, hfab, herr, hwake, hfrom, hasked⟩ := retrimAll_asks s.env ((s.chan ch).shifted s.env lat)
    refine ⟨_, onCh (shiftEnd_retrims s.env lat hready htrans hbest), htrim, hfab, congrArg ErrCtl.crcWin herr,
      congrArg ErrCtl.parWin herr, congrArg (max · 2) (shifted_modeReq _ _ lat), hwake, hfrom, hasked⟩
  · intro lat hs h
    refine onCh (if_pos ?_)
    rw [Bool.not_eq_true', Bool.eq_false_iff, Ne, Chan.shiftReady_iff]
    rintro ⟨-, hself, htail, hburst⟩
    rcases h with ⟨x, hx, h⟩ | h | h
    · simp [hself x hx] at h
    · exact h htail
    · simp [hburst] at h

end Sys2Proof.Machine

/-! Requests of a rate, a power state and a level: clamped, started, kept waiting, or refused. -/
namespace Sys2Proof.Machine

/-! ### Rates (R17, R302, R303, R305) -/

/-- The channel with a requested rate that is not yet applied. -/
def Chan.asked (c : Chan) (n : Nat) : Chan := { c with trim := { c.trim with reqN := n, noset := false } }

theorem rateWrite_asks {c : Chan} {w : Word} {e : Env} {n : Nat} (h : n = clampTo 24 (c.maxRate e) (bitsAt w.toNat 0 8)) :
    c.rateWrite w e = (c.asked n).applyRate := by
  subst h
  rfl

/-- Without a valid set NOSET is set, and a shift that is due is dropped. -/
theorem applyRate_none {c : Chan} (h : c.trim.bestSet c.trim.reqN = none) : c.applyRate = { c with
    trim := { c.trim with noset := true, shift := if c.trim.shift = some .due then none else c.trim.shift } } := by
  unfold Chan.applyRate
  rw [h]

/-- A shift that is due goes to the new set, or is dropped where that set is in force. -/
theorem applyRate_due {c : Chan} {t : Nat} (h : c.trim.bestSet c.trim.reqN = some t) (hs : c.trim.shift = some .due) :
    c.applyRate = { c with
      trim := if t = c.trim.tsel then { c.trim with shift := none } else { c.trim with shiftTo := t } } := by
  unfold Chan.applyRate
  rw [h]
  refine (if_pos hs).trans ?_
  by_cases ht : t = c.trim.tsel
  · rw [if_pos ht, if_pos ht]
  · rw [if_neg ht, if_neg ht]

/-- No shift is asked for on the set in force, off Flight, or in a change other than a drain. -/
theorem applyRate_stays {c : Chan} {t : Nat} (h : c.trim.bestSet c.trim.reqN = some t) (hs : c.trim.shift = none)
    (hc : t = c.trim.tsel ∨ c.running = false ∨ (c.power.trans ≠ none ∧ c.draining = false)) : c.applyRate = c := by
  unfold Chan.applyRate
  rw [h]
  refine (if_neg (by simp [hs])).trans (if_pos ?_)
  rcases hc with hc | hc | ⟨htrans, hdrain⟩
  · simp [hc]
  · simp [hc]
  · simp [Option.isSome_iff_ne_none.mpr htrans, hdrain]

/-- In Flight another set makes a shift due; behind a running pause it waits. -/
theorem applyRate_asks {c : Chan} {t : Nat} {p : Pause} (h : c.trim.bestSet c.trim.reqN = some t) (hs : c.trim.shift = none)
    (hne : t ≠ c.trim.tsel) (hrun : c.running = true) (htr : c.power.trans = none ∨ c.draining = true)
    (hp : p ∈ c.upk.pauses) (hpr : p.running = true) :
    c.applyRate = { c with trim := { c.trim with shift := some .due, shiftTo := t } } := by
  have hpause : (c.upk.pauses.any fun p => p.running) = true := List.any_eq_true.mpr ⟨p, hp, hpr⟩
  have hfree : (c.power.trans.isSome && !c.draining) = false := by
    rcases htr with htr | htr <;> simp [htr]
  unfold Chan.applyRate
  rw [h]
  refine (if_neg (by simp [hs])).trans ((if_neg (by simp [hs, hfree, hrun, hne])).trans ?_)
  exact if_neg (by simp [hpause])

/-! ### Power states (R313, R314, R320) -/

/-- GO in a write of CH_STATE_CTL, or of BLK_PLEVEL_CTL. -/
theorem go_bit (w : Word) : bitAt (w ||| 4).toNat 2 = true := by
  rw [bitAt_or]
  exact Bool.or_true _

/-- The request of CH_STATE_CTL, and the channel with its TARGET and KEEP (R337). -/
def ctlReq (v : Word) : PReq :=
  { tgt := PState.ofNum (bitsAt v.toNat 0 2), keep := bitAt v.toNat 8 && Config.padRetention,
    wake := { source := 1, dimm := 0, sensor := 0, temp := 0 } }
def Chan.targeted (c : Chan) (q : PReq) : Chan := { c with power := { c.power with target := q.tgt, keep := q.keep } }

/-- A request that the channel's image allows waits in the pending slot, or starts (R314, R320). -/
theorem stateCtl_go {c : Chan} {v : Word} {s : State} (hv : bitAt v.toNat 2 = true)
    (hen : (ctlReq v).tgt = .grounded ∨ c.img ≠ none) : c.stateCtl v s.env =
      if c.power.rst || c.power.fatal || c.power.trans.isSome || (c.targeted (ctlReq v)).loadHolds s.env (ctlReq v) then
        { c.targeted (ctlReq v) with power := { (c.targeted (ctlReq v)).power with pend := some (ctlReq v) } }
      else (c.targeted (ctlReq v)).startReq (ctlReq v) s.env := by
  have hkeep : ({ ctlReq v with keep := (ctlReq v).keep && s.env.retention } : PReq) = ctlReq v := by
    simp [ctlReq, State.env]
  have hallow : (c.targeted (ctlReq v)).notEnabled s.env (ctlReq v) = false := by
    have himg : (c.targeted (ctlReq v)).img = c.img := rfl
    unfold Chan.notEnabled
    rw [himg]
    rcases hen with h | h
    · simp [h]
    · simp [Option.isNone_iff_eq_none, h]
  have hreq : c.stateCtl v s.env = (c.targeted (ctlReq v)).request (ctlReq v) s.env := if_pos hv
  rw [hreq]
  unfold Chan.request
  rw [hkeep]
  exact if_neg (by simp [hallow])

/-- During a reset, after a fatal event and in a change the request waits. -/
theorem stateCtl_waits {c : Chan} {v : Word} {s : State} (hv : bitAt v.toNat 2 = true)
    (hen : (ctlReq v).tgt = .grounded ∨ c.img ≠ none)
    (h : c.power.rst = true ∨ c.power.fatal = true ∨ c.power.trans ≠ none) : c.stateCtl v s.env =
      { c.targeted (ctlReq v) with power := { (c.targeted (ctlReq v)).power with pend := some (ctlReq v) } } := by
  refine (stateCtl_go hv hen).trans (if_pos ?_)
  rcases h with h | h | h
  · simp [h]
  · simp [h]
  · simp [Option.isSome_iff_ne_none.mpr h]

/-- Otherwise it starts, unless it leaves Grounded while no image is in force or a load is open. -/
theorem stateCtl_starts {c : Chan} {v : Word} {s : State} (hv : bitAt v.toNat 2 = true)
    (hen : (ctlReq v).tgt = .grounded ∨ c.img ≠ none) (hr : c.power.rst = false) (hf : c.power.fatal = false)
    (ht : c.power.trans = none) (hload : c.power.cur = .grounded → s.img ≠ none ∧ s.loader.isOpen = false) :
    c.stateCtl v s.env = (c.targeted (ctlReq v)).startReq (ctlReq v) s.env := by
  have hholds : (c.targeted (ctlReq v)).loadHolds s.env (ctlReq v) = false := by
    by_cases hg : c.power.cur = .grounded
    · obtain ⟨himg, hopen⟩ := hload hg
      simp [Chan.loadHolds, State.env, Option.isSome_iff_ne_none.mpr himg, hopen]
    · simp [Chan.loadHolds, Chan.targeted, hg]
  exact (stateCtl_go hv hen).trans (if_neg (by simp [hr, hf, ht, hholds]))

/-- A request for the present state, other than Grounded, does nothing. -/
theorem startReq_same {c : Chan} {q : PReq} {e : Env} (h : c.power.cur = q.tgt) (hg : c.power.cur ≠ .grounded) :
    c.startReq q e = c :=
  (if_pos h.symm).trans (if_neg fun hh => hg (h.trans hh.1))

/-- From Flight a power-down starts with the drain. -/
theorem startReq_drains {c : Chan} {q : PReq} {e : Env} (h : c.power.cur = .flight) (hq : q.tgt ≠ .flight) :
    ∃ g o, Drains o ∧ c.startReq q e = { c with
      power := { c.power with trans := some { frm := .flight, req := q, ph := .drain }, pend := none, readyAt := e.now },
      sched := g, occ := c.occ ++ o } := by
  obtain ⟨g, o, ho, hd⟩ := Chan.directAll_eq (c.begin q .drain e)
  refine ⟨g, o, ho, ?_⟩
  unfold Chan.startReq
  rw [if_neg (by rw [h]; exact hq), h]
  refine hd.trans ?_
  unfold Chan.begin
  rw [h]

/-- To Flight a wake starts with its place in the stagger. -/
theorem startReq_staggers {c : Chan} {q : PReq} {e : Env} (h : c.power.cur ≠ .flight) (hq : q.tgt = .flight) :
    c.startReq q e = c.begin q .stagger e := by
  unfold Chan.startReq
  rw [if_neg (by rw [hq]; exact h.symm), hq]
  cases hc : c.power.cur with
  | flight => exact absurd hc h
  | moored => rfl
  | tethered => rfl
  | grounded => rfl

/-! ### Levels (R325, R326, R331) -/

theorem plevelCtl_go {v : Word} (s : State) (h : bitAt v.toNat 2 = true) : s.plevelCtl v =
    ({ s with lvl := { s.lvl with target := bitsAt v.toNat 0 2 } } : State).levelGo (bitsAt v.toNat 0 2) := if_pos h

theorem levelGo_none {s : State} (b : Nat) (h : s.img = none) : s.levelGo b = s := by
  unfold State.levelGo
  rw [h]

theorem levelGo_waits {s : State} (b : Nat) (h : s.img ≠ none) (hc : s.lvl.change ≠ none) :
    s.levelGo b = { s with lvl := { s.lvl with pend := some b } } := by
  obtain ⟨i, hi⟩ := Option.ne_none_iff_exists'.mp h
  unfold State.levelGo
  rw [hi]
  exact if_pos (Option.isSome_iff_ne_none.mpr hc)

theorem levelGo_starts {s : State} {i : BlkImg} (b : Nat) (hi : s.img = some i) (hc : s.lvl.change = none) :
    s.levelGo b = s.startLevel i b := by
  unfold State.levelGo
  rw [hi]
  exact if_neg (by simp [hc])

/-- A level within the clamps in force whose voltage does not stand yet starts with its AVSBus write. -/
theorem startLevel_writes {s : State} {i : BlkImg} {b : Nat} (hmr : s.lvl.clampMr ≤ i.levMr b)
    (hrd : s.lvl.clampRd ≤ i.levRd b) (hv : i.levMv b ≠ i.levMv s.lvl.cur ∨ s.lvl.volt = 0) :
    s.startLevel i b = { s with lvl := { s.lvl with
      fail := false, noset := false, started := s.now, change := some (b, .avs false), avsAt := s.now,
      avsMv := i.levMv b } } :=
  (if_pos ⟨min_eq_right hmr, min_eq_right hrd⟩).trans (if_pos hv)

/-- Settles O46: a rate by the set that it selects, a state request by the state that the channel is in, and a level by the
change that runs. -/
theorem ratesAndStatesAreRequested : Obligations.RatesAndStatesAreRequested := by
  rintro s ch c hch
  refine ⟨fun w n ht hn => ?_, ?_, ?_⟩
  · subst hch
    have hask := rateWrite_asks (c := s.chan ch) (e := s.env) hn
    refine ⟨fun hb => ?_, fun t hb hs => ?_, fun t hb hs hc => ?_, fun t p hb hs hne hrun htr hp hpr => ?_⟩
    · exact onWr ht (hask.trans (applyRate_none hb))
    · exact onWr ht (hask.trans (applyRate_due (c := (s.chan ch).asked n) hb hs))
    · exact onWr ht (hask.trans (applyRate_stays hb hs hc))
    · exact onWr ht (hask.trans (applyRate_asks hb hs hne hrun htr hp hpr))
  · rintro w _ _ _ rfl ht rfl rfl hen
    subst hch
    have hgo := go_bit w
    refine ⟨fun h => onWr ht (stateCtl_waits hgo hen h), fun hr hf htr => ⟨fun hcur hg => ?_, fun hfl hq => ?_,
      fun hfl hq hload => ?_⟩⟩
    · exact onWr ht ((stateCtl_starts hgo hen hr hf htr fun h => absurd h hg).trans (startReq_same hcur hg))
    · obtain ⟨g, o, ho, hstart⟩ := startReq_drains (c := (s.chan ch).targeted (ctlReq (w ||| 4))) (e := s.env) hfl hq
      exact ⟨g, o, ho, onWr ht ((stateCtl_starts hgo hen hr hf htr fun h => by simp [h] at hfl).trans hstart)⟩
    · exact onWr ht ((stateCtl_starts hgo hen hr hf htr hload).trans (startReq_staggers hfl hq))
  · rintro w _ _ rfl ht rfl
    have hgo := plevelCtl_go s (go_bit w)
    have hrun : exec (.plevelGo w) s = .next ((s.plevelCtl (w ||| 4)).respond false 0) := mgtWrite_takes ht
    rw [hrun, hgo]
    refine ⟨fun h => ?_, fun h hc => ?_, fun i hi hc hmr hrd hv => ?_⟩
    · rw [levelGo_none _ (by exact h)]
    · rw [levelGo_waits _ (by exact h) (by exact hc)]
    · rw [levelGo_starts _ (by exact hi) (by exact hc), startLevel_writes (by exact hmr) (by exact hrd) (by exact hv)]

end Sys2Proof.Machine

/-! The image in force: which commands replace it, and by what (R52, R53, R55). -/
namespace Sys2Proof.Machine

/-- The end of a commit keeps the image, or, while COMMITTING and without a fault, puts the loaded one in force. -/
theorem commitEnd_img (n : Nat) (p : List Nat) (s : State) : (s.commitEnd n p).img = s.img ∨
    s.loader.st = .committing ∧ s.loader.commitFault n p = none ∧
      (s.commitEnd n p).img = some (s.loader.blkImg (s.loader.phase p)) := by
  unfold State.commitEnd
  split
  · exact .inl rfl
  · next hst =>
    split
    · exact .inl (State.withLoader_kept _ _).img
    · next hf => exact .inr ⟨not_not.mp hst, hf, (State.withLoader_kept _ _).img⟩

/-- The end of a warm reset takes the image out of force; until its last channel has ended, it stays. -/
theorem warmEnd_img (s : State) : s.warmEnd.img = s.img ∨ s.warmEnd.img = none := by
  cases h : s.rst.warmLeft.isEmpty
  · exact .inl (congrArg State.img (warmEnd_more h))
  · exact .inr (congrArg State.img (warmEnd_last h))

/-- A channel reset ends with the channel reset, and a request that waited behind it starts. -/
theorem resetSeqEnd_single {s : State} {ch : ChanId} (h : (s.chan ch).resetOver = true) (hw : s.rst.warm = false) :
    s.resetSeqEnd ch = ((s.recorded ch).setChan ch (s.chan ch).afterChrst).onChan ch Chan.startPend := by
  unfold State.resetSeqEnd
  dsimp only
  rw [if_neg (by rw [h]; decide), if_neg (by rw [hw]; decide)]
  rfl

/-- The end of a reset sequence keeps the image, or ends a warm reset and takes it out of force. -/
theorem resetSeqEnd_img (s : State) (ch : ChanId) : (s.resetSeqEnd ch).img = s.img ∨
    s.rst.warm = true ∧ (s.chan ch).resetOver = true ∧ (s.resetSeqEnd ch).img = none := by
  cases hover : (s.chan ch).resetOver with
  | false => exact .inl (congrArg State.img (resetSeqEnd_waits hover))
  | true =>
    cases hw : s.rst.warm with
    | false =>
      rw [resetSeqEnd_single hover hw]
      exact .inl (State.onChan_kept _ _ _).img
    | true =>
      rw [resetSeqEnd_warm hover hw]
      exact (warmEnd_img (s.warmPart ch)).imp_right fun h => ⟨rfl, rfl, h⟩

/-- Settles O7: every other command keeps the image, and each of these three keeps it or changes it as stated. -/
theorem imageChangesAtCommitOrReset : Obligations.ImageChangesAtCommitOrReset := by
  intro i s t h hne
  by_cases hi : Reloads i
  · rcases hi with rfl | ⟨n, x, xs, rfl⟩ | ⟨ch, rfl⟩ <;> obtain rfl := Host.Outcome.next.inj h
    · exact .inl ⟨rfl, rfl⟩
    · rw [(State.mgtRetry_kept _).img] at hne ⊢
      obtain ⟨hst, hf, himg⟩ := (commitEnd_img n (x :: xs) s).resolve_left hne
      exact .inr (.inr ⟨n, x, xs, _, rfl, rfl, hst, hf, himg⟩)
    · rw [(State.mgtRetry_kept _).img] at hne ⊢
      obtain ⟨hwarm, hover, himg⟩ := (resetSeqEnd_img s ch).resolve_left hne
      exact .inr (.inl ⟨ch, rfl, hwarm, hover, himg⟩)
  · exact absurd (exec_kept hi h).img hne

end Sys2Proof.Machine

/-! The loader: what START, COMMIT, ABORT and a frame make of it (R32, R33, R50, R428). -/
namespace Sys2Proof.Machine

/-! ### The loader's next state -/

theorem Loader.doStart_committing {l : Loader} (h : l.st = .committing) (g : Bool) : l.doStart g = l := if_pos h

theorem Loader.doStart_opens {l : Loader} (h : l.st ≠ .committing) : l.doStart true = l.start := if_neg h

theorem Loader.doStart_notGrounded {l : Loader} (h : l.st ≠ .committing) : l.doStart false =
    { l with fault := fNotGrounded, faultFrame := l.accepted, faultSection := 0, faultChannels := 0 } := if_neg h

theorem Loader.doCommit_ready {l : Loader} (h : l.st = .ready) : l.doCommit = { l with st := .committing } := if_pos h

theorem Loader.doCommit_loading {l : Loader} (h : l.st = .loading) : l.doCommit = l.refuse (fCount, 0, 0) :=
  (if_neg (by simp [h])).trans (if_pos h)

theorem Loader.doCommit_closed {l : Loader} (hr : l.st ≠ .ready) (hl : l.st ≠ .loading) : l.doCommit = l :=
  (if_neg hr).trans (if_neg hl)

theorem Loader.doAbort_open {l : Loader} (h : l.st = .loading ∨ l.st = .ready) (f : Bool) :
    l.doAbort f = { l with st := if f then .committed else .empty, cur := none, sects := [] } := if_pos h

theorem Loader.doAbort_closed {l : Loader} (hl : l.st ≠ .loading) (hr : l.st ≠ .ready) (f : Bool) : l.doAbort f = l :=
  if_neg (not_or.mpr ⟨hl, hr⟩)

/-- Two of the three bits make none of the three commands (R428). -/
theorem Loader.ctl_two {w : Word} (h : (bitAt w.toNat 0 = true ∧ bitAt w.toNat 1 = true) ∨
    (bitAt w.toNat 0 = true ∧ bitAt w.toNat 2 = true) ∨ (bitAt w.toNat 1 = true ∧ bitAt w.toNat 2 = true))
    (l : Loader) (g f : Bool) : l.ctl w g f = l := by
  have hv : w.toNat % 8 ≠ 1 ∧ w.toNat % 8 ≠ 2 ∧ w.toNat % 8 ≠ 4 := by
    simp only [bitAt, Nat.shiftRight_eq_div_pow, beq_iff_eq] at h
    omega
  obtain ⟨h1, h2, h4⟩ := hv
  exact (if_neg h1).trans ((if_neg h2).trans (if_neg h4))

/-- The frame's CRC is right (R30). -/
def Loader.CrcOk (m : Loader) : Prop := crc32c (m.frame.take 60) = leAt m.frame 60 4

theorem Loader.submit_closed {m : Loader} (h : m.st = .empty ∨ m.st = .committed ∨ m.st = .refused) :
    m.submit = { m with ign := true } :=
  if_neg (by rcases h with h | h | h <;> simp [h])

theorem Loader.submit_open {m : Loader} (h : m.st = .loading ∨ m.st = .ready) : m.submit = m.check := if_pos h

theorem Loader.check_crc {m : Loader} (h : ¬m.CrcOk) : m.check = { m with crcRej := satAdd 0xFFFF m.crcRej 1 } := if_pos h

/-- A frame that is not the expected one: a repetition of the last one is counted, any other refuses the load (R33, R50). -/
theorem Loader.check_unexpected {m : Loader} (hc : m.CrcOk) (hb : m.based = true)
    (h : nth0 m.frame 0 ≠ m.nextAlive ∨ m.st = .ready) : m.check =
      if nth0 m.frame 0 = (m.nextAlive + 255) % 256 then { m with dup := satAdd 0xFFFF m.dup 1 }
      else m.refuse (if m.st = .ready then fExtraFrame else fGap, m.faultSect 0, 0) := by
  have hne : ¬(m.based = false ∨ m.st = .loading ∧ nth0 m.frame 0 = m.nextAlive) := by
    rintro (h' | ⟨hst, ha⟩)
    · simp [hb] at h'
    · rcases h with h | h
      · exact h ha
      · simp [h] at hst
  exact (if_neg (not_not.mpr hc)).trans (if_neg hne)

/-- An accepted frame, before its content is taken (R32). -/
def Loader.counted (m : Loader) : Loader :=
  { m with accepted := m.accepted + 1, nextAlive := (nth0 m.frame 0 + 1) % 256, based := true }

theorem Loader.check_expected {m : Loader} (hc : m.CrcOk) (hst : m.st = .loading)
    (h : m.based = true → nth0 m.frame 0 = m.nextAlive) : m.check = m.counted.content m.frame := by
  have hexp : m.based = false ∨ m.st = .loading ∧ nth0 m.frame 0 = m.nextAlive := by
    cases hb : m.based
    · exact .inl rfl
    · exact .inr ⟨hst, h hb⟩
  exact (if_neg (not_not.mpr hc)).trans (if_pos hexp)

/-! ### The loader's step while no channel waits -/

/-- A step to a state that raises no TRUSS_DONE changes the loader alone. -/
theorem withLoader_silent {s : State} (h : s.NoneWaits) {l : Loader} (hr : l.st = .refused → s.loader.st = .refused)
    (hc : s.loader.st = .committing → l.st ≠ .committed) : s.withLoader l = { s with loader := l } :=
  (withLoader_eq h l).trans (trussDone_silent hr hc)

/-- So does a step that leaves STATE as it is. -/
theorem withLoader_same {s : State} (h : s.NoneWaits) {l : Loader} (hl : l.st = s.loader.st) :
    s.withLoader l = { s with loader := l } :=
  withLoader_silent h hl.symm.trans fun hc => by simp [hl, hc]

theorem withLoader_refuses {s : State} (h : s.NoneWaits) (hs : s.loader.st ≠ .refused) (m : Loader) (f : TFault) :
    s.withLoader (m.refuse f) = ({ s with loader := m.refuse f } : State).raiseBlk 0x07B 0 f.1 :=
  (withLoader_eq h _).trans (trussDone_refused hs rfl)

/-! ### The commands -/

theorem trussStart_takes {s u : State} (ht : s.Takes (wrTxn .blk 0x100 1))
    (h : s.withLoader (s.loader.doStart s.allGrounded) = u) : exec .trussStart s = .next (u.respond false 0) :=
  h ▸ mgtWrite_takes ht

theorem trussCommit_takes {s u : State} (ht : s.Takes (wrTxn .blk 0x100 2)) (h : s.withLoader s.loader.doCommit = u) :
    exec .trussCommit s = .next (u.respond false 0) :=
  h ▸ mgtWrite_takes ht

theorem trussAbort_takes {s u : State} (ht : s.Takes (wrTxn .blk 0x100 4))
    (h : s.withLoader (s.loader.doAbort s.img.isSome) = u) : exec .trussAbort s = .next (u.respond false 0) :=
  h ▸ mgtWrite_takes ht

/-- Word 15 of the load window submits the frame (R44). -/
theorem writeAddr_frame (s : State) (w : Word) :
    s.writeAddr 0xF0003C w = some (s.withLoader (s.loader.setWord 15 w).submit) := by
  unfold State.writeAddr
  rw [addrChan_none (.inr (by decide))]
  rfl

theorem frameSubmit_takes {s u : State} {w : Word} (ht : s.Takes { we := true, addr := 0xF0003C, data := w })
    (h : s.withLoader (s.loader.setWord 15 w).submit = u) : exec (.trussFrameSubmit w) s = .next (u.respond false 0) :=
  h ▸ (mgtTxn_takes ht).trans (congrArg Host.Outcome.next (regTxn_wr s _ _ rfl rfl (writeAddr_frame s w)))

/-- Settles O11: such a write makes no step of the loader. -/
theorem oneLoaderCommandAtATime : Obligations.OneLoaderCommandAtATime := by
  intro s w ht hn hbits
  have hsame : s.trussCtl w = s := by
    unfold State.trussCtl
    rw [Loader.ctl_two hbits]
    exact withLoader_same hn rfl
  have hblk : addrChan (regAddr .blk 0x100).toNat = none := rfl
  obtain ⟨hfree, hheld⟩ := ht
  exact registerWrite_takes hfree hheld (repairOf_blk hblk) ((w_truss s w).trans (congrArg some hsame))

theorem trussStart_moves {s : State} (hn : s.NoneWaits) (ht : s.Takes (wrTxn .blk 0x100 1)) :
    (s.loader.st = .committing → exec .trussStart s = .next (s.respond false 0)) ∧
    (s.loader.st ≠ .committing → (∀ ch, (s.chan ch).power.cur = .grounded ∧ (s.chan ch).power.trans = none) →
      exec .trussStart s = .next (({ s with loader := s.loader.start } : State).respond false 0)) ∧
    (s.loader.st ≠ .committing → (∃ ch, (s.chan ch).power.cur ≠ .grounded) →
      exec .trussStart s = .next (({ s with loader := { s.loader with
        fault := fNotGrounded, faultFrame := s.loader.accepted, faultSection := 0, faultChannels := 0 } } : State).respond
          false 0)) := by
  refine ⟨fun hc => ?_, fun hc hg => ?_, fun hc ⟨ch, hch⟩ => ?_⟩ <;> refine trussStart_takes ht ?_
  · rw [Loader.doStart_committing hc]
    exact withLoader_same hn rfl
  · rw [(allGrounded_iff s).mpr hg, Loader.doStart_opens hc]
    exact withLoader_silent hn nofun fun h => absurd h hc
  · have hup : s.allGrounded = false := Bool.eq_false_iff.mpr fun h => hch ((allGrounded_iff s).mp h ch).1
    rw [hup, Loader.doStart_notGrounded hc]
    exact withLoader_same hn rfl

theorem trussCommit_moves {s : State} (hn : s.NoneWaits) (ht : s.Takes (wrTxn .blk 0x100 2)) :
    (s.loader.st = .ready →
      exec .trussCommit s = .next (({ s with loader := { s.loader with st := .committing } } : State).respond false 0)) ∧
    (s.loader.st = .loading → exec .trussCommit s =
      .next ((({ s with loader := s.loader.refuse (fCount, 0, 0) } : State).raiseBlk 0x07B 0 fCount).respond false 0)) ∧
    (s.loader.st ≠ .ready → s.loader.st ≠ .loading → exec .trussCommit s = .next (s.respond false 0)) := by
  refine ⟨fun h => ?_, fun h => ?_, fun hr hl => ?_⟩ <;> refine trussCommit_takes ht ?_
  · rw [Loader.doCommit_ready h]
    exact withLoader_silent hn nofun nofun
  · rw [Loader.doCommit_loading h]
    exact withLoader_refuses hn (by simp [h]) _ _
  · rw [Loader.doCommit_closed hr hl]
    exact withLoader_same hn rfl

theorem trussAbort_moves {s : State} (hn : s.NoneWaits) (ht : s.Takes (wrTxn .blk 0x100 4)) :
    (s.loader.st = .loading ∨ s.loader.st = .ready → exec .trussAbort s = .next (({ s with loader := { s.loader with
      st := if s.img = none then .empty else .committed, cur := none, sects := [] } } : State).respond false 0)) ∧
    (s.loader.st ≠ .loading → s.loader.st ≠ .ready → exec .trussAbort s = .next (s.respond false 0)) := by
  refine ⟨fun h => ?_, fun hl hr => ?_⟩ <;> refine trussAbort_takes ht ?_
  · have hst : (if s.img.isSome = true then LoadState.committed else .empty) = if s.img = none then .empty else .committed := by
      cases s.img <;> rfl
    have hopen : s.loader.st ≠ .committing := by rcases h with h | h <;> simp [h]
    rw [Loader.doAbort_open h, hst]
    exact withLoader_silent hn (by dsimp only; split <;> nofun) fun hc => absurd hc hopen
  · rw [Loader.doAbort_closed hl hr]
    exact withLoader_same hn rfl

/-- What a frame outside a load, with a wrong CRC, or out of its turn does; `m` is the loader with its window filled. -/
theorem frameSubmit_rejects {s : State} {w : Word} {m : Loader} (hn : s.NoneWaits)
    (ht : s.Takes { we := true, addr := 0xF0003C, data := w }) (hm : s.loader.setWord 15 w = m) :
    (m.st = .empty ∨ m.st = .committed ∨ m.st = .refused →
      exec (.trussFrameSubmit w) s = .next (({ s with loader := { m with ign := true } } : State).respond false 0)) ∧
    (m.st = .loading ∨ m.st = .ready → ¬m.CrcOk → exec (.trussFrameSubmit w) s =
      .next (({ s with loader := { m with crcRej := satAdd 0xFFFF m.crcRej 1 } } : State).respond false 0)) ∧
    (m.st = .loading ∨ m.st = .ready → m.CrcOk → m.based = true → (nth0 m.frame 0 ≠ m.nextAlive ∨ m.st = .ready) →
      (nth0 m.frame 0 = (m.nextAlive + 255) % 256 → exec (.trussFrameSubmit w) s =
        .next (({ s with loader := { m with dup := satAdd 0xFFFF m.dup 1 } } : State).respond false 0)) ∧
      (nth0 m.frame 0 ≠ (m.nextAlive + 255) % 256 → exec (.trussFrameSubmit w) s =
        .next ((({ s with loader := m.refuse (if m.st = .ready then fExtraFrame else fGap, m.faultSect 0, 0) } : State).raiseBlk
          0x07B 0 (if m.st = .ready then fExtraFrame else fGap)).respond false 0))) := by
  subst hm
  refine ⟨fun h => ?_, fun h hcrc => ?_, fun h hcrc hb hturn => ⟨fun hdup => ?_, fun hdup => ?_⟩⟩ <;>
    refine frameSubmit_takes ht ?_
  · rw [Loader.submit_closed h]
    exact withLoader_same hn rfl
  · rw [Loader.submit_open h, Loader.check_crc hcrc]
    exact withLoader_same hn rfl
  · rw [Loader.submit_open h, Loader.check_unexpected hcrc hb hturn, if_pos hdup]
    exact withLoader_same hn rfl
  · have hopen : s.loader.st ≠ .refused := by
      show (s.loader.setWord 15 w).st ≠ .refused
      rcases h with h | h <;> simp [h]
    rw [Loader.submit_open h, Loader.check_unexpected hcrc hb hturn, if_neg hdup]
    exact withLoader_refuses hn hopen _ _

/-- The expected frame is accepted: it is counted, and only its content decides what else becomes of the load (R32, R36). -/
theorem frameSubmit_accepts {s : State} {w : Word} {m : Loader} (hn : s.NoneWaits)
    (ht : s.Takes { we := true, addr := 0xF0003C, data := w }) (hm : s.loader.setWord 15 w = m) (hst : m.st = .loading)
    (hcrc : m.CrcOk) (hturn : m.based = true → nth0 m.frame 0 = m.nextAlive) :
    ∃ t : State, exec (.trussFrameSubmit w) s = .next (t.respond false 0) ∧ t.img = s.img ∧ t.chans = s.chans ∧
      t.loader = m.counted.content m.frame := by
  subst hm
  obtain ⟨-, hchans, himg, hload, -⟩ :=
    trussDone_same s.loader.st { s with loader := (s.loader.setWord 15 w).counted.content (s.loader.setWord 15 w).frame }
  refine ⟨_, frameSubmit_takes ht ?_, himg, hchans, hload⟩
  rw [Loader.submit_open (.inl hst), Loader.check_expected hcrc hst hturn]
  exact withLoader_eq hn _

/-- Settles O12: each command by what it makes of the loader's state. -/
theorem loadsOpenAndEnd : Obligations.LoadsOpenAndEnd := by
  rintro s _ rfl hn
  refine ⟨trussStart_moves hn, trussCommit_moves hn, trussAbort_moves hn, ?_⟩
  rintro w _ ht rfl
  obtain ⟨hclosed, hcrc, hturn⟩ := frameSubmit_rejects hn ht rfl
  refine ⟨hclosed, hcrc, fun h hok hb hne => ?_, fun h hok hexp => ?_⟩
  · obtain ⟨hdup, hrefuse⟩ := hturn h hok hb hne
    exact ⟨hdup, fun hd => ⟨_, hrefuse hd⟩⟩
  · obtain ⟨t, hrun, himg, hchans, hload⟩ := frameSubmit_accepts hn ht rfl h hok hexp
    obtain ⟨haccepted, hnext, hbased⟩ :=
      content_same (s.loader.setWord 15 w).counted (s.loader.setWord 15 w).frame
    exact ⟨t, _, hrun, himg, hchans, hload, haccepted, hnext, hbased⟩

end Sys2Proof.Machine

/-! The registers after reset (R370, R380, R381). -/
namespace Sys2Proof.Machine

theorem State.chan_reset (ch : ChanId) : State.reset.chan ch = Reset.chan := by
  simp [State.reset, State.chan, Vector.get_eq_getElem]

/-- Every counter of a page is at its reset value (R378). -/
theorem eq_counter_of_mem_reset {n : Nat} {k : Counter} (h : k ∈ (Reset.counters n).cs) : k = Reset.counter :=
  List.eq_of_mem_replicate h

/-- Settles O6: the common and the channel by the tables of their registers, the counters by being all alike. -/
theorem resetLeavesTheStatedValues : Obligations.ResetLeavesTheStatedValues := by
  rintro s ch _ rfl rfl
  rw [State.chan_reset]
  refine ⟨by decide, by decide, by decide, by decide, by decide, by decide, by decide, by decide, by decide, by decide,
    rfl, rfl, fun k hk => ?_⟩
  obtain rfl : k = Reset.counter := (List.mem_append.mp hk).elim eq_counter_of_mem_reset eq_counter_of_mem_reset
  decide

end Sys2Proof.Machine

/-! Requests that are turned away: by a channel that is down, or with the first cause of R100 (R99, R100, R103). -/
namespace Sys2Proof.Machine

/-- A request that reaches an open lane is refused while the channel is down, and goes to the checks otherwise (R103). -/
theorem Chan.arrive_req {c : Chan} {e : Env} {op : BitVec 5} {f : ReqFlit} (h1 : reqOpOf op.toNat ≠ .sconf)
    (h2 : reqOpOf op.toNat ≠ .scan) (hi : c.lane.iso = false) (ha : c.asleep = false) :
    Chan.arrive (.req op f) e c = if c.down then c.refuseReq (reqOpOf op.toNat) ((reqOpOf op.toNat).strip f)
      else c.accept1 (reqOpOf op.toNat) ((reqOpOf op.toNat).strip f) :=
  (Chan.arrive_open hi ha).trans (Chan.take_req h1 h2)

/-- An ERR joins the responses, at most four HCLK late (R99). -/
theorem Chan.pushErr_eq (c : Chan) (f : ReqFlit) (o : ReqOp) (code : Nat) : ∃ n, n ≤ 4 ∧
    c.pushErr f o.ty code = { c with
      free := c.free + 1, lane := { c.lane with ready := c.lane.ready ++ [errRsp f o code (c.lane.hclk + n)] } } :=
  ⟨Config.errDelay c.free % 5, by omega, rfl⟩

theorem Chan.expectBeat_dead (c : Chan) (o : ReqOp) (f : ReqFlit) :
    c.expectBeat o f.tag none = { c with lane := { c.lane with beats := c.lane.beats ++ deadBeat o f } } := by
  unfold Chan.expectBeat deadBeat
  split
  · rfl
  · rw [List.append_nil]

theorem Chan.lacksCredit_of_held {c : Chan} {o : ReqOp} {cls : Nat} (hh : 0 < nth0 c.lane.held cls)
    (hw : o.isWrite = true → 0 < c.lane.wheld) : c.lacksCredit o cls = false := by
  have hheld : nth0 c.lane.held cls ≠ 0 := by omega
  have hwheld : o.isWrite = true → c.lane.wheld ≠ 0 := fun h => Nat.ne_of_gt (hw h)
  simpa [Chan.lacksCredit, hheld] using hwheld

/-- The causes of an ERR in the precedence of R100. -/
theorem Chan.reqError_eq (c : Chan) (o : ReqOp) (a : LAddr) : c.reqError o a =
    if o = .bad then some errOpcode
    else if o.hasAddr = true ∧ c.usable ≤ a.toNat then some errRange
    else if o.hasMd = true ∧ c.mdServes = false then some errNoMd
    else if o.hasAddr = true ∧ c.reqFenced o a = true then some errFenced else none := by
  simp only [Chan.reqError, Bool.and_eq_true, decide_eq_true_eq, Bool.not_eq_true']

/-- A request with its credits, a free tag and a cause of R100 consumes the credits and is answered with that cause. -/
theorem Chan.accept1_errs {c : Chan} {o : ReqOp} {f : ReqFlit} {code : Nat}
    (hc : c.lacksCredit o (hostClass f.cls.toNat) = false) (ht : f.tag ∉ c.lane.inUse)
    (he : c.reqError o f.laddr = some code) : c.accept1 o f =
      (((c.consume o (hostClass f.cls.toNat)).useTag f.tag).pushErr f o.ty code).expectBeat o f.tag none := by
  have hcause : (c.consume o (hostClass f.cls.toNat)).reqError o f.laddr = some code := he
  unfold Chan.accept1
  dsimp only
  rw [if_neg (by simp [hc]), if_neg (by simpa [Chan.consume] using ht), hcause]

/-- Settles O20: the lane's two ways, refused while the channel is down and checked while it is up. -/
theorem requestIsTurnedAway : Obligations.RequestIsTurnedAway := by
  rintro s ch _ op _ f rfl rfl h1 h2 hi ha
  have harrive := Chan.arrive_req (e := s.env) (f := f) h1 h2 hi ha
  have hexec := laneCmd_exec s ch op f
  generalize reqOpOf op.toNat = o at h1 h2 harrive ⊢
  refine ⟨fun hd => ?_, fun hd hheld hwheld htag code hcode => ?_⟩
  · obtain ⟨n, hn, hpush⟩ := ((s.chan ch).useTag f.tag).pushErr_eq (o.strip f) o errDown
    rw [if_pos hd, Chan.refuseReq_req h1 h2, ReqOp.strip_tag, hpush] at harrive
    exact ⟨n, hn, hexec.trans (by rw [harrive]; rfl)⟩
  · rw [← Chan.reqError_eq, ← Chan.strip_reqError] at hcode
    have hanswer := Chan.accept1_errs (f := o.strip f) (by rw [ReqOp.strip_cls]; exact Chan.lacksCredit_of_held hheld hwheld)
      (by rwa [ReqOp.strip_tag]) hcode
    obtain ⟨n, hn, hpush⟩ :=
      (((s.chan ch).consume o (hostClass f.cls.toNat)).useTag f.tag).pushErr_eq (o.strip f) o code
    rw [ReqOp.strip_cls, ReqOp.strip_tag, hpush, Chan.expectBeat_dead] at hanswer
    rw [if_neg (by simp [hd]), hanswer] at harrive
    exact ⟨n, hn, hexec.trans (by rw [harrive]; rfl)⟩

end Sys2Proof.Machine

/-! Records that a read clears, and the translation of a line (R57, R69, R70, R240, R243, R288). -/
namespace Sys2Proof.Machine

/-- A read that the lane takes of a channel's register answers its word and leaves what the read leaves (R112, R401). -/
theorem onRc {s : State} {ch : ChanId} {off : Nat} {f : Chan → Chan × Word} {c : Chan} {w : Word}
    (ht : s.Takes (rdTxn (.chan ch) off)) (h : f (s.chan ch) = (c, w)) :
    mgtRead (.chan ch) off (State.chanRc ch f) s = .next ((s.commitChan ch c).respond false w) := by
  rw [mgtRead_takes ht]
  unfold State.chanRc State.onChan
  dsimp only
  rw [h]

/-- Without an image a translation has no effect (R70). -/
theorem xlateCtl_none {c : Chan} (w : Word) (h : c.img = none) : c.xlateCtl w = c := by
  unfold Chan.xlateCtl
  rw [h]

theorem xlateCtl_fwd {c : Chan} {i : ChanImg} (h : c.img = some i) : c.xlateCtl 1 = { c with xl := c.xl.fwd i } := by
  unfold Chan.xlateCtl
  rw [h]
  rfl

theorem xlateCtl_rev {c : Chan} {i : ChanImg} (h : c.img = some i) : c.xlateCtl 2 = { c with xl := c.xl.rev i } := by
  unfold Chan.xlateCtl
  rw [h]
  rfl

/-- The number of a subchannel names it. -/
theorem sub_of_num (s : Sub) : (if s.num = 0 then Sub.a else Sub.b) = s := by
  cases s <;> rfl

/-- The device address that the registers show. -/
def Xlate.dev (x : Xlate) : Dev :=
  { bank := { sub := if x.sub = 0 then .a else .b, rank := x.rank, lrank := x.lrank, bg := x.bg, ba := x.ba },
    row := x.row, col := x.col }

/-- FWD shows the device address of the line (R69). -/
theorem Xlate.fwd_dev (i : ChanImg) (x : Xlate) : (x.fwd i).dev = i.devOf x.line := by
  have hsub : (if (x.fwd i).sub = 0 then Sub.a else Sub.b) = (i.devOf x.line).bank.sub := sub_of_num _
  unfold Xlate.dev
  rw [hsub]
  rfl

/-- REV shows the line of the clamped device address, of which the two address registers hold the halves (R69). -/
theorem Xlate.rev_line (i : ChanImg) (x : Xlate) : (x.rev i).line = i.lineOf (x.clamped i) :=
  Nat.mod_add_div' _ _

/-- Settles O56: the reads by what each reads and clears, and FWD and REV by what the channel's image makes of them. -/
theorem recordsAreReadAndLinesTranslated : Obligations.RecordsAreReadAndLinesTranslated := by
  refine ⟨?_, ?_⟩
  · rintro s ch _ rfl
    refine ⟨?ue, ?loft, ?chips⟩
    case ue => rintro _ rfl ht; exact onRc ht rfl
    case loft => rintro _ rfl ht; exact onRc ht rfl
    case chips => rintro sb r q _ ht rfl; exact onRc ht rfl
  · rintro s ch _ rfl
    refine ⟨fun hi => ⟨fun ht => onWr ht (xlateCtl_none 1 hi), fun ht => onWr ht (xlateCtl_none 2 hi)⟩,
      fun i hi => ⟨fun ht => ?_, fun ht => ?_⟩⟩
    · exact ⟨_, onWr ht (xlateCtl_fwd hi), rfl, rfl, Xlate.fwd_dev i _⟩
    · exact ⟨_, onWr ht (xlateCtl_rev hi), Xlate.rev_line i _, rfl⟩

end Sys2Proof.Machine

/-! Requests that ingress admits: line reads, writes, metadata operations and FLUSH (R76, R84, R92, R118, R268). -/
namespace Sys2Proof.Machine

/-- A command that leaves the channel as `c` leaves it as any `d` that is shown to be the same. -/
theorem exec_commit_eq {i : Instr} {s : State} {ch : ChanId} {c d : Chan} (h : exec i s = .next (s.commitChan ch c))
    (hd : c = d) : exec i s = .next (s.commitChan ch d) :=
  hd ▸ h

/-! ### What admits a request (R75, R100) -/

/-- The OPCODE of a request (R75), a reserved one for a request that no rule gives a meaning. -/
def ReqOp.opcode : ReqOp → BitVec 5
  | .bad => 0
  | .read .rd => 1 | .read .rds => 2 | .sconf => 3 | .scan => 4 | .read .rdm => 5 | .read .rdmu => 6
  | .write .wr => 8 | .write .wrp => 9 | .write .wrm => 10 | .write .wrx => 11
  | .md .mdr => 12 | .md .mdw => 13 | .md .mdcas => 14 | .flush => 16

theorem reqOpOf_opcode (o : ReqOp) : reqOpOf o.opcode.toNat = o := by
  rcases o with o | o | o | _ | _ | _ | _
  case read | write | md => cases o <;> rfl
  case sconf | scan | flush | bad => rfl

theorem RdOp.cmd_eq_laneCmd (ch : ChanId) (o : RdOp) (f : ReqFlit) : o.cmd ch f = laneCmd ch (ReqOp.read o).opcode f := by
  cases o <;> rfl

theorem WrOp.cmd_eq_laneCmd (ch : ChanId) (o : WrOp) (f : ReqFlit) : o.cmd ch f = laneCmd ch (ReqOp.write o).opcode f := by
  cases o <;> rfl

theorem MdOp.cmd_eq_laneCmd (ch : ChanId) (o : MdOp) (f : ReqFlit) : o.cmd ch f = laneCmd ch (ReqOp.md o).opcode f := by
  cases o <;> rfl

/-- A request that ingress admits consumes its credits and is accepted. -/
theorem exec_admits {s : State} {ch : ChanId} {o : ReqOp} {f : ReqFlit} (h : (s.chan ch).Admits o f) (h1 : o ≠ .sconf)
    (h2 : o ≠ .scan) : exec (laneCmd ch o.opcode f) s =
      .next (s.commitChan ch (((s.chan ch).consume o (hostClass f.cls.toNat)).accept o (o.strip f))) := by
  rw [laneCmd_exec, Chan.arrive_admits (reqOpOf_opcode o) h h1 h2]

/-! ### Line reads (R118, R138) -/

theorem exec_read_admits {s : State} {ch : ChanId} {o : RdOp} {f : ReqFlit} (h : (s.chan ch).Admits (.read o) f) :
    exec (o.cmd ch f) s = .next (s.commitChan ch (((s.chan ch).admitted (.read o) f).acceptRead o f)) := by
  rw [RdOp.cmd_eq_laneCmd]
  exact exec_admits h nofun nofun

/-- Settles O16: an admitted read is placed, and is linked or forwarded. -/
theorem hostReadsAreAccepted : Obligations.HostReadsAreAccepted := by
  refine ⟨?queued, ?forwarded⟩
  case queued =>
    rintro s ch _ o f rfl hadmits hbeat hwr
    obtain ⟨b, h, q, hread, hbanks, hq⟩ :=
      Chan.acceptRead_eq (c := (s.chan ch).admitted (.read o) f) (o := o) (f := f) hbeat hwr
    exact ⟨b, h, q, exec_commit_eq (exec_read_admits hadmits) hread, hbanks, hq⟩
  case forwarded =>
    rintro s ch _ o f w rfl hadmits hbeat hwr hmerge hfree hsound
    obtain ⟨h, q, hread, hq⟩ :=
      Chan.acceptRead_forwards (c := (s.chan ch).admitted (.read o) f) (o := o) (f := f) hbeat hwr hmerge hfree hsound
    exact ⟨h, q, exec_commit_eq (exec_read_admits hadmits) hread, hq⟩

/-! ### Writes (R77 to R79, R118) -/

theorem exec_write_admits {s : State} {ch : ChanId} {o : WrOp} {f : ReqFlit} (h : (s.chan ch).Admits (.write o) f) :
    exec (o.cmd ch f) s = .next (s.commitChan ch (((s.chan ch).admitted (.write o) f).captureWrite o f)) := by
  rw [WrOp.cmd_eq_laneCmd]
  exact exec_admits h nofun nofun

/-- WRX is accepted with its request: a whole line of poison (R79). -/
theorem Chan.captureWrite_wrx (c : Chan) (f : ReqFlit) : c.captureWrite .wrx f =
    ({ c with nextSeq := c.nextSeq + 1 } : Chan).acceptWrite { op := .wrx, f := f, seq := c.nextSeq } 0 allBytes true := by
  unfold Chan.captureWrite Chan.takeSeq
  rfl

/-- Settles O17: a write with a beat joins the beats expected, and WRX enters the write buffer. -/
theorem writesAreAccepted : Obligations.WritesAreAccepted := by
  refine ⟨?beat, ?wrx⟩
  case beat =>
    rintro s ch _ o f rfl ho hadmits
    exact exec_commit_eq (exec_write_admits hadmits) (Chan.captureWrite_eq ho)
  case wrx =>
    rintro s ch _ f w rfl rfl hadmits hserved
    have hexec := exec_write_admits hadmits
    rw [Chan.captureWrite_wrx] at hexec
    obtain ⟨h, q, hwrite, hq⟩ := Chan.acceptWrite_eq (c := { (s.chan ch).admitted (.write .wrx) f with
      nextSeq := (s.chan ch).nextSeq + 1 }) (w := { op := .wrx, f := f, seq := (s.chan ch).nextSeq }) (data := 0)
      (be := allBytes) (psn := true) hserved
    obtain ⟨hwq, hups⟩ := Chan.placeWr_congr (c := s.chan ch) (d := { (s.chan ch).admitted (.write .wrx) f with
      nextSeq := (s.chan ch).nextSeq + 1 }) rfl rfl rfl rfl
      ((s.chan ch).newWrite { op := .wrx, f := f, seq := (s.chan ch).nextSeq } 0 allBytes true)
    refine ⟨h, q, exec_commit_eq hexec ?_, hq⟩
    rw [← hwq, ← hups]
    exact hwrite

/-! ### Metadata and FLUSH (R92, R268) -/

theorem exec_md_admits {s : State} {ch : ChanId} {o : MdOp} {f : ReqFlit} (h : (s.chan ch).Admits (.md o) f) :
    exec (o.cmd ch f) s = .next (s.commitChan ch (({ (s.chan ch).admitted (.md o) f with
      nextSeq := (s.chan ch).nextSeq + 1 } : Chan).mdPart (.md o) f (s.chan ch).nextSeq)) := by
  rw [MdOp.cmd_eq_laneCmd]
  exact exec_admits h nofun nofun

theorem exec_flush_admits {s : State} {ch : ChanId} {f : ReqFlit} (h : (s.chan ch).Admits .flush f) :
    exec (.flush ch f) s = .next (s.commitChan ch (((s.chan ch).admitted .flush f).acceptFlush (ReqOp.flush.strip f))) := by
  have hcmd : Instr.flush ch f = laneCmd ch ReqOp.flush.opcode f := rfl
  rw [hcmd]
  exact exec_admits h nofun nofun

/-- A channel with a FLUSH of the numbered writes outstanding (R92). -/
def Chan.withFlush (c : Chan) (f : ReqFlit) (covers : List Nat) : Chan :=
  { c with
    nextSeq := c.nextSeq + 1,
    lane := { c.lane with
      flushes := c.lane.flushes ++ [{ tag := f.tag, cls := hostClass f.cls.toNat, seq := c.nextSeq, covers := covers }] } }

/-- A FLUSH with nothing to cover has its CMP ready at most four HCLK later (R92). -/
theorem Chan.acceptFlush_empty {c : Chan} {f : ReqFlit} (h : c.openWrites = []) : ∃ d, d ≤ 4 ∧
    c.acceptFlush f = ({ c.withFlush f [] with free := c.free + 1 } : Chan).push
      (plainRsp .cmp f.tag 0 (c.lane.hclk + d) (hostClass f.cls.toNat)) := by
  refine ⟨Config.errDelay c.free % 5, by omega, ?_⟩
  have hopen : ({ c with nextSeq := c.nextSeq + 1 } : Chan).openWrites = [] := h
  unfold Chan.acceptFlush Chan.takeSeq
  simp only [hopen, if_true]
  rfl

theorem Chan.acceptFlush_covers {c : Chan} {f : ReqFlit} (h : c.openWrites ≠ []) :
    c.acceptFlush f = (c.withFlush f c.openWrites).directAll := by
  have hopen : ({ c with nextSeq := c.nextSeq + 1 } : Chan).openWrites ≠ [] := h
  unfold Chan.acceptFlush Chan.takeSeq
  simp only [hopen, if_false]
  rfl

/-- Settles O19: a metadata request joins the Loft's input, and a FLUSH covers the open writes. -/
theorem metadataAndFlushEnter : Obligations.MetadataAndFlushEnter := by
  refine ⟨?md, ?flush⟩
  case md =>
    rintro s ch _ o f rfl hadmits
    exact exec_commit_eq (exec_md_admits hadmits) (Chan.mdPart_eq _ _ _ _)
  case flush =>
    rintro s ch _ f rfl hadmits
    have hexec := exec_flush_admits hadmits
    refine ⟨fun hnone => ?_, fun hsome => ?_⟩
    · obtain ⟨d, hd, hflush⟩ := Chan.acceptFlush_empty (c := (s.chan ch).admitted .flush f) (f := ReqOp.flush.strip f) hnone
      exact ⟨d, hd, exec_commit_eq hexec hflush⟩
    · have hflush := Chan.acceptFlush_covers (c := (s.chan ch).admitted .flush f) (f := ReqOp.flush.strip f) hsome
      obtain ⟨h, q, hq, hdirect⟩ :=
        (((s.chan ch).admitted .flush f).withFlush (ReqOp.flush.strip f) (s.chan ch).openWrites).directAll_eq
      exact ⟨h, q, exec_commit_eq hexec (hflush.trans hdirect), hq⟩

end Sys2Proof.Machine

/-! Write data: the beat that is taken, and where its write is placed (R78, R79, R91, R140, R141, R144). -/
namespace Sys2Proof.Machine

/-! ### The beat (R78, R102) -/

theorem exec_beat_open {s : State} {ch : ChanId} {b : Beat} (h : (s.chan ch).Open) :
    exec (.wdatBeat ch b) s = .next (s.commitChan ch ((s.chan ch).takeBeat b)) := by
  obtain ⟨hiso, hawake, -⟩ := h
  exact exec_commit_eq rfl (Chan.arrive_open hiso hawake)

/-- The beat of the oldest expected tag is taken, and accepts its write unless that was answered with ERR (R78, R100). -/
theorem Chan.takeBeat_expected {c : Chan} {b : Beat} {x : BeatExp} {xs : List BeatExp} (hd : c.down = false)
    (hb : c.lane.beats = x :: xs) (ht : x.tag = b.tag) : c.takeBeat b = match x.wr with
      | none => { c with lane := { c.lane with beats := xs } }
      | some w => ({ c with lane := { c.lane with beats := xs } } : Chan).acceptWrite w b.data b.be b.psn := by
  unfold Chan.takeBeat
  rw [if_neg (by simp [hd]), hb]
  exact if_neg (not_not_intro ht)

/-! ### The place of a write (R118, R140, R144) -/

/-- The merge state of a write in an entry of its own: complete if it is whole or poisoned, and in MERGE otherwise (R144). -/
theorem Chan.newWr_of_no {c : Chan} {w : WrEntry} (h : w.merge = .no) : c.newWr w =
    if w.psn then { w with line := 0, be := allBytes } else if w.be = allBytes then w
      else { w with merge := match c.olderWr w with | some o => .older o.seq | none => .need } := by
  unfold Chan.newWr
  rw [← h]
  cases c.olderWr w <;> rfl

/-- A write takes an entry behind an older one that it may not coalesce into (R140, R141; log entry 97). -/
theorem Chan.placeWr_behind {c : Chan} {w o : WrEntry} (h : c.olderWr w = some o)
    (hb : o.committed = true ∨ c.readWaitsOn o w = true ∨ (w.hosts ≠ [] ∧ c.beatWaits w.laddr w.ord = true)) :
    c.placeWr w = c.enqueueWr w := by
  unfold Chan.placeWr
  rw [h]
  refine if_neg ?_
  rcases hb with hb | hb | ⟨hh, hb⟩
  · simp [hb]
  · simp [hb]
  · simp [hb, hh]

/-- A write coalesces into the older one, and a full line writes every word again (R140, R230). -/
theorem Chan.placeWr_coalesces {c : Chan} {w o : WrEntry} (h : c.olderWr w = some o) (hc : o.committed = false)
    (hr : c.readWaitsOn o w = false) (hb : w.hosts = [] ∨ c.beatWaits w.laddr w.ord = false) :
    c.placeWr w = (if w.psn || w.be = allBytes then c.rewrite 0 o.seq else c).modWr o.seq fun x => coalesce x w := by
  unfold Chan.placeWr
  rw [h]
  refine if_pos ?_
  rcases hb with hb | hb
  · simp [hc, hr, hb]
  · simp [hc, hr, hb]

/-- Settles O18: the beat's write is accepted, and is placed beside, behind or in the older write of its line. -/
theorem writeDataIsPlaced : Obligations.WriteDataIsPlaced := by
  refine ⟨?beat, ?place⟩
  case beat =>
    rintro s ch _ b ⟨t, wr⟩ xs rfl ⟨hiso, hawake, hup⟩ hbeats htag hserved
    have hexec := exec_beat_open (b := b) ⟨hiso, hawake, hup⟩
    rw [Chan.takeBeat_expected hup hbeats htag] at hexec
    cases wr with
    | none => exact hexec
    | some w =>
      obtain ⟨h, q, hwrite, hq⟩ := Chan.acceptWrite_eq
        (c := { s.chan ch with lane := { (s.chan ch).lane with beats := xs } }) (w := w) (data := b.data) (be := b.be)
        (psn := b.psn) hserved
      exact ⟨h, q, exec_commit_eq hexec hwrite, hq⟩
  case place =>
    rintro c e _ hmerge rfl
    have hnew := Chan.newWr_of_no (c := c) (w := { e with idx := freeIdx (c.wq.map WrEntry.idx) }) hmerge
    have holder : c.olderWr { e with idx := freeIdx (c.wq.map WrEntry.idx) } = c.olderWr e := rfl
    refine ⟨fun ho => ?_, fun o ho hbehind => ?_, fun o ho hc hr hb => ?_⟩
    · rw [Chan.placeWr_new ho, Chan.enqueueWr, hnew, holder, ho]
    · rw [Chan.placeWr_behind ho hbehind, Chan.enqueueWr, hnew, holder, ho]
    · rw [Chan.placeWr_coalesces ho hc hr hb]
      by_cases hfull : e.psn = true ∨ e.be = allBytes
      · rw [if_pos (by simpa using hfull), if_pos hfull]
        rfl
      · rw [if_neg (by simpa using hfull), if_neg hfull]
        rfl

end Sys2Proof.Machine

/-! Requests and beats out of order, which RHP_PROTOCOL reports (R84, R85, R102). -/
namespace Sys2Proof.Machine

/-- A request without its credit, outside the grace after a CRST flit, is discarded (R85, R86). -/
theorem Chan.accept1_noCredit {c : Chan} {o : ReqOp} {f : ReqFlit} (hc : c.lacksCredit o (hostClass f.cls.toNat) = true)
    (hg : c.crstGrace = false) : c.accept1 o f = c.violation 0 f.tag := by
  unfold Chan.accept1
  dsimp only
  rw [if_pos hc, if_neg (by simp [hg])]

/-- A request whose tag is in use consumes its credits and is discarded (R84). -/
theorem Chan.accept1_tagInUse {c : Chan} {o : ReqOp} {f : ReqFlit} (hc : c.lacksCredit o (hostClass f.cls.toNat) = false)
    (ht : f.tag ∈ c.lane.inUse) : c.accept1 o f = (c.consume o (hostClass f.cls.toNat)).violation 1 f.tag := by
  unfold Chan.accept1
  dsimp only
  rw [if_neg (by simp [hc]), if_pos (by simpa [Chan.consume] using ht)]

theorem Chan.takeBeat_otherTag {c : Chan} {b : Beat} {x : BeatExp} {xs : List BeatExp} (hd : c.down = false)
    (hb : c.lane.beats = x :: xs) (ht : x.tag ≠ b.tag) : c.takeBeat b = c.violation 2 b.tag := by
  unfold Chan.takeBeat
  rw [if_neg (by simp [hd]), hb]
  exact if_pos ht

theorem Chan.takeBeat_unexpected {c : Chan} {b : Beat} (hd : c.down = false) (hb : c.lane.beats = []) :
    c.takeBeat b = c.violation 3 b.tag := by
  unfold Chan.takeBeat
  rw [if_neg (by simp [hd]), hb]

/-- Settles O21: each of the four kinds is discarded and reported. -/
theorem violationIsDiscarded : Obligations.ViolationIsDiscarded := by
  rintro s ch _ rfl hopen
  obtain ⟨hiso, hawake, hup⟩ := hopen
  refine ⟨?request, fun b x xs hbeats htag => ?_, fun b hbeats => ?_⟩
  case request =>
    rintro op _ f rfl h1 h2
    have harrive := Chan.arrive_req (e := s.env) (f := f) h1 h2 hiso hawake
    rw [if_neg (by simp [hup])] at harrive
    refine ⟨fun hlacks hgrace => ?_, fun hheld hwheld htag => ?_⟩
    · have hcredit : (s.chan ch).lacksCredit (reqOpOf op.toNat) (hostClass f.cls.toNat) = true := by
        simpa [Chan.lacksCredit] using hlacks
      have hanswer := Chan.accept1_noCredit (f := (reqOpOf op.toNat).strip f) (by rwa [ReqOp.strip_cls]) hgrace
      rw [ReqOp.strip_tag] at hanswer
      exact exec_commit_eq (laneCmd_exec s ch op f) (harrive.trans hanswer)
    · have hcredit := Chan.lacksCredit_of_held hheld hwheld
      have hanswer := Chan.accept1_tagInUse (f := (reqOpOf op.toNat).strip f) (by rwa [ReqOp.strip_cls])
        (by rwa [ReqOp.strip_tag])
      rw [ReqOp.strip_cls, ReqOp.strip_tag] at hanswer
      exact exec_commit_eq (laneCmd_exec s ch op f) (harrive.trans hanswer)
  · exact exec_commit_eq (exec_beat_open ⟨hiso, hawake, hup⟩) (Chan.takeBeat_otherTag hup hbeats htag)
  · exact exec_commit_eq (exec_beat_open ⟨hiso, hawake, hup⟩) (Chan.takeBeat_unexpected hup hbeats)

end Sys2Proof.Machine

/-! SCONF and SCAN: what becomes of a speculative read (R94, R95, R104). -/
namespace Sys2Proof.Machine

/-! ### On an open lane each is counted as a request and looks for the RDS of its tag -/

theorem exec_sconf_open {s : State} {ch : ChanId} {f : ReqFlit} (h : (s.chan ch).Open) : exec (.sconf ch f) s =
    .next (s.commitChan ch (((s.chan ch).log (occR 0x02 0 (hostClass f.cls.toNat) f.priv.toNat 8 0)).confirm s.env f.tag)) := by
  obtain ⟨hiso, hawake, hup⟩ := h
  exact exec_commit_eq rfl ((Chan.arrive_open hiso hawake).trans (if_neg (by simp [hup])))

theorem exec_scan_open {s : State} {ch : ChanId} {f : ReqFlit} (h : (s.chan ch).Open) : exec (.scan ch f) s =
    .next (s.commitChan ch (((s.chan ch).log (occR 0x02 0 (hostClass f.cls.toNat) f.priv.toNat 8 0)).cancel s.env f.tag)) := by
  obtain ⟨hiso, hawake, hup⟩ := h
  exact exec_commit_eq rfl ((Chan.arrive_open hiso hawake).trans (if_neg (by simp [hup])))

/-! ### SCONF (R94) -/

/-- A read whose line has not come into the hold is marked confirmed (R94). -/
theorem Chan.confirm_marks {c : Chan} {e : Env} {t : Tag} {r : RdEntry} (h : c.findRds t = some r) (hs : r.stage ≠ .inHold) :
    c.confirm e t = c.modRd r.seq fun x => { x with rds := .confirmed } := by
  unfold Chan.confirm
  rw [h]
  dsimp only
  split
  · next hstage _ => exact absurd hstage hs
  · rfl

/-- A forwarded line sets nothing in motion (R258). -/
theorem Chan.resolved_forwarded {c : Chan} {e : Env} {r : RdEntry} (h : r.colOrd = 0) (src : Nat) : c.resolved e r src = c := by
  unfold Chan.resolved
  cases r.result with
  | none => rfl
  | some d => exact if_pos h

/-- A forwarded line in the hold leaves as DATA (R94). -/
theorem Chan.confirm_sends {c : Chan} {e : Env} {t : Tag} {r : RdEntry} {d : Decoded} (h : c.findRds t = some r)
    (hs : r.stage = .inHold) (hd : r.result = some d) (hf : r.colOrd = 0) :
    c.confirm e t = (c.modRd r.seq fun x => { x with rds := .confirmed, stage := .answered }).push (dataRsp r d c.lane.hclk) := by
  unfold Chan.confirm
  rw [h]
  simp only [hs, hd, Chan.resolved_forwarded hf]

/-! ### SCAN (R95, R104) -/

/-- What SCAN does to any RDS: its tag is free, and its line counts as saved before its column command and as wasted after it
(R84, R95). -/
def Chan.scanned (c : Chan) (t : Tag) (r : RdEntry) : Chan :=
  (c.freeTag t).log (occR (if r.colOrd != 0 then 0x10 else 0x0F) r.dev.bank.sub.num r.cls r.priv r.req r.laddr)

/-- The counter event of SCAN: a line saved without a column command, and one wasted with one (R95, R376). -/
theorem scanCode_eq (n : Nat) : (if n != 0 then 0x10 else 0x0F) = if n = 0 then 0x0F else 0x10 := by
  by_cases h : n = 0 <;> simp [h]

/-- A read on its way is marked cancelled; the hold entry of a captured line is free at once (R104). -/
theorem Chan.cancel_onItsWay {c : Chan} {e : Env} {t : Tag} {r : RdEntry} (h : c.findRds t = some r)
    (hs : r.stage = .issued ∨ r.stage = .captured) : c.cancel e t = (c.scanned t r).modRd r.seq fun x =>
      { x with rds := .cancelled, reserved := x.reserved && r.stage == .issued } := by
  unfold Chan.cancel Chan.scanned
  rcases hs with hs | hs
  · have hkeep : ∀ b : Bool, (b && RdStage.issued == .issued) = b := fun b => Bool.and_true b
    simp only [h, hs, hkeep]
  · have hfree : ∀ b : Bool, (b && RdStage.captured == .issued) = false := fun b => Bool.and_false b
    simp only [h, hs, hfree]

/-- A forwarded read in the hold is removed (R95). -/
theorem Chan.cancel_forwarded {c : Chan} {e : Env} {t : Tag} {r : RdEntry} (h : c.findRds t = some r) (hs : r.stage = .inHold)
    (hf : r.colOrd = 0) : c.cancel e t = ((c.scanned t r).dropRd r.seq).directAll := by
  unfold Chan.cancel Chan.scanned
  simp only [h, hs, Chan.resolved_forwarded hf]

/-- A read that waits, with no command in the plan, is removed (R95). -/
theorem Chan.cancel_waiting {c : Chan} {e : Env} {t : Tag} {r : RdEntry} (h : c.findRds t = some r)
    (hs : r.stage = .queued ∨ r.stage = .waitBeat) (hp : c.planned.filter (fun k => k.src == .read r.seq) = []) :
    c.cancel e t = ((c.scanned t r).dropRd r.seq).directAll := by
  have hdrop : (c.scanned t r).drop (fun k => k.src == .read r.seq) = c.scanned t r := Chan.drop_none hp
  unfold Chan.scanned at hdrop ⊢
  unfold Chan.cancel
  rcases hs with hs | hs
  · simp only [h, hs, hdrop]
  · simp only [h, hs, hdrop]

/-- What the removal of an RDS leaves (R84, R95). -/
theorem Chan.scanned_removed (c : Chan) (t : Tag) (r : RdEntry) : ∃ h q,
    ((c.scanned t r).dropRd r.seq).directAll = { c with
      occ := c.occ ++ (occR (if r.colOrd = 0 then 0x0F else 0x10) r.dev.bank.sub.num r.cls r.priv r.req r.laddr :: q),
      lane := { c.lane with inUse := c.lane.inUse.erase t }, rq := c.rq.filter fun x => x.seq != r.seq, sched := h } ∧
    Drains q := by
  obtain ⟨h, q, hq, hdirect⟩ := ((c.scanned t r).dropRd r.seq).directAll_eq
  refine ⟨h, q, hdirect.trans ?_, hq⟩
  simp only [scanCode_eq, Chan.scanned, Chan.log, Chan.freeTag, Chan.dropRd, List.append_assoc, List.singleton_append]

/-- Settles O22: SCONF and SCAN by the stage in which they find the read. -/
theorem speculativeReadIsResolved : Obligations.SpeculativeReadIsResolved := by
  rintro s ch _ f r o rfl hopen hfind ho
  have hconf := exec_sconf_open (f := f) hopen
  have hscan := exec_scan_open (f := f) hopen
  rw [← ho] at hconf hscan
  have hfound : ((s.chan ch).log o).findRds f.tag = some r := hfind
  obtain ⟨h, q, hremoved, hq⟩ := ((s.chan ch).log o).scanned_removed f.tag r
  simp only [Chan.log, List.append_assoc, List.singleton_append] at hremoved
  refine ⟨fun hs => ?_, fun d hs hd hf => ?_, fun hs => ?_, fun hs hf => ?_, fun hs hp => ?_⟩
  · exact exec_commit_eq hconf (Chan.confirm_marks hfound hs)
  · exact exec_commit_eq hconf (Chan.confirm_sends hfound hs hd hf)
  · refine exec_commit_eq hscan ((Chan.cancel_onItsWay hfound hs).trans ?_)
    simp only [scanCode_eq, Chan.scanned, Chan.log, Chan.freeTag, Chan.modRd, List.append_assoc, List.singleton_append]
  · rw [if_pos hf] at hremoved
    exact ⟨h, q, exec_commit_eq hscan ((Chan.cancel_forwarded hfound hs hf).trans hremoved), hq⟩
  · exact ⟨h, q, exec_commit_eq hscan ((Chan.cancel_waiting hfound hs hp).trans hremoved), hq⟩

end Sys2Proof.Machine

/-! An HCLK edge of a lane, the completions that fall due, and the FLUSH that is done (R83, R84, R91, R92, R199). -/
namespace Sys2Proof.Machine

/-! ### The flit of an edge (R80, R83, R334) -/

/-- The state after an edge of a lane: the edge of lane 0 also ends the management lane's response and is counted (R112,
R377). -/
theorem exec_responseSend {s : State} {ch : ChanId} {d : Chan} (h : (s.chan ch).hclkEdge s.env = d) :
    exec (.responseSend ch) s = .next (if ch = 0 then
      ({ s.commitChan ch d with mgt := { (s.commitChan ch d).mgt with rspV := false } } : State).blkCount 0xC0 1
      else s.commitChan ch d) := by
  subst h
  rfl

theorem Chan.hclkEdge_closed {c : Chan} {e : Env} (h : c.atEdge.linkOpen = false) :
    c.hclkEdge e = { c.atEdge with lane := { c.atEdge.lane with out := none } } := by
  unfold Chan.hclkEdge
  exact if_neg (by simp [h])

theorem Chan.hclkEdge_open {c : Chan} {e : Env} (h : c.atEdge.linkOpen = true) : c.hclkEdge e = c.atEdge.sendFlit e := by
  unfold Chan.hclkEdge
  exact if_pos h

/-- With nothing to send and nothing to grant no flit leaves (R83). -/
theorem Chan.sendFlit_idle {c : Chan} {e : Env} (hc : c.lane.crstDue = false) (hp : c.lane.pick = none)
    (hg : c.grant e.win = none) (hw : c.wgrant = 0) : c.sendFlit e = { c with lane := { c.lane with out := none } } := by
  unfold Chan.sendFlit
  simp only [hc, hp, hg, hw, Bool.false_and, Bool.false_eq_true, if_false, Option.isSome_none, Bool.or_self, lt_irrefl,
    decide_false]

/-- A plain ERR leaves with the credits granted and frees its tag (R84). -/
theorem Chan.sendFlit_err {c : Chan} {e : Env} {r : Rsp} (hc : c.lane.crstDue = false) (hp : c.lane.pick = some r)
    (hr : r.ty = .err) (hs : r.status ≠ errCmdFail) (ha : c.answeredRd r.tag = none)
    (ho : (c.loft.ops.any fun o => o.tag == r.tag && o.sent) = false) : c.sendFlit e = { c with
      lane := { (c.giveCredits (c.grant e.win) c.wgrant).lane with
        ready := c.lane.ready.erase r, inUse := c.lane.inUse.erase r.tag, out := some (flitOf r (c.grant e.win) c.wgrant) },
      occ := c.occ ++ [occR 0x19 0 r.cls r.priv r.req r.laddr] } := by
  have hsent : ∀ d : Chan, d.sent r = d.errSent r := fun d => by unfold Chan.sent; rw [hr]
  unfold Chan.sendFlit
  simp only [hc, hp, Bool.false_and, Bool.false_eq_true, if_false, hr, reduceCtorEq, or_self, hsent]
  rw [Chan.errSent_plain hs (by exact ha) (by exact ho)]
  simp only [Chan.giveCredits, flitOf]

/-! ### Completions (R91) -/

theorem Chan.cmpDue_eq (c : Chan) : c.cmpDue = { c with lane := { c.lane with
    cmps := c.lane.cmps.filter fun p => decide (c.lane.hclk < p.2),
    ready := c.lane.ready ++ (c.lane.cmps.filter fun p => decide (p.2 ≤ c.lane.hclk)).map fun p =>
      plainRsp .cmp p.1 0 p.2 0 } } := by
  unfold Chan.cmpDue
  dsimp only
  rw [foldl_push]
  simp only [← decide_not, not_le]

/-! ### FLUSH (R92) -/

theorem Chan.flushDone_ready {c : Chan} {f : FlushRec} (h : c.lane.flushes.find? c.flushReady = some f) :
    c.flushDone = c.push (plainRsp .cmp f.tag 0 c.lane.hclk f.cls) := by
  unfold Chan.flushDone
  rw [h]

theorem Chan.flushDone_none {c : Chan} (h : c.lane.flushes.find? c.flushReady = none) : c.flushDone = c := by
  unfold Chan.flushDone
  rw [h]

/-- Settles O24: what an edge readies and sends, by what the lane has to send; then CMP_SEND and FLUSH_COMPLETE. -/
theorem laneSendsWhatIsDue : Obligations.LaneSendsWhatIsDue := by
  refine ⟨?edge, ?due⟩
  case edge =>
    rintro s ch _ _ _ rfl rfl rfl
    refine ⟨fun hearly => ?_, fun hclosed => exec_responseSend (Chan.hclkEdge_closed hclosed), ?_⟩
    · simpa only [← decide_not, not_le] using Chan.atEdge_eq hearly
    · rintro _ _ hopen hcrst rfl rfl
      have hsend {d : Chan} (h : (s.chan ch).atEdge.sendFlit s.env = d) :=
        exec_responseSend ((Chan.hclkEdge_open hopen).trans h)
      refine ⟨fun hpick hgrant hwgrant => ?_, fun r hpick hty hstatus hread hop => ?_,
        fun r hpick hty e hread hkind hsound => ?_⟩
      · exact hsend (Chan.sendFlit_idle hcrst hpick hgrant hwgrant)
      · exact hsend (Chan.sendFlit_err hcrst hpick hty hstatus hread hop)
      · exact hsend (Chan.sendFlit_data hpick hcrst hty hread hkind hsound)
  case due =>
    rintro s ch _ rfl
    exact ⟨exec_commit_eq rfl (Chan.cmpDue_eq _), fun f hf => exec_commit_eq rfl (Chan.flushDone_ready hf),
      fun hnone => exec_commit_eq rfl (Chan.flushDone_none hnone)⟩

end Sys2Proof.Machine

/-! A read burst: its word is captured, and its decoded line is held or answered (R94, R97, R98, R225, R235). -/
namespace Sys2Proof.Machine

/-! ### Capture (R97, R225, R233) -/

/-- With no read injection armed a word passes as it came (R233). -/
theorem Chan.inject_unarmed {c : Chan} {mode : Nat} (h : c.prot.flipRemain = 0 ∨ c.prot.flipMode ≠ mode) (s : Sub)
    (host : Bool) (w : CodeWord) : c.inject mode s host w = (w, c) := by
  unfold Chan.inject
  refine if_neg ?_
  rintro ⟨hmode, hremain, -⟩
  exact h.elim hremain fun hne => hne hmode

theorem Chan.wordOf_eq {c : Chan} {s : Sub} {p : PinBurst} {w : CodeWord} (hi : ∀ i, c.img = some i → i.ofPins s p = w)
    (hn : c.img = none → w = 0) : c.wordOf s p = w := by
  unfold Chan.wordOf
  split
  · next i himg => exact hi i himg
  · next himg => exact (hn himg).symm

/-- A burst that is over, with a sound read CRC, is the word of its read (R225). -/
theorem Chan.capture_read {c : Chan} {s : Sub} {p : PinBurst} {ok : Bool} {e : Env} {r : RdEntry}
    (hb : c.nextBurst s = some (.read r)) (ht : r.pinTime + c.fab.rl + c.fab.bld ≤ c.dclk) (hok : c.rcrc = true → ok = true) :
    c.capture s p ok e = c.captureRead s r (c.wordOf s p) := by
  have hgood : (c.rcrc && !ok) = false := by
    cases hcrc : c.rcrc
    · rfl
    · rw [hok hcrc]; rfl
  unfold Chan.capture
  rw [hb]
  exact (if_neg (Nat.not_lt.mpr ht)).trans (if_neg (by simp [hgood]))

/-- The word is kept, and leaves as EDATA where it may (R97). -/
theorem Chan.captureRead_unarmed {c : Chan} {s : Sub} {r : RdEntry} {w : CodeWord}
    (h : c.prot.flipRemain = 0 ∨ c.prot.flipMode ≠ 2) : c.captureRead s r w = { c with
      rq := updateWhere (fun x => x.seq == r.seq)
        (fun x => { x with
          stage := .captured, word := w, edata := c.mayEdata r, reserved := x.reserved && x.rds != .cancelled }) c.rq,
      lane := { c.lane with
        ready := c.lane.ready ++ if c.mayEdata r then
          [{ ty := .edata, tag := r.tag, status := 0, poison := false, mdval := 0, line := some (BitVec.ofNat 512 w.toNat),
             due := c.lane.hclk, cls := r.cls, priv := r.priv, req := r.req, laddr := r.laddr }] else [] } } := by
  unfold Chan.captureRead
  rw [Chan.inject_unarmed h]
  dsimp only
  cases c.mayEdata r
  · simp only [Bool.false_eq_true, if_false, List.append_nil, Chan.modRd]
  · rfl

/-! ### Decode (R94, R98, R217, R235) -/

theorem Chan.classify_read {c : Chan} {s : Sub} {e : Env} {r : RdEntry} {w : CodeWord} (h : c.nextWord s = some (.read r, w)) :
    c.classify s e = (c.countOutcome s (decode c.x8 (c.mark s) w).outcome).decodedRd e r (decode c.x8 (c.mark s) w) := by
  unfold Chan.classify
  rw [h]

/-- An RDS that is not resolved enters the hold (R94). -/
theorem Chan.decodedRd_unresolved {c : Chan} {e : Env} {r : RdEntry} {o : RdOp} {d : Decoded} (hk : r.kind = .host o)
    (hr : r.rds = .unresolved) : c.decodedRd e r d = c.modRd r.seq fun x => { x with stage := .inHold, result := some d } := by
  unfold Chan.decodedRd
  simp only [hk, hr, if_true]

theorem Chan.countOutcome_clean (c : Chan) (s : Sub) : c.countOutcome s .clean = c := rfl

/-- A clean line sets nothing in motion but its answer (R235). -/
theorem Chan.decodedRd_clean {c : Chan} {e : Env} {r : RdEntry} {o : RdOp} {d : Decoded} (hk : r.kind = .host o)
    (hr : r.rds = .na ∨ r.rds = .confirmed) (hd : d.outcome = .clean) : c.decodedRd e r d = c.answerRd r d := by
  have hquiet : ∀ g : Origin, c.consequence e g d = c := fun g => by
    unfold Chan.consequence
    rw [hd]
    rfl
  unfold Chan.decodedRd
  rcases hr with hr | hr
  · simp only [hk, hr, hquiet, reduceCtorEq, if_false]
  · simp only [hk, hr, hquiet, reduceCtorEq, if_false]

/-- A clean line leaves as SETTLE after its EDATA, and as DATA otherwise (R98). -/
theorem Chan.answerRd_clean {c : Chan} {r : RdEntry} {d : Decoded} (hd : d.outcome = .clean) :
    c.answerRd r d = (c.modRd r.seq fun x => { x with stage := .answered, result := some d }).push
      (if r.edata then { dataRsp r d c.lane.hclk with ty := .settle, line := none, status := 0 }
        else dataRsp r d c.lane.hclk) := by
  unfold Chan.answerRd
  cases r.edata
  · rfl
  · simp only [hd, if_true, Bool.not_true, Bool.false_eq_true, if_false]
    rfl

/-- Settles O27: the burst of a read is captured, and its decoded line is held or answered. -/
theorem burstsAreDecoded : Obligations.BurstsAreDecoded := by
  refine ⟨?capture, ?decode⟩
  case capture =>
    rintro s ch _ sb x w ok r rfl hburst hover hcrc hflip himg hnone
    have hword := Chan.wordOf_eq himg hnone
    have hcapture := Chan.capture_read (p := x) (e := s.env) hburst hover hcrc
    rw [hword] at hcapture
    exact exec_commit_eq rfl (hcapture.trans (Chan.captureRead_unarmed hflip))
  case decode =>
    rintro s ch _ sb w r o _ rfl hnext rfl hkind
    have hclassify := Chan.classify_read (e := s.env) hnext
    refine ⟨fun hrds => exec_commit_eq rfl (hclassify.trans (Chan.decodedRd_unresolved hkind hrds)), fun hclean hrds => ?_⟩
    rw [hclean, Chan.countOutcome_clean, Chan.decodedRd_clean hkind hrds hclean, Chan.answerRd_clean hclean] at hclassify
    exact exec_commit_eq rfl hclassify

end Sys2Proof.Machine

/-! The time of a bank that has run out, and the age of a waiting read (R119, R120, R123, R124). -/
namespace Sys2Proof.Machine

/-! ### Banks (R119, R120, R148) -/

theorem Chan.expire_opening {c : Chan} {b : Bank} (hst : (c.bank b).st = .opening)
    (ht : c.timeOut b [.act] [.rd, .wr] = true) : c.expire b = c.setBank b { c.bank b with st := .opened } := by
  simp only [Chan.expire, hst, ht, if_true]

theorem Chan.expire_closing {c : Chan} {b : Bank} (hst : (c.bank b).st = .closing)
    (ht : c.timeOut b [.prepb, .presb, .preab, .rda, .wra] [.act] = true) :
    c.expire b = c.setBank b (c.restBank b (c.bank b)) := by
  simp only [Chan.expire, hst, ht, if_true]

theorem Chan.expire_refreshing {c : Chan} {b : Bank} (hst : (c.bank b).st = .refreshing)
    (ht : c.timeOut b [.refab, .refsb, .rfmab, .rfmsb] [.act] = true) :
    c.expire b = c.setBank b { c.restBank b (c.bank b) with claim := false } := by
  simp only [Chan.expire, hst, ht, if_true]

/-- A bank on whose rank no pause runs rests in IDLE. -/
theorem Chan.restBank_idle {c : Chan} {b : Bank} (hp : c.pausedBank b = false) (x : BankEntry) :
    c.restBank b x = { x with st := .idle, row := 0, hits := 0 } := by
  simp only [Chan.restBank, hp, Bool.false_eq_true, if_false]

theorem Chan.expire_paused {c : Chan} {b : Bank} (hst : (c.bank b).st = .paused) (hp : c.pausedBank b = false)
    (ht : c.timeOut b [.prepb, .presb, .preab, .rda, .wra, .mpc] [.act] = true) :
    c.expire b = c.setBank b { c.bank b with st := .idle, row := 0, hits := 0, claim := false } := by
  simp only [Chan.expire, hst, hp, ht, Bool.not_false, Bool.and_self, if_true, Chan.restBank_idle hp]

/-- Writing the entry of one bank leaves the entry of every other as it was (R119). -/
theorem Chan.bank_setBank_ne {c : Chan} {b x : Bank} {e : BankEntry} (hne : x.key ≠ b.key)
    (hkeys : ∀ p ∈ c.banks, p.1.key = b.key → p.1 = b) : (c.setBank b e).bank x = c.bank x := by
  have hfind : (c.setBank b e).banks.find? (fun p => p.1 == x) = c.banks.find? fun p => p.1 == x := by
    unfold Chan.setBank
    by_cases hidle : e = BankEntry.idle
    · simpa only [hidle, if_true] using find?_filter_ne hne c.banks
    · simpa only [hidle, if_false] using find?_insertBank hne e c.banks hkeys
  unfold Chan.bank
  rw [hfind]

/-! ### Urgency (R123, R124) -/

/-- The urgency of a read that is not the Thatcher's follows from its age and the target of its class. -/
theorem Chan.urgency_eq {c : Chan} {r : RdEntry} (hk : r.kind ≠ .thatcher) :
    c.urgency r = if c.target r.cls ≤ r.age then 3 else if c.target r.cls * c.sched.thr2 / 100 ≤ r.age then 2
      else if c.target r.cls * c.sched.thr1 / 100 ≤ r.age then 1 else 0 :=
  if_neg hk

/-- A waiting read rises to the urgency of its age, and a host read that passes 2 is counted; none falls (R123, R124). -/
theorem Chan.escalate_waiting {c : Chan} {n : Nat} {r : RdEntry} (hr : c.findRd n = some r)
    (hw : r.stage = .queued ∨ r.stage = .waitBeat) :
    c.escalate n = if c.urgency r ≤ r.urg then c else { c with
      rq := updateWhere (fun x => x.seq == n) (fun x => { x with urg := c.urgency r }) c.rq,
      occ := c.occ ++ if 2 ≤ c.urgency r ∧ r.urg < 2 ∧ r.isHost = true
        then [occR 0x11 r.dev.bank.sub.num r.cls r.priv r.req r.laddr] else [] } := by
  have hwaits : (r.stage == .queued || r.stage == .waitBeat) = true := by simpa using hw
  unfold Chan.escalate
  simp only [hr, hwaits, Bool.not_true, Bool.or_false, decide_eq_true_eq, Bool.and_eq_true, and_assoc]
  by_cases hu : c.urgency r ≤ r.urg
  · rw [if_pos hu, if_pos hu]
  · rw [if_neg hu, if_neg hu]
    by_cases hcount : 2 ≤ c.urgency r ∧ r.urg < 2 ∧ r.isHost = true
    · rw [if_pos hcount, if_pos hcount]
      rfl
    · rw [if_neg hcount, if_neg hcount, List.append_nil]
      rfl

/-- Settles O25: a bank by the state that its time finds it in, and a read by the urgency of its age. -/
theorem queueTimersRun : Obligations.QueueTimersRun := by
  refine ⟨?banks, ?reads⟩
  case banks =>
    rintro s ch _ b rfl
    refine ⟨fun hst ht => ?opening, fun hst ht => ?closing, fun hst ht => ?refreshing, fun hst hp ht => ?paused,
      fun x e hne hkeys => Chan.bank_setBank_ne hne hkeys⟩
    case opening => exact onCh (Chan.expire_opening hst ht)
    case closing => exact onCh (Chan.expire_closing hst ht)
    case refreshing => exact onCh (Chan.expire_refreshing hst ht)
    case paused => exact onCh (Chan.expire_paused hst hp ht)
  case reads =>
    rintro s ch _ n r _ u rfl hr hk hw rfl hu
    obtain rfl := hu.trans (Chan.urgency_eq hk).symm
    exact onCh (Chan.escalate_waiting hr hw)

end Sys2Proof.Machine

/-! Writes that leave MERGE, and writes that leave the queue (R117, R139, R144, R228). -/
namespace Sys2Proof.Machine

/-! ### What the buffer of a write gives (R144, R230) -/

theorem Chan.findWr_seq {c : Chan} {n : Nat} {w : WrEntry} (hw : c.findWr n = some w) : w.seq = n := by
  simpa using List.find?_some hw

/-- A buffered line without a flipped bit is read out as it is. -/
theorem Chan.readBuf_sound {c : Chan} {w : WrEntry} (h : c.flaws 0 w.seq = []) : c.readBuf w = (false, c) :=
  Chan.readOut_sound h ..

/-- The writes that wait for an entry that reads out soundly take its bytes (R144). -/
theorem Chan.copyDependents_sound {c : Chan} {w : WrEntry}
    (h : (c.wq.any fun x => x.merge == .older w.seq) = true → c.flaws 0 w.seq = []) :
    c.copyDependents w = { c with
      wq := c.wq.map fun x => if x.merge = .older w.seq then { copyOld w false x with merge := .merged } else x } := by
  unfold Chan.copyDependents
  by_cases hdep : (c.wq.any fun x => x.merge == .older w.seq) = true
  · rw [if_pos hdep, Chan.readBuf_sound (h hdep)]
  · have hnone : ∀ x ∈ c.wq, x.merge ≠ .older w.seq := by simpa using hdep
    rw [if_neg hdep, List.map_congr_left fun x hx => if_neg (hnone x hx), List.map_id']

/-- A command that changes the write queue, and then looks at the waiting reads, of which there are none, and at the
direction, leaves the new queue and what entering DRAIN changes. -/
theorem waiting_served {s : State} {ch : ChanId} {f : Env → Chan → Chan} {l : List WrEntry}
    (hnone : ∀ r ∈ (s.chan ch).rq, r.stage ≠ .waitBeat)
    (hf : f s.env (s.chan ch) = (({ s.chan ch with wq := l } : Chan).serveWaiting 2).directAll) :
    ∃ h q, (Host.Outcome.next (s.onChan ch f) : Res) = .next (s.commitChan ch { s.chan ch with
      wq := l, sched := h, occ := (s.chan ch).occ ++ q }) ∧ Drains q := by
  obtain ⟨h, q, hq, hd⟩ := serve_direct (c := { s.chan ch with wq := l }) (n := 2) hnone
  exact ⟨h, q, onCh (hf.trans hd), hq⟩

/-! ### Leaving MERGE (R139, R144) -/

/-- A write that has its word leaves MERGE. -/
theorem Chan.mergeDone_merged {c : Chan} {n : Nat} {w : WrEntry} (hw : c.findWr n = some w) (hm : w.merge = .merged) :
    c.mergeDone n = ((c.modWr n fun x => { x with merge := .no }).serveWaiting 2).directAll := by
  simp only [Chan.mergeDone, hw, hm]

/-- A write leaves MERGE with the bytes of the older write of its line, once that is complete. -/
theorem Chan.mergeDone_older {c : Chan} {n m : Nat} {w o : WrEntry} (hw : c.findWr n = some w) (hm : w.merge = .older m)
    (ho : c.findWr m = some o) (hdone : o.merge = .no) (hsound : c.flaws 0 o.seq = []) :
    c.mergeDone n = ((c.modWr n fun x => { copyOld o false x with merge := .no }).serveWaiting 2).directAll := by
  have hcomplete : o.complete = true := by simp [WrEntry.complete, hdone]
  simp only [Chan.mergeDone, hw, hm, ho, hcomplete, if_true, Chan.readBuf_sound hsound]

/-! ### Leaving the queue (R117) -/

/-- A write has passed the point of no retry once it is committed and driven, owes no resend and no merge read, and its burst
or its CRC window is over. -/
theorem Chan.released_iff (c : Chan) (w : WrEntry) : c.released w = true ↔
    w.committed = true ∧ w.onPins = true ∧ w.resend = false ∧ w.mread = .none ∧
      (if c.imgBit ChanImg.wcrc then decide (w.pinTime + c.fab.wl + c.fab.bld + c.err.crcWin < c.dclk)
        else decide (w.pinTime + c.fab.wl + c.fab.bld ≤ c.dclk)) = true := by
  have hunfold : c.released w = (w.committed && w.onPins && !w.resend && w.mread == .none &&
      if c.imgBit ChanImg.wcrc then decide (w.pinTime + c.fab.wl + c.fab.bld + c.err.crcWin < c.dclk)
        else decide (w.pinTime + c.fab.wl + c.fab.bld ≤ c.dclk)) := rfl
  simp only [hunfold, Bool.and_eq_true, Bool.not_eq_true', beq_iff_eq, and_assoc]

theorem Chan.releaseWr_stays {c : Chan} {n : Nat} {w : WrEntry} (hw : c.findWr n = some w) (h : c.released w = false) :
    c.releaseWr n = c := by
  simp only [Chan.releaseWr, hw, h, Bool.false_eq_true, if_false]

theorem Chan.releaseWr_leaves {c : Chan} {n : Nat} {w : WrEntry} (hw : c.findWr n = some w) (h : c.released w = true) :
    c.releaseWr n = (((c.copyDependents w).dropWr n).serveWaiting 2).directAll := by
  simp only [Chan.releaseWr, hw, h, if_true]

/-- Settles O26: the two ends of MERGE and the release, by what each makes of the write queue. -/
theorem writesLeaveTheQueue : Obligations.WritesLeaveTheQueue := by
  rintro s ch _ n w rfl hw hnone
  refine ⟨fun hm => ?merged, fun m o hm ho hdone hsound => ?older, ?release⟩
  case merged => exact waiting_served hnone (Chan.mergeDone_merged hw hm)
  case older => exact waiting_served hnone (Chan.mergeDone_older hw hm ho hdone hsound)
  case release =>
    rintro _ _ rfl rfl
    refine ⟨fun hcom hpins hres hread hgone hsound => ?_, fun hopen => ?_⟩
    · have hleaves := Chan.releaseWr_leaves hw ((Chan.released_iff _ w).mpr ⟨hcom, hpins, hres, hread, hgone⟩)
      rw [← Chan.findWr_seq hw] at hsound hleaves ⊢
      rw [Chan.copyDependents_sound hsound] at hleaves
      exact waiting_served hnone hleaves
    · have hstays : (s.chan ch).released w = false :=
        Bool.eq_false_iff.mpr fun h => by
          obtain ⟨-, -, -, -, hgone⟩ := (Chan.released_iff _ w).mp h
          exact Bool.false_ne_true (hopen.symm.trans hgone)
      exact onCh (Chan.releaseWr_stays hw hstays)

end Sys2Proof.Machine

/-! The registers of the scheduler, the audit and upkeep (R150, R169, R171, R189, R430), and what the status registers of a
channel show (R116, R337, R348, R355). -/
namespace Sys2Proof.Machine

/-! ### Writes (R150, R430) -/

/-- With no speculative ACT planned, or with SPEC_OPEN kept, a write of CH_SCHED_CTL sets its fields and looks at the
direction. -/
theorem Chan.schedWrite_ctl {c : Chan} {w : Word} (h : bitAt w.toNat 17 = true ∨ ∀ k ∈ c.planned, k.specAct = false) :
    c.schedWrite .ctl w = ({ c with sched := { c.sched with
      specOpen := bitAt w.toNat 17, bypass := bitAt w.toNat 16, wmHigh := clampTo 2 127 (bitsAt w.toNat 8 8),
      wmLow := clampTo 1 (clampTo 2 127 (bitsAt w.toNat 8 8) - 1) (bitsAt w.toNat 0 8) } } : Chan).directAll := by
  unfold Chan.schedWrite
  dsimp only
  by_cases hspec : bitAt w.toNat 17 = true
  · rw [if_pos hspec]
  · have hplanned := h.resolve_left hspec
    rw [if_neg hspec, Chan.drop_none (List.filter_eq_nil_iff.mpr fun k hk => by simp [hplanned k hk])]

/-- A POSTPONE above 4 is 4, and each account takes the new limit at once unless that would raise it or bring a deadline
(R430). -/
theorem Chan.setPostpone_eq {c : Chan} {w : Word} {n : Nat} (hn : c.limitOf (min 4 (bitsAt w.toNat 0 3)) = n) :
    c.setPostpone w = { c with upk := { c.upk with
      postpone := min 4 (bitsAt w.toNat 0 3),
      accounts := c.upk.accounts.map fun a =>
        if a.lp < n ∨ ((n : Int) + 1 ≤ a.top ∧ n < a.lp) then { a with newLp := some n }
        else { a with lp := n, newLp := none } } } := by
  have hacct : ∀ a : Account, (if a.lp < n then { a with newLp := some n }
      else if (n : Int) + 1 ≤ a.top ∧ n < a.lp then { a with newLp := some n } else { a with lp := n, newLp := none }) =
      if a.lp < n ∨ ((n : Int) + 1 ≤ a.top ∧ n < a.lp) then { a with newLp := some n }
        else { a with lp := n, newLp := none } := fun a => by
    by_cases hraised : a.lp < n
    · rw [if_pos hraised, if_pos (.inl hraised)]
    · simp only [hraised, if_false, false_or]
  unfold Chan.setPostpone
  simp only [clampTo_zero, hn, hacct]

/-- Settles O36: each write by its writer and the read by what it answers and restarts. -/
theorem schedulerRegistersAreWritten : Obligations.SchedulerRegistersAreWritten := by
  rintro s ch _ w rfl
  refine ⟨fun ht => ?audit, fun ht => ?urg, fun ht hspec => ?ctl, ?postpone, fun ht => ?hwm⟩
  case audit => exact onWr ht rfl
  case urg => exact onWr ht rfl
  case ctl =>
    obtain ⟨d1, m1, g1, d2, m2, g2, q, hd, hq⟩ := Chan.directAll_drain _
    exact ⟨d1, m1, g1, d2, m2, g2, q, onWr ht ((Chan.schedWrite_ctl hspec).trans hd), hq⟩
  case postpone =>
    rintro _ _ rfl rfl ht
    exact onWr ht (Chan.setPostpone_eq rfl)
  case hwm => exact onRc ht rfl

/-! ### Status registers (R116, R337, R348, R355) -/

/-- Settles O38: each of the three registers stands in the table of those whose read changes nothing. -/
theorem statusRegistersShowTheChannel : Obligations.StatusRegistersShowTheChannel := by
  rintro s ch _ rfl hrest p hp ht
  simp only [List.mem_cons, List.not_mem_nil, or_false] at hp
  rcases hp with rfl | rfl | rfl
  · exact read_plain (off := 0x4) hrest (by decide) (by decide) (rd_0x4 _ _) ht
  · exact read_plain (off := 0x18) hrest (by decide) (by decide) (rd_0x18 _ _) ht
  · exact read_plain (off := 0x88) hrest (by decide) (by decide) (rd_0x88 _ _) ht

end Sys2Proof.Machine

/-! What the shadow audit does with a violation that it has found, and with a file that is full again (R170, R171). -/
namespace Sys2Proof.Machine

/-! ### A violation (R170) -/

/-- A violation that an enabled audit has found is recorded and raised, and is fatal to a channel that is up. -/
theorem Chan.auditFail_found {c : Chan} {x : AuditRec} (hup : c.down = false) (hen : c.fab.auditEn = true)
    (hx : x ∈ c.fab.audFound) :
    c.auditFail x.batten x.cls x.sub x.rank x.lrank x.short =
      (({ c with fab := { c.fab with
          auditRec := some (c.fab.auditRec.getD x), audFound := c.fab.audFound.erase x } } : Chan).raise evBatten
        (x.batten * 2 ^ 12 + x.cls.num * 2 ^ 7 + x.sub.num * 2 ^ 6 + x.rank * 2 ^ 3 + x.lrank)).fatal := by
  have hfound : ¬(c.down || !c.fab.auditEn || !c.fab.audFound.contains x) = true := by simp [hup, hen, hx]
  exact if_neg hfound

/-- On a channel that is down, with the audit off or without such a finding, no violation is reported. -/
theorem Chan.auditFail_none {c : Chan} {x : AuditRec}
    (h : c.down = true ∨ c.fab.auditEn = false ∨ x ∉ c.fab.audFound) :
    c.auditFail x.batten x.cls x.sub x.rank x.lrank x.short = c := by
  have hnone : (c.down || !c.fab.auditEn || !c.fab.audFound.contains x) = true := by
    rcases h with hdown | hoff | hx
    · simp [hdown]
    · simp [hoff]
    · simp [hx]
  exact if_pos hnone

/-! ### A full audit file (R171) -/

/-- An enabled audit whose file spans the longest batten is ready; any other is as ready as it was. -/
theorem Chan.auditFull_eq (c : Chan) : c.auditFull = { c with fab := { c.fab with
    auditReady := (c.fab.auditEn && decide (c.fab.audSince + maxAge ≤ c.dclk)) || c.fab.auditReady } } := by
  unfold Chan.auditFull
  cases c.fab.auditEn && decide (c.fab.audSince + maxAge ≤ c.dclk)
  case false => rfl
  case true => rfl

/-- Settles O28: a found violation by what a fatal event leaves of a channel that was up. -/
theorem auditCatchesAViolation : Obligations.AuditCatchesAViolation := by
  rintro s ch _ n k sub r l m _ rfl rfl
  refine ⟨fun hup hen hx => ?found, fun h => onCh (Chan.auditFail_none h), onCh (Chan.auditFull_eq _)⟩
  case found =>
    refine ⟨_, onCh (Chan.auditFail_found hup hen hx), ?_⟩
    obtain ⟨hpower, hrq, -, hflushes, hfab, hev⟩ := Chan.fatal_eq (c := Chan.raise { s.chan ch with fab := _ } _ _) hup
    exact ⟨hpower, hrq, hflushes, hfab, hev _ (List.mem_append_right _ (List.mem_singleton_self _))⟩

end Sys2Proof.Machine

/-! Alerts outside every window, back-offs, and the timers of a rank: calibration and Glide (R180, R181, R183, R184, R244). -/
namespace Sys2Proof.Machine

/-! ### An alert outside every window (R180, R244) -/

/-- No write-CRC window of a write or of a pause's WR, and no parity window, holds the present DCLK. -/
def Chan.OutsideWindows (c : Chan) (s : Sub) : Prop := c.crcHits s = [] ∧ c.crcPause s = [] ∧ c.parHit s = none

/-- Outside every window and with PRAC off, an alert is counted as stray (R244). -/
theorem Chan.alert_stray {c : Chan} {s : Sub} (e : Env) (hd : c.down = false) (hl : c.logicRuns = true)
    (hw : c.OutsideWindows s) (hp : c.imgBit ChanImg.pracEn = false) :
    c.alert s e = { c with err := { c.err with stray := satAdd 0xFFFF c.err.stray 1 } } := by
  obtain ⟨hcrc, hown, hpar⟩ := hw
  simp [Chan.alert, hd, hl, hcrc, hown, hpar, hp]

/-- Outside every window and with PRAC on, an alert is a back-off request and nothing else (R180). -/
theorem Chan.alert_prac {c : Chan} {s : Sub} (e : Env) (hd : c.down = false) (hl : c.logicRuns = true)
    (hw : c.OutsideWindows s) (hp : c.imgBit ChanImg.pracEn = true) :
    c.alert s e = ((c.backoffAlert e s).serveWaiting 2).directAll := by
  obtain ⟨hcrc, hown, hpar⟩ := hw
  simp [Chan.alert, hd, hl, hcrc, hown, hpar, hp, sortBy]

/-! ### Back-offs (R180) -/

/-- A back-off that begins at `now` raises its event: it is the first of its subchannel, or 1 ms has passed since the last event. -/
def Backoff.reports (b : Backoff) (now : Nat) : Bool :=
  match b.lastEv with
  | some t => decide (t + refMs ≤ now)
  | none => true

/-- An ACT of a subchannel that would reach the pins after `lim`. -/
def Cmd.lateAct (s : Sub) (lim : Nat) (k : Cmd) : Bool := k.bank.sub == s && k.cls == .act && decide (lim < k.time)

/-- The channel in a back-off that begins at `now`: every logical rank owes its RFMab commands, and ACTs are limited. The count
starts again with an event. -/
def Chan.inBackoff (c : Chan) (s : Sub) (now : Nat) (report : Bool) : Chan :=
  ({ c with upk := { c.upk with aboCnt := satAdd 0xFFFF c.upk.aboCnt 1 } } : Chan).setBackoff s fun b => { b with
    active := true, owed := c.lranksOf.map fun p => (p.1, p.2, c.upk.aboRfm), actLimit := c.dclk + c.dclkOf 18,
    count := if report then 0 else satAdd 255 (c.upk.backoff s).count 1, lastEv := if report then some now else b.lastEv }

/-- A request outside a back-off and its delay begins one and drops the ACTs planned beyond its limit. -/
theorem Chan.backoffAlert_begins {c : Chan} {s : Sub} (e : Env) (ha : (c.upk.backoff s).active = false)
    (hd : (c.upk.backoff s).delay = false) :
    c.backoffAlert e s =
      if (c.upk.backoff s).reports e.now = true then
        ((c.inBackoff s e.now ((c.upk.backoff s).reports e.now)).drop (Cmd.lateAct s (c.dclk + c.dclkOf 18))).raise evBackoff
          (s.num * 2 ^ 6 + satAdd 255 (c.upk.backoff s).count 1 * 2 ^ 8)
      else (c.inBackoff s e.now ((c.upk.backoff s).reports e.now)).drop (Cmd.lateAct s (c.dclk + c.dclkOf 18)) := by
  have hidle : ¬((c.upk.backoff s).active || (c.upk.backoff s).delay) = true := by simp [ha, hd]
  exact if_neg hidle

/-- The first back-off of a subchannel is reported; with no ACT planned beyond its limit none is dropped. -/
theorem Chan.backoffAlert_first {c : Chan} {s : Sub} (e : Env) (ha : (c.upk.backoff s).active = false)
    (hd : (c.upk.backoff s).delay = false) (hl : (c.upk.backoff s).lastEv = none)
    (hact : ∀ k ∈ c.planned, k.cls = .act → k.bank.sub = s → k.time ≤ c.dclk + c.dclkOf 18) :
    c.backoffAlert e s = (c.inBackoff s e.now true).raise evBackoff
      (s.num * 2 ^ 6 + satAdd 255 (c.upk.backoff s).count 1 * 2 ^ 8) := by
  have hreports : (c.upk.backoff s).reports e.now = true := by simp only [Backoff.reports, hl]
  have hnone : (c.inBackoff s e.now true).planned.filter (Cmd.lateAct s (c.dclk + c.dclkOf 18)) = [] := by
    refine List.filter_eq_nil_iff.mpr fun k hk hlate => ?_
    simp only [Cmd.lateAct, Bool.and_eq_true, beq_iff_eq, decide_eq_true_eq] at hlate
    obtain ⟨⟨hsub, hcls⟩, htime⟩ := hlate
    exact absurd htime (Nat.not_lt.mpr (hact k hk hcls hsub))
  rw [Chan.backoffAlert_begins e ha hd, if_pos hreports, hreports, Chan.drop_none hnone]

/-- A logical rank that owes no command and has no bank refreshing is released; the last release ends the back-off. -/
theorem Chan.backoffRelease_paid {c : Chan} {s : Sub} {r l : Nat} (e : Env) (ha : (c.upk.backoff s).active = true)
    (ho : (r, l, 0) ∈ (c.upk.backoff s).owed) {rest : List (Nat × Nat × Nat)}
    (hrest : rest = (c.upk.backoff s).owed.filter fun o => !(o.1 == r && o.2.1 == l))
    (hb : ∀ p ∈ c.banks, p.1.sub = s → p.1.rank = r → p.1.lrank = l → p.2.st ≠ .refreshing) :
    c.backoffRelease s r l e = c.setBackoff s fun x => { x with
      owed := rest, active := !rest.isEmpty, delay := rest.isEmpty || x.delay,
      delayEnd := if rest.isEmpty then e.now + c.upk.aboDly else x.delayEnd } := by
  have howed : (c.upk.backoff s).owed.any (fun o => o.1 == r && o.2.1 == l && o.2.2 == 0) = true :=
    List.any_eq_true.mpr ⟨_, ho, by simp⟩
  have hbanks : (c.banks.any fun p => p.1.sub == s && p.1.rank == r && p.1.lrank == l && p.2.st == .refreshing) = false := by
    simpa [List.any_eq_false, and_assoc] using hb
  subst hrest
  exact if_neg (by rw [ha, howed, hbanks]; exact Bool.false_ne_true)

/-! ### Calibration (R181, R183) -/

/-- A pause whose length is left open is asked for with one of at most 100 REFCLK cycles (log entry 8). -/
theorem Chan.askPause_open (c : Chan) {k : PauseKind} (s : Sub) (r : Nat) (h : k ≠ .retrim) : ∃ n, n ≤ 100 ∧
    c.askPause k s r false = { c with
      free := c.free + 1, upk := { c.upk with pauses := c.upk.pauses ++ [zqPause k s r n] } } := by
  refine ⟨Config.pauseLength c.free % 101, by omega, ?_⟩
  simp only [Chan.askPause, if_neg h]
  rfl

/-- Two changes of a rank's record are one. -/
theorem Chan.modRank_twice (c : Chan) (s : Sub) (r : Nat) (f g : RankSt → RankSt)
    (hf : ∀ x, (f x).sub = x.sub ∧ (f x).rank = x.rank) :
    (c.modRank s r f).modRank s r g = c.modRank s r fun x => g (f x) := by
  unfold Chan.modRank
  rw [updateWhere_twice _ _ _ _ fun y => by rw [(hf y).1, (hf y).2]]

/-- Asking for a pause of an open length does not look at the ranks. -/
theorem Chan.askPause_modRank (c : Chan) {k : PauseKind} (s : Sub) (r : Nat) (f : RankSt → RankSt) (h : k ≠ .retrim) :
    (c.modRank s r f).askPause k s r false = (c.askPause k s r false).modRank s r f := by
  simp only [Chan.askPause, if_neg h]
  rfl

/-- A rank whose interval has passed begins a calibration, and its next interval starts. -/
theorem Chan.zqDue_begins {c : Chan} {s : Sub} {r : Nat} {x : RankSt} {e : Env} (hx : c.upk.rank s r = some x)
    (hr : c.running = true) (hp : x.zqPhase = 0) (ht : x.zqNext ≤ e.now) :
    c.zqDue s r e = (c.askPause .zqStart s r false).modRank s r fun y =>
      { y with zqPhase := 1, zqNext := y.zqNext + c.upk.zqMs * refMs } := by
  have hdue : c.zqDue s r e = (c.startZq s r).modRank s r fun y => { y with zqNext := y.zqNext + c.zqInterval } := by
    simp [Chan.zqDue, hx, hr, hp, ht]
  rw [hdue, Chan.startZq, Chan.askPause_modRank (k := .zqStart) _ _ _ _ nofun]
  exact Chan.modRank_twice _ _ _ _ _ fun _ => ⟨rfl, rfl⟩

/-- A rank whose calibration is over asks for its latch pause. -/
theorem Chan.zqcalDone_latches {c : Chan} {s : Sub} {r : Nat} {x : RankSt} {e : Env} (hx : c.upk.rank s r = some x)
    (hr : c.running = true) (hp : x.zqPhase = 2) (ht : x.zqAt ≤ e.now) :
    c.zqcalDone s r e = (c.askPause .zqLatch s r false).modRank s r fun y => { y with zqPhase := 3 } := by
  have hdone : c.zqcalDone s r e = (c.modRank s r fun y => { y with zqPhase := 3 }).askPause .zqLatch s r false := by
    simp [Chan.zqcalDone, hx, hr, hp, ht]
  rw [hdone, Chan.askPause_modRank (k := .zqLatch) _ _ _ _ nofun]

/-! ### Glide (R184) -/

/-- The earliest slot of a command changes only its time. -/
theorem Chan.earliest_slot {c : Chan} {ok : Nat → Bool} {k x : Cmd} (h : c.earliest ok k = some x) :
    ∃ t, x = { k with time := t } := by
  obtain ⟨q, -, hq⟩ := List.mem_map.mp (List.mem_of_find?_eq_some h)
  exact ⟨_, hq.symm⟩

/-- Nothing keeps an awake rank out of Glide: no entry or command of its own, no pause or recovery on its subchannel, and no park
or wake of the channel. -/
structure Chan.GlideFree (c : Chan) (s : Sub) (r : Nat) : Prop where
  stopped : c.stopped s = false
  recovering : c.recovering s = false
  busy : c.rankBusy s r = false
  park : c.upk.park = false
  wake : c.upk.wake = false
  planned : c.planned = []
  pause : c.pauseOn s = none

/-- A rank that nothing keeps out of Glide and that has been idle for the Glide time has its PDE planned in its earliest slot. -/
theorem Chan.glideDue_plans {c : Chan} {s : Sub} {r : Nat} {x : RankSt} {e : Env} {k : Cmd} (hx : c.upk.rank s r = some x)
    (hr : c.running = true) (hg : x.glide = false) (hs : x.selfRef = false) (hf : c.GlideFree s r)
    (ht : x.idleSince + c.power.glideIdle ≤ e.now)
    (hk : c.earliest (fun _ => true) (rankCmd .pde s r .internal) = some k) : c.glideDue s r e = c.insert k := by
  obtain ⟨hstop, hrec, hbusy, hpark, hwake, hplan, hpause⟩ := hf
  simp [Chan.glideDue, hx, hr, hg, hs, hbusy, hpark, hwake, hstop, hrec, ht, hplan, hpause, hk]

/-- Settles O58: the alert by what it meets and by PRAC, the back-off by its release and by the delay that the last one starts (log
entry 46), and each timer of a rank. -/
theorem alertsAndRankTimersRun : Obligations.AlertsAndRankTimersRun := by
  refine ⟨?alerts, ?timers⟩
  case alerts =>
    rintro s ch _ sb rfl
    refine ⟨fun hd hl hcrc hown hpar hp => ?stray, fun hd hl hcrc hown hpar hp hrq ha hdel hev hact => ?begins,
      ?release, onCh rfl⟩
    case stray => exact onCh (Chan.alert_stray _ hd hl ⟨hcrc, hown, hpar⟩ hp)
    case begins =>
      rintro _ rfl
      obtain ⟨h, q, hq, hserved⟩ := serve_direct (n := 2)
        (c := ((s.chan ch).inBackoff sb s.now true).raise evBackoff
          (sb.num * 2 ^ 6 + satAdd 255 ((s.chan ch).upk.backoff sb).count 1 * 2 ^ 8)) hrq
      refine ⟨h, q, hq, onCh ?_⟩
      rw [Chan.alert_prac _ hd hl ⟨hcrc, hown, hpar⟩ hp, Chan.backoffAlert_first _ ha hdel hev hact]
      exact hserved
    case release =>
      rintro r l _ rest rfl ha hrest ⟨_, ho, rfl⟩ hb
      exact onCh (Chan.backoffRelease_paid _ ha ho hrest hb)
  case timers =>
    rintro s ch _ sb r x rfl hx hr
    refine ⟨fun hp ht => ?start, fun hp ht => ?latch,
      fun k hg hself hstop hrec hbusy hpark hwake ht hplan hpause hk => ?glide⟩
    case start =>
      obtain ⟨n, hn, hask⟩ := (s.chan ch).askPause_open (k := .zqStart) sb r nofun
      exact ⟨n, hn, onCh (hask ▸ Chan.zqDue_begins hx hr hp ht)⟩
    case latch =>
      obtain ⟨n, hn, hask⟩ := (s.chan ch).askPause_open (k := .zqLatch) sb r nofun
      exact ⟨n, hn, onCh (hask ▸ Chan.zqcalDone_latches hx hr hp ht)⟩
    case glide =>
      obtain ⟨t, rfl⟩ := Chan.earliest_slot hk
      exact ⟨onCh (Chan.glideDue_plans hx hr hg hself ⟨hstop, hrec, hbusy, hpark, hwake, hplan, hpause⟩ ht hk), rfl, rfl, rfl⟩

end Sys2Proof.Machine

/-! The end of a window of the Ballast: EFF, the counts, the mode and DB (R191 to R195, R201, R205). -/
namespace Sys2Proof.Machine

/-! ### The measures of a window (R192, R193) -/

/-- EFF after a window: the mean of the old value and of the measured one, where the window is valid (R192). -/
def Ballast.effAfter (b : Ballast) : Nat :=
  if b.windowValid then (b.eff + b.dataCnt * 1000 / (b.dataCnt + b.waitCnt)) / 2 else b.eff

theorem Ballast.windowValid_iff (b : Ballast) :
    b.windowValid = true ↔ 2 * b.dclkCnt ≤ 8 * (b.dataCnt + b.waitCnt) ∧ 0 < b.dataCnt + b.waitCnt := by
  simp [Ballast.windowValid]

/-- DB is bounded by PCT exactly in a cap or a ramp: the bound that is not the smaller one limits nothing (R193, R205). -/
theorem Chan.deliverable_eq (c : Chan) :
    c.deliverable = if c.bal.capped = true ∨ c.bal.ramp = true
      then min (c.bal.eff * c.peakL / 1000) (c.bal.pct * c.peakL / 100) else c.bal.eff * c.peakL / 1000 := by
  unfold Chan.deliverable Chan.dbLimited
  by_cases hcap : c.bal.capped = true ∨ c.bal.ramp = true
  · by_cases hlt : c.bal.pct * c.peakL / 100 < c.bal.eff * c.peakL / 1000
    · simp [hcap, hlt, Nat.min_eq_right hlt.le]
    · simp [hcap, hlt, Nat.min_eq_left (Nat.le_of_not_lt hlt)]
  · simp [hcap]

/-! ### A window boundary of a channel -/

/-- What the end of a window and the start of the next leave of the channel `c`. -/
structure Chan.NewWindow (c d : Chan) : Prop where
  eff : d.bal.eff = c.bal.effAfter
  dataCnt : d.bal.dataCnt = 0
  waitCnt : d.bal.waitCnt = 0
  dclkCnt : d.bal.dclkCnt = 0
  capped : d.bal.capped = c.bal.capped
  ramp : d.bal.ramp = c.bal.ramp
  pct : d.bal.pct = c.bal.pct
  trim : d.trim = c.trim
  rq : d.rq = c.rq
  wq : d.wq = c.wq
  lane : d.lane = c.lane
  tail : d.tail = c.tail

theorem Chan.endWindow_newWindow (c : Chan) : c.NewWindow c.endWindow :=
  ⟨rfl, rfl, rfl, rfl, rfl, rfl, rfl, rfl, rfl, rfl, rfl, rfl⟩

/-- The choice of the next mode changes the mode, the count of valid windows and the request alone (R201). -/
theorem Chan.nextMode_eq (c : Chan) (v : Bool) :
    ∃ m r, c.nextMode v = { c with bal := { c.bal with mode := m, validRun := r, modeReq := 0 } } := by
  unfold Chan.nextMode
  dsimp only
  generalize (if v = true then c.bal.validRun + 1 else 0) = run
  split
  · exact ⟨_, _, rfl⟩
  split
  · exact ⟨_, _, rfl⟩
  split
  · exact ⟨_, _, rfl⟩
  split
  · exact ⟨_, _, rfl⟩
  split <;> exact ⟨_, _, rfl⟩

/-- A shortfall is noted, and its event raised or not (R195). -/
theorem Chan.shortfall_eq (c : Chan) (mask : Nat) :
    ∃ l n ev, c.shortfall mask =
      { c with bal := { c.bal with short := mask, lastMask := l, sinceEv := n }, evOut := ev } := by
  unfold Chan.shortfall
  dsimp only
  split <;> exact ⟨_, _, _, rfl⟩

/-- The start of a window sets DB and the classes, and notes a shortfall (R193 to R195). -/
theorem Chan.startWindow_eq (c : Chan) :
    ∃ k m l n ev, c.startWindow = { c with
      bal := { c.bal with db := c.deliverable, classes := k, short := m, lastMask := l, sinceEv := n }, evOut := ev } := by
  unfold Chan.startWindow
  dsimp only
  obtain ⟨l, n, ev, h⟩ := Chan.shortfall_eq _ _
  exact ⟨_, _, l, n, ev, h⟩

/-- A window boundary of a channel with an image: the measures of the window that ends, and DB by them. -/
theorem Chan.window_newWindow {c : Chan} (h : c.img ≠ none) :
    c.NewWindow c.window ∧ c.window.bal.db = c.window.deliverable := by
  have himg : c.img.isNone = false := by simpa [Option.isSome_iff_ne_none] using h
  unfold Chan.window
  rw [himg]
  obtain ⟨m, r, hmode⟩ := c.endWindow.nextMode_eq c.bal.windowValid
  obtain ⟨k, sh, l, n, ev, hstart⟩ := (c.endWindow.nextMode c.bal.windowValid).startWindow_eq
  rw [hmode] at hstart
  simp only [Bool.false_eq_true, if_false, hmode, hstart]
  exact ⟨⟨rfl, rfl, rfl, rfl, rfl, rfl, rfl, rfl, rfl, rfl, rfl, rfl⟩, rfl⟩

/-- Settles O32: the boundary moves, and on each channel the window's end and the next one's start follow. -/
theorem ballastWindowEnds : Obligations.BallastWindowEnds := by
  intro s
  refine ⟨fun hearly => congrArg Host.Outcome.next (if_pos hearly), fun hdue => ?_⟩
  have hkept := State.onChans_kept { s with winNext := s.winNext + 400 } allChans fun _ c => c.window
  refine ⟨_, congrArg Host.Outcome.next (if_neg (Nat.not_lt.mpr hdue)), State.onChans_winNext _ _ _, hkept.now, hkept.img,
    hkept.pending, ?_⟩
  rintro ch _ _ rfl himg rfl
  obtain ⟨k, hstored⟩ := (onChans_chan (f := fun _ c => c.window) (fun _ _ _ => rfl) allChans allChans_nodup
    { s with winNext := s.winNext + 400 } ch).2 (mem_allChans ch)
  obtain ⟨hnew, hdb⟩ := Chan.window_newWindow himg
  rw [hstored]
  refine ⟨?eff, hnew.dataCnt, hnew.waitCnt, hnew.dclkCnt, ?db, hnew.rq, hnew.wq, hnew.lane, hnew.tail⟩
  case eff =>
    have heff := hnew.eff
    simp only [Ballast.effAfter, Ballast.windowValid_iff] at heff
    exact heff
  case db =>
    rw [Chan.deliverable_eq, Chan.peakL, hnew.capped, hnew.ramp, hnew.pct, hnew.trim] at hdb
    exact hdb

end Sys2Proof.Machine

/-! Fences: the write of CH_FENCE, and the rank that is done (R201, R348). -/
namespace Sys2Proof.Machine

/-- The Ballast in a mode: the count of valid windows starts again where the mode is a new one (R201). -/
def Ballast.inMode (b : Ballast) (m : Nat) : Ballast :=
  { b with mode := m, validRun := if m = b.mode then b.validRun else 0 }

theorem Ballast.inMode_self (b : Ballast) : b.inMode b.mode = b := by simp [Ballast.inMode]

/-- A mode is entered at once, unless it is the mode already (R201). -/
theorem Chan.entersMode {c : Chan} {m : Nat} (hm : m ≠ 0) :
    (if m ≠ 0 ∧ c.bal.mode ≠ m then { c with bal := { c.bal with mode := m, validRun := 0 } } else c) =
      { c with bal := c.bal.inMode m } := by
  by_cases hsame : m = c.bal.mode
  · rw [if_neg fun h => h.2 hsame.symm, hsame, Ballast.inMode_self]
  · rw [if_pos ⟨hm, fun h => hsame h.symm⟩, Ballast.inMode, if_neg hsame]

/-- FORCE_SHARE brings MODE 4 and a fenced rank MODE 3; with neither the mode stays (R201). -/
theorem Chan.modeNow_eq (c : Chan) :
    c.modeNow = { c with
      bal := c.bal.inMode (if c.bal.forceShare then 4 else if c.seqr.fence ≠ 0 then 3 else c.bal.mode) } := by
  unfold Chan.modeNow
  dsimp only
  by_cases hforce : c.bal.forceShare = true
  · rw [if_pos hforce, if_pos hforce]
    exact Chan.entersMode (by decide)
  · rw [if_neg hforce, if_neg hforce]
    by_cases hfence : c.seqr.fence ≠ 0
    · rw [if_pos hfence, if_pos hfence]
      exact Chan.entersMode (by decide)
    · rw [if_neg hfence, if_neg hfence, Ballast.inMode_self]
      exact if_neg fun h => h.1 rfl

/-- A write of CH_FENCE while no self-test runs (R348, R349). -/
theorem Chan.setFence_idle {c : Chan} {w : Word} (ht : c.seqr.test = none) :
    c.setFence w =
      { c with seqr := { c.seqr with
        fence := BitVec.ofNat 8 w.toNat, fenceDone := c.seqr.fenceDone &&& BitVec.ofNat 8 w.toNat } }.modeNow := by
  have htest (g : SelfTest → SelfTest) : c.seqr.test.map g = c.seqr.test := by rw [ht]; rfl
  unfold Chan.setFence
  dsimp only
  rw [htest]

/-- A rank is empty of all but the Thatcher's reads and the clear's writes (R348). -/
theorem Chan.fenceEmpty_iff (c : Chan) (r : Nat) :
    c.fenceEmpty r = true ↔ (∀ x ∈ c.rq, x.dev.bank.rank = r → x.kind = .thatcher) ∧
      ∀ x ∈ c.wq, x.dev.bank.rank = r → x.src = .clear := by
  simp [Chan.fenceEmpty]

theorem Chan.fenceSettle_eq (c : Chan) (r : Nat) :
    c.fenceSettle r =
      if bitAt c.seqr.fence.toNat r = true ∧ (∀ x ∈ c.rq, x.dev.bank.rank = r → x.kind = .thatcher) ∧
          (∀ x ∈ c.wq, x.dev.bank.rank = r → x.src = .clear)
        then { c with seqr := { c.seqr with fenceDone := c.seqr.fenceDone ||| BitVec.ofNat 8 (2 ^ r) } } else c := by
  simp only [Chan.fenceSettle, Bool.and_eq_true, Chan.fenceEmpty_iff]

/-- Settles O53: the write by its writer, and DONE by what is left in the queues. -/
theorem ranksAreFenced : Obligations.RanksAreFenced := by
  rintro s ch _ rfl
  refine ⟨?write, fun r => onCh (Chan.fenceSettle_eq _ r.val)⟩
  case write =>
    rintro w _ _ htakes rfl htest rfl
    exact onWr htakes ((Chan.setFence_idle htest).trans (Chan.modeNow_eq _))

end Sys2Proof.Machine

/-! The Thatcher, the entry of patch writes, and the end of a patch hold (R203, R241, R242, R252 to R256). -/
namespace Sys2Proof.Machine

/-- With PCT at 100 or above, class C15 accesses are not held back (R203). -/
theorem Chan.sourcesHold_uncapped {c : Chan} (h : 100 ≤ c.bal.pct) : c.sourcesHold = false :=
  decide_eq_false (Nat.not_lt.mpr h)

/-! ### The interval (R253) -/

theorem Chan.thActive_iff (c : Chan) : c.thActive = true ↔ c.th.enable = true ∧ c.down = false ∧ c.power.cur = .flight := by
  simp [Chan.thActive, and_assoc]

/-- OWED rises when the interval has passed while the Thatcher is active (R253). -/
theorem Chan.thTick_eq (e : Env) (c : Chan) :
    c.thTick e =
      if c.th.enable = true ∧ c.down = false ∧ c.power.cur = .flight ∧ c.th.next ≤ e.now then
        { c with th := { c.th with owed := satAdd 64 c.th.owed 1, next := c.th.next + c.th.int } } else c := by
  unfold Chan.thTick
  by_cases hact : c.thActive = true
  · obtain ⟨hen, hup, hcur⟩ := (Chan.thActive_iff c).mp hact
    by_cases hdue : c.th.next ≤ e.now
    · rw [if_neg (by simp [hact, hdue]), if_pos ⟨hen, hup, hcur, hdue⟩]
    · rw [if_pos (by simp [Nat.lt_of_not_le hdue]), if_neg fun h => hdue h.2.2.2]
  · rw [if_pos (by simp [hact])]
    exact (if_neg fun ⟨hen, hup, hcur, _⟩ => hact ((Chan.thActive_iff c).mpr ⟨hen, hup, hcur⟩)).symm

/-! ### The next line (R203, R253, R254, R256) -/

/-- The Thatcher may handle the next line, which is not the last of its pass (R203, R253). -/
structure Chan.MayPatrol (c : Chan) : Prop where
  active : c.thActive = true
  steady : c.power.trans = none
  owed : 0 < c.th.owed
  uncapped : 100 ≤ c.bal.pct
  reads : countWhere (fun r : RdEntry => r.kind == .thatcher) c.rq < 4
  entry : c.resRq < 16
  within : c.th.pos + 1 < c.patrolLines

/-- The line at which the Thatcher stands. -/
def Chan.patrolLine (c : Chan) : LAddr := BitVec.ofNat 34 c.th.pos

/-- The Thatcher's read of a line (R252). -/
def Chan.patrolRead (c : Chan) (a : LAddr) : RdEntry := mkRd c.nextSeq .thatcher 0 15 0 false false a (c.devOf a) 0 .na

/-- The Thatcher skips the line: its rank is fenced, or it is about to be written (R254, R256). -/
def Chan.skipsLine (c : Chan) (a : LAddr) : Bool := c.fenced (c.devOf a).bank.rank || c.wq.any fun w => w.laddr == a

theorem Chan.skipsLine_iff (c : Chan) (a : LAddr) :
    c.skipsLine a = true ↔ c.fenced (c.devOf a).bank.rank = true ∨ ∃ w ∈ c.wq, w.laddr = a := by
  simp [Chan.skipsLine]

/-- A line is owed and may be handled: it is skipped, or its read is placed. -/
theorem Chan.thPlace_open {c : Chan} (e : Env) (h : c.MayPatrol) :
    c.thPlace e = if c.skipsLine c.patrolLine then c.thNext e
      else ((({ c with nextSeq := c.nextSeq + 1 } : Chan).placeRd (c.patrolRead c.patrolLine) 2).directAll).thNext e := by
  obtain ⟨hact, htrans, howed, hpct, hreads, hentry, -⟩ := h
  exact if_neg (by simp [hact, htrans, howed.ne', Chan.sourcesHold_uncapped hpct, hreads, hentry])

/-- A line within the pass is handled. -/
theorem Chan.thNext_within {c : Chan} (e : Env) (h : c.th.pos + 1 < c.patrolLines) :
    c.thNext e = { c with th := { c.th with owed := c.th.owed - 1, pos := c.th.pos + 1 } } :=
  if_neg (Nat.not_le.mpr h)

theorem Chan.thPlace_skips {c : Chan} (e : Env) (h : c.MayPatrol) (hs : c.skipsLine c.patrolLine = true) :
    c.thPlace e = { c with th := { c.th with owed := c.th.owed - 1, pos := c.th.pos + 1 } } := by
  rw [Chan.thPlace_open e h, if_pos hs, Chan.thNext_within e h.within]

/-- A read of the Thatcher that waits for no beat is linked into the list of its bank (R138). -/
theorem Chan.placeRd_thatcher {c : Chan} {r : RdEntry} (hk : r.kind = .thatcher) (hb : c.beatWaits r.laddr r.seq = false) :
    ∃ b, c.placeRd r 2 = { c with
      rq := updateWhere (fun x => x.seq == r.seq) (fun x => { x with stage := .queued }) (c.rq ++ [r]), banks := b } := by
  have hserve : c.placeRd r 2 = ({ c with rq := c.rq ++ [r] } : Chan).linkRd r := Chan.serveRd_thatcher (by exact hb) hk
  obtain ⟨b, hlink, -⟩ := Chan.linkRd_eq { c with rq := c.rq ++ [r] } r
  exact ⟨b, hserve.trans hlink⟩

theorem Chan.thPlace_reads {c : Chan} (e : Env) (h : c.MayPatrol) (hs : c.skipsLine c.patrolLine = false)
    (hb : c.beatWaits c.patrolLine c.nextSeq = false) :
    ∃ b g q, c.thPlace e = { c with
      nextSeq := c.nextSeq + 1, th := { c.th with owed := c.th.owed - 1, pos := c.th.pos + 1 },
      rq := updateWhere (fun r => r.seq == c.nextSeq) (fun r => { r with stage := .queued })
        (c.rq ++ [c.patrolRead c.patrolLine]),
      banks := b, sched := g, occ := c.occ ++ q } ∧ Drains q := by
  obtain ⟨b, hplace⟩ := Chan.placeRd_thatcher (c := { c with nextSeq := c.nextSeq + 1 }) (r := c.patrolRead c.patrolLine)
    rfl hb
  obtain ⟨g, q, hq, hdirect⟩ := Chan.directAll_eq (({ c with nextSeq := c.nextSeq + 1 } : Chan).placeRd
    (c.patrolRead c.patrolLine) 2)
  refine ⟨b, g, q, ?_, hq⟩
  rw [Chan.thPlace_open e h, if_neg (by simp [hs]), hdirect, hplace]
  exact Chan.thNext_within e h.within

/-! ### Patch writes (R203, R241) -/

/-- A waiting patch write may enter the queue (R203, R241). -/
structure Chan.MayPatch (c : Chan) : Prop where
  running : c.running = true
  uncapped : 100 ≤ c.bal.pct
  entry : c.resWq < 8

/-- The write of a patch request, numbered `n`: a patch, or a poison write-back (R241, R243). -/
def PatchReq.write (p : PatchReq) (n : Nat) (d : Dev) : WrEntry :=
  mkWr n (if p.psn then .poisonWb else .patch) [] 15 p.laddr d p.line allBytes p.psn

/-- The same in the entry `i`, where a poison write-back holds no data. -/
def PatchReq.entry (p : PatchReq) (n : Nat) (d : Dev) (i : Nat) : WrEntry :=
  { p.write n d with line := if p.psn then 0 else p.line, idx := i }

theorem Chan.superseded_iff (c : Chan) (a : LAddr) (o : Nat) :
    c.superseded a o = true ↔ (∃ w ∈ c.wq, w.laddr = a) ∨ c.err.wroteSince a o = true := by
  simp [Chan.superseded]

/-- The oldest request may enter: it is skipped, or its write is placed. -/
theorem Chan.patchEnter_open {c : Chan} {p : PatchReq} {ps : List PatchReq} (hp : c.err.patches = p :: ps) (h : c.MayPatch) :
    c.patchEnter = if c.superseded p.laddr p.colOrd then ({ c with err := { c.err with patches := ps } } : Chan).skipPatch
      else (({ c with err := { c.err with patches := ps }, nextSeq := c.nextSeq + 1 } : Chan).placeWr
        (p.write c.nextSeq (c.devOf p.laddr))).directAll := by
  obtain ⟨hrun, hpct, hentry⟩ := h
  unfold Chan.patchEnter
  rw [hp]
  exact if_neg (by simp [hrun, Chan.sourcesHold_uncapped hpct, hentry])

theorem Chan.patchEnter_skips {c : Chan} {p : PatchReq} {ps : List PatchReq} (hp : c.err.patches = p :: ps) (h : c.MayPatch)
    (hs : c.superseded p.laddr p.colOrd = true) :
    c.patchEnter = { c with err := { c.err with patches := ps, skip := satAdd 0xFFFF c.err.skip 1 } } :=
  (Chan.patchEnter_open hp h).trans (if_pos hs)

/-- A line without a write in the queue has no older entry. -/
theorem Chan.olderWr_none {c : Chan} {w : WrEntry} (h : ∀ o ∈ c.wq, o.laddr ≠ w.laddr) : c.olderWr w = none := by
  unfold Chan.olderWr
  rw [List.filter_eq_nil_iff.mpr fun o ho => by simp [h o ho]]
  rfl

/-- The write of a patch request to a line without one in the queue takes the lowest free entry (R241; log entry 95). -/
theorem Chan.placeWr_patch {c : Chan} {p : PatchReq} {n : Nat} {d : Dev} (h : ∀ w ∈ c.wq, w.laddr ≠ p.laddr) :
    c.placeWr (p.write n d) = { c with wq := c.wq ++ [p.entry n d (freeIdx (c.wq.map WrEntry.idx))] } := by
  rw [Chan.placeWr_new (Chan.olderWr_none h), Chan.enqueueWr, Chan.newWr_of_no rfl]
  cases hpsn : p.psn <;> simp [PatchReq.entry, PatchReq.write, mkWr, hpsn]

theorem Chan.patchEnter_enters {c : Chan} {p : PatchReq} {ps : List PatchReq} (hp : c.err.patches = p :: ps) (h : c.MayPatch)
    (hs : c.superseded p.laddr p.colOrd = false) (hw : ∀ w ∈ c.wq, w.laddr ≠ p.laddr) :
    ∃ g q, c.patchEnter = { c with
      err := { c.err with patches := ps }, nextSeq := c.nextSeq + 1,
      wq := c.wq ++ [p.entry c.nextSeq (c.devOf p.laddr) (freeIdx (c.wq.map WrEntry.idx))],
      sched := g, occ := c.occ ++ q } ∧ Drains q := by
  have hplace := Chan.placeWr_patch (c := { c with err := { c.err with patches := ps }, nextSeq := c.nextSeq + 1 })
    (n := c.nextSeq) (d := c.devOf p.laddr) hw
  obtain ⟨g, q, hq, hdirect⟩ := Chan.directAll_eq (({ c with
    err := { c.err with patches := ps }, nextSeq := c.nextSeq + 1 } : Chan).placeWr (p.write c.nextSeq (c.devOf p.laddr)))
  refine ⟨g, q, ?_, hq⟩
  rw [Chan.patchEnter_open hp h, if_neg (by simp [hs]), hdirect, hplace]

/-! ### The end of a patch hold (R242) -/

theorem Chan.pholdExpire_due {c : Chan} {i : Nat} {e : Env} (hp : (c.err.entry i).phold = true)
    (ht : (c.err.entry i).pholdUntil ≤ e.now) :
    c.pholdExpire i e = { c with err := { c.err with
      slate := updateAt i (fun _ => { c.err.entry i with phold := false }) c.err.slate } } :=
  if_pos (by simp [hp, ht])

theorem Chan.pholdExpire_early {c : Chan} {i : Nat} {e : Env}
    (h : ¬((c.err.entry i).phold = true ∧ (c.err.entry i).pholdUntil ≤ e.now)) : c.pholdExpire i e = c :=
  if_neg (by simpa using h)

/-- Settles O57: the interval and the next line, the oldest patch request, and the hold of an entry. -/
theorem thatcherAndPatchesRun : Obligations.ThatcherAndPatchesRun := by
  refine ⟨?thatcher, ?patches, ?hold⟩
  case thatcher =>
    rintro s ch _ _ rfl rfl
    refine ⟨onCh (Chan.thTick_eq _ _), fun hen hup hcur htrans howed hpct hreads hentry hwithin => ?_⟩
    have hmay : (s.chan ch).MayPatrol :=
      ⟨(Chan.thActive_iff _).mpr ⟨hen, hup, hcur⟩, htrans, howed, hpct, hreads, hentry, hwithin⟩
    refine ⟨fun hskip => ?skips, fun hfence hwq hbeat => ?reads⟩
    case skips => exact onCh (Chan.thPlace_skips _ hmay ((Chan.skipsLine_iff ..).mpr hskip))
    case reads =>
      have hread : (s.chan ch).skipsLine (s.chan ch).patrolLine = false := by
        rw [Chan.skipsLine, Chan.patrolLine, hfence]
        simpa using hwq
      obtain ⟨b, g, q, hplace, hq⟩ := Chan.thPlace_reads s.env hmay hread hbeat
      exact ⟨b, g, q, onCh hplace, hq⟩
  case patches =>
    rintro s ch _ p ps rfl hp hrun hpct hentry
    have hmay : (s.chan ch).MayPatch := ⟨hrun, hpct, hentry⟩
    refine ⟨fun hskip => ?skips, fun hwq hsince => ?enters⟩
    case skips =>
      exact onCh (f := fun _ c => c.patchEnter) (Chan.patchEnter_skips hp hmay ((Chan.superseded_iff ..).mpr hskip))
    case enters =>
      have hs : (s.chan ch).superseded p.laddr p.colOrd = false := by simpa [Chan.superseded, hsince] using hwq
      obtain ⟨g, q, henter, hq⟩ := Chan.patchEnter_enters hp hmay hs hwq
      exact ⟨g, q, onCh (f := fun _ c => c.patchEnter) henter, hq⟩
  case hold =>
    rintro s ch _ i rfl hrest
    by_cases hdue : ((s.chan ch).err.entry i.val).phold = true ∧ ((s.chan ch).err.entry i.val).pholdUntil ≤ s.now
    · have hexp := Chan.pholdExpire_due (e := s.env) hdue.1 hdue.2
      rw [if_pos hdue, ← hexp]
      exact congrArg Host.Outcome.next (State.onChan_silent hrest (by rw [hexp]; exact hrest.1) (by rw [hexp]; exact hrest.2.1))
    · rw [if_neg hdue]
      exact congrArg Host.Outcome.next (State.onChan_id hrest (Chan.pholdExpire_early hdue))

end Sys2Proof.Machine

/-! The registers of protection, of the Slate and of the Thatcher: flips, chip marks, invalidation and RESTART (R231, R233,
R255, R259). -/
namespace Sys2Proof.Machine

/-! ### The bits that a command adds to the word written -/

theorem bitAt_or_set (w : Word) {v : Word} {i : Nat} (h : bitAt v.toNat i = true) : bitAt (w ||| v).toNat i = true := by
  rw [bitAt_or, h, Bool.or_true]

theorem bitAt_or_clear (w : Word) {v : Word} {i : Nat} (h : bitAt v.toNat i = false) :
    bitAt (w ||| v).toNat i = bitAt w.toNat i := by
  rw [bitAt_or, h, Bool.or_false]

/-! ### CH_FLIP_CTL and CH_CHIPMARK (R231, R233) -/

/-- The fields of CH_FLIP_CTL. ARM and DISARM see those of their own write (R233, log 84). -/
def Protect.flipFields (w : Word) (p : Protect) : Protect :=
  { p with
    flipCount := clampTo 1 255 (bitsAt w.toNat 24 8), flipSrc := bitAt w.toNat 5, flipSub := bitAt w.toNat 4,
    flipMode := min 2 (bitsAt w.toNat 2 2) }

theorem Protect.setFlip_arm {w : Word} (p : Protect) (harm : bitAt w.toNat 0 = true) :
    p.setFlip w = { p.flipFields w with armed := p.mask, flipRemain := clampTo 1 255 (bitsAt w.toNat 24 8) } :=
  if_pos harm

theorem Protect.setFlip_disarm {w : Word} (p : Protect) (harm : bitAt w.toNat 0 = false) (hdis : bitAt w.toNat 1 = true) :
    p.setFlip w = { p.flipFields w with flipRemain := 0 } :=
  (if_neg (by simp [harm])).trans (if_pos hdis)

theorem Chan.setFlip_of {c : Chan} {w : Word} {p : Protect} (h : c.prot.setFlip w = p) :
    c.setFlip w = { c with prot := p } := by
  rw [Chan.setFlip, h]

/-- The word of a FLIP_DISARM has ARM clear. -/
theorem disarmWord_arm (w : Word) : bitAt ((w &&& 0xFFFFFFFC) ||| 2).toNat 0 = false := by
  rw [bitAt_or_clear _ (by decide), bitAt_and]
  exact Bool.and_false _

/-- A chip index above that of the module's last chip is that of the last chip (R231). -/
theorem Chan.setChipmark_eq (w : Word) (c : Chan) :
    c.setChipmark w = { c with prot := { c.prot with
      markAEn := bitAt w.toNat 7, markA := min (if c.x8 then 4 else 9) (bitsAt w.toNat 0 4),
      markBEn := bitAt w.toNat 15, markB := min (if c.x8 then 4 else 9) (bitsAt w.toNat 8 4) } } := by
  unfold Chan.setChipmark
  simp only [clampTo_zero]

/-! ### CH_SLATE_CTL (R259) -/

/-- INVAL alone clears VALID of the entry at INDEX and keeps its other fields (log 80). -/
theorem Chan.slateCtl_inval {w : Word} (c : Chan) (hone : bitAt w.toNat 31 = true) (hall : bitAt w.toNat 30 = false) :
    c.slateCtl w = { c with err := { c.err with
      slateIdx := bitsAt w.toNat 0 5, slate := updateAt (bitsAt w.toNat 0 5) SlateEntry.inval c.err.slate } } := by
  simp [Chan.slateCtl, hone, hall]

/-- INVAL_ALL alone clears VALID of every entry (log 80). -/
theorem Chan.slateCtl_invalAll {w : Word} (c : Chan) (hone : bitAt w.toNat 31 = false) (hall : bitAt w.toNat 30 = true) :
    c.slateCtl w = { c with err := { c.err with
      slateIdx := bitsAt w.toNat 0 5, slate := c.err.slate.map SlateEntry.inval } } := by
  simp [Chan.slateCtl, hone, hall]

/-- The word of a SLATE_INVAL: INVAL is set, INVAL_ALL is clear, and INDEX is the entry. -/
theorem invalWord_fields (i : Fin 32) {v : Word} (hv : v = 0x80000000 ||| BitVec.ofNat 32 i.val) :
    bitAt v.toNat 31 = true ∧ bitAt v.toNat 30 = false ∧ bitsAt v.toNat 0 5 = i.val := by
  subst hv
  revert i
  decide

/-! ### CH_THATCH_CTL (R255) -/

/-- Of the Thatcher's own state, ACTIVE looks at ENABLE alone (R255). -/
theorem Chan.thActive_of_enable {c : Chan} {t : Thatcher} (h : t.enable = c.th.enable) :
    ({ c with th := t } : Chan).thActive = c.thActive := by
  unfold Chan.thActive
  rw [← h]
  rfl

/-- RESTART of an enabled Thatcher that stays enabled: ACTIVE does not rise, so that the next interval stays where it is, and
the measure of the pass begins again (R255). -/
theorem Chan.thCtl_restart {c : Chan} {w : Word} (e : Env) (hen : c.th.enable = true) (hkeep : bitAt w.toNat 16 = true)
    (hrestart : bitAt w.toNat 17 = true) :
    c.thCtl w e = { c with th := { c.th with
      enable := true, int := clampTo 1 65535 (bitsAt w.toNat 0 16), pos := 0, activeAcc := 0, passStart := e.now } } := by
  have hmark : (c.thMark e).thActive = c.thActive := Chan.thActive_of_enable rfl
  unfold Chan.thCtl
  dsimp only
  rw [if_pos hrestart, hmark]
  unfold Chan.thMark
  dsimp only
  rw [Chan.thActive_of_enable (hkeep.trans hen.symm), if_neg (by simp), hkeep]

/-- Settles O37: each write by its writer, in the case that its word selects. ARM, DISARM and RESTART see the fields of their
own write (log 84, the model's choice), and an invalidated entry keeps its other fields (log 80, deduced). -/
theorem protectionRegistersAreWritten : Obligations.ProtectionRegistersAreWritten := by
  rintro s ch _ w v rfl
  refine ⟨?arm, ?disarm, fun ht => ?marks, fun i ht => ?inval, ?invalAll, ?restart⟩
  case arm =>
    rintro rfl ht
    have harm := bitAt_or_set w (v := 1) (i := 0) (by decide)
    exact onWr ht (Chan.setFlip_of (Protect.setFlip_arm _ harm))
  case disarm =>
    rintro rfl ht
    have hdis := bitAt_or_set (w &&& 0xFFFFFFFC) (v := 2) (i := 1) (by decide)
    exact onWr ht (Chan.setFlip_of (Protect.setFlip_disarm _ (disarmWord_arm w) hdis))
  case marks => exact onWr ht (Chan.setChipmark_eq w _)
  case inval =>
    obtain ⟨hone, hall, hidx⟩ := invalWord_fields i rfl
    have hwrite := Chan.slateCtl_inval (s.chan ch) hone hall
    rw [hidx] at hwrite
    exact onWr ht hwrite
  case invalAll =>
    rintro rfl hclear ht
    have hone := (bitAt_or_clear w (v := 0x40000000) (i := 31) (by decide)).trans hclear
    have hall := bitAt_or_set w (v := 0x40000000) (i := 30) (by decide)
    exact onWr ht (Chan.slateCtl_invalAll _ hone hall)
  case restart =>
    rintro rfl ht hen hset
    have hkeep := (bitAt_or_clear w (v := 0x20000) (i := 16) (by decide)).trans hset
    have hrestart := bitAt_or_set w (v := 0x20000) (i := 17) (by decide)
    exact onWr ht (Chan.thCtl_restart _ hen hkeep hrestart)

end Sys2Proof.Machine

/-! A power-down: the end of its drain, and the end of its transition (R255, R284, R313, R317, R381). -/
namespace Sys2Proof.Machine

/-! ### The end of a drain (R284, R313, R317) -/

/-- The channel with its transition in a phase. -/
def Chan.inPhase (c : Chan) (t : Trans) (ph : TransPh) : Chan :=
  { c with power := { c.power with trans := some { t with ph := ph } } }

/-- Until the queues are drained the drain goes on (R317). -/
theorem drainEnd_waits {c : Chan} (h : c.drainedNow = false) : c.drainEnd = c := by
  unfold Chan.drainEnd
  split
  · rfl
  · exact if_pos (.inr h)

/-- A drained channel has no operation of its Loft under way (R317). -/
theorem Chan.loft_ops_of_drained {c : Chan} (h : c.drainedNow = true) : c.loft.ops = [] := by
  simp only [Chan.drainedNow, Bool.and_eq_true, List.isEmpty_iff] at h
  obtain ⟨⟨⟨⟨⟨⟨-, hops⟩, -⟩, -⟩, -⟩, -⟩, -⟩ := h
  exact hops

theorem Loft.dirtyList_eq_nil_iff (l : Loft) : l.dirtyList = [] ↔ l.dirty = 0 := by
  simp [Loft.dirtyList, Loft.dirty, countWhere]

theorem Chan.abandonWork_idle {c : Chan} (ht : c.seqr.test = none) (hc : c.seqr.clear = none) : c.abandonWork = c := by
  unfold Chan.abandonWork
  rw [ht]
  dsimp only
  rw [hc]

/-- A drained channel with no command planned and no test or clear in progress goes on as its target says: Moored parks the
ranks, Grounded without KEEP drops the contents, and the others write the Loft back where it is dirty. -/
theorem drainEnd_goes {c : Chan} {t : Trans} (ht : c.power.trans = some t) (hph : t.ph = .drain)
    (hd : c.drainedNow = true) (hplan : c.planned = []) (htest : c.seqr.test = none) (hclear : c.seqr.clear = none) :
    c.drainEnd =
      if t.req.tgt = .moored then (c.inPhase t .enter).parkRanks.directAll
      else if t.req.tgt = .grounded ∧ t.req.keep = false then
        { (c.inPhase t .enter).directAll.assertReset with loft := c.loft.invalidate }
      else if c.loft.dirty = 0 then { (c.inPhase t .enter).parkRanks.directAll with loft := c.loft.invalidate }
      else (c.inPhase t .writeBack).emptyLoft.directAll := by
  have hrest : (c.drop fun _ => true).abandonWork = c := by
    rw [Chan.drop_none (by rw [hplan]; rfl), Chan.abandonWork_idle htest hclear]
  unfold Chan.drainEnd
  rw [ht]
  dsimp only
  rw [if_neg (by simp [hph, hd]), hrest]
  rfl

/-- An emptying Loft with dirty entries starts their write-back when no operation or write-back is under way (R264, R284). -/
theorem emptyLoft_writesBack {c : Chan} (hops : c.loft.ops = []) (hwb : c.loft.wbBusy = false) (hdirty : c.loft.dirty ≠ 0) :
    c.emptyLoft = { c with loft := { c.loft with closing := true, wball := c.loft.dirtyList, wbBusy := true } } :=
  loftSettle_wb hwb rfl hops (mt (Loft.dirtyList_eq_nil_iff _).mp hdirty)

/-- Tethered, and Grounded with KEEP, are neither Moored nor Grounded without KEEP. -/
theorem keeps_target {q : PReq} (h : q.tgt = .tethered ∨ (q.tgt = .grounded ∧ q.keep = true)) :
    q.tgt ≠ .moored ∧ ¬(q.tgt = .grounded ∧ q.keep = false) := by
  rcases h with h | ⟨h, hk⟩
  · simp [h]
  · simp [h, hk]

/-! ### The end of a transition into a lower state (R255, R313, R381) -/

theorem Chan.lowReady_iff (c : Chan) (t : Trans) : c.lowReady t = true ↔
    c.tail = [] ∧ ((t.req.tgt = .grounded ∧ t.req.keep = false) ∨ ∀ x ∈ c.upk.ranks, x.selfRef = true) := by
  simp only [Chan.lowReady, Bool.and_eq_true, Bool.or_eq_true, List.isEmpty_iff, beq_iff_eq, Bool.not_eq_true',
    c.allSelfRef_iff]

/-- In its last phase a transition ends once the channel is ready. -/
theorem transDone_enter {c : Chan} {t : Trans} (e : Env) (ht : c.power.trans = some t) (hph : t.ph = .enter) :
    c.transDone e = if c.lowReady t then c.enterLow t e else c := by
  unfold Chan.transDone
  rw [ht]
  dsimp only
  rw [hph]

/-- A command in the tail, or a rank that must sleep and does not, keeps the transition waiting. -/
theorem lowReady_false {c : Chan} {t : Trans} (h : c.tail ≠ [] ∨ ∃ x ∈ c.upk.ranks, x.selfRef = false)
    (hk : t.req.tgt ≠ .grounded ∨ t.req.keep = true) : c.lowReady t = false := by
  rw [Bool.eq_false_iff, Ne, c.lowReady_iff]
  rintro ⟨htail, ⟨hgr, hkeep⟩ | hself⟩
  · rcases hk with hk | hk
    · exact hk hgr
    · simp [hkeep] at hk
  · rcases h with h | ⟨x, hx, h⟩
    · exact h htail
    · simp [hself x hx] at h

/-- What the end of a transition into Moored or Tethered leaves of the channel. -/
def Chan.EntersLow (c : Chan) (t : Trans) (e : Env) (d : Chan) : Prop :=
  d.power.cur = t.req.tgt ∧ d.power.trans = none ∧
    d.power.kept = false ∧ d.power.initDone = c.power.initDone ∧ d.seqr.run = false ∧ d.upk.ranks = c.upk.ranks ∧
    d.loft = c.loft ∧ d.pins.hold = (if t.req.tgt = .moored then .driven else .selfRef) ∧
    d.pins.ck = (t.req.tgt == .moored) ∧ d.th = (c.thMark e).th ∧
    d.upk.accounts = c.upk.accounts ∧ d.power.tetherNext = e.now + c.power.period * 10 * refMs ∧
    ∃ x ∈ d.evOut, x.loc = evStateDone

theorem enterLow_enters {c : Chan} {t : Trans} {e : Env} (hp : c.power.pend = none)
    (h : t.req.tgt = .tethered ∨ (t.req.tgt = .moored ∧ c.trim.nCur ≤ c.maxRate e)) :
    c.EntersLow t e (c.enterLow t e) := by
  obtain ⟨frm, ⟨tgt, keep, wake⟩, ph⟩ := t
  have hdone : ∀ i, ∃ x ∈ c.evOut ++ [{ loc := evStateDone, info := i }], x.loc = evStateDone := fun i =>
    ⟨_, List.mem_append_right _ (List.mem_singleton.mpr rfl), rfl⟩
  rcases h with rfl | ⟨rfl, hrate⟩
  · obtain ⟨i, hlow⟩ := enterLow_tethered (e := e) (frm := frm) (keep := keep) (wake := wake) (ph := ph) hp
    rw [hlow]
    exact ⟨rfl, rfl, rfl, Bool.and_true _, rfl, rfl, rfl, rfl, rfl, rfl, rfl, rfl, hdone i⟩
  · obtain ⟨i, hlow⟩ := enterLow_moored (frm := frm) (keep := keep) (wake := wake) (ph := ph) hp hrate
    rw [hlow]
    exact ⟨rfl, rfl, rfl, Bool.and_true _, rfl, rfl, rfl, rfl, rfl, rfl, rfl, rfl, hdone i⟩

/-- Settles O47: the end of the drain by the target, where the Loft is written back before the ranks park (log 55,
deduced), and the end of the transition by whether the channel is ready for its state. -/
theorem powerDownDrains : Obligations.PowerDownDrains := by
  rintro s ch _ t rfl ht
  refine ⟨fun _ hd => onCh (drainEnd_waits hd), fun hph hd hplan htest hclear => ?_, fun hph hwait hk => ?_,
    fun hph htail hself hp htgt => ?_⟩
  · have hgo := drainEnd_goes ht hph hd hplan htest hclear
    refine ⟨fun hm => ?moored, fun hg hk => ?grounded, fun hkeep hclean => ?clean, fun hkeep hdirty hwb => ?dirty⟩
    case moored =>
      obtain ⟨h, q, hq, hall⟩ := Chan.directAll_eq ((s.chan ch).inPhase t .enter).parkRanks
      exact ⟨h, q, hq, onCh (hgo.trans ((if_pos hm).trans hall))⟩
    case grounded =>
      obtain ⟨h, q, hq, hall⟩ := Chan.directAll_eq ((s.chan ch).inPhase t .enter)
      rw [if_neg (by simp [hg]), if_pos ⟨hg, hk⟩, hall] at hgo
      exact ⟨h, q, hq, onCh hgo⟩
    case clean =>
      obtain ⟨h, q, hq, hall⟩ := Chan.directAll_eq ((s.chan ch).inPhase t .enter).parkRanks
      obtain ⟨hm, hg⟩ := keeps_target hkeep
      rw [if_neg hm, if_neg hg, if_pos hclean, hall] at hgo
      exact ⟨h, q, hq, onCh hgo⟩
    case dirty =>
      obtain ⟨h, q, hq, hall⟩ := Chan.directAll_eq ((s.chan ch).inPhase t .writeBack).emptyLoft
      obtain ⟨hm, hg⟩ := keeps_target hkeep
      have hempty := emptyLoft_writesBack (c := (s.chan ch).inPhase t .writeBack) (Chan.loft_ops_of_drained hd) hwb hdirty
      rw [if_neg hm, if_neg hg, if_neg hdirty, hall, hempty] at hgo
      exact ⟨h, q, hq, onCh hgo⟩
  · exact onCh ((transDone_enter s.env ht hph).trans (if_neg (by simp [lowReady_false hwait hk])))
  · have hready := ((s.chan ch).lowReady_iff t).mpr ⟨htail, .inr hself⟩
    exact ⟨_, onCh ((transDone_enter s.env ht hph).trans (if_pos hready)), enterLow_enters hp htgt⟩

end Sys2Proof.Machine

/-! The state after reset meets what every step keeps. -/
namespace Sys2Proof.Machine

/-- Settles O5: every channel comes out of reset between commands, and the queue and the counters are empty. -/
theorem resetMeetsTheInvariants : Obligations.ResetMeetsTheInvariants := ⟨State.reset_sound, State.reset_quiet⟩

end Sys2Proof.Machine

/-! The event queue as records are raised: where they enter, what is lost, what is marked, and the interrupt lines (R362 to
R364, R368, R369). -/
namespace Sys2Proof.Machine

/-! ### Records that enter the queue (R362, R364) -/

/-- A record joins the filling bank, which then stays where it is. -/
theorem Events.enqueue_stays {e : Events} {r : Record}
    (h : e.filling.length < 63 ∨ (e.filling.length = 63 ∧ e.drained = false)) :
    e.enqueue r = ({ e with filling := e.filling ++ [r] }, 0) := by
  have h0 : ¬64 ≤ e.filling.length := by omega
  have h1 : e.filling.length < 64 := by omega
  have h2 : (decide (64 ≤ (e.filling ++ [r]).length) && ({ e with filling := e.filling ++ [r] } : Events).drained) = false := by
    rcases h with h | ⟨-, h⟩
    · simp; omega
    · exact Bool.and_eq_false_imp.mpr fun _ => h
  simp only [Events.enqueue, h0, h1, h2, decide_false, Bool.false_and, Bool.false_eq_true, if_false, if_true]

/-- The record that fills the bank while the draining bank is empty swaps the two. -/
theorem Events.enqueue_fills {e : Events} {r : Record} (h : e.filling.length = 63) (hd : e.drained = true) :
    e.enqueue r = ({ e with filling := [], draining := e.filling ++ [r] }, 0) := by
  have hd' : ({ e with filling := e.filling ++ [r] } : Events).drained = true := hd
  simp [Events.enqueue, h, hd', Events.swap]

/-- A record that finds the bank full while the draining bank is empty enters the other one. -/
theorem Events.enqueue_swaps {e : Events} {r : Record} (h : e.filling.length = 64) (hd : e.drained = true) :
    e.enqueue r = ({ e with filling := [r], draining := e.filling }, 0) := by
  simp [Events.enqueue, h, hd, Events.swap]

theorem lowestSev_le {l : List Record} {x : Record} (h : x ∈ l) : lowestSev l ≤ x.sev := (foldl_min_le l 7).2.1 x h

/-- A lowest severity below the fold's start is that of a record of the bank. -/
theorem lowestSev_attained {l : List Record} (h : lowestSev l < 7) : ∃ x ∈ l, x.sev = lowestSev l :=
  (foldl_min_le l 7).2.2.resolve_left (Nat.ne_of_lt h)

/-- With the bank full and the reader busy, a record no higher than the lowest is dropped. -/
theorem Events.enqueue_drops {e : Events} {r : Record} (h : e.filling.length = 64) (hd : e.drained = false)
    (hs : r.sev ≤ 4) (hlow : ∀ x ∈ e.filling, r.sev ≤ x.sev) : e.enqueue r = (e.loseRec r, 1) := by
  have hn : ¬lowestSev e.filling < r.sev := fun hlt => by
    obtain ⟨x, hx, hsev⟩ := lowestSev_attained (l := e.filling) (by omega)
    have := hlow x hx
    omega
  simp [Events.enqueue, h, hd, hn]

/-- The newest record of the lowest severity stands behind every other of that severity. -/
theorem dropNewest_lowest {l : List Record} (h : lowestSev l < 7) : ∃ a v b, l = a ++ v :: b ∧ v.sev = lowestSev l ∧
    (∀ y ∈ b, v.sev < y.sev) ∧ l.reverse.find? (fun x => x.sev == lowestSev l) = some v ∧
    dropNewest (lowestSev l) l = a ++ b := by
  obtain ⟨x, hx, hsev⟩ := lowestSev_attained h
  obtain ⟨a, v, b, hl, hv, ha, hfind, htake, hdrop⟩ :=
    newest_split (p := fun x => x.sev == lowestSev l) (m := l.reverse) ⟨x, by simpa using hx, by simpa using hsev⟩
  have hl' : l = b.reverse ++ v :: a.reverse := by simpa using congrArg List.reverse hl
  have hv' : v.sev = lowestSev l := by simpa using hv
  refine ⟨b.reverse, v, a.reverse, hl', hv', fun y hy => ?_, hfind, ?_⟩
  · have hy' : y ∈ a := by simpa using hy
    have hne : y.sev ≠ lowestSev l := by simpa using ha y hy'
    have hle : lowestSev l ≤ y.sev := lowestSev_le (by rw [hl']; simp [hy'])
    omega
  · have e1 : (l.reverse.takeWhile fun x => decide (x.sev ≠ lowestSev l)) = a := by
      rw [← htake]; congr 1; funext x; simp [beq_eq_decide]
    have e2 : (l.reverse.dropWhile fun x => decide (x.sev ≠ lowestSev l)).drop 1 = b := by
      rw [← hdrop]; congr 2; funext x; simp [beq_eq_decide]
    simp only [dropNewest]
    rw [e1, e2, List.reverse_append]

/-- With the bank full and the reader busy, a record above the lowest severity replaces the newest record of it. -/
theorem Events.enqueue_replaces {e : Events} {r x : Record} (h : e.filling.length = 64) (hd : e.drained = false)
    (hs : r.sev ≤ 4) (hx : x ∈ e.filling) (hlt : x.sev < r.sev) :
    ∃ a v b, e.filling = a ++ v :: b ∧ (∀ y ∈ e.filling, v.sev ≤ y.sev) ∧ (∀ y ∈ b, v.sev < y.sev) ∧
      e.enqueue r = (({ e with filling := a ++ b ++ [r] } : Events).loseRec v, 1) := by
  have hlow : lowestSev e.filling < r.sev := Nat.lt_of_le_of_lt (lowestSev_le hx) hlt
  obtain ⟨a, v, b, hl, hv, hb, hfind, hdrop⟩ := dropNewest_lowest (l := e.filling) (by omega)
  refine ⟨a, v, b, hl, fun y hy => hv ▸ lowestSev_le hy, hb, ?_⟩
  simp [Events.enqueue, h, hd, hlow, hfind, hdrop]

/-! ### What a lost record leaves (R364) -/

theorem Events.loseRec_sticky_chan {e : Events} {r : Record} (hc : r.ident % 128 < 120) (hn : r.ident / 128 < e.sticky.length) :
    nth0 (e.loseRec r).sticky (r.ident / 128) = nth0 e.sticky (r.ident / 128) ||| 0x100 := by
  simp [Events.loseRec, Record.channel, hc, Events.stick, updateAt, nth0, List.getD_eq_getElem?_getD, hn]

theorem Events.loseRec_sticky_blk {e : Events} {r : Record} (hc : 120 ≤ r.ident % 128) :
    (e.loseRec r).sticky = e.sticky := by
  simp [Events.loseRec, Record.channel, Nat.not_lt.mpr hc]

/-! ### Raising an event (R358, R360, R368, R369) -/

/-- A disabled source below S4 raises nothing. -/
theorem State.raise_disabled (s : State) (ident info : Nat) {word dflt : Nat} (chan : Option Nat) (fatal : Bool)
    (hd : dflt ≠ 4) (he : bitAt word 10 = false) : s.raise ident word dflt info chan fatal = s := by
  simp [State.raise, routeOf, hd, he]

/-- The queue after an event that is raised: the marks, and then the record. -/
theorem State.raise_ev (s : State) (ident info : Nat) {word dflt sev route : Nat} (chan : Option Nat) (fatal : Bool)
    (h : routeOf word dflt = some (sev, route)) : (s.raise ident word dflt info chan fatal).ev =
      ((s.ev.mark sev chan fatal).enqueue
        { ident := ident, sev := sev, time := s.us, info := info % 2 ^ 19, route := route }).1 := by
  simp only [State.raise, h, State.countRaised]
  split <;> rfl

/-- Settles O14: a record by the room that it finds, the lines by what they show, and raising by the marks, which the entry
of the record keeps. -/
theorem eventsAreQueuedAndSignalled : Obligations.EventsAreQueuedAndSignalled := by
  refine ⟨fun e r hr => ⟨Events.enqueue_stays, Events.enqueue_fills, Events.enqueue_swaps, fun h hd =>
    ⟨Events.enqueue_drops h hd hr, fun x hx => Events.enqueue_replaces h hd hr hx⟩, loseRec_dropped e r, ?_,
    Events.loseRec_sticky_blk⟩, fun s => ⟨?_, ?_, ?_⟩, ?_⟩
  · rintro _ rfl
    exact Events.loseRec_sticky_chan
  · simp only [State.irqEvt, Events.irqEvt, Bool.and_eq_true, Bool.not_eq_true', irq_holds]
  · simp only [State.irqUrg, Events.irqUrg, Bool.and_eq_true, Bool.not_eq_true', irq_holds]
  · simp only [State.irqFatal, Bool.and_eq_true, Bool.not_eq_true']
  · rintro s ident word dflt info chan fatal hd _ rfl
    refine ⟨State.raise_disabled s ident info chan fatal, fun sev hsev hen => ?_⟩
    obtain ⟨h4, route, hroute, hr⟩ := routeOf_spec hd hsev hen
    have hev := s.raise_ev ident info chan fatal hroute
    have hgrows := enqueue_grows (s.ev.mark sev chan fatal)
      { ident := ident, sev := sev, time := s.us, info := info % 2 ^ 19, route := route }
    rw [hev]
    refine ⟨?_, ?_, _, _, rfl, rfl, rfl, rfl, rfl, rfl, hr⟩
    · rintro n rfl hn
      exact hgrows.1 n sev (mark_sticky s.ev sev n fatal hn h4)
    · rintro rfl
      exact hgrows.2 (mark_fatal s.ev chan fatal)

end Sys2Proof.Machine

/-! The event queue as software reads it: the latch, the head, FLUSH, CLR_FATAL, CH_STICKY and the swap of the banks (R362,
R363, R365 to R369). -/
namespace Sys2Proof.Machine

/-- What a read finds: the latched record, or else the head (R365). -/
def Events.Shows (e : Events) (r : Record) : Prop := e.latched = some r ∨ (e.latched = none ∧ e.head = some r)

theorem Events.readLo_shows {e : Events} {r : Record} (h : e.Shows r) : e.readLo = ({ e with
    latched := some r, draining := if e.latched = none then e.draining.erase r else e.draining }, r.lo) := by
  rcases h with h | ⟨h, hr⟩
  · cases e
    cases h
    rfl
  · simp [Events.readLo, h, hr]

theorem Events.readHi_shows {e : Events} {r : Record} (h : e.Shows r) : e.readHi = ({ e with
    latched := none, draining := if e.latched = none then e.draining.erase r else e.draining }, r.hi) := by
  rcases h with h | ⟨h, hr⟩
  · simp [Events.readHi, h]
  · cases e
    cases h
    simp only [Events.readHi, hr, if_true]

theorem Events.head_nil {e : Events} (h : e.draining = []) : e.head = none := by simp [Events.head, h, leastBy]

theorem Events.readLo_empty {e : Events} (hl : e.latched = none) (hd : e.draining = []) : e.readLo = (e, emptyRead) := by
  simp [Events.readLo, hl, Events.head_nil hd]

theorem Events.readHi_empty {e : Events} (hl : e.latched = none) (hd : e.draining = []) : e.readHi = (e, emptyRead) := by
  simp [Events.readHi, hl, Events.head_nil hd]

theorem execEvqLoRead_takes {s : State} {e : Events} {w : Word} (ht : s.Takes (rdTxn .blk 0x300)) (h : s.ev.readLo = (e, w)) :
    exec .evqLoRead s = .next (({ s with ev := e } : State).respond false w) :=
  (mgtRead_takes ht).trans (by simp only [State.readEvqLo, h])

theorem execEvqHiRead_takes {s : State} {e : Events} {w : Word} (ht : s.Takes (rdTxn .blk 0x304)) (h : s.ev.readHi = (e, w)) :
    exec .evqHiRead s = .next (({ s with ev := e } : State).respond false w) :=
  (mgtRead_takes ht).trans (by simp only [State.readEvqHi, h])

/-- A control write of the queue or of the interrupt lines leaves the queue as its writer does. -/
theorem mgtWrite_ev {s : State} {off : Nat} {w : Word} {f : Events → Events} {e : Events} (ht : s.Takes (wrTxn .blk off w))
    (h : f s.ev = e) : mgtWrite .blk off w (fun s => { s with ev := f s.ev }) s =
      .next (({ s with ev := e } : State).respond false 0) := by
  rw [mgtWrite_takes ht, h]

theorem Events.evqCtl_flush (e : Events) : e.evqCtl 1 = { e with filling := [], draining := [], latched := none } := rfl

theorem Events.irqStat_clrFatal (e : Events) : e.irqStat 0x80000000 = { e with fatal := false, fatalCh := 0 } := rfl

/-- The banks swap at an edge while there is something to show and nothing shown (R362). -/
theorem Events.swapEdge_eq (e : Events) : e.swapEdge =
    if e.draining = [] ∧ e.latched = none ∧ e.filling ≠ [] then { e with filling := [], draining := e.filling } else e :=
  ite_of_iff (by simp [Events.drained, and_assoc])

/-- Settles O15: the two reads by what they find, the head by its severity, and each control by its definition. -/
theorem eventQueueIsRead : Obligations.EventQueueIsRead := by
  rintro s _ rfl
  refine ⟨fun r h => ⟨fun ht => execEvqLoRead_takes ht (Events.readLo_shows h), fun ht =>
    execEvqHiRead_takes ht (Events.readHi_shows h)⟩, fun hl hd => ⟨fun ht => execEvqLoRead_takes ht (Events.readLo_empty hl hd),
    fun ht => execEvqHiRead_takes ht (Events.readHi_empty hl hd)⟩, fun r h => ⟨leastBy_mem h, leastBy_least h⟩,
    fun ht => mgtWrite_ev ht s.ev.evqCtl_flush, fun ht => mgtWrite_ev ht s.ev.irqStat_clrFatal,
    fun ch ht => mgtRead_takes ht, ?_⟩
  rw [← s.ev.swapEdge_eq]
  rfl

end Sys2Proof.Machine

/-! The performance counters: loads, the control register, wide values, the user pages, and the RCLK edge (R372 to R375, R378,
R379, R404). -/
namespace Sys2Proof.Machine

/-! ### The registers of a page (R373, R375, R378, R404) -/

/-- A write of a counter register leaves the counters of its page as its writer does. -/
theorem mgtWrite_cnt (f : Counters → Counters) {s : State} {off : Nat} {w : Word} (ht : s.Takes (wrTxn .blk off w)) :
    mgtWrite .blk off w (fun s => { s with cnt := f s.cnt }) s =
      .next (({ s with cnt := f s.cnt } : State).respond false 0) :=
  mgtWrite_takes ht

theorem mgtWrite_chanCnt (f : Counters → Counters) {s : State} {ch : ChanId} {off : Nat} {w : Word}
    (ht : s.Takes (wrTxn (.chan ch) off w)) : mgtWrite (.chan ch) off w (fun s => s.onChan ch fun _ c => c.cntWrite f) s =
      .next ((s.commitChan ch { s.chan ch with cnt := f (s.chan ch).cnt }).respond false 0) :=
  onWr (f := fun _ c => c.cntWrite f) ht rfl

theorem Counters.whi_eq (w : Word) : Counters.whi w = fun u => { u with
    load := u.load ++ [(min (u.cs.length - 1) (bitsAt w.toNat 16 4), bitsAt w.toNat 0 16 * 2 ^ 32 + u.wlo)] } := rfl

theorem Counters.ctl_eq (w : Word) : Counters.ctl w = fun u => { u with
    freezeNext := bitAt w.toNat 0,
    cs := ((List.range u.cs.length).zip u.cs).map fun c => if bitAt w.toNat (16 + c.1) then { c.2 with ovf := false } else c.2 } :=
  rfl

/-! ### The user pages (R374, R379) -/

/-- The address of U_CNT_LO(i) of page `n`, and the parts that a read takes it apart into (R379). -/
theorem userAddr_parts (n : Fin 9) (i : Fin 16) : ∀ a, a = (BitVec.ofNat 24 (0xA00000 + 0x1000 * n.val + 8 * i.val)).toNat →
    0xA00000 ≤ a ∧ a < 0xA09000 ∧ (a - 0xA00000) / 0x1000 = n.val ∧ a % 0x1000 = 8 * i.val := by
  rintro _ rfl
  have hn := n.isLt
  have hi := i.isLt
  rw [BitVec.toNat_ofNat]
  omega

/-- U_CNT_LO(i) of a user page is read by the page's own rule. -/
theorem State.userRead_lo (s : State) (n : Nat) (i : Fin 16) : s.userRead n (8 * i.val) = s.readULo n i.val := by
  have hi := i.isLt
  have h1 : ¬8 * i.val % 4 ≠ 0 := by omega
  have h2 : 8 * i.val < 0x80 := by omega
  have h3 : 8 * i.val % 8 = 0 := by omega
  have h4 : 8 * i.val / 8 = i.val := by omega
  simp only [State.userRead, if_neg h1, if_pos h2, if_pos h3, h4]

theorem uCntLoRead_to {s : State} {n : Fin 9} {i : Fin 16} (hm : s.mgt.held = none) (hr : s.rst.ready = true)
    {r : Option (State × Word)} : s.readULo n.val i.val = r → exec (.uCntLoRead n i) s = .next (match r with
      | some p => p.1.respond false p.2
      | none => s.respond true 0) := by
  intro h
  obtain ⟨h1, h2, hpage, hoff⟩ := userAddr_parts n i _ rfl
  have hc := addrChan_none (a := (BitVec.ofNat 24 (0xA00000 + 0x1000 * n.val + 8 * i.val)).toNat) (.inr (by omega))
  refine registerRead_takes hm (mgtHeld_none hr hc nofun) ?_
  unfold State.readAddr
  rw [hc]
  dsimp only
  rw [if_neg (by omega), if_pos ⟨h1, h2⟩, hpage, hoff, State.userRead_lo, h]

/-- What a user page latches when counter `c` is read (R374). -/
theorem State.readULo_user {s : State} {n i : Nat} {c : Counter} (h : (s.userCnt n).cs[i]? = some c) (hu : c.user = true) :
    s.readULo n i = some (s.setUserCnt n { s.userCnt n with
      latchLo := c.value % 2 ^ 32, latchHi := b2n c.ovf * 2 ^ 31 + c.value / 2 ^ 32 % 2 ^ 16 }, BitVec.ofNat 32 c.value) := by
  simp [State.readULo, Counters.userAt, h, hu]

/-- A counter that does not exist, or whose USER bit is clear, is a bus error. -/
theorem State.readULo_none {s : State} {n i : Nat} (h : ∀ c, (s.userCnt n).cs[i]? = some c → c.user = false) :
    s.readULo n i = none := by
  have hu : (s.userCnt n).userAt i = none := by
    unfold Counters.userAt
    split
    · next c hc => simp [h c hc]
    · rfl
  simp [State.readULo, hu]

/-! ### The RCLK edge (R372, R373, R375, R404) -/

/-- What an edge does before the snapshots are taken. -/
def State.addsCounters (t : State) : State :=
  ((t.onChan 0 fun _ c => c.counterEdge).blkCounterEdge).onChans [1, 2, 3, 4, 5, 6, 7] fun _ c => c.counterEdge

theorem State.addsCounters_common {t : State} (h : t.mgt.repair = none) : SameCommon t t.addsCounters := by
  have h1 := (onChan_common h 0 fun _ c => c.counterEdge).trans (blkEdge_common _)
  have hm := h1.2.2.2.2.2.1
  exact h1.trans (onChans_common (by rw [hm]; exact h) _ _)

theorem State.rclkEdge_eq (s : State) : s.rclkEdge = (if s.lvl.ripReq
    then (({ s with rclk := s.rclk + 1 } : State).blkCount 0xC5 1).addsCounters.takeWide
    else ({ s with rclk := s.rclk + 1 } : State).addsCounters.takeWide) := by
  unfold State.rclkEdge
  dsimp only
  split <;> rfl

/-- The snapshot of the block is taken from the state that the edge leaves. -/
theorem State.takeWide_common (t : State) : t.takeWide.rclk = t.rclk ∧ t.takeWide.mgt = t.mgt ∧
    t.takeWide.wide = t.wide.take fun n => t.takeWide.wideBlk n := ⟨rfl, rfl, rfl⟩

/-- An edge from a state that has counted its RCLK: the snapshot is taken, and the rest of the common stays. -/
theorem State.addsCounters_takeWide {t : State} (h : t.mgt.repair = none) : t.addsCounters.takeWide.rclk = t.rclk ∧
    t.addsCounters.takeWide.mgt = t.mgt ∧
    t.addsCounters.takeWide.wide = t.wide.take fun n => t.addsCounters.takeWide.wideBlk n := by
  obtain ⟨-, -, -, -, hwide, hmgt, -, -, -, hrclk, -⟩ := State.addsCounters_common h
  obtain ⟨h1, h2, h3⟩ := t.addsCounters.takeWide_common
  exact ⟨h1.trans hrclk, h2.trans hmgt, h3.trans (by rw [hwide])⟩

/-- Everything of the common at an edge but the event queue and the block's counters: RCLK counts, and the snapshot is taken. -/
theorem State.rclkEdge_common {s : State} (h : s.mgt.repair = none) : s.rclkEdge.rclk = s.rclk + 1 ∧
    s.rclkEdge.mgt = s.mgt ∧ s.rclkEdge.wide = s.wide.take fun n => s.rclkEdge.wideBlk n := by
  rw [s.rclkEdge_eq]
  split
  · exact State.addsCounters_takeWide (t := ({ s with rclk := s.rclk + 1 } : State).blkCount 0xC5 1) h
  · exact State.addsCounters_takeWide (t := { s with rclk := s.rclk + 1 }) h

/-- A counter without a load adds what was gathered; the page notes the carry. -/
theorem Counters.edge_at {k : Counters} {i : Nat} {c : Counter} (hc : k.cs[i]? = some c) (hl : ∀ l ∈ k.load, l.1 ≠ i) :
    k.edge.1.cs[i]? = some (c.edge k.freeze none).1 ∧ (i ∈ k.edge.2 ↔ (c.edge k.freeze none).2 = true) := by
  have hi : i < k.cs.length := (List.getElem?_eq_some_iff.mp hc).1
  have hf : (k.load.reverse.find? fun l => l.1 == i) = none := by
    simpa [List.find?_eq_none] using fun a b => hl (a, b)
  have hz : ((List.range k.cs.length).zip k.cs)[i]? = some (i, c) := by
    rw [List.getElem?_zip_eq_some]
    exact ⟨by simp [hi], hc⟩
  constructor
  · simp only [Counters.edge, List.getElem?_map, hz, Option.map_some, hf, Option.map_none]
  · simp only [Counters.edge, List.mem_filter, List.mem_range, hi, true_and, List.getD_eq_getElem?_getD, List.getElem?_map, hz,
      Option.map_some, hf, Option.map_none, Option.getD_some]

/-- Settles O40: each register by its writer, U_CNT_LO by what its page shows, and the edge by one counter at a time (FREEZE after
the edge's additions, log entry 22). -/
theorem countersCount : Obligations.CountersCount := by
  refine ⟨⟨?write, ?wide, ?user⟩, ?edge, ?count⟩
  case write =>
    rintro s p w x off k (⟨rfl, rfl, rfl⟩ | ⟨rfl | rfl, rfl, rfl⟩) ht
    · rw [← Counters.whi_eq w]
      cases p
      · exact mgtWrite_cnt (Counters.whi w) ht
      · exact mgtWrite_chanCnt (Counters.whi w) ht
    all_goals
      rw [← Counters.ctl_eq w]
      cases p
      · exact mgtWrite_cnt (Counters.ctl w) ht
      · exact mgtWrite_chanCnt (Counters.ctl w) ht
  case wide =>
    rintro s (_ | ch) w ht _ rfl
    · exact mgtWrite_takes (eff := fun s => { s with wide := s.wide.start w }) ht
    · exact onWr (f := fun _ c => c.wideWrite w) ht rfl
  case user =>
    rintro s n i _ rfl hm hr
    exact ⟨fun c hc hu => uCntLoRead_to hm hr (State.readULo_user hc hu), fun hn =>
      uCntLoRead_to hm hr (State.readULo_none hn)⟩
  case edge =>
    intro s
    have hk : Kept s s.rclkEdge.mgtRetry := (State.rclkEdge_kept s).trans (State.mgtRetry_kept _)
    refine ⟨s.rclkEdge.mgtRetry, rfl, hk.now, hk.img, hk.pending, fun hm hrep => ?_⟩
    obtain ⟨hrclk, hmgt, hwide⟩ := State.rclkEdge_common hrep
    have hheld : s.rclkEdge.mgt.held = none := by rw [hmgt]; exact hm
    rw [mgtRetry_none hheld]
    exact ⟨hrclk, hmgt, hwide⟩
  case count =>
    intro k i c hc hl
    obtain ⟨hat, hov⟩ := Counters.edge_at hc hl
    exact ⟨_, rfl, hat, hov.trans decide_eq_true_iff, rfl, rfl⟩

end Sys2Proof.Machine

/-! The check-value unit of a channel: START, the bytes of an input, and CRC-32C (R352, R355). -/
namespace Sys2Proof.Machine

/-- Bits that are clear in `v` keep a field of the word that `v` is set in. -/
theorem bitsAt_or_clear (w : Word) {v : Word} {lo n : Nat} (h : bitsAt v.toNat lo n = 0) :
    bitsAt (w ||| v).toNat lo n = bitsAt w.toNat lo n := by
  refine Nat.eq_of_testBit_eq fun i => ?_
  have hi : (bitsAt v.toNat lo n).testBit i = false := by simp [h]
  rw [testBit_bitsAt] at hi
  rw [testBit_bitsAt, testBit_bitsAt, BitVec.toNat_or, Nat.testBit_or, Bool.and_or_distrib_left, hi, Bool.or_false]

/-- The bytes of a word, least significant first. -/
theorem toBytes_eq (k n : Nat) : toBytes k n = (List.range k).map fun i => n / 2 ^ (8 * i) % 256 := by
  induction k generalizing n with
  | zero => rfl
  | succ k ih =>
    have hdiv : ∀ i, n / 256 / 2 ^ (8 * i) = n / 2 ^ (8 * (i + 1)) := fun i => by
      rw [Nat.div_div_eq_div_mul, Nat.mul_add, Nat.pow_add, Nat.mul_comm]
    simp [toBytes, ih, List.range_succ_eq_map, hdiv, Function.comp_def]

/-- START takes the parameters of its own write and loads REG with INIT (log entries 27 and 84). -/
theorem CvUnit.cfg_start (u : CvUnit) (w : Word) : u.cfg (w ||| 0x80) = { u with
    inbytes := clampTo 1 4 (bitsAt w.toNat 4 3), refout := bitAt w.toNat 3, refin := bitAt w.toNat 2,
    width := min 2 (bitsAt w.toNat 0 2), reg := u.init % 2 ^ crcWidth (min 2 (bitsAt w.toNat 0 2)) } := by
  have h4 : bitsAt (w ||| 0x80).toNat 4 3 = bitsAt w.toNat 4 3 := bitsAt_or_clear w (by decide)
  have h0 : bitsAt (w ||| 0x80).toNat 0 2 = bitsAt w.toNat 0 2 := bitsAt_or_clear w (by decide)
  have h3 : bitAt (w ||| 0x80).toNat 3 = bitAt w.toNat 3 := bitAt_or_clear w (by decide)
  have h2 : bitAt (w ||| 0x80).toNat 2 = bitAt w.toNat 2 := bitAt_or_clear w (by decide)
  have h7 : bitAt (w ||| 0x80).toNat 7 = true := bitAt_or_set w (by decide)
  simp only [CvUnit.cfg, h4, h0, h3, h2, h7, if_true, CvUnit.cut, CvUnit.w]

/-- The check value of the nine digits under the parameters of CRC-32C. -/
theorem crc32c_digits :
    crcResult 32 0xFFFFFFFF true (crcFeeds 32 0x1EDC6F41 true 0xFFFFFFFF [0x31, 0x32, 0x33, 0x34, 0x35, 0x36, 0x37, 0x38, 0x39])
      = 0xE3069283 := by decide +kernel

/-- Settles O54: START by the fields of its word, an input by the bytes of its word, and CRC-32C by computing it. -/
theorem checkValueUnitRuns : Obligations.CheckValueUnitRuns := by
  rintro s ch _ _ rfl rfl
  refine ⟨?_, fun w ht => ⟨(s.chan ch).cv.input w, onWr (f := fun _ c => c.cvWrite (CvUnit.input w)) ht rfl, rfl, ?_⟩,
    crc32c_digits⟩
  · rintro w _ rfl ht
    refine ⟨(s.chan ch).cv.cfg (w ||| 0x80), onWr (f := fun _ c => c.cvWrite (CvUnit.cfg (w ||| 0x80))) ht rfl, ?_⟩
    rw [CvUnit.cfg_start]
    exact ⟨rfl, rfl, rfl, rfl, rfl, rfl, rfl, rfl, rfl⟩
  · rw [← toBytes_eq]
    rfl

end Sys2Proof.Machine

/-! Messages and how they move: the words of a message, replies, GO, ACK, and the legacy pointer and window (R341 to R345,
R351). -/
namespace Sys2Proof.Machine

/-! ### Messages and replies (R341 to R343) -/

/-- A payload of at most 14 words follows the header whole. -/
theorem mkMsg_payload {alive op len st i : Nat} {pay : List Word} (hp : pay.length ≤ 14) (hi : i < pay.length) :
    (mkMsg alive op len st pay).getD (i + 1) 0 = pay.getD i 0 := by
  have h14 : i < 14 := by omega
  simp [mkMsg, List.getD_eq_getElem?_getD, List.getElem?_append, hi, h14]

/-- ALIVE and STATUS stand in word 0 of a message. -/
theorem mkMsg_fields (alive op len st : Nat) (pay : List Word) :
    bitsAt ((mkMsg alive op len st pay).getD 0 0).toNat 24 8 = alive % 256 ∧
      bitsAt ((mkMsg alive op len st pay).getD 0 0).toNat 0 8 = st % 256 := by
  rw [mkMsg_head]
  simp only [bitsAt, Nat.shiftRight_eq_div_pow]
  omega

/-- A reply writes the message, ends the request, and keeps the message of a native one for a duplicate. -/
theorem Chan.reply_eq (c : Chan) {st : Nat} (len : Nat) (pay : List Word) (h : st < 256) : c.reply st len pay = { c with
    mbxIn := { c.mbxIn with
      words := mkMsg c.mbxIn.aliveOf c.mbxIn.opcode len st pay, busy := false, done := true, op := none, working := false,
      res := [],
      kept := if c.mbxIn.legacy then c.mbxIn.kept
        else some (c.mbxIn.aliveOf, mkMsg c.mbxIn.aliveOf c.mbxIn.opcode len st pay) },
    evOut := c.evOut ++ [{ loc := evMbxIn, info := c.mbxIn.aliveOf * 2 ^ 8 + st }] } := by
  obtain ⟨h1, h2⟩ := mkMsg_fields c.mbxIn.aliveOf c.mbxIn.opcode len st pay
  have ha : c.mbxIn.aliveOf < 256 := bitsAt_lt _ _ _
  have hinfo : packFields [(8, c.mbxIn.aliveOf), (0, st)] = c.mbxIn.aliveOf * 2 ^ 8 + st := by simp [packFields]
  simp only [Chan.reply, Chan.finishMbx, Chan.raise, h1, h2, Nat.mod_eq_of_lt ha, Nat.mod_eq_of_lt h, hinfo]

/-! ### GO and ACK (R342, R345) -/

theorem Chan.mbxGo_eq (c : Chan) (legacy : Bool) : c.mbxGo legacy = { c with
    mbxIn := if c.mbxIn.busy then { c.mbxIn with ovr := true }
      else { c.mbxIn with busy := true, done := false, legacy := legacy, op := none, working := false, res := [] } } := by
  unfold Chan.mbxGo
  split <;> rfl

/-! ### The legacy pointer and window (R351) -/

/-- The pointer takes its fields, and then GO and ACK act (log entry 84). -/
theorem Chan.lptrWrite_go {c : Chan} {v : Word} (hgo : bitAt v.toNat 31 = true) : c.lptrWrite v = { c with
    mbxIn := (if c.mbxIn.busy then { c.mbxIn with ovr := true }
      else { c.mbxIn with busy := true, done := false, legacy := true, op := none, working := false, res := [] }),
    mbxOut := { c.mbxOut with
      indexDir := bitAt v.toNat 4, index := bitsAt v.toNat 0 4, valid := c.mbxOut.valid && !bitAt v.toNat 30 } } := by
  unfold Chan.lptrWrite
  simp only [hgo, if_true, Chan.mbxGo_eq]
  cases bitAt v.toNat 30 <;> simp [Chan.mbxAck]

theorem Chan.lptrWrite_ack {c : Chan} {v : Word} (hgo : bitAt v.toNat 31 = false) (hack : bitAt v.toNat 30 = true) :
    c.lptrWrite v = { c with mbxOut := { c.mbxOut with
      indexDir := bitAt v.toNat 4, index := bitsAt v.toNat 0 4, valid := false } } := by
  simp [Chan.lptrWrite, hgo, hack, Chan.mbxAck]

/-- The window writes an inbound word unless the pointer names the outbound side or a request is in progress. -/
theorem Chan.ldataWrite_eq (c : Chan) (w : Word) : c.ldataWrite w = { c with
    mbxIn := (if c.mbxOut.indexDir || c.mbxIn.busy then c.mbxIn
      else { c.mbxIn with words := c.mbxIn.words.set (c.mbxOut.index % 16) w }),
    mbxOut := { c.mbxOut with index := (c.mbxOut.index + 1) % 16 } } := by
  unfold Chan.ldataWrite Chan.mbxPut Chan.stepIndex
  cases c.mbxOut.indexDir <;> cases hb : c.mbxIn.busy <;> simp [hb]

/-- Settles O59: a message by its words, a reply by the message that it writes, and each access by its writer or reader. -/
theorem mailboxMessagesMove : Obligations.MailboxMessagesMove := by
  refine ⟨⟨fun alive op len st pay hp => ⟨mkMsg_len .., mkMsg_sum .., mkMsg_head .., fun i hi => mkMsg_payload hp hi⟩, ?_⟩, ?_⟩
  · rintro c st len pay _ rfl hst
    exact c.reply_eq len pay hst
  · rintro s ch _ rfl
    refine ⟨fun ht => onWr (f := fun _ c => c.inCtl 1) ht (Chan.mbxGo_eq _ false), fun ht =>
      onWr (f := fun _ c => c.outCtl 1) ht rfl, ?_, ?_, fun w ht =>
      onWr (f := fun _ c => c.ldataWrite w) ht (Chan.ldataWrite_eq _ w), fun w ht => mgtRead_takes ht⟩
    · rintro w _ rfl ht
      exact onWr (f := fun _ c => c.lptrWrite (w ||| 0x80000000)) ht (Chan.lptrWrite_go (bitAt_or_set w (by decide)))
    · rintro w _ rfl hgo ht
      have hclear : bitAt (w ||| 0x40000000).toNat 31 = false := by rw [bitAt_or_clear w (by decide), hgo]
      exact onWr (f := fun _ c => c.lptrWrite (w ||| 0x40000000)) ht (Chan.lptrWrite_ack hclear (bitAt_or_set w (by decide)))

end Sys2Proof.Machine

/-! The inbound mailbox as the sequencer serves it: checks, duplicates, dispatch, and the short opcodes (R307, R341 to R344, R347,
R351). -/
namespace Sys2Proof.Machine

/-! ### A request that is taken up (R342 to R344, R351) -/

/-- A request waits that the sequencer serves now. -/
structure Chan.TakesRequest (c : Chan) : Prop where
  busy : c.mbxIn.busy = true
  idle : c.mbxIn.op = none
  run : c.seqr.run = true
  up : c.bringing = false
  steady : c.shifting = false

/-- The check of a request is right, or it is a legacy one, which has none (R342, R351). -/
def MbxIn.Checked (m : MbxIn) : Prop := m.legacy = true ∨ m.words.getD 15 0 = msgCheck m.words

/-- The request repeats the ALIVE of the one whose reply is kept (R343). -/
def MbxIn.Repeats (m : MbxIn) (ws : List Word) : Prop := m.legacy = false ∧ m.kept = some (m.aliveOf, ws)

theorem Chan.TakesRequest.open {c : Chan} (h : c.TakesRequest) :
    (!c.mbxIn.busy || c.mbxIn.op.isSome || c.mbxHeld) = false := by
  simp [Chan.mbxHeld, h.busy, h.idle, h.run, h.up, h.steady]

theorem Chan.mbxServe_badCheck {c : Chan} (h : c.TakesRequest) (hl : c.mbxIn.legacy = false)
    (hw : c.mbxIn.words.getD 15 0 ≠ msgCheck c.mbxIn.words) :
    c.mbxServe = c.finishMbx (mkMsg c.mbxIn.aliveOf c.mbxIn.opcode 0 2 []) := by
  have hbad : (!c.mbxIn.legacy && c.mbxIn.words.getD 15 0 != msgCheck c.mbxIn.words) = true := by
    rw [hl]; simpa using hw
  simp only [Chan.mbxServe, h.open, hbad, Bool.false_eq_true, if_false, if_true, stBadCheck]

/-- The check passed: a duplicate is answered from what is kept, another by its opcode. -/
theorem Chan.mbxServe_checked {c : Chan} (h : c.TakesRequest) (hw : c.mbxIn.Checked) : c.mbxServe =
    match c.mbxIn.kept with
    | some (a, ws) =>
      if !c.mbxIn.legacy && a == c.mbxIn.aliveOf then c.finishMbx ws
      else if (servedOps c.mbxIn.legacy).contains c.mbxIn.opcode then
        { c with mbxIn := { c.mbxIn with op := some c.mbxIn.opcode } }
      else c.reply stBadOpcode 0 []
    | none =>
      if (servedOps c.mbxIn.legacy).contains c.mbxIn.opcode then
        { c with mbxIn := { c.mbxIn with op := some c.mbxIn.opcode } }
      else c.reply stBadOpcode 0 [] := by
  have hok : (!c.mbxIn.legacy && c.mbxIn.words.getD 15 0 != msgCheck c.mbxIn.words) = false := by
    rcases hw with hw | hw
    · rw [hw]; rfl
    · rw [hw]; simp
  simp only [Chan.mbxServe, h.open, hok, Bool.false_eq_true, if_false] <;> rfl

theorem Chan.mbxServe_repeats {c : Chan} {ws : List Word} (h : c.TakesRequest) (hw : c.mbxIn.Checked)
    (hd : c.mbxIn.Repeats ws) : c.mbxServe = c.finishMbx ws := by
  rw [Chan.mbxServe_checked h hw, hd.2]
  simp [hd.1]

theorem Chan.mbxServe_opcode {c : Chan} (h : c.TakesRequest) (hw : c.mbxIn.Checked) (hn : ∀ ws, ¬c.mbxIn.Repeats ws) :
    c.mbxServe = if (servedOps c.mbxIn.legacy).contains c.mbxIn.opcode then
        { c with mbxIn := { c.mbxIn with op := some c.mbxIn.opcode } }
      else c.reply stBadOpcode 0 [] := by
  rw [Chan.mbxServe_checked h hw]
  cases hk : c.mbxIn.kept with
  | none => rfl
  | some p =>
    obtain ⟨a, ws⟩ := p
    have hne : (!c.mbxIn.legacy && a == c.mbxIn.aliveOf) = false := by
      rw [Bool.and_eq_false_iff]
      by_contra hc
      simp only [Bool.not_eq_false', not_or, Bool.not_eq_true, beq_eq_false_iff_ne, ne_eq, not_not] at hc
      exact hn ws ⟨hc.1, by rw [hk, hc.2]⟩
    simp only [hne, Bool.false_eq_true, if_false]

theorem servedOps_contains (legacy : Bool) (n : Nat) : (servedOps legacy).contains n = true ↔
    n ∈ (if legacy then [1, 2, 3] else [1, 2, 3, 0x10, 0x11, 0x12, 0x20, 0x30]) := by
  unfold servedOps
  exact List.contains_iff_mem

/-! ### The short opcodes (R307, R347) -/

theorem Chan.serving_of {c : Chan} {n : Nat} (hr : c.seqr.run = true) (ho : c.mbxIn.op = some n)
    (hw : c.mbxIn.working = false) : c.serving n = true := by
  simp [Chan.serving, hr, ho, hw]

theorem Chan.doStatus_served {c : Chan} (h : c.serving 1 = true) : c.doStatus = c.reply 0 2
    [BitVec.ofNat 32 (match c.img with | some i => leAt i.code 0 4 | none => 0),
     mkWord [(16, c.mbxOut.queue.length), (8, b2n (c.seqr.test.isSome || c.seqr.clear.isSome)), (0, c.phase.num)]] := by
  simp only [Chan.doStatus, h, Bool.not_true, Bool.false_eq_true, if_false, stOk] <;> rfl

/-- A sideband transaction of a request begins: it works, and the bus is taken. -/
def Chan.usesBus (c : Chan) : Chan :=
  { c with
    mbxIn := { c.mbxIn with working := true }, sb := { c.sb with busy := true, i2c := c.sb.noI3c || c.sb.rate == 3 } }

theorem Chan.doSbRead_served {c : Chan} (h : c.serving 2 = true) : c.doSbRead =
    if c.sb.busy then c else if c.sbPresent (c.mbxIn.word 1) then c.usesBus else c.reply 4 0 [] := by
  unfold Chan.doSbRead
  cases hb : c.sb.busy
  · cases hp : c.sbPresent (c.mbxIn.word 1)
    · simp [h, stBadTarget]
    · simp [h]; rfl
  · simp

/-- The target of an SB_WRITE is looked for before it is denied (log entry 44). -/
theorem Chan.doSbWrite_served {c : Chan} {d : Nat} (h : c.serving 3 = true) (hd : d = bitsAt (c.mbxIn.word 1) 12 4) :
    c.doSbWrite = if c.sb.busy then c
      else if c.sbPresent (c.mbxIn.word 1) = false then c.reply 4 0 []
      else if d = 9 ∨ d = 11 then c.reply 7 0 []
      else c.usesBus := by
  subst hd
  unfold Chan.doSbWrite
  cases hb : c.sb.busy
  · cases hp : c.sbPresent (c.mbxIn.word 1)
    · simp [h, stBadTarget]
    · simp only [h, Bool.not_true, Bool.or_false, Bool.false_eq_true, if_false, stDenied]; rfl
  · simp

theorem Chan.doAbortTest_served {c : Chan} (h : c.serving 0x11 = true) : c.doAbortTest =
    match c.seqr.test with
    | some t => ({ c with seqr := { c.seqr with test := some { t with abort := true } } }).reply 0 0 []
    | none => c.reply 8 0 [] := by
  simp only [Chan.doAbortTest, h, Bool.not_true, Bool.false_eq_true, if_false, stOk, stNone] <;> rfl

/-- The bus is free again, and a missing acknowledgement is counted (R309). -/
theorem Chan.mbxInDone_read {c : Chan} {r : SbResult} (hr : c.seqr.run = true) (hw : c.mbxIn.working = true)
    (ho : c.mbxIn.op = some 2) : c.mbxInDone r = if r.ack then
      (c.sbEnd r.ack).reply 0 ((sbCount (c.mbxIn.word 2) + 3) / 4) (sbWords (sbCount (c.mbxIn.word 2)) r.bytes)
      else (c.sbEnd r.ack).reply 6 0 [] := by
  simp only [Chan.mbxInDone, hr, hw, ho, Bool.not_true, Bool.or_self, Bool.false_eq_true, if_false, stOk, stNack]

theorem Chan.mbxInDone_write {c : Chan} {r : SbResult} (hr : c.seqr.run = true) (hw : c.mbxIn.working = true)
    (ho : c.mbxIn.op = some 3) : c.mbxInDone r = (c.sbEnd r.ack).reply (if r.ack then 0 else 6) 0 [] := by
  simp only [Chan.mbxInDone, hr, hw, ho, Bool.not_true, Bool.or_self, Bool.false_eq_true, if_false, stOk, stNack]
  cases r.ack <;> rfl

/-- Settles O50: the request by its check, its ALIVE and its opcode, each short opcode by its definition, and the result of the
bus by the request that used it. -/
theorem mailboxIsServed : Obligations.MailboxIsServed := by
  refine ⟨?_, ?_⟩
  · rintro s ch _ _ rfl rfl hb ho hr hbr hsh
    have hreq : (s.chan ch).TakesRequest := ⟨hb, ho, hr, hbr, hsh⟩
    refine ⟨fun hl hw => onCh (Chan.mbxServe_badCheck hreq hl hw), fun hw => ⟨fun ws hl hk =>
      onCh (Chan.mbxServe_repeats hreq hw ⟨hl, hk⟩), fun hn => ?_⟩⟩
    have hop := Chan.mbxServe_opcode hreq hw fun ws hd => hn.elim (fun hl => by simp [hd.1] at hl) fun hk => hk ws hd.2
    exact ⟨fun hin => onCh (hop.trans (if_pos ((servedOps_contains _ _).mpr hin))), fun hout =>
      onCh (hop.trans (if_neg fun hc => hout ((servedOps_contains _ _).mp hc)))⟩
  · rintro s ch _ rfl hr
    refine ⟨fun ho hw => onCh (Chan.doStatus_served (Chan.serving_of hr ho hw)), fun ho hw =>
      onCh (Chan.doSbRead_served (Chan.serving_of hr ho hw)), fun d ho hw hd =>
      onCh (Chan.doSbWrite_served (Chan.serving_of hr ho hw) hd), fun ho hw =>
      onCh (Chan.doAbortTest_served (Chan.serving_of hr ho hw)), ?_⟩
    rintro r _ _ hw rfl rfl
    exact ⟨fun ho => onCh (Chan.mbxInDone_read hr hw ho), fun ho => onCh (Chan.mbxInDone_write hr hw ho)⟩

end Sys2Proof.Machine

/-! The requests that take time, as they begin: SELFTEST, ZQ_NOW, RETRIM and MEM_CLEAR (R263, R347 to R349). -/
namespace Sys2Proof.Machine

/-! ### Refusals (R347) -/

theorem Chan.doSelftest_badTarget {c : Chan} (e : Env) {i : ChanImg} (hi : c.img = some i) (hs : c.serving 0x10 = true)
    (hr : c.hasRank (reqRank (c.mbxIn.word 1)) = false) : c.doSelftest e = c.reply 4 0 [] := by
  simp [Chan.doSelftest, hi, hs, hr, stBadTarget]

theorem Chan.doZqNow_badTarget {c : Chan} (e : Env) (hs : c.serving 0x12 = true)
    (hr : c.hasRank (reqRank (c.mbxIn.word 1)) = false) : c.doZqNow e = c.reply 4 0 [] := by
  simp [Chan.doZqNow, hs, hr, stBadTarget]

theorem Chan.doRetrim_badTarget {c : Chan} (e : Env) (hs : c.serving 0x20 = true)
    (hr : c.hasRank (reqRank (c.mbxIn.word 1)) = false) : c.doRetrim e = c.reply 4 0 [] := by
  simp [Chan.doRetrim, hs, hr, stBadTarget]

/-- A test or a clear runs, as the two requests that look for one see it. -/
theorem Chan.longWork_iff (c : Chan) : (c.seqr.test.isSome || c.seqr.clear.isSome) = true ↔
    c.seqr.test ≠ none ∨ c.seqr.clear ≠ none := by
  rw [Bool.or_eq_true, Option.isSome_iff_ne_none, Option.isSome_iff_ne_none]

theorem Chan.doSelftest_inUse {c : Chan} (e : Env) {i : ChanImg} (hi : c.img = some i) (hs : c.serving 0x10 = true)
    (hr : c.hasRank (reqRank (c.mbxIn.word 1)) = true) (hb : c.seqr.test ≠ none ∨ c.seqr.clear ≠ none) :
    c.doSelftest e = c.reply 5 0 [] := by
  simp only [Chan.doSelftest, hi, hs, hr, c.longWork_iff.mpr hb, Bool.not_true, Bool.false_eq_true, if_false, if_true, stInUse]

theorem Chan.doMemClear_inUse {c : Chan} {i : ChanImg} (hi : c.img = some i) (hs : c.serving 0x30 = true)
    (hb : c.seqr.test ≠ none ∨ c.seqr.clear ≠ none) : c.doMemClear = c.reply 5 0 [] := by
  simp only [Chan.doMemClear, hi, hs, c.longWork_iff.mpr hb, Bool.not_true, Bool.false_eq_true, if_false, if_true, stInUse]

/-! ### What begins (R263, R348, R349) -/

/-- The test that a request asks for: its range is clamped to the rows, and it is destructive only on a fenced rank. -/
def Chan.newTest (c : Chan) (i : ChanImg) (run now : Nat) : SelfTest :=
  { word1 := run, first := min (i.rows - 1) (bitsAt (c.mbxIn.word 2) 0 18),
    last := min (i.rows - 1) (bitsAt (c.mbxIn.word 3) 0 18), pace := min 1000 (bitsAt (c.mbxIn.word 4) 0 10),
    seed := c.mbxIn.word 5, posA := 0, posB := 0, fails := 0, corrected := 0, chips := 0, sig := 0xFFFFFFFF,
    firstFail := none, abort := false, next := now }

theorem Chan.doSelftest_begins {c : Chan} (e : Env) {i : ChanImg} {w r run : Nat} (hi : c.img = some i)
    (hs : c.serving 0x10 = true) (hw : w = c.mbxIn.word 1) (hr : r = reqRank w) (hrank : c.hasRank r = true)
    (ht : c.seqr.test = none) (hk : c.seqr.clear = none) (hrun : run = packFields
      [(31, b2n (bitAt w 31 && bitAt c.seqr.fenceDone.toNat r)), (24, min 2 (bitsAt w 24 2)), (8, r), (0, reqSubs w)]) :
    c.doSelftest e = ({ c with seqr := { c.seqr with test := some (c.newTest i run e.now) } } : Chan).reply 1 1
      [BitVec.ofNat 32 run] := by
  subst hw hr hrun
  simp only [Chan.doSelftest, hi, hs, hrank, ht, hk, Option.isSome_none, Bool.or_self, Bool.not_true, Bool.false_eq_true,
    if_false, stAccepted]
  rfl

theorem Chan.doMemClear_begins {c : Chan} {i : ChanImg} (hi : c.img = some i) (hs : c.serving 0x30 = true)
    (ht : c.seqr.test = none) (hk : c.seqr.clear = none) {k : Nat}
    (hm : k = bitsAt (c.mbxIn.word 1) 0 8 &&& c.seqr.fence.toNat &&& (2 ^ i.ranks - 1)) : c.doMemClear =
      ({ c with seqr := { c.seqr with clear := some { mask := k, on := c.loft.on, posA := 0, posB := 0, gran := 0 } } } : Chan).reply
        1 1 [BitVec.ofNat 32 k] := by
  subst hm
  simp only [Chan.doMemClear, hi, hs, ht, hk, Option.isSome_none, Bool.or_self, Bool.not_true, Bool.false_eq_true,
    if_false, stAccepted]

/-- A mask of one subchannel names that one alone. -/
theorem subsOf_one (sb : Sub) : subsOf (2 ^ sb.num) = [sb] := by cases sb <;> decide

theorem Chan.doZqNow_begins {c : Chan} (e : Env) {sb : Sub} {r : Nat} {x : RankSt} (hs : c.serving 0x12 = true)
    (hr : r = reqRank (c.mbxIn.word 1)) (hrank : c.hasRank r = true) (hm : reqSubs (c.mbxIn.word 1) = 2 ^ sb.num)
    (hx : c.upk.rank sb r = some x) (hz : x.zqPhase = 0) : c.doZqNow e =
      ((c.startZq sb r).modRank sb r fun x => { x with zqNext := e.now + (c.startZq sb r).zqInterval }).work := by
  subst hr
  simp only [Chan.doZqNow, hs, hrank, hm, subsOf_one, List.foldl_cons, List.foldl_nil, hx, hz, Bool.not_true, Bool.false_eq_true,
    if_false, if_true]

/-- Asking for a pause leaves the interval of retrims. -/
theorem Chan.askPause_retrimInterval (c : Chan) (sb : Sub) (r : Nat) (w : Bool) :
    (c.askPause .retrim sb r w).retrimInterval = c.retrimInterval := by
  rw [Chan.askPause_retrim]
  rfl

theorem Chan.doRetrim_begins {c : Chan} (e : Env) {sb : Sub} {r : Nat} (hs : c.serving 0x20 = true)
    (hr : r = reqRank (c.mbxIn.word 1)) (hrank : c.hasRank r = true) (hm : reqSubs (c.mbxIn.word 1) = 2 ^ sb.num) :
    c.doRetrim e = ((c.askPause .retrim sb r (bitAt (c.mbxIn.word 1) 16)).modRank sb r fun x => { x with
      retrimNext := e.now + (c.askPause .retrim sb r (bitAt (c.mbxIn.word 1) 16)).retrimInterval }).work := by
  subst hr
  simp only [Chan.doRetrim, hs, hrank, hm, subsOf_one, List.foldl_cons, List.foldl_nil, Bool.not_true, Bool.false_eq_true,
    if_false, Chan.askPause_retrimInterval]

/-- Settles O51: each request by what it finds: an absent rank, then work that runs (log entry 44), and otherwise what it begins
(the mask of a clear is cut to the fenced ranks that exist, log entry 76). -/
theorem longRequestsBegin : Obligations.LongRequestsBegin := by
  rintro s ch _ i _ _ _ rfl hi hrun hw rfl rfl rfl
  have hs := fun {n} ho => Chan.serving_of (n := n) hrun ho hw
  refine ⟨?target, ?inUse, fun run ho hr ht hk hrn => ?test, fun k ho ht hk hm => ?clear, fun sb hr hm => ⟨?zq, ?retrim⟩⟩
  case target =>
    rintro op x (⟨rfl, rfl⟩ | ⟨rfl, rfl⟩ | ⟨rfl, rfl⟩) ho hr
    · exact onCh (Chan.doSelftest_badTarget _ hi (hs ho) hr)
    · exact onCh (Chan.doZqNow_badTarget _ (hs ho) hr)
    · exact onCh (Chan.doRetrim_badTarget _ (hs ho) hr)
  case inUse =>
    rintro op x (⟨rfl, rfl, hr⟩ | ⟨rfl, rfl⟩) ho hb
    · exact onCh (Chan.doSelftest_inUse _ hi (hs ho) hr hb)
    · exact onCh (Chan.doMemClear_inUse hi (hs ho) hb)
  case test =>
    exact ⟨(s.chan ch).newTest i run s.now, onCh (Chan.doSelftest_begins _ hi (hs ho) rfl rfl hr ht hk hrn), rfl, rfl, rfl, rfl,
      rfl, rfl, rfl, rfl, rfl, rfl⟩
  case clear => exact onCh (Chan.doMemClear_begins hi (hs ho) ht hk hm)
  case zq =>
    rintro _ ho ⟨x, hx, hz⟩ rfl
    exact onCh (Chan.doZqNow_begins _ (hs ho) rfl hr hm hx hz)
  case retrim =>
    rintro _ ho rfl
    exact onCh (Chan.doRetrim_begins _ (hs ho) rfl hr hm)

end Sys2Proof.Machine

/-! The long work of the sequencer: the pauses of a self-test, the results that are posted, and their delivery (R345, R346, R349,
R350). -/
namespace Sys2Proof.Machine

/-! ### Pauses of a self-test (R349) -/

/-- A failed line leaves the test's word. -/
theorem SelfTest.fail_word1 (t : SelfTest) (d : Dev) : (t.fail d).word1 = t.word1 := rfl

/-- A tested line leaves the test's word. -/
theorem SelfTest.line_word1 (t : SelfTest) (x8 : Bool) (mark : Option Nat) (d : Dev) (l : TestLine) :
    (t.line x8 mark d l).word1 = t.word1 := by
  unfold SelfTest.line
  dsimp only
  repeat' split
  all_goals rfl

theorem SelfTest.lines_word1 (x8 : Bool) (mark : Option Nat) (l : List (Dev × TestLine)) (t : SelfTest) :
    (l.foldl (fun (t : SelfTest) p => t.line x8 mark p.1 p.2) t).word1 = t.word1 := by
  induction l generalizing t with
  | nil => rfl
  | cons p l ih => exact (ih _).trans (t.line_word1 ..)

theorem SelfTest.setPos_pos (t : SelfTest) (sb : Sub) (n : Nat) : (t.setPos sb n).pos sb = n := by cases sb <;> rfl

theorem SelfTest.setPos_word1 (t : SelfTest) (sb : Sub) (n : Nat) : (t.setPos sb n).word1 = t.word1 := by cases sb <;> rfl

/-- The test after a pause of `len` REFCLK that tested `n` lines of a subchannel. -/
def SelfTest.after (t : SelfTest) (x8 : Bool) (mark : Option Nat) (sb : Sub) (n len now : Nat) (l : List (Dev × TestLine)) :
    SelfTest :=
  { (l.foldl (fun (t : SelfTest) p => t.line x8 mark p.1 p.2) t).setPos sb (t.pos sb + n) with
    next := now + len + 100 * t.pace }

theorem SelfTest.after_pos (t : SelfTest) (x8 : Bool) (mark : Option Nat) (sb : Sub) (n len now : Nat)
    (l : List (Dev × TestLine)) : (t.after x8 mark sb n len now l).pos sb = t.pos sb + n :=
  SelfTest.setPos_pos _ sb _

theorem SelfTest.after_word1 (t : SelfTest) (x8 : Bool) (mark : Option Nat) (sb : Sub) (n len now : Nat)
    (l : List (Dev × TestLine)) : (t.after x8 mark sb n len now l).word1 = t.word1 :=
  (SelfTest.setPos_word1 _ sb _).trans (t.lines_word1 ..)

theorem Chan.testPause_idle {c : Chan} {e : Env} (lines : List TestLine) (h : c.seqr.test = none) :
    c.testPause lines e = c := by
  simp [Chan.testPause, h]

/-- No pause is asked for before its time, during another, or of a test that is abandoned. -/
theorem Chan.testMay_false {c : Chan} {e : Env} {t : SelfTest} {sb : Sub}
    (h : t.abort = true ∨ e.now < t.next ∨ c.pauseOn sb ≠ none) : c.testMay e t sb = false := by
  unfold Chan.testMay
  rcases h with h | h | h
  · simp [h]
  · simp [h]
  · simp [Option.isNone_eq_false_iff.mpr (Option.isSome_iff_ne_none.mpr h)]

section
variable {c : Chan} {e : Env} {lines : List TestLine} {t : SelfTest} {i : ChanImg} {sb : Sub} {n : Nat}
variable (ht : c.seqr.test = some t) (hi : c.img = some i) (hs : t.nextSub i = some sb)
  (hn : n = min lines.length (min (if t.destr then 32 else 64) (t.left i sb)))
include ht hi hs hn

theorem Chan.testPause_waits (h : n = 0 ∨ c.testMay e t sb = false) : c.testPause lines e = c := by
  simp only [Chan.testPause, ht, hi, hs, ← hn]
  exact if_pos h

/-- The pause that the scheduler admits begins, and the test goes on behind its lines. -/
theorem Chan.testPause_begins {len : Nat} {p : Pause} {d : Chan} (hpos : 0 < n) (hmay : c.testMay e t sb = true)
    (hlen : len = Config.pauseLength c.free % 101)
    (hp : p =
      { kind := .selftest, sub := sb, rank := t.rank, len := len, wide := false, running := false, endAt := e.now + len,
        cmds := lineCmds i t.destr sb t.rank ((List.range n).map fun j => t.dev i sb (t.pos sb + j)) })
    (hd : ({ c with free := c.free + 1 } : Chan).admits e p = (true, d)) :
    c.testPause lines e = ({ d with
      seqr := { d.seqr with test := some (t.after i.x8 (d.mark sb) sb n len e.now
        (((List.range n).map fun j => t.dev i sb (t.pos sb + j)).zip lines)) },
      upk := { d.upk with pauses := d.upk.pauses ++ [p] } } : Chan).beginPause p := by
  have hgo : ¬(n = 0 ∨ c.testMay e t sb = false) := by
    rintro (h | h)
    · omega
    · simp [hmay] at h
  simp only [Chan.testPause, ht, hi, hs, ← hn, if_neg hgo]
  simp only [Chan.fresh, ← hlen, ← hp, hd]
  rfl

end

/-! ### Results (R345, R350) -/

theorem Chan.post_eq (c : Chan) (op st : Nat) (pay : List Word) : c.post op st pay = { c with mbxOut :=
    if c.mbxOut.queue.length < 8 then { c.mbxOut with queue := c.mbxOut.queue ++ [(op, st, pay)] }
    else { c.mbxOut with dropped := satAdd 255 c.mbxOut.dropped 1 } } := by
  unfold Chan.post
  by_cases h : c.mbxOut.queue.length < 8
  · rw [if_neg (by omega), if_pos h]
  · rw [if_pos (by omega), if_neg h]

theorem Chan.testDone_posts {c : Chan} {i : ChanImg} {t : SelfTest} (hi : c.img = some i) (hr : c.seqr.run = true)
    (ht : c.seqr.test = some t) (hp : ∀ p ∈ c.upk.pauses, p.kind ≠ .selftest) (hd : t.abort = true ∨ t.nextSub i = none) :
    c.testDone = c.endTest (if t.abort then 9 else 0) t := by
  have hany : (c.upk.pauses.any fun p => p.kind == .selftest) = false := by simpa using hp
  unfold Chan.testDone
  simp only [ht, hi, hr, hany, Bool.not_true, Bool.or_self, Bool.false_eq_true, if_false, stAborted, stOk]
  rcases hd with hd | hd
  · simp [hd]
  · cases t.abort <;> simp [hd]

theorem Chan.clearDone_posts {c : Chan} {i : ChanImg} {k : Clear} (hi : c.img = some i) (hr : c.seqr.run = true)
    (hk : c.seqr.clear = some k) (ho : c.clearOver i k = true) : c.clearDone = c.endClear 0 k := by
  simp [Chan.clearDone, hk, hi, hr, ho, stOk]

/-- What is delivered: the payload, with the result of a self-test at its end, and the status, or the count of the lost ones. -/
def Chan.nextMsg (c : Chan) (op st : Nat) (pay : List Word) : List Word :=
  let lost := c.mbxOut.dropped
  let body := if op = 0x90 then pay.take 8 ++ [BitVec.ofNat 32 (if lost = 0 then 0 else st)] else pay
  mkMsg c.mbxOut.alive op body.length (if lost = 0 then st else lost) body

theorem Chan.deliver_shows {c : Chan} {op st : Nat} {pay : List Word} {q : List (Nat × Nat × List Word)}
    (hq : c.mbxOut.queue = (op, st, pay) :: q) (hv : c.mbxOut.valid = false) (hr : c.seqr.run = true) :
    c.deliver = { c with
      mbxOut := { c.mbxOut with
        words := c.nextMsg op st pay, valid := true, queue := q, alive := (c.mbxOut.alive + 1) % 256, dropped := 0 },
      evOut := c.evOut ++ [{ loc := evMbxOut, info := c.mbxOut.alive % 256 * 2 ^ 8 + op }] } := by
  have hinfo : packFields [(8, c.mbxOut.alive % 256), (0, op)] = c.mbxOut.alive % 256 * 2 ^ 8 + op := by simp [packFields]
  simp only [Chan.deliver, hq, hv, hr, Bool.not_true, Bool.or_self, Bool.false_eq_true, if_false, Chan.raise, hinfo]
  rfl

theorem Chan.nextMsg_plain {c : Chan} {op st : Nat} {pay : List Word} (hl : c.mbxOut.dropped = 0) (ho : op ≠ 0x90) :
    c.nextMsg op st pay = mkMsg c.mbxOut.alive op pay.length st pay := by
  simp [Chan.nextMsg, hl, ho]

theorem Chan.nextMsg_lost {c : Chan} {op st : Nat} {pay : List Word} (hl : c.mbxOut.dropped ≠ 0) (ho : op = 0x90)
    (hp : pay.length = 8) :
    c.nextMsg op st pay = mkMsg c.mbxOut.alive op 9 c.mbxOut.dropped (pay ++ [BitVec.ofNat 32 st]) := by
  simp [Chan.nextMsg, hl, ho, hp, List.take_of_length_le]

/-- Settles O52: a pause by whether it may begin, each result by what has ended, and the oldest message by what was lost. The length
of a pause is open (log entry 8), and the lines come in the order of log entry 49. -/
theorem longWorkRuns : Obligations.LongWorkRuns := by
  refine ⟨?_, ?_⟩
  · rintro s ch _ lines rfl
    refine ⟨fun ht => onCh (Chan.testPause_idle lines ht), fun t i sb n ht hi hs hn => ⟨fun h => onCh ?_,
      fun len p d hpos hmay hlen hp hd => ?_⟩⟩
    · exact Chan.testPause_waits ht hi hs hn (h.imp_right Chan.testMay_false)
    · refine ⟨_, _, onCh (Chan.testPause_begins ht hi hs hn hpos hmay hlen hp hd), rfl, ?_, rfl, SelfTest.after_pos ..,
        SelfTest.after_word1 ..⟩
      rw [hlen]
      omega
  · rintro s ch _ i rfl hi hr
    refine ⟨fun t ht hp hd => onCh (Chan.testDone_posts hi hr ht hp hd), fun k hk ho =>
      onCh (Chan.clearDone_posts hi hr hk ho), Chan.post_eq _, fun op st pay q hq hv =>
      ⟨_, onCh (Chan.deliver_shows hq hv hr), Chan.nextMsg_plain, Chan.nextMsg_lost⟩⟩

end Sys2Proof.Machine

/-! A sleeping lane: what arrives enters the wake store, and the first request that wakes asks for Flight (R319, R320). -/
namespace Sys2Proof.Machine

/-- A channel that is up has its image, and neither a fatal event nor a reset. -/
theorem Chan.down_iff (c : Chan) : c.down = false ↔
    c.img.isNone = false ∧ c.power.cur ≠ .grounded ∧ c.power.fatal = false ∧ c.power.rst = false := by
  simp [Chan.down, and_assoc]

/-- The channel with one more flit or beat in its wake store. -/
def Chan.withCaptured (c : Chan) (x : Captured) : Chan :=
  { c with lane := { c.lane with wake := c.lane.wake ++ [x] } }

/-- The lane of a Moored or Tethered channel stores what arrives. -/
theorem Chan.arrive_asleep {c : Chan} (x : Captured) (e : Env) (hp : c.power.cur = .moored ∨ c.power.cur = .tethered)
    (hd : c.down = false) (hi : c.lane.iso = false) : c.arrive x e = c.storeWake x e := by
  have ha : c.asleep = true := by
    rcases hp with hp | hp <;> simp [Chan.asleep, hd, hp]
  simp [Chan.arrive, hi, ha]

/-- With room, the store takes the flit, and the first that wakes requests Flight unless the channel is on its way to Grounded. -/
theorem Chan.storeWake_room {c : Chan} {x : Captured} (e : Env) (h : c.wakeFull x = false) : c.storeWake x e =
    if capWakes x && !c.lane.wake.any capWakes && !c.grounding then (c.withCaptured x).request hostWake e
    else c.withCaptured x := by
  unfold Chan.wakeFull at h
  unfold Chan.storeWake
  simp only [h, Bool.false_eq_true, if_false]
  rfl

/-- A request for Flight of a channel that is up waits behind a change in progress, and otherwise begins. -/
theorem Chan.request_hostWake {c : Chan} (e : Env) (hd : c.down = false) : c.request hostWake e =
    if c.power.trans.isSome then { c with power := { c.power with pend := some hostWake } } else c.startReq hostWake e := by
  obtain ⟨hi, hg, hf, hr⟩ := c.down_iff.mp hd
  have hq : ({ hostWake with keep := hostWake.keep && e.retention } : PReq) = hostWake := rfl
  have hn : c.notEnabled e hostWake = false := by simp [Chan.notEnabled, hi]
  have hl : c.loadHolds e hostWake = false := by simp [Chan.loadHolds, hg]
  simp only [Chan.request, hq, hn, hl, hf, hr, Bool.false_or, Bool.or_false, Bool.false_eq_true, if_false]

/-- The wake to Flight begins with the wait for a step start. -/
theorem Chan.startReq_hostWake {c : Chan} (e : Env) (hp : c.power.cur = .moored ∨ c.power.cur = .tethered) :
    c.startReq hostWake e = c.begin hostWake .stagger e := by
  rcases hp with hp | hp <;> simp [Chan.startReq, hostWake, hp]

/-- Settles O23: the flit is stored, and what the first one that wakes asks for begins or waits. -/
theorem sleepingLaneIsCaptured : Obligations.SleepingLaneIsCaptured := by
  rintro s ch _ x rfl hp hd hi hroom
  have harrive := ((s.chan ch).arrive_asleep x s.env hp hd hi).trans (Chan.storeWake_room s.env hroom)
  refine ⟨fun h => onCh (harrive.trans (if_neg ?_)), fun hw hfirst ht => ?_, fun t hw hfirst ht hg => ?_⟩
  · rcases h with h | h <;> simp [h]
  · have hreq := Chan.request_hostWake (c := (s.chan ch).withCaptured x) s.env hd
    have hnew : (capWakes x && !(s.chan ch).lane.wake.any capWakes && !(s.chan ch).grounding) = true := by
      simp [hw, hfirst, Chan.grounding, ht]
    rw [if_pos hnew, hreq, if_neg (by simp [Chan.withCaptured, ht]),
      Chan.startReq_hostWake (c := (s.chan ch).withCaptured x) s.env hp] at harrive
    exact onCh harrive
  · have hreq := Chan.request_hostWake (c := (s.chan ch).withCaptured x) s.env hd
    have hnew : (capWakes x && !(s.chan ch).lane.wake.any capWakes && !(s.chan ch).grounding) = true := by
      simp [hw, hfirst, Chan.grounding, ht, hg]
    rw [if_pos hnew, hreq, if_pos (by simp [Chan.withCaptured, ht])] at harrive
    exact onCh harrive

end Sys2Proof.Machine

/-! Isolation and the loss of the retention supply (R333, R334, R384, R417). -/
namespace Sys2Proof.Machine

theorem Chan.isolate_on (c : Chan) : c.isolate true = { c with lane := { c.lane with iso := true, out := none } } := rfl

theorem Chan.isolate_off (c : Chan) : c.isolate false = { c with lane := { c.lane with iso := false } } := rfl

/-- A kept channel loses its pins with the supply that holds them. -/
theorem Chan.vretLost_kept {c : Chan} (h : c.power.cur = .grounded ∧ c.power.kept = true ∧ c.power.trans = none) :
    c.vretLost = { c with pins := { c.pins with hold := .floating, ck := false } } :=
  if_pos ⟨h.1, h.2.1, by simp [h.2.2]⟩

theorem Chan.vretLost_other {c : Chan} (h : ¬(c.power.cur = .grounded ∧ c.power.kept = true ∧ c.power.trans = none)) :
    c.vretLost = c :=
  if_neg fun hc => h ⟨hc.1, hc.2.1, by simpa using hc.2.2⟩

/-- Settles O35: each command by what it makes of the channel, which holds no event or occurrence. -/
theorem pinsActOnTheirOwn : Obligations.PinsActOnTheirOwn := by
  rintro s ch _ rfl hrest
  refine ⟨congrArg Host.Outcome.next (State.onChan_silent (f := fun _ c => c.isolate true) hrest hrest.1 hrest.2.1),
    congrArg Host.Outcome.next (State.onChan_silent (f := fun _ c => c.isolate false) hrest hrest.1 hrest.2.1), fun _ => rfl,
    congrArg Host.Outcome.next ?_⟩
  split
  · next h =>
    have hv := Chan.vretLost_kept h
    exact (State.onChan_silent (f := fun _ c => c.vretLost) hrest (by rw [hv]; exact hrest.1) (by rw [hv]; exact hrest.2.1)).trans
      (congrArg (s.setChan ch) hv)
  · next h => exact State.onChan_id (f := fun _ c => c.vretLost) hrest (Chan.vretLost_other h)

end Sys2Proof.Machine

/-! A level change: the write of the voltage over AVSBus, its acknowledgement, its repeat and its failure, and the level in force
(R325, R326, R329, R330). -/
namespace Sys2Proof.Machine

section
variable {s : State} {i : BlkImg} {b : Nat} (hi : s.img = some i)
include hi

/-- The write of the new voltage goes out, unless it stands already. -/
theorem State.clampReached_sends (hc : s.lvl.change = some (b, .shifting))
    (hw : ∀ ch, (s.chan ch).withinClamp s.env = true) (hv : i.levMv b ≠ i.levMv s.lvl.cur ∨ s.lvl.volt = 0) :
    s.clampReached = { s with lvl := { s.lvl with change := some (b, .avs false), avsAt := s.now, avsMv := i.levMv b } } := by
  have hall : (allChans.all fun ch => (s.chan ch).withinClamp s.env) = true := List.all_eq_true.mpr fun ch _ => hw ch
  simp only [State.clampReached, hi, hc, hall, if_true, State.avsStage, if_pos hv, Option.isNone_some, Bool.false_eq_true,
    if_false]

theorem State.avsAck_settles {r : Bool} (hc : s.lvl.change = some (b, .avs r)) : s.avsAck = { s with lvl := { s.lvl with
    volt := s.lvl.avsMv, lastOk := true, change := some (b, .settle),
    settleAt := s.now + settleRef (i.levMv s.lvl.cur) (i.levMv b) s.lvl.slew } } := by
  simp only [State.avsAck, hi, hc]

omit hi in
/-- An error, or the end of the timeout, ends a write of the voltage. -/
theorem State.avsOver {e : Bool} (h : e = true ∨ s.lvl.avsAt + 100 * s.lvl.timeout ≤ s.now) :
    (!e && decide (s.now < s.lvl.avsAt + 100 * s.lvl.timeout)) = false := by
  rcases h with h | h
  · simp [h]
  · simp [Nat.not_lt.mpr h]

theorem State.avsTimeout_repeats {e : Bool} (hc : s.lvl.change = some (b, .avs false))
    (h : e = true ∨ s.lvl.avsAt + 100 * s.lvl.timeout ≤ s.now) : s.avsTimeout e = { s with lvl := { s.lvl with
      avsErrors := satAdd 255 s.lvl.avsErrors 1, lastOk := false, change := some (b, .avs true), avsAt := s.now } } := by
  simp only [State.avsTimeout, hi, hc, State.avsOver h, Bool.false_eq_true, if_false]

theorem State.avsTimeout_fails {e : Bool} {t : State} (hc : s.lvl.change = some (b, .avs true))
    (h : e = true ∨ s.lvl.avsAt + 100 * s.lvl.timeout ≤ s.now) (hp : s.lvl.pend = none)
    (ht : t = ({ s with lvl := { s.lvl with avsErrors := satAdd 255 s.lvl.avsErrors 1, lastOk := false } } : State).raiseBlk
      0x079 2 (b2n e * 2 ^ 18 + s.lvl.avsMv)) : s.avsTimeout e =
      (({ t with lvl := { t.lvl with fail := true, change := none } } : State).plevelDone s.lvl.cur).blkCount 0xC6 1 := by
  have hlvl : t.lvl = { s.lvl with avsErrors := satAdd 255 s.lvl.avsErrors 1, lastOk := false } := by
    rw [ht]
    exact (State.raiseBlk_same ..).2.2.2.2.1
  have hcur : t.lvl.cur = s.lvl.cur := by rw [hlvl]
  have hpend : t.lvl.pend = none := by rw [hlvl]; exact hp
  unfold State.avsTimeout
  split
  · next j d rep hj hd =>
    obtain rfl : true = rep := by simpa using congrArg (Option.map Prod.snd) (hc.symm.trans hd)
    simp only [State.avsOver h, Bool.false_eq_true, if_false, if_true, ← ht, hcur]
    exact pendLevel_none ((State.raiseBlk_lvl_pend ..).trans hpend)
  · next hn => exact absurd hc (hn i b true hi)

/-- The level and its clamps are in force once the voltage has settled. -/
theorem State.settled_ends (hc : s.lvl.change = some (b, .settle)) (h : s.lvl.settleAt ≤ s.now) (hp : s.lvl.pend = none) :
    s.settled = (({ s with lvl := { s.lvl with
      clampMr := i.levMr b, clampRd := i.levRd b, cur := b, change := none } } : State).plevelDone s.lvl.cur).blkCount 0xC6 1 := by
  have hs : s.settled = (s.levelDone i b).pendLevel i := by
    simp only [State.settled, hi, hc, Nat.not_lt.mpr h, if_false]
  rw [hs]
  exact pendLevel_none ((State.raiseBlk_lvl_pend ..).trans hp)

theorem State.settled_waits (hc : s.lvl.change = some (b, .settle)) (h : s.now < s.lvl.settleAt) : s.settled = s := by
  simp only [State.settled, hi, hc, if_pos h]

end

/-- Settles O34: each command by the stage that it finds the change in. -/
theorem levelChangeProceeds : Obligations.LevelChangeProceeds := by
  intro s i b hi
  refine ⟨fun hc hw hv => ?_, fun r hc => ?_, fun e hc h => ?_, fun e t hc h hp ht => ?_, fun hc h hp => ?_, fun hc h => ?_⟩
  · exact congrArg Host.Outcome.next (State.clampReached_sends hi hc hw hv)
  · exact congrArg Host.Outcome.next (State.avsAck_settles hi hc)
  · exact congrArg Host.Outcome.next (State.avsTimeout_repeats hi hc h)
  · exact congrArg Host.Outcome.next (State.avsTimeout_fails hi hc h hp ht)
  · exact congrArg Host.Outcome.next (State.settled_ends hi hc h hp)
  · exact congrArg Host.Outcome.next (State.settled_waits hi hc h)

end Sys2Proof.Machine

/-! The module sensors in Flight: a reading, the poll and the in-band interrupt (R306 to R308). -/
namespace Sys2Proof.Machine

/-- A reading is stored, and raises MODULE_HOT where the sensor was not hot before; it is armed again below the hysteresis. -/
theorem Chan.sensorRead_eq (c : Chan) (dimm sensor : Nat) (t : BitVec 12) {k : Nat} (hk : k = 2 * dimm + sensor) {hot : Bool}
    (hh : hot = decide (4 * (c.sb.thermHi : Int) ≤ quarterDeg t)) : c.sensorRead dimm sensor t = { c with
      sb := { c.sb with
        therm := updateAt k (fun _ => (true, t)) c.sb.therm,
        hotOff := updateAt k (fun _ => if hot then true else if decide (quarterDeg t < 4 * (c.sb.thermHi : Int) - 20) then false
          else c.sb.hotOff.getD k false) c.sb.hotOff },
      evOut := if hot = true ∧ c.sb.hotOff.getD k false = false
        then c.evOut ++ [{ loc := evModuleHot, info := packFields [(9, dimm), (8, sensor), (0, wholeDeg t)] }]
        else c.evOut } := by
  subst hk hh
  by_cases h : decide (4 * (c.sb.thermHi : Int) ≤ quarterDeg t) = true ∧ c.sb.hotOff.getD (2 * dimm + sensor) false = false
  · rw [if_pos h]
    exact if_pos (by rw [h.1, h.2]; rfl)
  · rw [if_neg h]
    exact if_neg fun hc => h (by simpa using hc)

/-- A sensor is polled, or interrupts, only on a free bus of a running channel. -/
theorem Chan.sensorIbi_takes {c : Chan} {dimm sensor : Nat} (t : BitVec 12) (hr : c.running = true) (hp : c.sb.poll = true)
    (hs : c.sb.hasSensor dimm sensor = true) : c.sensorIbi dimm sensor t =
      if c.sb.busy = true ∨ c.sb.i2c = true then c else c.sbBegin.sensorRead dimm sensor t :=
  ite_of_iff (by simp [hr, hp, hs])

theorem Chan.sensorPoll_takes {c : Chan} {dimm sensor : Nat} (t : BitVec 12) (e : Env) (hr : c.running = true)
    (hp : c.sb.poll = true) (hs : c.sb.hasSensor dimm sensor = true) : c.sensorPoll dimm sensor t e =
      if c.sb.busy = true ∨ e.now < nth0 c.sb.nextPoll (2 * dimm + sensor) then c
      else ({ c.sbBegin with sb := { c.sbBegin.sb with
        nextPoll := updateAt (2 * dimm + sensor) (fun n => n + 32 * refMs) c.sb.nextPoll } } : Chan).sensorRead dimm sensor t :=
  ite_of_iff (by simp [hr, hp, hs])

/-- Settles O45: the interrupt and the poll by whether the bus takes them, and the reading by its two limits. -/
theorem sensorsAreRead : Obligations.SensorsAreRead := by
  rintro s ch _ d dimm sensor t k hot rfl hr hp hs hk hh rfl
  have hibi := Chan.sensorIbi_takes t hr hp hs
  have hpoll := Chan.sensorPoll_takes t s.env hr hp hs
  subst hk
  refine ⟨fun hb hi => onCh (hibi.trans ((if_neg (by simp [hb, hi])).trans ?_)), fun h => onCh (hibi.trans (if_pos h)),
    fun h => onCh (hpoll.trans (if_pos h)), fun hb hn => onCh (hpoll.trans ((if_neg ?_).trans ?_))⟩
  · exact Chan.sensorRead_eq (s.chan ch).sbBegin dimm.val sensor.val t rfl hh
  · rintro (h | h)
    · simp [hb] at h
    · exact absurd h (Nat.not_lt.mpr hn)
  · exact Chan.sensorRead_eq _ dimm.val sensor.val t rfl hh

end Sys2Proof.Machine

/-! Step starts, which keep the stagger interval and record the wake, and the samples of a Tethered channel (R321 to R324,
R388). -/
namespace Sys2Proof.Machine

/-! ### When a step starts (R321, R324) -/

theorem State.stepOpen_false {s : State} {i : BlkImg} {t : Nat} (ht : s.rst.lastStep = some t) (h : s.now < t + i.stagger) :
    s.stepOpen i = false := by
  simp [State.stepOpen, ht, Nat.not_le.mpr h]

/-- Only a channel that awaits a step comes next. -/
theorem State.nextStep_ready {s : State} {i : BlkImg} {ch : ChanId} (h : s.nextStep i = some ch) :
    (s.chan ch).stepReady = true :=
  (List.mem_filter.mp (leastBy_mem h)).2

theorem State.step1_waits {s : State} {i : BlkImg} {ch : ChanId} (hi : s.img = some i)
    (h : s.stepOpen i = false ∨ s.nextStep i ≠ some ch) : s.step1 ch = s := by
  unfold State.step1
  rw [hi]
  refine if_neg fun hc => ?_
  rw [Bool.and_eq_true, beq_iff_eq] at hc
  rcases h with h | h
  · simp [h] at hc
  · exact h hc.2

theorem State.step1_goes {s : State} {i : BlkImg} {ch : ChanId} (hi : s.img = some i) (ho : s.stepOpen i = true)
    (hn : s.nextStep i = some ch) : s.step1 ch = ({ s.noteWake ch with
      rst := { (s.noteWake ch).rst with lastStep := some (s.noteWake ch).now } } : State).onChan ch Chan.stepStart := by
  unfold State.step1
  rw [hi]
  exact if_pos (by simp [ho, hn])

/-- BLK_WAKE_SRC is written where the channel waits for the step of a transition. -/
theorem State.noteWake_stagger {s : State} {ch : ChanId} {t : Trans} (ht : (s.chan ch).power.trans = some t)
    (hp : t.ph = .stagger) : s.noteWake ch =
      { s with rst := { s.rst with wakeV := true, wakeCh := ch.val, wakeSrc := t.req.wake.source } } := by
  unfold State.noteWake
  rw [ht]
  exact if_pos hp

theorem State.noteWake_other {s : State} {ch : ChanId} (h : ∀ t, (s.chan ch).power.trans = some t → t.ph ≠ .stagger) :
    s.noteWake ch = s := by
  unfold State.noteWake
  cases ht : (s.chan ch).power.trans with
  | none => rfl
  | some t => exact if_neg (h t ht)

/-- The step start of a transition writes both wake records and leaves the lower state. -/
theorem staggerStepStart_leaves {s u : State} {ch : ChanId} {i : BlkImg} {t : Trans} (hi : s.img = some i)
    (ht : (s.chan ch).power.trans = some t) (hp : t.ph = .stagger) (hl : (s.chan ch).trim.shift ≠ some .locked)
    (ho : s.stepOpen i = true) (hn : s.nextStep i = some ch)
    (hu : u = { s with
      rst := { s.rst with wakeV := true, wakeCh := ch.val, wakeSrc := t.req.wake.source, lastStep := some s.now } })
    {d : Chan} (hd : (s.chan ch).leaveLow t s.env = d) : exec (.staggerStepStart ch) s = .next (u.commitChan ch d) := by
  have hstep : (s.chan ch).stepStart s.env = d := by
    unfold Chan.stepStart
    rw [if_neg hl, ht]
    exact (if_pos hp).trans hd
  refine (congrArg Host.Outcome.next (State.step1_goes hi ho hn)).trans ?_
  rw [State.noteWake_stagger ht hp, hu]
  exact onCh hstep

/-- The step start of a shift pause restarts CK. -/
theorem staggerStepStart_restarts {s u : State} {ch : ChanId} {i : BlkImg} (hi : s.img = some i)
    (hl : (s.chan ch).trim.shift = some .locked) (ho : s.stepOpen i = true) (hn : s.nextStep i = some ch)
    (hs : ∀ t, (s.chan ch).power.trans = some t → t.ph ≠ .stagger)
    (hu : u = { s with rst := { s.rst with lastStep := some s.now } }) :
    exec (.staggerStepStart ch) s = .next (u.commitChan ch (s.chan ch).restartCk) := by
  refine (congrArg Host.Outcome.next (State.step1_goes hi ho hn)).trans ?_
  rw [State.noteWake_other hs, hu]
  exact onCh (if_pos hl)

/-! ### What a wake leaves of its lower state (R313, R388) -/

/-- The step of a transition is recorded, and its ranks or its modules are being woken. -/
def Chan.wakingStep (c : Chan) (t : Trans) : Chan :=
  { c with power := { c.power with
      trans := some { t with ph := .waking }, wakeRec := { valid := true, frm := t.frm.num, info := t.req.wake } } }

theorem Chan.leaveLow_moored {c : Chan} {t : Trans} (e : Env) (hf : t.frm = .moored) (hg : t.req.tgt = .flight)
    (hb : c.trim.bestSet c.trim.reqN = some c.trim.tsel) : c.leaveLow t e = { c.wakingStep t with
      seqr := { c.seqr with run := true }, upk := { c.upk with wake := true },
      pins := { c.pins with hold := .driven, ck := true } } := by
  unfold Chan.leaveLow
  simp only [hf]
  rw [if_neg (by simp [hg]), loadSet_same (by exact hb)]
  rfl

/-- The sequencer starts in a Grounded channel whose code passes its check (log entry 9). -/
theorem Chan.seqStart_waking {c : Chan} {t : Trans} {x : ChanImg} (hx : c.img = some x)
    (hk : Config.codeCheckOk x.code = true) : (c.wakingStep t).seqStart = { c.wakingStep t with
      seqr := { c.seqr with run := true, fault := false, test := none, clear := none },
      mbxOut := { c.mbxOut with alive := 0 }, mbxIn := { c.mbxIn with kept := none } } :=
  seqStart_ok (c := c.wakingStep t) hx hk

theorem Chan.leaveLow_grounded {c : Chan} {t : Trans} (e : Env) {x : ChanImg} (hf : t.frm = .grounded) (hx : c.img = some x)
    (hk : Config.codeCheckOk x.code = true) (hfat : c.power.fatal = false) : c.leaveLow t e =
      if !c.power.kept then ((c.wakingStep t).seqStart).startBring t e
      else if c.pins.hold = .floating then ((c.wakingStep t).seqStart).lostWake e
      else (((c.wakingStep t).seqStart).loadSet e).wakeRanks t := by
  have hs := Chan.seqStart_waking (t := t) hx hk
  have hfat' : (c.wakingStep t).seqStart.power.fatal = false := by rw [hs]; exact hfat
  have hkept : (c.wakingStep t).seqStart.power.kept = c.power.kept := by rw [hs]; rfl
  have hhold : (c.wakingStep t).seqStart.pins.hold = c.pins.hold := by rw [hs]; rfl
  have hgo : c.leaveLow t e = if ((c.wakingStep t).seqStart).power.fatal then (c.wakingStep t).seqStart
      else if !((c.wakingStep t).seqStart).power.kept then ((c.wakingStep t).seqStart).startBring t e
      else if ((c.wakingStep t).seqStart).pins.hold = .floating then ((c.wakingStep t).seqStart).lostWake e
      else (((c.wakingStep t).seqStart).loadSet e).wakeRanks t := by
    cases t
    cases hf
    rfl
  rw [hgo, if_neg (by simp [hfat']), hkept, hhold]

/-- A Grounded channel that keeps nothing begins its bring-up. -/
theorem Chan.leaveLow_bringsUp {c : Chan} {t : Trans} (e : Env) {x : ChanImg} (hf : t.frm = .grounded) (hx : c.img = some x)
    (hkept : c.power.kept = false) (hfat : c.power.fatal = false) (hk : Config.codeCheckOk x.code = true) :
    c.leaveLow t e = { c with
      power := { c.power with
        trans := some { t with ph := .bringUp }, wakeRec := { valid := true, frm := t.frm.num, info := t.req.wake } },
      seqr := { c.seqr with run := true, fault := false, test := none, clear := none },
      mbxOut := { c.mbxOut with alive := 0 }, mbxIn := { c.mbxIn with kept := none },
      sb := { c.sb with i2c := true, noI3c := false, busy := true, started := false },
      bring := { Reset.bringUp with form := if c.power.held then 2 else 0, started := e.now } } := by
  rw [Chan.leaveLow_grounded e hf hx hk hfat, if_pos (by simp [hkept]), Chan.seqStart_waking hx hk]
  rfl

/-- A Grounded channel with its contents kept wakes with them and its set. -/
theorem Chan.leaveLow_kept {c : Chan} {t : Trans} (e : Env) {x : ChanImg} (hf : t.frm = .grounded) (hx : c.img = some x)
    (hkept : c.power.kept = true) (hh : c.pins.hold ≠ .floating) (hfat : c.power.fatal = false)
    (hk : Config.codeCheckOk x.code = true) (hb : c.trim.bestSet c.trim.reqN = some c.trim.tsel) :
    c.leaveLow t e = { c.wakingStep t with
      seqr := { c.seqr with run := true, fault := false, test := none, clear := none },
      mbxOut := { c.mbxOut with alive := 0 }, mbxIn := { c.mbxIn with kept := none }, upk := { c.upk with wake := true },
      pins := { c.pins with hold := .driven, ck := true } } := by
  have hs := Chan.seqStart_waking (t := t) hx hk
  rw [Chan.leaveLow_grounded e hf hx hk hfat, if_neg (by simp [hkept]), if_neg hh, loadSet_same (by rw [hs]; exact hb), hs]
  rfl

/-! ### Samples (R322, R323) -/

/-- No sample is due. -/
theorem Chan.tetherSample_early {c : Chan} {e : Env} (rs : List (Option (BitVec 12))) (h : e.now < c.power.tetherNext) :
    c.tetherSample rs e = c :=
  if_pos (by simp [h])

/-- A module without a sensor gives a sample no reading. -/
theorem sampleOne_noSensor {c : Chan} (h : c.sb.present = 0) (k : Nat) (r : Option (BitVec 12)) : c.sampleOne k r = (c, none) :=
  sampleOne_absent (by simp [Sideband.hasSensor, h, bitAt])

theorem Chan.tetherSample_noSensor {c : Chan} {e : Env} (rs : List (Option (BitVec 12))) (hd : c.down = false)
    (hc : c.power.cur = .tethered) (ht : c.power.trans = none) (hw : c.power.tetherNext ≤ e.now) (hp : c.sb.present = 0) :
    c.tetherSample rs e =
      { c with power := { c.power with tetherNext := c.power.tetherNext + c.power.period * 10 * refMs } } := by
  unfold Chan.tetherSample
  rw [if_neg (by simp [hd, hc, ht, Nat.not_lt.mpr hw])]
  have hnone := fun k r => sampleOne_noSensor (c := { c with power := { c.power with
    tetherNext := c.power.tetherNext + c.power.period * 10 * refMs } }) hp k r
  simp only [show List.range 4 = [0, 1, 2, 3] from rfl, List.foldl_cons, List.foldl_nil, hnone] <;> rfl

/-- Settles O48: no step by the interval and by what the channel awaits, a step by the state that it leaves, and a sample by its
time and its one sensor. -/
theorem wakesAndSamplesRun : Obligations.WakesAndSamplesRun := by
  refine ⟨?_, ?_⟩
  · rintro s ch _ i hi rfl
    refine ⟨fun t ht h => congrArg Host.Outcome.next (State.step1_waits hi (.inl (State.stepOpen_false ht h))), fun h =>
      congrArg Host.Outcome.next (State.step1_waits hi (.inr fun hn => by simp [State.nextStep_ready hn] at h)),
      fun t u ht hp hl ho hn hu => ?_, fun u hl ho hn hs hu => staggerStepStart_restarts hi hl ho hn hs hu⟩
    have hleaves := fun {d} => staggerStepStart_leaves (d := d) hi ht hp hl ho hn hu
    refine ⟨fun hf hg hb => hleaves (Chan.leaveLow_moored _ hf hg hb), fun x hx hf hkept hfat hk =>
      hleaves (Chan.leaveLow_bringsUp _ hf hx hkept hfat hk), fun hf hkept hh hfat hk hx hb => ?_⟩
    obtain ⟨x, hx⟩ := Option.ne_none_iff_exists'.mp hx
    exact ⟨_, hleaves (Chan.leaveLow_kept _ hf hx hkept hh hfat (hk x hx) hb), rfl, rfl, rfl, rfl, rfl, rfl, rfl⟩
  · rintro s ch _ rs rfl
    refine ⟨fun h => onCh (Chan.tetherSample_early rs h), fun hd hc ht hw => ⟨fun hp =>
      onCh (Chan.tetherSample_noSensor rs hd hc ht hw hp), fun k t hk hr hq => ?_⟩⟩
    obtain ⟨x, hx⟩ := sampled (e := s.env) hd hc ht hw k hk hr hq
    exact ⟨_, onCh hx, rfl, rfl, rfl, rfl⟩

end Sys2Proof.Machine

/-! Retrims: the pause that is asked for, and what its end makes of the centres of the rank's lanes (R289, R297 to R301). -/
namespace Sys2Proof.Machine

/-! ### The interval (R297, R300) -/

theorem Chan.retrimDue_early {c : Chan} {e : Env} {sb : Sub} {r : Nat} {x : RankSt} (hx : c.upk.rank sb r = some x)
    (h : e.now < x.retrimNext) : c.retrimDue sb r e = c := by
  simp [Chan.retrimDue, hx, h]

/-- A due retrim without a pause of its rank asks for one, as long as its commands take (log entry 106). -/
theorem Chan.retrimDue_asks {c : Chan} {e : Env} {sb : Sub} {r : Nat} {x : RankSt} (hx : c.upk.rank sb r = some x)
    (hr : c.running = true) (hs : c.trim.shift = none) (h : x.retrimNext ≤ e.now)
    (hp : ∀ p ∈ c.upk.pauses, p.kind = .retrim → p.sub = sb → p.rank ≠ r) : c.retrimDue sb r e =
      (c.askPause .retrim sb r x.retrimWide).modRank sb r fun x => { x with retrimNext := x.retrimNext + c.retrimInterval } := by
  have hany : (c.upk.pauses.any fun p => p.kind == .retrim && p.sub == sb && p.rank == r) = false := by
    rw [List.any_eq_false]
    intro p hm
    simpa using hp p hm
  simp [Chan.retrimDue, hx, hr, hs, Nat.not_lt.mpr h, hany]

/-! ### The end of a pause (R299, R301) -/

/-- The pause that ends is one of the rank. -/
theorem Chan.retrimOver_rank {c : Chan} {e : Env} {sb : Sub} {r : Nat} {p : Pause} (h : c.retrimOver e sb r = some p) :
    p.sub = sb ∧ p.rank = r := by
  have hp := List.find?_some h
  simp only [Bool.and_eq_true, beq_iff_eq] at hp
  obtain ⟨⟨⟨⟨⟨⟨-, -⟩, hsub⟩, hrank⟩, -⟩, -⟩, -⟩ := hp
  exact ⟨hsub, hrank⟩

/-- A RETRIM request that waits notes its result, and nothing else changes. -/
theorem Chan.noteRetrim_eq (c : Chan) (p : Pause) (probes : List LaneProbe) : ∃ m, c.noteRetrim p probes = { c with mbxIn := m } := by
  unfold Chan.noteRetrim
  dsimp only
  split
  · exact ⟨_, rfl⟩
  · exact ⟨c.mbxIn, rfl⟩

/-- No shift waits for the end of a pause. -/
theorem Chan.endPause_noShift {c : Chan} (p : Pause) (h : c.trim.shift = none) :
    c.endPause p = { c with upk := { c.upk with pauses := c.upk.pauses.erase p } } :=
  if_neg (by simp [h])

/-- What the end of a retrim pause leaves of the channel: the pause is over and counted, and the trim sets are those that its
lanes left. -/
theorem Chan.retrimEnd_trim {c : Chan} {e : Env} {sb : Sub} {r : Nat} {p : Pause} (probes : List LaneProbe)
    (h : c.retrimOver e sb r = some p) (hs : c.trim.shift = none) :
    (c.retrimEnd sb r probes e).upk.pauses = c.upk.pauses.erase p ∧ (c.retrimEnd sb r probes e).trim =
      { ((List.range 10).foldl (Chan.retrimLane p probes c.free) c).trim with pauses := satAdd 0xFFFF c.trim.pauses 1 } := by
  obtain ⟨d, hd, -, hupk, -, -, -, -, hpauses, hshift, -, -, -, -⟩ := retrimLanes p probes c.free c 10
  obtain ⟨m, hm⟩ := d.noteRetrim_eq p probes
  unfold Chan.retrimEnd
  rw [h]
  dsimp only
  rw [hd, hm]
  dsimp only
  rw [Chan.endPause_noShift _ (by exact hshift.trans hs)]
  have hover : d.upk.pauses.erase p = c.upk.pauses.erase p := by rw [hupk]
  exact ⟨hover, congrArg (fun n => { d.trim with pauses := satAdd 0xFFFF n 1 }) hpauses⟩

/-! ### The entry of a lane (R292, R299, R301) -/

/-- A centre whose sum fits moves by its amount. -/
theorem moveCentre_fits {v lo : Nat} {m : Int} (free : Nat) (h0 : 0 ≤ (bitsAt v lo 8 : Int) + m)
    (h1 : (bitsAt v lo 8 : Int) + m ≤ 255) :
    ∃ n : Nat, n < 2 ^ 8 ∧ (n : Int) = bitsAt v lo 8 + m ∧ moveCentre v lo m free = setBits v lo 8 n :=
  ⟨((bitsAt v lo 8 : Int) + m).toNat, by omega, Int.toNat_of_nonneg h0, by rw [moveCentre, if_pos ⟨h0, h1⟩]⟩

/-- An entry with its mark and its count of fails written. -/
def marked (n mark fails : Nat) : BitVec 128 := BitVec.ofNat 128 (setBits (setBits n 126 1 mark) 124 2 fails)

theorem marked_marg (n : Nat) {mark : Nat} (fails : Nat) (h : mark < 2) : entMarg (marked n mark fails) = decide (mark = 1) := by
  rw [entMarg, bitAt_bits, marked, bitsAt_ofNat _ _ _ _ (by decide), bitsAt_setBits_ne _ _ _ _ _ _ (.inr (by decide)),
    bitsAt_setBits _ _ _ _ h]

theorem marked_fails (n mark : Nat) {fails : Nat} (h : fails < 4) : entFails (marked n mark fails) = fails := by
  rw [entFails, marked, bitsAt_ofNat _ _ _ _ (by decide), bitsAt_setBits _ _ _ _ h]

/-- The mark and the fails stand above the centres. -/
theorem marked_low (n mark fails : Nat) {lo w : Nat} (h : lo + w ≤ 124) :
    bitsAt (marked n mark fails).toNat lo w = bitsAt n lo w := by
  rw [marked, bitsAt_ofNat _ _ _ _ (by omega), bitsAt_setBits_ne _ _ _ _ _ _ (.inl h), bitsAt_setBits_ne _ _ _ _ _ _ (.inl (by omega))]

/-- Moves that fit move both centres, and clear the mark and the fails. -/
theorem entryAfter_moves {v : BitVec 128} {a b : Int} (n : Nat) (ha0 : 0 ≤ (bitsAt v.toNat 116 8 : Int) + a)
    (ha1 : (bitsAt v.toNat 116 8 : Int) + a ≤ 255) (hb0 : 0 ≤ (bitsAt v.toNat 108 8 : Int) + b)
    (hb1 : (bitsAt v.toNat 108 8 : Int) + b ≤ 255) :
    (bitsAt (entryAfter v (some a) (some b) n).toNat 116 8 : Int) = bitsAt v.toNat 116 8 + a ∧
      (bitsAt (entryAfter v (some a) (some b) n).toNat 108 8 : Int) = bitsAt v.toNat 108 8 + b ∧
      entMarg (entryAfter v (some a) (some b) n) = false ∧ entFails (entryAfter v (some a) (some b) n) = 0 := by
  obtain ⟨x, hx, hxa, hmx⟩ := moveCentre_fits n ha0 ha1
  have hb : bitsAt (setBits v.toNat 116 8 x) 108 8 = bitsAt v.toNat 108 8 :=
    bitsAt_setBits_ne _ _ _ _ _ _ (.inl (by decide))
  obtain ⟨y, hy, hyb, hmy⟩ := moveCentre_fits (v := setBits v.toNat 116 8 x) (n + 1) (by rw [hb]; exact hb0) (by rw [hb]; exact hb1)
  have he : entryAfter v (some a) (some b) n = marked (setBits (setBits v.toNat 116 8 x) 108 8 y) 0 0 := by
    simp only [entryAfter, hmx, hmy, marked]
  rw [he, marked_low _ _ _ (by decide), marked_low _ _ _ (by decide), bitsAt_setBits_ne _ _ _ _ _ _ (.inr (by decide)),
    bitsAt_setBits _ _ _ _ hx, bitsAt_setBits _ _ _ _ hy]
  exact ⟨hxa, by rw [hyb, hb], marked_marg _ _ (by decide), marked_fails _ _ (by decide)⟩

/-- A lane without a pass of one of its probes keeps its centres, is marginal and counts a fail. -/
theorem entryAfter_marginal {v : BitVec 128} {rd wr : Option Int} (n : Nat) (h : rd = none ∨ wr = none) :
    bitsAt (entryAfter v rd wr n).toNat 108 16 = bitsAt v.toNat 108 16 ∧ entMarg (entryAfter v rd wr n) = true ∧
      entFails (entryAfter v rd wr n) = min 3 (entFails v + 1) := by
  have he : entryAfter v rd wr n = marked v.toNat 1 (min 3 (entFails v + 1)) := by
    rcases h with rfl | rfl
    · rfl
    · cases rd <;> rfl
  rw [he]
  exact ⟨marked_low _ _ _ (by decide), marked_marg _ _ (by decide), marked_fails _ _ (by omega)⟩

/-- Settles O44: the interval by its time, the end of a pause by what it makes of each lane, and an entry by its moves. -/
theorem retrimMovesTheCentres : Obligations.RetrimMovesTheCentres := by
  rintro s ch _ sb r rfl
  refine ⟨fun x hx hr hs => ⟨fun h => onCh (Chan.retrimDue_early hx h), fun h hp => ?_⟩, fun p probes i ho hi hs => ?_,
    fun v a b n => entryAfter_moves n, fun v rd wr n => entryAfter_marginal n⟩
  · have hask := Chan.retrimDue_asks (e := s.env) hx hr hs h hp
    rw [Chan.askPause_retrim] at hask
    exact ⟨_, onCh hask, rfl, rfl, rfl, rfl, rfl, rfl⟩
  · obtain ⟨hsub, hrank⟩ := Chan.retrimOver_rank ho
    obtain ⟨hpauses, htrim⟩ := Chan.retrimEnd_trim probes ho hs
    obtain ⟨d, hd, -, -, -, -, -, hn, -, -, -, -, hother, hlane⟩ := retrimLanes p probes (s.chan ch).free (s.chan ch) 10
    rw [hd] at htrim
    have hx8 : (s.chan ch).x8 = i.x8 := by rw [Chan.x8, hi]
    refine ⟨_, onCh rfl, hpauses, by rw [htrim], by rw [htrim]; exact hn, fun t u q l h => ?_, ?_⟩
    · rw [htrim]
      exact hother t u q l (by rw [hsub, hrank]; tauto)
    · rintro l _ _ _ hl hmem rfl rfl rfl
      rw [htrim]
      have hat := hlane l hl (by rw [hsub, hrank]; exact hmem)
      rw [hsub, hrank, hx8] at hat
      exact hat

end Sys2Proof.Machine

/-! The control register of the Loft: what a write of CH_LOFT_CTL makes of the Loft (R264, R282 to R284, R287). -/
namespace Sys2Proof.Machine

/-- The four commands that write CH_LOFT_CTL are one transaction, each with its own bit. -/
theorem loftCtlCommand {ch : ChanId} {w v : Word} {x : Instr} (s : State)
    (h : (x = .loftOn ch w ∧ v = w ||| 0x100000) ∨ (x = .loftOff ch w ∧ v = w &&& 0xFFEFFFFF) ∨
      (x = .wball ch w ∧ v = w ||| 0x80000000) ∨ (x = .repair ch w ∧ v = w ||| 0x40000000)) :
    exec x s = mgtTxn (wrTxn (.chan ch) 0xA00 v) s := by
  rcases h with ⟨rfl, rfl⟩ | ⟨rfl, rfl⟩ | ⟨rfl, rfl⟩ | ⟨rfl, rfl⟩ <;> rfl

/-! ### The fields of the write (R264, R287) -/

/-- The Loft with the fields of a write: DIRTYMAX clamped, ON where the image enables metadata. -/
def Loft.withCtl (l : Loft) (i : ChanImg) (v : Word) : Loft :=
  { l with
    dirtyMax := clampTo 256 262144 (bitsAt v.toNat 0 19), on := bitAt v.toNat 20 && i.mdEn,
    closing := l.closing && !(bitAt v.toNat 20 && i.mdEn && !l.on) }

/-- The write takes its fields first and then acts: turning off, WBALL, REPAIR (log entries 37 and 84). -/
theorem Chan.loftCtl_acts {c : Chan} {i : ChanImg} (v : Word) (hi : c.img = some i) : c.loftCtl v =
    (let d := { c with loft := c.loft.withCtl i v }
     let d := if c.loft.on && !(c.loft.withCtl i v).on then d.emptyLoft else d
     let d := if bitAt v.toNat 31 && d.running then d.startWb else d
     if bitAt v.toNat 30 && d.running && i.mdEn then d.startRepair else d) := by
  unfold Chan.loftCtl
  rw [hi]
  rfl

/-- A Loft that was off, or that stays on, is not turned off. -/
theorem Loft.staysOn {l m : Loft} (h : l.on = false ∨ m.on = true) : (l.on && !m.on) = false := by
  rcases h with h | h <;> simp [h]

/-- The Loft is not in what a channel runs by. -/
theorem Chan.running_loft (c : Chan) (l : Loft) : ({ c with loft := l } : Chan).running = c.running := rfl

section
variable {c : Chan} {i : ChanImg} {v : Word} (hi : c.img = some i)
include hi

/-- Without an action the write sets its fields. -/
theorem Chan.loftCtl_fields (hwb : bitAt v.toNat 31 = false ∨ c.running = false) (hrep : bitAt v.toNat 30 = false)
    (hon : c.loft.on = false ∨ (c.loft.withCtl i v).on = true) : c.loftCtl v = { c with loft := c.loft.withCtl i v } := by
  have hno : (bitAt v.toNat 31 && c.running) = false := by rcases hwb with h | h <;> simp [h]
  rw [Chan.loftCtl_acts v hi]
  simp only [Loft.staysOn hon, hrep, Chan.running_loft, hno, Bool.false_and, Bool.false_eq_true, if_false]

/-- Turning the Loft off empties it. -/
theorem Chan.loftCtl_off (hwb : bitAt v.toNat 31 = false ∨ c.running = false) (hrep : bitAt v.toNat 30 = false)
    (hon : c.loft.on = true) (hl : (c.loft.withCtl i v).on = false) :
    c.loftCtl v = ({ c with loft := c.loft.withCtl i v } : Chan).emptyLoft := by
  have hno : (bitAt v.toNat 31 && c.running) = false := by rcases hwb with h | h <;> simp [h]
  have hrun : ({ c with loft := c.loft.withCtl i v } : Chan).emptyLoft.running = c.running := rfl
  rw [Chan.loftCtl_acts v hi]
  simp only [hon, hl, hrep, hrun, hno, Bool.not_false, Bool.and_true, Bool.false_and, Bool.false_eq_true, if_true, if_false]

/-- WBALL on a running channel writes back the dirty entries. -/
theorem Chan.loftCtl_wball (hwb : bitAt v.toNat 31 = true) (hrun : c.running = true) (hrep : bitAt v.toNat 30 = false)
    (hon : c.loft.on = false ∨ (c.loft.withCtl i v).on = true) :
    c.loftCtl v = ({ c with loft := c.loft.withCtl i v } : Chan).startWb := by
  rw [Chan.loftCtl_acts v hi]
  simp only [Loft.staysOn hon, hrep, hwb, Chan.running_loft, hrun, Bool.true_and, Bool.false_and, Bool.false_eq_true, if_true, if_false]

/-- REPAIR on a running channel with metadata enters the Loft as an operation. -/
theorem Chan.loftCtl_repair (hrep : bitAt v.toNat 30 = true) (hwb : bitAt v.toNat 31 = false) (hrun : c.running = true)
    (hmd : i.mdEn = true) (hon : c.loft.on = false ∨ (c.loft.withCtl i v).on = true) :
    c.loftCtl v = ({ c with loft := c.loft.withCtl i v } : Chan).startRepair := by
  rw [Chan.loftCtl_acts v hi]
  simp only [Loft.staysOn hon, hrep, hwb, hmd, Chan.running_loft, hrun, Bool.and_true, Bool.false_eq_true, if_true, if_false]

end

/-! ### Emptying and write-back (R264, R283, R284) -/

/-- An emptying Loft waits for its operations, drops its clean entries, or starts its write-back. -/
theorem loftSettle_closing {c : Chan} (hwb : c.loft.wbBusy = false) (hcl : c.loft.closing = true) : c.loftSettle = { c with loft :=
    if c.loft.ops ≠ [] then c.loft
    else if c.loft.dirtyList = [] ∧ c.loft.evicts = [] then { c.loft with entries := [], plru := [], closing := false }
    else { c.loft with wball := c.loft.dirtyList, wbBusy := true } } := by
  unfold Chan.loftSettle
  simp [hwb, hcl]

/-- A write-back with an entry to visit goes on. -/
theorem loftSettle_lists {c : Chan} (hw : c.loft.wball ≠ []) (hcl : c.loft.closing = false) : c.loftSettle = c := by
  have hmore : c.loft.wball.isEmpty = false := by simpa using hw
  unfold Chan.loftSettle
  simp [hmore, hcl]

/-- WBALL on a Loft that does not empty itself lists the dirty entries. -/
theorem Chan.startWb_lists {c : Chan} (hcl : c.loft.closing = false) (hd : c.loft.dirtyList ≠ []) :
    c.startWb = { c with loft := { c.loft with wball := c.loft.dirtyList, wbBusy := true } } :=
  loftSettle_lists (by exact hd) hcl

/-- Settles O42: the write takes its fields (log entry 84) and then does what its bits ask for, WBALL and REPAIR on a running
channel only (log entry 37). -/
theorem loftControlIsWritten : Obligations.LoftControlIsWritten := by
  rintro s ch _ w v x i _ rfl hi hx ht rfl
  have hctl {d : Chan} (h : (s.chan ch).loftCtl v = d) : exec x s = .next (if bitAt v.toNat 30 then
      ({ s with mgt := { s.mgt with held := some (wrTxn (.chan ch) 0xA00 v), repair := some ch, rspV := false } } : State).commitChan ch d
      else (s.commitChan ch d).respond false 0) := by
    rw [loftCtlCommand s hx, loftCtl_takes ht, h]
  have hplain (h : bitAt v.toNat 30 = false) {d : Chan} (hd : (s.chan ch).loftCtl v = d) :
      exec x s = .next ((s.commitChan ch d).respond false 0) := by
    rw [hctl hd, if_neg (by simp [h])]
  refine ⟨fun hwb hrep hon => hplain hrep (Chan.loftCtl_fields hi hwb hrep hon), fun hwb hrep hon hl hbusy => ?_,
    fun hwb hrun hrep hon hcl hd => ?_, fun hrep hwb hrun hmd hon => ?_⟩
  · exact hplain hrep ((Chan.loftCtl_off hi hwb hrep hon hl).trans (loftSettle_closing (by exact hbusy) rfl))
  · exact hplain hrep ((Chan.loftCtl_wball hi hwb hrun hrep hon).trans (Chan.startWb_lists hcl hd))
  · rw [hctl (Chan.loftCtl_repair hi hrep hwb hrun hmd hon), if_pos hrep]
    rfl

end Sys2Proof.Machine

/-! The Loft's operations: how the head of the input starts, what a fill, an eviction, a cleaning write and a completion do
(R267 to R278). -/
namespace Sys2Proof.Machine

/-- Only a repair is a repair. -/
theorem LoftOp.isRepair_of_ne {o : LoftOp} (h : o.kind ≠ .repair) : o.isRepair = false := by
  unfold LoftOp.isRepair
  split
  next hk => exact absurd hk h
  · rfl

/-! ### The head of the input (R271 to R273) -/

/-- An event leaves the Loft alone. -/
theorem Chan.raise_if_loft (c : Chan) (b : Bool) (ev n : Nat) : (if b then c.raise ev n else c).loft = c.loft := by
  cases b <;> rfl

/-- A stalled head changes nothing of the Loft but its account of the stall (R272). -/
theorem Chan.stall_loft (e : Env) (c : Chan) (k : Nat) : (c.stall e k).loft.ops = c.loft.ops ∧
    (c.stall e k).loft.entries = c.loft.entries ∧ (c.stall e k).loft.stalled = true ∧
    (c.stall e k).loft.stalls = if c.loft.stalled then c.loft.stalls else satAdd 0xFFFF c.loft.stalls 1 := by
  unfold Chan.stall
  simp only [Chan.raise_if_loft, and_self]

/-- The entry that an operation reserves in a way: without a value until its fill returns. -/
def LoftOp.emptyEntry (o : LoftOp) (w : Nat) : LoftEntry :=
  { set := setOf o.granule, way := w, granule := o.granule, value := 0, valid := false, dirty := false, doomed := false }

/-- The channel in which a miss has taken its way: the entry `x` among the entries `es` that stay. -/
def Chan.wayTaken (c : Chan) (o : LoftOp) (x : LoftEntry) (u : List Upset) (es : List LoftEntry) : Chan :=
  { c with occ := c.occ ++ [o.occ 0x16], upsets := u, loft := ({ c.loft with entries := es } : Loft).put x }

/-- A granule that no eviction holds misses with an empty entry. -/
theorem Chan.missEntry_empty {c : Chan} {o : LoftOp} (h : c.inEvicts o.granule = none) (w : Nat) :
    c.missEntry o.granule (setOf o.granule) w = o.emptyEntry w := by
  unfold Chan.missEntry
  rw [h]
  rfl

theorem noFill_of_ne {l : List LoftFill} {a : LAddr} (h : ∀ f ∈ l, f.mdline ≠ a) :
    (l.any fun f => f.mdline == a) = false := by
  simpa using h

/-- A miss that needs a fill of a fenced rank waits (R265; log entry 98). -/
theorem Chan.miss_fenced {c : Chan} {e : Env} {o : LoftOp} {w : Nat} (hpins : c.loft.pinsIn (setOf o.granule) < 12)
    (hway : c.pickWay (setOf o.granule) = some w) (hback : c.inEvicts o.granule = none)
    (hnew : ∀ f ∈ c.loft.fills, f.mdline ≠ c.mdLineOf o.granule)
    (hrank : c.fenced (c.devOf (c.mdLineOf o.granule)).bank.rank = true) : c.miss e o = c := by
  unfold Chan.miss
  simp [Nat.not_le.mpr hpins, hway, hback, noFill_of_ne hnew, hrank]

/-- A miss with a clean way and a free fill takes the way and starts the fill (R267, R273). -/
theorem Chan.miss_fills {c : Chan} {e : Env} {o : LoftOp} {w : Nat} (hpins : c.loft.pinsIn (setOf o.granule) < 12)
    (hway : c.pickWay (setOf o.granule) = some w)
    (hclean : ∀ v, c.loft.at (setOf o.granule) w = some v → v.dirty = false) (hback : c.inEvicts o.granule = none)
    (hnew : ∀ f ∈ c.loft.fills, f.mdline ≠ c.mdLineOf o.granule)
    (hrank : c.fenced (c.devOf (c.mdLineOf o.granule)).bank.rank = false) (hroom : c.loft.fills.length < 12) :
    ∃ u es, c.miss e o = ((c.wayTaken o (o.emptyEntry w) u es).startFill o (c.mdLineOf o.granule)).startOn o (o.emptyEntry w) := by
  have hlog : ∀ x, (c.log x).inEvicts o.granule = none := fun _ => hback
  have hentry : ∀ x, (c.log x).missEntry o.granule (setOf o.granule) w = o.emptyEntry w := fun _ => Chan.missEntry_empty hback w
  unfold Chan.miss
  dsimp only
  rw [if_neg (Nat.not_le.mpr hpins), hway]
  simp only [hlog, hentry, hback, noFill_of_ne hnew, hrank, Nat.not_le.mpr hroom, decide_false, Option.isSome_none, Bool.not_false,
    Bool.and_false, Bool.false_eq_true, if_false]
  cases hv : c.loft.at (setOf o.granule) w with
  | none => exact ⟨_, _, rfl⟩
  | some v =>
    simp only [hclean v hv, Bool.false_and, Bool.false_eq_true, if_false]
    exact ⟨_, _, rfl⟩

/-- A new fill of a line that no write holds reads the metadata line (R273). -/
theorem Chan.startFill_reads {c : Chan} {o : LoftOp} {a : LAddr} (hnew : ∀ f ∈ c.loft.fills, f.mdline ≠ a)
    (hpsn : ∀ v ∈ c.loft.evicts, v.mdline = a → v.psn = false) (hb : c.beatWaits a c.nextSeq = false)
    (hw : c.newestWr a c.nextSeq = none) : ∃ q b, c.startFill o a = { c with
      nextSeq := c.nextSeq + 1, rq := q, banks := b,
      loft := { c.loft with fills := c.loft.fills ++ [{ mdline := a, seq := c.nextSeq, result := none, failed := false }] } } := by
  have hpsn : (c.loft.evicts.any fun x => x.mdline == a && x.psn) = false := by simpa using hpsn
  unfold Chan.startFill Chan.takeSeq Chan.placeRd
  simp only [noFill_of_ne hnew, hpsn, Bool.false_eq_true, if_false]
  rw [Chan.serveRd_links (by exact hb) (by exact hw)]
  obtain ⟨b, hlink, -⟩ := Chan.linkRd_eq _ _
  exact ⟨_, b, hlink⟩

/-! ### A fill returns (R273, R278) -/

/-- A good fill fills the reserved entries of its line, and the operations that wait for them start. -/
theorem Chan.fillReturn_clean {c : Chan} {f : LoftFill} {r : Decoded} (e : Env)
    (hf : c.loft.fills.find? (fun f => f.result.isSome || f.failed) = some f) (hr : f.result = some r)
    (hgood : r.outcome.isBad = false) : c.fillReturn e = { c with
      loft := { c.loft with
        fills := c.loft.fills.filter fun x => x.seq != f.seq,
        entries := updateWhere (fun x => decide (c.granule0 f.mdline ≤ x.granule) && decide (x.granule < c.granule0 f.mdline + 8) &&
            !x.valid)
          (fun x => { x with valid := true, dirty := false, value := slotOf r.line (x.granule % 8) }) c.loft.entries,
        ops := updateWhere (fun p => p.stage == .waitFill &&
            (decide (c.granule0 f.mdline ≤ p.granule) && decide (p.granule < c.granule0 f.mdline + 8)))
          (fun p => { p with stage := .started }) c.loft.ops } } := by
  unfold Chan.fillReturn
  rw [hf]
  unfold Chan.fillBack
  simp only [hr, hgood, Bool.false_eq_true, if_false]
  rfl

/-! ### Evictions and cleaning (R274 to R276) -/

/-- The first eviction of the buffer leaves it first, unless a fence or a cap on its class holds it. -/
theorem Chan.evictHeads_first {c : Chan} {x : Evict} {l : List Evict} (hev : c.loft.evicts = x :: l)
    (hrank : c.fenced (c.devOf x.mdline).bank.rank = false) (hcap : c.sourcesHold = true → x.cls ≠ 15) :
    ∃ t, c.evictHeads = x :: t := by
  have hhold : (c.sourcesHold && (x :: l).all fun y => y.mdline != x.mdline || y.cls == 15) = false := by
    cases hs : c.sourcesHold
    · rfl
    · simp [hcap hs]
  unfold Chan.evictHeads
  rw [hev, List.filter_cons_of_pos (by rw [hrank, hhold]; simp)]
  exact ⟨_, rfl⟩

/-- What a write-back's progress leaves: the evictions stay, and a Loft that is not closing only ends its write-back. -/
theorem loftSettle_open {c : Chan} : c.loftSettle = { c with loft := c.loftSettle.loft } ∧
    c.loftSettle.loft.evicts = c.loft.evicts ∧
    (c.loft.closing = false → c.loftSettle.loft = { c.loft with
      wbBusy := c.loft.wbBusy && !(c.loft.wball.isEmpty && !c.loft.evicts.any fun y => y.cleaning) }) := by
  refine ⟨rfl, ?_, fun hcl => ?_⟩
  · unfold Chan.loftSettle
    dsimp only
    repeat' split
    all_goals rfl
  · have hbusy : ∀ a b d : Bool, (a && !(b && !d)) = if a && b && !d then false else a := by decide
    rw [hbusy]
    unfold Chan.loftSettle
    by_cases hdone : (c.loft.wbBusy && c.loft.wball.isEmpty && !c.loft.evicts.any fun x => x.cleaning) = true
    · simp only [hdone, hcl, if_true, Bool.false_and, Bool.false_eq_true, if_false]
    · simp only [hdone, hcl, Bool.false_and, Bool.false_eq_true, if_false]
      rw [← hcl]

theorem Chan.evictOut_full {c : Chan} (h : 8 ≤ c.resWq) : c.evictOut = c := by
  unfold Chan.evictOut
  dsimp only
  split
  · rfl
  · exact if_pos h

/-- The channel in which an eviction has taken a write entry, and the evictions `l` stay. -/
def Chan.evictTaken (c : Chan) (x : Evict) (l : List Evict) : Chan :=
  ({ c with nextSeq := c.nextSeq + 1, loft := { c.loft with evicts := l } } : Chan).enqueueWr
    (mkWr c.nextSeq .evict [] x.cls x.mdline (c.devOf x.mdline) x.line x.be x.psn)

/-- The first eviction, a reserved write entry free, takes that entry with its value or its poison (R275). -/
theorem Chan.evictOut_enters {c : Chan} {x : Evict} {l : List Evict} (hev : c.loft.evicts = x :: l) (hx : x.cleaning = false)
    (hrank : c.fenced (c.devOf x.mdline).bank.rank = false) (hcap : c.sourcesHold = true → x.cls ≠ 15) (hroom : c.resWq < 8)
    (hline : ∀ w ∈ c.wq, w.laddr ≠ x.mdline) : ∃ m w, c.evictOut = { c with
      nextSeq := c.nextSeq + 1, loft := m, wq := c.wq ++ [w] } ∧ m.evicts = l ∧
      (c.loft.closing = false → m = { c.loft with
        evicts := l, wbBusy := c.loft.wbBusy && !(c.loft.wball.isEmpty && !l.any fun y => y.cleaning) }) ∧
      w.src = .evict ∧ w.laddr = x.mdline ∧ w.line = (if x.psn then 0 else x.line) ∧ w.be = (if x.psn then allBytes else x.be) ∧
      w.psn = x.psn ∧ w.cls = x.cls ∧ w.committed = false := by
  obtain ⟨t, hheads⟩ := Chan.evictHeads_first hev hrank hcap
  have hfirst : ((x :: t).find? fun y => c.loft.evicts.any fun z => z.mdline == y.mdline && !z.cleaning) = some x :=
    List.find?_cons_of_pos (by simp [hev, hx])
  have hout : c.evictOut = (c.evictTaken x l).loftSettle := by
    unfold Chan.evictOut
    rw [hheads]
    dsimp only
    rw [hfirst, Option.orElse_eq_orElse, Option.orElse_some]
    dsimp only [Chan.takeSeq]
    rw [if_neg (Nat.not_le.mpr hroom), hev, List.erase_cons_head, Chan.placeWr_new (Chan.olderWr_none (by exact hline))]
    rfl
  obtain ⟨hsettle, hleft, hopen⟩ := loftSettle_open (c := c.evictTaken x l)
  exact ⟨_, _, hout.trans hsettle, hleft, hopen, Chan.newWr_keeps _ _⟩

/-- The granule that a gather is for is among its slots. -/
theorem Loft.mem_gatherSlots (l : Loft) (v : Nat) : v % 8 ∈ l.gatherSlots (v / 8 * 8) v := by
  have hv : v / 8 * 8 + v % 8 = v := Nat.div_add_mod' v 8
  unfold Loft.gatherSlots
  split
  · exact List.mem_range.mpr (Nat.mod_lt _ (by decide))
  · exact List.mem_filter.mpr ⟨List.mem_range.mpr (Nat.mod_lt _ (by decide)), by simp [hv]⟩

/-- A gather of sound words writes one line and cleans its slots (R274). -/
theorem Chan.gatherWrite_sound {c : Chan} (hu : c.upsets = []) (e : Env) (v cls : Nat) (cleaning : Bool) : ∃ x : Evict,
    c.gatherWrite e v cls cleaning = { c with loft := { c.loft with
      evicts := c.loft.evicts ++ [x],
      entries := updateWhere (fun y => (c.loft.gatherSlots (v / 8 * 8) v).any fun j => y.granule == v / 8 * 8 + j)
        (fun y => { y with dirty := false }) c.loft.entries } } ∧ x.mdline = c.mdLineOf v ∧ x.cls = cls := by
  have hsound : ∀ l : List LoftEntry, l.foldl (Chan.checkData e) c = c := fun l => by
    induction l with
    | nil => rfl
    | cons a l ih => rw [List.foldl_cons, Chan.checkData_sound hu, ih]
  unfold Chan.gatherWrite
  dsimp only
  rw [hsound, if_neg (Nat.lt_irrefl _)]
  exact ⟨_, rfl, rfl, rfl⟩

/-- Cleaning takes the next dirty entry from the cleaning pointer (R276). -/
theorem Chan.clean_next {c : Chan} {e : Env} {x : LoftEntry} (hcap : c.sourcesHold = false) (hwb : c.loft.wball = [])
    (hroom : c.loft.evicts.length < 8) (hmax : c.loft.dirtyMax < c.loft.dirty)
    (hx : c.loft.entries.find? (fun y => (y.valid && y.dirty) && decide (c.loft.cleanPtr ≤ y.set)) = some x) :
    c.clean e = ({ c with loft := { c.loft with cleanPtr := (x.set + 1) % 16384 } } : Chan).gatherWrite e x.granule 15 true := by
  unfold Chan.clean
  rw [if_neg (by simp [hcap, hroom]), hwb]
  dsimp only
  rw [if_neg (Nat.not_le.mpr hmax), find?_filter', hx]
  rfl

/-- Cleaned entries are those that were there, some of them clean now. -/
theorem mem_updateWhere_clean {p : LoftEntry → Bool} {l : List LoftEntry} {y : LoftEntry}
    (h : y ∈ updateWhere p (fun y => { y with dirty := false }) l) : ∃ z ∈ l,
      (p z = true ∧ y = { z with dirty := false }) ∨ (p z = false ∧ y = z) := by
  obtain ⟨z, hz, rfl⟩ := List.mem_map.mp h
  cases hp : p z
  · exact ⟨z, hz, .inr ⟨hp, rfl⟩⟩
  · exact ⟨z, hz, .inl ⟨hp, rfl⟩⟩

/-! ### Completing an operation (R269, R270) -/

/-- MDCAS stores its new value where the entry holds the expected one. -/
theorem LoftOp.execute_mdcas {o : LoftOp} (h : o.kind = .mdcas) (v : BitVec 64) {ok : Bool}
    (hok : ok = decide (valueAt v o.slot = o.mdexp)) :
    o.execute v = (if ok then storeAt v o.slot o.mdnew else v, ok, ok, valueAt v o.slot) := by
  unfold LoftOp.execute
  rw [h]
  by_cases he : valueAt v o.slot = o.mdexp
  · simp [hok, he]
  · simp [hok, he]

theorem LoftOp.execute_mdw {o : LoftOp} (h : o.kind = .mdw) (v : BitVec 64) :
    o.execute v = (storeAt v o.slot o.mdnew, true, true, 0) := by
  unfold LoftOp.execute
  rw [h]

/-- The first started operation takes effect on its entry, while no buffer word is flipped. -/
theorem Chan.opComplete_sound {c : Chan} {e : Env} {o : LoftOp} {x : LoftEntry}
    (ho : c.loft.ops.find? (fun p => p.stage == .started) = some o) (hx : c.loft.find o.granule = some x) (hu : c.upsets = [])
    {v : BitVec 64} {stores ok : Bool} {r : Meta} (hr : o.execute x.value = (v, stores, ok, r)) : c.opComplete e =
      ({ c with loft := c.loft.mod o.granule fun y => { y with value := v, dirty := y.dirty || stores } } : Chan).finishOp o ok r false := by
  have hgood : c.dataBad x = false := by
    unfold Chan.dataBad
    rw [Chan.readOut_sound (c.flaws_nil hu _ _)]
  unfold Chan.opComplete
  rw [ho]
  dsimp only
  rw [hx]
  dsimp only
  rw [if_neg (by simp [hgood]), Chan.checkData_sound hu, hr]

/-- The channel whose operation has its result and has sent its response. -/
def Chan.answered (c : Chan) (o : LoftOp) (st : LoftStage) (r : Rsp) : Chan :=
  { c with
    loft := { c.loft with ops := updateWhere (fun p => p.seq == o.seq) (fun p => { p with stage := st, sent := true }) c.loft.ops },
    lane := { c.lane with ready := c.lane.ready ++ [r] } }

/-- The result of an operation and the mark of its response are two changes of one operation. -/
theorem Chan.modOp_push (c : Chan) (o : LoftOp) (st : LoftStage) (r : Rsp) :
    ((c.modOp o.seq fun x => { x with stage := st }).modOp o.seq fun x => { x with sent := true }).push r = c.answered o st r := by
  unfold Chan.modOp Chan.push Chan.answered
  dsimp only
  rw [updateWhere_twice _ _ _ _ (by intro _; rfl)]

theorem Chan.finishOp_mdcas {c : Chan} {o : LoftOp} (h : o.kind = .mdcas) (hs : o.sent = false) (ok : Bool) (v : Meta) (psn : Bool) :
    c.finishOp o ok v psn = c.answered o (.done ok v psn) (mdataRsp o ok v psn c.lane.hclk) := by
  unfold Chan.finishOp Chan.answerOp
  simp only [h, hs, Bool.false_eq_true, if_false]
  exact Chan.modOp_push c o _ _

theorem Chan.finishOp_mdw {c : Chan} {o : LoftOp} (h : o.kind = .mdw) (hs : o.sent = false) (ok : Bool) (v : Meta) (psn : Bool) :
    c.finishOp o ok v psn = c.answered o (.done ok v psn) (plainRsp .cmp o.tag 0 c.lane.hclk o.cls) := by
  unfold Chan.finishOp Chan.answerOp
  simp only [h, hs, Bool.false_eq_true, if_false]
  exact Chan.modOp_push c o _ _

/-- Settles O41: the head of the input hits, stalls, waits for a fence (log entry 98) or starts a fill; fills, evictions,
cleaning and completions follow by their own rules. -/
theorem loftOperationsRun : Obligations.LoftOperationsRun := by
  rintro s ch _ o rfl
  refine ⟨fun x hi hk hu hx => ?_, fun w hi hk hu hx hpins hway hclean hback hnew => ?_,
    fun f r hf hr hgood => onCh (Chan.fillReturn_clean _ hf hr hgood),
    fun x l hev hx hrank hcap => ⟨fun hfull => onCh (f := fun _ c => c.evictOut) (Chan.evictOut_full hfull), fun hroom hline => ?_⟩,
    fun hcap => onCh (if_pos (.inr hcap)), fun x _ hu hcap hwb hroom hmax hx => ?_,
    fun x ho hx hs hu => ⟨fun hk ok hok => ?_, fun hk => ?_⟩⟩
  · have hstart := Chan.opStart_sound (e := s.env) hi (LoftOp.isRepair_of_ne hk) hu
    rw [hx] at hstart
    refine ⟨fun hopen => ⟨_, onCh (hstart.trans (if_neg ?_))⟩,
      fun hpin hfull => ⟨_, onCh (hstart.trans (if_pos ?_)), Chan.stall_loft _ _ _⟩⟩
    · rcases hopen with h | h <;> simp [h]
    · simp [hpin, hfull]
  · have hstart := Chan.opStart_sound (e := s.env) hi (LoftOp.isRepair_of_ne hk) hu
    rw [hx] at hstart
    refine ⟨fun hrank => onCh (hstart.trans (Chan.miss_fenced hpins hway hback hnew hrank)), fun hrank hroom hpsn hb hw => ?_⟩
    obtain ⟨u, es, hmiss⟩ := Chan.miss_fills (e := s.env) hpins hway hclean hback hnew hrank hroom
    obtain ⟨q, b, hfill⟩ := Chan.startFill_reads (c := (s.chan ch).wayTaken o (o.emptyEntry w) u es) (o := o) hnew hpsn hb hw
    exact ⟨_, onCh (hstart.trans hmiss), by rw [hfill]; exact ⟨rfl, rfl, rfl, mem_insertBy _ _ _, rfl⟩⟩
  · obtain ⟨m, w, hout, hrest⟩ := Chan.evictOut_enters hev hx hrank hcap hroom hline
    exact ⟨m, w, onCh (f := fun _ c => c.evictOut) hout, hrest⟩
  · obtain ⟨v, hgather, hline, hcls⟩ := Chan.gatherWrite_sound
      (c := { s.chan ch with loft := { (s.chan ch).loft with cleanPtr := (x.set + 1) % 16384 } }) (by exact hu) s.env x.granule 15 true
    refine ⟨_, v, onCh ((Chan.clean_next hcap hwb hroom hmax hx).trans hgather), rfl, hline, hcls, rfl, List.length_map ..,
      fun y hy hg => ?_, fun y hy => ?_⟩
    · obtain ⟨z, -, ⟨-, rfl⟩ | ⟨hno, rfl⟩⟩ := mem_updateWhere_clean hy
      · rfl
      · have hslot := List.any_eq_false.mp hno _ (Loft.mem_gatherSlots _ x.granule)
        rw [Nat.div_add_mod' x.granule 8] at hslot
        exact absurd (beq_iff_eq.mpr hg) hslot
    · obtain ⟨z, hz, ⟨-, rfl⟩ | ⟨-, rfl⟩⟩ := mem_updateWhere_clean hy
      · exact .inr ⟨z, hz, rfl⟩
      · exact .inl hz
  · have hstores := Chan.opComplete_sound (e := s.env) ho hx hu (LoftOp.execute_mdcas hk x.value hok)
    exact onCh (hstores.trans (Chan.finishOp_mdcas hk hs _ _ _))
  · have hstores := Chan.opComplete_sound (e := s.env) ho hx hu (LoftOp.execute_mdw hk x.value)
    simp only [Bool.or_true] at hstores
    exact onCh (hstores.trans (Chan.finishOp_mdw hk hs _ _ _))

end Sys2Proof.Machine
